-- ==== Sys2Proof/Word.lean ====
section
/-! DEFINITION. Word: the byte, the indexes of stations and printers, and little-endian byte strings (1.2, R182). -/

namespace Sys2Proof

/-- One byte of a frame or of the FRAM. -/
abbrev Byte := BitVec 8

/-- Station n of the manual (1 to 8: scale head, scale port n and channel n) is the index n − 1. -/
abbrev Station := Fin 8

/-- Printer p of the manual (1 or 2) is the index p − 1. -/
abbrev Printer := Fin 2

/-- Text of a name or an extra text: its bytes. -/
abbrev Text := List Byte

end Sys2Proof
end

