-- ==== Sys2Proof/Config.lean ====
section
/-! DEFINITION. Config: the fixed sizes the manual gives, and the values it leaves open (free values: constants with no body). -/

namespace Sys2Proof.Config

/-- Bytes of the FRAM (R158). -/
def framBytes : Nat := 131072

/-- Stored words of nine bytes each (R158). -/
def framWords : Nat := 14563

/-- Jobs the label queue holds (R119). -/
def labelQueueMax : Nat := 32

/-- Commits the commit queue holds (R147). -/
def commitQueueMax : Nat := 8

/-- Frames the receive holding list holds, and BUSY answers the reply order holds (R172, R173). -/
def holdingMax : Nat := 4

/-- Changes the change set holds (R49). -/
def changeSetMax : Nat := 64

/-- PLU numbers present at one generation (R42, R49). -/
def pluMax : Nat := 1024

/-- Lines of one basket (R97). -/
def basketLinesMax : Nat := 40

/-- The largest price a line or a label carries (R69). -/
def priceMax : Nat := 9999999

/-- The limit of every 32-bit number: generation, Z counter, event counter, high mark (R51, R145, R162, R167). -/
def max32 : Nat := 4294967295

/-- The limit of every accumulated weight and value (R145). -/
def max48 : Nat := 281474976710655

/-- FREE VALUE. The silicon revision letter of IDENTIFY (R180): the manual gives the field, not the letter (log 11). -/
opaque siliconRevision : Byte

/-- FREE VALUE. The 72 bits a word holds whose write power loss or a FRAM that stops answering cut short (R158, R159, log 8,
log 56). -/
opaque cutWord : Nat → BitVec 72

/-- FREE VALUE. How many words of a write had been transferred when power failed, RESTART took effect or the FRAM stopped
answering (R158, R159, log 8, log 9, log 56). -/
opaque wordsDone : Nat → Nat

/-- FREE VALUE. Decides which of several parties that meet inside one step is taken first (R127, R136, R141, log 13). -/
opaque orderKey : Nat → Nat → Nat

/-- FREE VALUE. The entry stamp after the stamp count has passed 32 bits (R116, log 12). -/
opaque stampAfterLast : Nat → BitVec 32

/-- FREE VALUE. The apply number after 4,294,967,295 (R150, R158, log 12). -/
opaque applyAfterLast : Nat → BitVec 32

end Sys2Proof.Config
end

