-- ==== Sys2Proof/Syntax.lean ====
section
/-! DEFINITION. Syntax: the 108 commands of spec/opcode_table.json, one constructor each. -/

namespace Sys2Proof

/-- A peripheral serial line: those of 1.2, 5.4 and 7.3 that share the frame syntax of R2. -/
inductive PeripheralLine where
  | head (st : Station)
  | printer (p : Printer)
  | queue
  deriving DecidableEq, Repr

/-- The commands. An operand is a field of the frame or of the event the row stands for. The request rows
(`identify` to `closePeriod`, and `unknownRequest`) have none: each executes the request in execution, whose
arguments are its frame's payload (R172, log 4). -/
inductive Instr where
  /-- POWER_ON (R160). `framAnswers`: does the FRAM answer the presence status read (R159, log 10). -/
  | powerOn (framAnswers : Bool)
  /-- POWER_LOSS (R161). -/
  | powerLoss
  /-- CLOCK_SECOND (R179). -/
  | clockSecond
  /-- HOST_FRAME_RECEIVED (R172): the bytes from the sync byte to the CRC. -/
  | hostFrameReceived (frame : List Byte)
  /-- HOST_INTERBYTE_TIMEOUT (R171). -/
  | hostInterbyteTimeout
  /-- HOST_FRAME_SENT (R178). -/
  | hostFrameSent
  /-- UNKNOWN_REQUEST (R172). -/
  | unknownRequest
  | identify
  | restart
  | setClock
  | getStatus
  | setFlagControl
  | clearFlags
  | readFlags
  | configurePorts
  | configureChannel
  | readChannel
  | resetChannel
  | writeCalibration
  | readCalibration
  | readMemoryLog
  | clearMemoryLog
  | clearStore
  | stagePlu
  | stageDelete
  | stageKeyPage
  | discardStage
  | publish
  | forceAdoption
  | readPlu
  | readAdoption
  | defineClerk
  | removeClerk
  | issueTicket
  | resetNumbering
  | readQueue
  | readBasket
  | cancelBasket
  | readLabelQueue
  | cancelJob
  | resetPrinterPort
  | startRun
  | abortRun
  | clearRun
  | readRun
  | readTotals
  | readLastPeriod
  | closePeriod
  /-- PERIPHERAL_FRAME_DISCARDED (R2): the bytes from the start byte on, which fail the receiver's checks. -/
  | peripheralFrameDiscarded (line : PeripheralLine) (frame : List Byte)
  /-- PERIPHERAL_INTERBYTE_TIMEOUT (R2). -/
  | peripheralInterbyteTimeout (line : PeripheralLine)
  /-- HEAD_HELLO (R4, R5): head serial number, head model code. -/
  | headHello (st : Station) (serial : BitVec 32) (model : Byte)
  /-- SAMPLE (R9): raw count (signed), sample sequence number. -/
  | sample (st : Station) (raw : BitVec 24) (seq : Byte)
  /-- SAMPLE_TIMEOUT (R6). -/
  | sampleTimeout (st : Station)
  /-- HEAD_STATE (R10): the condition byte. -/
  | headState (st : Station) (condition : Byte)
  /-- STATE_TIMEOUT (R10). -/
  | stateTimeout (st : Station)
  /-- KEY (R13): a KEY frame with its key code and number. -/
  | key (st : Station) (code : Byte) (number : BitVec 16)
  /-- PRESET k (R44), key 1 to 48. -/
  | preset (st : Station) (k : Nat)
  /-- PLU_ENTRY (R32): the number field. -/
  | pluEntry (st : Station) (number : BitVec 16)
  /-- COUNT_ENTRY (R37): the number field. -/
  | countEntry (st : Station) (number : BitVec 16)
  | zero (st : Station)
  | tare (st : Station)
  | clearTare (st : Station)
  | clear (st : Station)
  | page (st : Station)
  | add (st : Station)
  | voidLast (st : Station)
  | total (st : Station)
  | nextKey (st : Station)
  | park (st : Station)
  | recallBasket (st : Station)
  /-- RECALL_TICKET (R90): the number field. -/
  | recallTicket (st : Station) (number : BitVec 16)
  | reprint (st : Station)
  /-- CLERK (R81): the number field. -/
  | clerk (st : Station) (number : BitVec 16)
  | logoff (st : Station)
  /-- DISPLAY_REFRESH (R16). -/
  | displayRefresh (st : Station)
  /-- DISPLAY_FRAME_END (R16): the frame on the scale head line ends. -/
  | displayFrameEnd (st : Station)
  /-- DISPENSER_HELLO (R93). -/
  | dispenserHello (serial : BitVec 32) (model : Byte)
  /-- DISPENSER_STATE (R92): bit 0 is roll low. -/
  | dispenserState (condition : Byte)
  /-- TAKE (R94): press sequence number. -/
  | take (press : Byte)
  /-- DISPENSER_TIMEOUT (R93). -/
  | dispenserTimeout
  /-- SIGN_REFRESH (R94). -/
  | signRefresh
  /-- QUEUE_PORT_FRAME_END (R94). -/
  | queuePortFrameEnd
  /-- PRINTER_HELLO (R124). -/
  | printerHello (p : Printer) (serial : BitVec 32) (model : Byte)
  /-- PRINTER_STATE (R125): the condition byte. -/
  | printerState (p : Printer) (condition : Byte)
  /-- PRINTER_DONE (R128): the job number. -/
  | printerDone (p : Printer) (job : BitVec 16)
  /-- PRINTER_FAULT (R129): the job number and the cause. -/
  | printerFault (p : Printer) (job : BitVec 16) (cause : Byte)
  /-- PRINTER_FRAME_TIMEOUT (R126). -/
  | printerFrameTimeout (p : Printer)
  /-- DONE_TIMEOUT (R130). -/
  | doneTimeout (p : Printer)
  /-- PRINTER_FRAME_END (R128). -/
  | printerFrameEnd (p : Printer)
  /-- FRAM_NOT_ANSWERING (R159). `answersAfter`: does it answer the status reads that follow (log 10). -/
  | framNotAnswering (answersAfter : Bool)
  | verifyStageComplete
  | commitApplyBegin
  | commitWriteComplete
  | periodCloseBegin
  | periodCloseWriteComplete
  | clearOperationBegin
  | clearComplete
  | calibrationWriteBegin
  | calibrationWriteComplete
  | highMarkRaiseBegin
  | highMarkRaiseComplete
  | calibrationReadBegin
  | calibrationReadComplete
  | lastPeriodReadBegin
  | lastPeriodReadComplete
  | memoryLogWriteBegin
  | memoryLogWriteComplete
  /-- HOST_FRAME_BAD_LENGTH (R171): the length read after a sync byte. -/
  | hostFrameBadLength (length : BitVec 16)
  deriving DecidableEq, Repr

end Sys2Proof
end

