-- ==== Sys2Proof/Decode.lean ====
section
/-! DEFINITION. Decode: no row of spec/opcode_table.json gives its command a word: commands are frames and events. -/

namespace Sys2Proof

/-- The command a table word of `nbits` bits spells: none, since no row has bits. -/
def decodeTableWord (_nbits _w : Nat) : Option Instr := none

end Sys2Proof
end

