-- ==== Sys2Proof/Machine/State.lean ====
section
/-! DEFINITION. Machine/State: everything the manual gives the PD8 to hold, as plain data, and its values after power-on. -/

namespace Sys2Proof.Machine

/-! ## Dates and time (R74, R179) -/

structure Date where
  year : Nat
  month : Nat
  day : Nat
  deriving DecidableEq, Repr

structure DateTime where
  year : Nat
  month : Nat
  day : Nat
  hour : Nat
  minute : Nat
  second : Nat
  deriving DecidableEq, Repr

/-! ## Scale ports and their lines (chapter 1) -/

/-- R1. The queue port uses all but `off` (R92). -/
inductive PortState where
  | off
  | waiting
  | present
  | lost
  deriving DecidableEq, Repr

/-- R1: the calibration switch state. -/
inductive SwitchState where
  | opened
  | closed
  | unknown
  deriving DecidableEq, Repr

/-- The message field of the display: NONE, the key refusal codes of 1.5, PRICE_CHANGED. -/
inductive Message where
  | none
  | notStable
  | noPlu
  | notPriceable
  | noClerk
  | noBasket
  | basketFull
  | basketsFull
  | labelsFull
  | totalsBusy
  | storeNotReady
  | zeroReturn
  | runActive
  | clockUnset
  | keyUnmapped
  | zeroRange
  | queueEmpty
  | notFound
  | priceChanged
  deriving DecidableEq, Repr

/-- The weight field of the display image (1.2, R36). -/
inductive WeightField where
  | value (grams : Int)
  | dashes
  | over
  | under
  | blank
  deriving DecidableEq, Repr

/-- The price field of the display image (1.2, R71). -/
inductive PriceField where
  | value (price : Nat)
  | dashes
  | blank
  deriving DecidableEq, Repr

/-- The display image (1.6). -/
structure DisplayImage where
  weight : WeightField
  unitPrice : Option Nat
  price : PriceField
  name : Text
  clerk : Option Nat
  ticket : Option Nat
  message : Message
  deriving DecidableEq, Repr

/-- R15. -/
def DisplayImage.initial : DisplayImage :=
  { weight := .blank, unitPrice := none, price := .blank, name := [], clerk := none, ticket := none, message := .none }

/-- The port record of R1. -/
structure Port where
  state : PortState
  serial : Option (BitVec 32)
  model : Option Byte
  lastSeq : Option Byte
  switch : SwitchState
  converterFault : Bool
  keypadFault : Bool
  image : DisplayImage
  sampleTimer : Bool
  stateTimer : Bool
  deriving DecidableEq, Repr

def Port.reset : Port :=
  { state := .waiting, serial := none, model := none, lastSeq := none, switch := .unknown, converterFault := false,
    keypadFault := false, image := .initial, sampleTimer := false, stateTimer := false }

/-- A frame from the PD8 to a scale head (1.2). -/
inductive HeadFrame where
  | accept (serial : BitVec 32) (st : Station)
  | display (image : DisplayImage) (beep : Bool)
  deriving DecidableEq, Repr

/-- The sending side of a scale head line (R16, R8). -/
structure HeadLine where
  sending : Option HeadFrame
  owedAccepts : List (BitVec 32)
  displayOwed : Bool
  beepOwed : Bool
  finalOwed : Bool
  deriving DecidableEq, Repr

def HeadLine.reset : HeadLine :=
  { sending := none, owedAccepts := [], displayOwed := false, beepOwed := false, finalOwed := false }

/-! ## The price table (chapter 3) -/

inductive PluMode where
  | byWeight
  | byCount
  | fixed
  deriving DecidableEq, Repr

/-- A PLU version record (R41). -/
structure PluVersion where
  number : Nat
  name : Text
  mode : PluMode
  unitPrice : Nat
  markdown : Nat
  step : Nat
  presetTare : Nat
  department : Nat
  labelFormat : Nat
  shelfLife : Option Nat
  extraText : Option Text
  zeroAllowed : Bool
  generation : Nat
  deriving DecidableEq, Repr

inductive PageName where
  | a
  | b
  deriving DecidableEq, Repr

/-- The window of a key page (R43): first key k0, key count n, base PLU b. -/
structure KeyWindow where
  first : Nat
  count : Nat
  base : Nat
  deriving DecidableEq, Repr

/-- A key page (R43): optional window and override list of (key, PLU number). -/
structure KeyPage where
  window : Option KeyWindow
  overrides : List (Nat × Nat)
  deriving DecidableEq, Repr

def KeyPage.empty : KeyPage := { window := none, overrides := [] }

/-- The two key pages of one channel (3.2). -/
structure PagePair where
  a : KeyPage
  b : KeyPage
  deriving DecidableEq, Repr

/-- A change of the change set (3.4). -/
inductive Change where
  | plu (version : PluVersion)
  | delete (number : Nat)
  | page (st : Station) (name : PageName) (content : KeyPage)
  deriving DecidableEq, Repr

/-- An entry of the retained set (R53). -/
inductive Retained where
  | plu (number : Nat) (previous : Option PluVersion)
  | page (st : Station) (name : PageName) (previous : KeyPage)
  deriving DecidableEq, Repr

/-- The price table (R42). `versions` is ascending in PLU number; `record` is ascending. -/
structure PriceTable where
  versions : List PluVersion
  pages : Vector PagePair 8
  generation : Nat
  changes : List Change
  retained : List Retained
  pending : Bool
  record : List Station
  deriving DecidableEq, Repr

def PriceTable.reset : PriceTable :=
  { versions := [], pages := Vector.replicate 8 { a := .empty, b := .empty }, generation := 0, changes := [],
    retained := [], pending := false, record := [] }

/-! ## Weighing channels (chapter 2) -/

/-- R18. -/
inductive WeightState where
  | absent
  | calFault
  | warmup
  | zeroFault
  | motion
  | stable
  | overload
  | underload
  deriving DecidableEq, Repr

inductive CalStatus where
  | notLoaded
  | valid
  | fault
  deriving DecidableEq, Repr

/-- A calibration record (2.2, R168) without its record check. `rangeMode` is 0 for single and 1 for dual. -/
structure CalRecord where
  zc : Int
  span : Nat
  max : Nat
  rangeMode : Nat
  e1 : Nat
  e2 : Nat
  max1 : Nat
  deriving DecidableEq, Repr

/-- The selection (R18, R32). -/
structure Selection where
  version : PluVersion
  presetTare : Nat
  count : Option Nat
  deriving DecidableEq, Repr

/-- The configuration of a channel (2.8). -/
structure ChannelConfig where
  filterLength : Nat
  stabilityCount : Nat
  motionBand : Nat
  zeroTracking : Bool
  tareHold : Bool
  itemLabels : Bool
  boundPrinter : Printer
  fallback : Bool
  deriving DecidableEq, Repr

/-- R38: the power-on defaults. -/
def ChannelConfig.default : ChannelConfig :=
  { filterLength := 8, stabilityCount := 10, motionBand := 2, zeroTracking := true, tareHold := false, itemLabels := true,
    boundPrinter := 0, fallback := true }

/-- The last weighing (R18, R24): gross and net in 0.1 g, division and displayed weight in grams. -/
structure Weighing where
  gross : Int
  net : Int
  division : Nat
  weight : Int
  deriving DecidableEq, Repr

/-- The pricing outcome (R63, R64). -/
inductive PriceOutcome where
  | priced (price : Nat)
  | noSelection
  | notStable
  | noCount
  | netLow
  | priceOverflow
  | zeroPrice
  deriving DecidableEq, Repr

/-- The channel record of R18, with the pricing outcome the channel keeps (R63). -/
structure Channel where
  state : WeightState
  calStatus : CalStatus
  cal : Option CalRecord
  filter : List Int
  stability : List Int
  zp : Option Int
  z : Option Int
  tracking : Nat
  keyedTare : Option Nat
  selection : Option Selection
  returnClear : Bool
  armed : Bool
  pinned : Nat
  page : PageName
  config : ChannelConfig
  last : Option Weighing
  outcome : PriceOutcome
  deriving DecidableEq, Repr

def Channel.reset : Channel :=
  { state := .absent, calStatus := .notLoaded, cal := none, filter := [], stability := [], zp := none, z := none,
    tracking := 0, keyedTare := none, selection := none, returnClear := false, armed := false, pinned := 0, page := .a,
    config := .default, last := none, outcome := .noSelection }

/-! ## The service queue and the queue port (chapter 5) -/

/-- A clerk record (R78). Baskets are named by their serials. -/
structure Clerk where
  number : Nat
  name : Text
  enabled : Bool
  channel : Option Station
  current : Option Nat
  parked : List Nat
  deriving DecidableEq, Repr

/-- A CALLED or SERVING ticket (R84). -/
structure BoundTicket where
  number : Nat
  serving : Bool
  clerk : Nat
  serial : Nat
  deriving DecidableEq, Repr

/-- An entry of the call sign list (R91). -/
structure CallSign where
  ticket : Nat
  clerk : Nat
  channel : Station
  deriving DecidableEq, Repr

/-- The service queue: the clerk table (R78, ascending), the live tickets by state (R84), the last issued number and the
call sign list (R91). -/
structure Service where
  clerks : List Clerk
  waiting : List Nat
  bound : List BoundTicket
  recallList : List Nat
  lastIssued : Nat
  callSigns : List CallSign
  deriving DecidableEq, Repr

def Service.reset : Service :=
  { clerks := [], waiting := [], bound := [], recallList := [], lastIssued := 0, callSigns := [] }

/-- A frame from the PD8 on the queue line (5.4). -/
inductive QueueFrame where
  | accept (serial : BitVec 32)
  | issue (press : Byte) (ticket : Nat)
  | refuse (press : Byte)
  | sign (entries : List CallSign)
  deriving DecidableEq, Repr

/-- The queue port record (R92) and the sending side of its line (R94). -/
structure QueuePort where
  state : PortState
  serial : Option (BitVec 32)
  model : Option Byte
  lastPress : Option Byte
  lastAnswer : Option QueueFrame
  rollLow : Bool
  frameTimer : Bool
  sending : Option QueueFrame
  owed : List QueueFrame
  signOwed : Bool
  deriving DecidableEq, Repr

def QueuePort.reset : QueuePort :=
  { state := .waiting, serial := none, model := none, lastPress := none, lastAnswer := none, rollLow := false,
    frameTimer := false, sending := none, owed := [], signOwed := false }

/-! ## The basket pool (chapter 6) -/

inductive LabelState where
  | none
  | queued
  | printed
  | failed
  deriving DecidableEq, Repr

/-- A line record (R101). Weights in 0.1 g. -/
structure Line where
  number : Nat
  plu : Nat
  name : Text
  mode : PluMode
  department : Nat
  labelFormat : Nat
  shelfLife : Option Nat
  extraText : Option Text
  generation : Nat
  netWeight : Option Int
  tare : Option Nat
  quantity : Option Nat
  unitPrice : Nat
  markdown : Nat
  step : Nat
  markdownShown : Bool
  price : Nat
  packed : Option Date
  useBy : Option Date
  channel : Station
  voided : Bool
  labelState : LabelState
  latestJob : Option Nat
  reprints : Nat
  deriving DecidableEq, Repr

inductive BasketState where
  | unused
  | opened
  | closed
  | cancelled
  deriving DecidableEq, Repr

/-- A basket record (R97). -/
structure Basket where
  slot : Nat
  state : BasketState
  serial : Option Nat
  clerk : Option Nat
  ticket : Option Nat
  channel : Option Station
  openedAt : Option DateTime
  endedAt : Option DateTime
  lines : List Line
  total : Nat
  deriving DecidableEq, Repr

def Basket.unused (slot : Nat) : Basket :=
  { slot := slot, state := .unused, serial := none, clerk := none, ticket := none, channel := none, openedAt := none,
    endedAt := none, lines := [], total := 0 }

/-- The basket pool (R97): 48 records in slot order and the free list. -/
structure Pool where
  records : List Basket
  free : List Nat
  deriving DecidableEq, Repr

def Pool.reset : Pool :=
  { records := (List.range 48).map (fun i => Basket.unused (i + 1)), free := (List.range 48).map (· + 1) }

/-! ## Labels and printer ports (chapter 7) -/

inductive LabelClass where
  | summary
  | item
  | prepack
  deriving DecidableEq, Repr

/-- What a job was made for (R116). -/
inductive JobLink where
  | item (serial : Nat) (line : Nat)
  | summary (serial : Nat)
  | prepack (serial : Nat)
  deriving DecidableEq, Repr

/-- The content of a label job (R117), with what R76 records of an item beside it: the tare, markdown, step and generation, which no
FIELD carries (7.3). `code` is the 12 digits of R77 or R118. -/
structure LabelContent where
  format : Nat
  channel : Station
  clerk : Option Nat
  ticket : Option Nat
  serial : Option Nat
  plu : Option Nat
  name : Option Text
  generation : Option Nat
  netGrams : Option Int
  tare : Option Nat
  quantity : Option Nat
  unitPrice : Option Nat
  markdown : Option Nat
  step : Option Nat
  markdownShown : Option Bool
  price : Nat
  lineCount : Option Nat
  packed : Option Date
  useBy : Option Date
  extraText : Option Text
  code : Text
  deriving DecidableEq, Repr

/-- R116: the job state, with the printer while PRINTING. -/
inductive JobState where
  | queued
  | printing (p : Printer)
  deriving DecidableEq, Repr

/-- A label job (R116). -/
structure Job where
  number : Nat
  cls : LabelClass
  stamp : BitVec 32
  preferred : Printer
  fallback : Bool
  state : JobState
  attempts : Nat
  link : JobLink
  content : LabelContent
  deriving DecidableEq, Repr

/-- The label unit (R116, R119): the queue in queue order and its two counts. -/
structure LabelUnit where
  queue : List Job
  nextJob : Nat
  stamp : BitVec 32
  deriving DecidableEq, Repr

def LabelUnit.reset : LabelUnit := { queue := [], nextJob := 1, stamp := 0 }

inductive PrinterState where
  | waiting
  | ready
  | busyPrinting
  | notReady
  | lost
  deriving DecidableEq, Repr

inductive Condition where
  | ready
  | paperOut
  | headOpen
  | unknown
  deriving DecidableEq, Repr

inductive Phase where
  | starting
  | sending
  | awaitingDone
  deriving DecidableEq, Repr

/-- A frame from the PD8 to a printer (7.3). -/
inductive PrinterFrame where
  | accept (serial : BitVec 32) (p : Printer)
  | labelBegin (job : Nat) (format : Nat) (cls : LabelClass)
  | field (ident : Nat) (value : Text)
  | labelEnd (job : Nat)
  deriving DecidableEq, Repr

/-- The printer port record (R122) and the sending side of its line (R128). -/
structure PrinterPort where
  state : PrinterState
  serial : Option (BitVec 32)
  model : Option Byte
  condition : Condition
  inHand : Option Nat
  phase : Option Phase
  frameTimer : Bool
  doneTimer : Bool
  sending : Option PrinterFrame
  owedAccepts : List (BitVec 32)
  toSend : List PrinterFrame
  deriving DecidableEq, Repr

def PrinterPort.reset : PrinterPort :=
  { state := .waiting, serial := none, model := none, condition := .unknown, inHand := none, phase := none,
    frameTimer := false, doneTimer := false, sending := none, owedAccepts := [], toSend := [] }

/-! ## Prepack runs (chapter 8) -/

inductive RunState where
  | idle
  | active
  | ending
  | doneHeld
  deriving DecidableEq, Repr

inductive EndReason where
  | count
  | aborted
  | headLost
  | priceForced
  | calibration
  | reset
  deriving DecidableEq, Repr

/-- A run record: the fields of R134, and the job numbers that R119 has the controller record with the run. DESIGN CHOICE (log 59):
`jobs` has the number of every job the run handed in, in the order of its triggers. -/
structure Run where
  state : RunState
  serial : Option Nat
  version : Option PluVersion
  ordered : Nat
  remaining : Nat
  issued : Nat
  weightSum : Int
  valueSum : Nat
  printed : Nat
  failed : Nat
  cancelled : Nat
  notify : Bool
  waitingRoom : Bool
  endReason : Option EndReason
  startedAt : Option DateTime
  endedAt : Option DateTime
  jobs : List Nat
  deriving DecidableEq, Repr

def Run.reset : Run :=
  { state := .idle, serial := none, version := none, ordered := 0, remaining := 0, issued := 0, weightSum := 0,
    valueSum := 0, printed := 0, failed := 0, cancelled := 0, notify := false, waitingRoom := false, endReason := none,
    startedAt := none, endedAt := none, jobs := [] }

/-! ## Totals (chapter 9) -/

/-- The name of a period accumulator (R144). -/
inductive AccId where
  | plu (slot : Nat)
  | department (d : Nat)
  | clerk (c : Nat)
  | channel (st : Station)
  | summary
  deriving DecidableEq, Repr

/-- A period accumulator record (R144): the PLU number of an assigned slot, the figures in the order of R144's table, the
last-applied number and the flags. -/
structure Acc where
  plu : Option Nat
  figures : List Nat
  lastApplied : Nat
  saturated : Bool
  damaged : Bool
  deriving DecidableEq, Repr

/-- The grand total record (R144). -/
structure Grand where
  value : Nat
  z : Nat
  saturated : Bool
  deriving DecidableEq, Repr

def Grand.zero : Grand := { value := 0, z := 0, saturated := false }

/-- The accumulator images (R144). `accs` lists by region index (R158) the images that differ from a zero record. -/
structure Images where
  accs : List (Nat × Acc)
  grand : Grand
  deriving DecidableEq, Repr

inductive CommitKind where
  | basket
  | cancel
  | prepack
  deriving DecidableEq, Repr

/-- One line of a BASKET or CANCEL commit (R110, R147). -/
structure CommitLine where
  plu : Nat
  department : Nat
  mode : PluMode
  channel : Station
  netWeight : Option Int
  quantity : Option Nat
  price : Nat
  voided : Bool
  deriving DecidableEq, Repr

/-- The content of a commit (R147). -/
inductive CommitContent where
  | lines (entries : List CommitLine)
  | pack (plu : Nat) (department : Nat) (mode : PluMode) (labels : Nat) (weightSum : Int) (valueSum : Nat)
  deriving DecidableEq, Repr

/-- A commit record (R147). -/
structure Commit where
  kind : CommitKind
  serial : Nat
  clerk : Option Nat
  channel : Station
  endedAt : Option DateTime
  content : CommitContent
  applyNumber : Option Nat
  deriving DecidableEq, Repr

/-- The totals unit: commit queue, images, period close in flight with its Z number, and the apply numbers of the journal
entry and of the last completed commit. -/
structure Totals where
  commits : List Commit
  images : Option Images
  closing : Option Nat
  journalApply : Nat
  lastCompleted : Nat
  deriving DecidableEq, Repr

def Totals.reset : Totals :=
  { commits := [], images := none, closing := none, journalApply := 0, lastCompleted := 0 }

/-! ## The counter store (chapter 10) -/

inductive StoreState where
  | unverified
  | verified
  | storeFault
  deriving DecidableEq, Repr

/-- The requester of an operation, in the order of R164. -/
inductive Requester where
  | commit
  | periodClose
  | totalsRead
  | startupScan
  | calibration
  deriving DecidableEq, Repr

inductive LogState where
  | none
  | corrected
  | uncorrectable
  deriving DecidableEq, Repr

/-- The memory error log record (R164). -/
structure MemLog where
  state : LogState
  address : Option Nat
  requester : Option Requester
  syndrome : Option Byte
  second : Bool
  lastRequester : Option Requester
  lastAddress : Option Nat
  deriving DecidableEq, Repr

def MemLog.reset : MemLog :=
  { state := .none, address := none, requester := none, syndrome := none, second := false, lastRequester := none,
    lastAddress := none }

/-- One touched accumulator in a commit's journal entry (R161): its figures before the commit and the delta. -/
structure DeltaEntry where
  acc : AccId
  plu : Option Nat
  before : List Nat
  delta : List Nat
  deriving DecidableEq, Repr

/-- A commit's journal entry (R150, R161). -/
structure CommitJournal where
  kind : CommitKind
  applyNumber : Nat
  serial : Nat
  entries : List DeltaEntry
  deriving DecidableEq, Repr

/-- The last-period record (R155). Z number 0 is the empty record. -/
structure LastPeriod where
  z : Nat
  closedAt : Option DateTime
  figures : List Nat
  saturated : Bool
  damaged : Bool
  deriving DecidableEq, Repr

/-- A period close's journal entry (R153, R161). -/
structure CloseJournal where
  applyNumber : Nat
  period : LastPeriod
  beforeValue : Nat
  beforeZ : Nat
  deriving DecidableEq, Repr

/-- What verify stage 5 found in the journal (R161). -/
inductive JournalRead where
  | nothing
  | done (applyNumber : Nat)
  | commit (j : CommitJournal)
  | close (j : CloseJournal)
  | clear
  | uncorrectable
  deriving DecidableEq, Repr

/-- The stages of the start-up verify (R160). -/
inductive VerifyStage where
  | presence
  | log
  | legal
  | accumulators
  | journal
  | replay
  | serials
  deriving DecidableEq, Repr

/-- What the verify has gathered so far (R160): images, highest last-applied number, the journal, the kind replayed
(0 none … 6 RESTORED), the Z number of a replayed close, the apply number kept, the high mark. -/
structure VerifyData where
  accs : List (Nat × Acc)
  grand : Grand
  highest : Nat
  journal : JournalRead
  replayed : Nat
  closedZ : Option Nat
  applyNumber : Nat
  highMark : Nat
  deriving DecidableEq, Repr

def VerifyData.start : VerifyData :=
  { accs := [], grand := .zero, highest := 0, journal := .nothing, replayed := 0, closedZ := none, applyNumber := 0,
    highMark := 0 }

/-- The write of a commit in progress (R150). -/
inductive CommitPhase where
  | journal
  | apply (rest : List DeltaEntry)
  | done
  deriving DecidableEq, Repr

/-- The write of a period close in progress (R153). -/
inductive ClosePhase where
  | journal
  | lastPeriod
  | grand
  | zeroing
  | done
  deriving DecidableEq, Repr

/-- An accepted calibration write (R167): the new event counter value and the record. -/
structure CalWrite where
  channel : Station
  counter : Nat
  record : CalRecord
  deriving DecidableEq, Repr

/-- The reads and log writes that wait for the port (R159, third rank). -/
inductive WaitingAccess where
  | readCalibration (st : Station)
  | readLastPeriod
  | writeLog
  deriving DecidableEq, Repr

/-- The operation on the SPI port (R159). `written` is what a commit or a close has written so far, for the images (R150,
R153). -/
inductive StoreOp where
  | verify (stage : VerifyStage) (data : VerifyData)
  | clear
  | commit (j : CommitJournal) (phase : CommitPhase) (written : List (Nat × Acc))
  | close (j : CloseJournal) (phase : ClosePhase) (written : Grand)
  | calWrite (w : CalWrite)
  | raiseMark
  | readCalibration (st : Station)
  | readLastPeriod
  | writeLog
  deriving DecidableEq, Repr

/-- The counter store. `fram` is the memory as (byte address, byte) pairs in canonical form (R158). -/
structure Store where
  fram : List Host.Cell
  framAnswers : Bool
  state : StoreState
  op : Option StoreOp
  nextSerial : Option Nat
  highMark : Nat
  raiseWaiting : Bool
  calWrites : List CalWrite
  waiting : List WaitingAccess
  clearAccepted : Bool
  eventCounters : Vector Nat 8
  log : MemLog
  deriving DecidableEq, Repr

/-- R159, R160: the store right after power-on, its start-up verify begun. -/
def Store.start (fram : List Host.Cell) (answers : Bool) : Store :=
  { fram := fram, framAnswers := answers, state := .unverified, op := some (.verify .presence .start), nextSerial := none,
    highMark := 0, raiseWaiting := false, calWrites := [], waiting := [], clearAccepted := false,
    eventCounters := Vector.replicate 8 0, log := .reset }

/-! ## The host link (chapter 11) -/

/-- A taken request (R171): kind and payload; `waiting` once its execution waits for a store read (R173). -/
structure Request where
  kind : Nat
  payload : List Byte
  waiting : Bool
  deriving DecidableEq, Repr

/-- One place of the reply order (R173): the request's kind, BUSY answer or not, RESTART or not, and the reply payload once
ready. -/
structure ReplySlot where
  kind : Nat
  busy : Bool
  restart : Bool
  answer : Option (List Byte)
  deriving DecidableEq, Repr

/-- The frame on the host line (R178). `cleared`: the entry was cleared during the transmission (R177). -/
inductive HostTx where
  | reply (frame : List Byte) (restart : Bool)
  | report (entry : Fin 50) (frame : List Byte) (cleared : Bool)
  deriving DecidableEq, Repr

/-- An entry of the event flag table (R176). -/
structure FlagEntry where
  enabled : Bool
  level : Nat
  pending : Bool
  reported : Bool
  body : List Byte
  deriving DecidableEq, Repr

def FlagEntry.reset : FlagEntry := { enabled := false, level := 0, pending := false, reported := false, body := [] }

/-- The host link (R172, R173, R175, R176, R179). -/
structure HostLink where
  executing : Option Request
  holding : List Request
  replies : List ReplySlot
  sending : Option HostTx
  restarting : Bool
  errors : Nat
  flags : Vector FlagEntry 50
  clock : Option DateTime
  deriving DecidableEq, Repr

def HostLink.reset : HostLink :=
  { executing := none, holding := [], replies := [], sending := none, restarting := false, errors := 0,
    flags := Vector.replicate 50 .reset, clock := none }

/-! ## The whole part -/

/-- Everything the PD8 holds. `pending` is the queue of commands not yet taken, `freeCount` the number of free values
drawn so far (log 8); both are the model's own. -/
structure State where
  pending : List Instr
  powered : Bool
  freeCount : Nat
  ports : Vector Port 8
  headLines : Vector HeadLine 8
  channels : Vector Channel 8
  price : PriceTable
  service : Service
  queuePort : QueuePort
  pool : Pool
  labels : LabelUnit
  printers : Vector PrinterPort 2
  runs : Vector Run 8
  totals : Totals
  store : Store
  link : HostLink
  deriving DecidableEq, Repr

/-- The power-on values of every block (R1, R18, R42, R78, R84, R92, R97, R119, R122, R134, R147, R159, R164, R175), over a
FRAM whose contents persist. -/
def State.powerOn (pending : List Instr) (freeCount : Nat) (fram : List Host.Cell) (answers : Bool) : State :=
  { pending := pending, powered := true, freeCount := freeCount, ports := Vector.replicate 8 .reset,
    headLines := Vector.replicate 8 .reset, channels := Vector.replicate 8 .reset, price := .reset, service := .reset,
    queuePort := .reset, pool := .reset, labels := .reset, printers := Vector.replicate 2 .reset,
    runs := Vector.replicate 8 .reset, totals := .reset, store := .start fram answers, link := .reset }

/-- The machine right after power-on with a blank FRAM that answers (DESIGN CHOICE, log 1, log 10). -/
def State.reset : State := State.powerOn [] 0 [] true

/-- What stops the machine: nothing. The PD8 shows every failure in its state (STORE_FAULT, CAL_FAULT, refusal codes,
statuses, flags), so no command ends in a fault. -/
inductive Fault where
  /-- Raised by no meaning; it stands for an access outside the FRAM (R158), which no operation makes. Safe. -/
  | framAddress
  deriving DecidableEq, Repr

/-- Why a command has no meaning. -/
inductive Refusal where
  /-- Raised by exec's arm for a command not yet modelled, with its mnemonic. Safe: the model stops. No arm does. -/
  | notModelled (mnemonic : String)
  deriving DecidableEq, Repr

end Sys2Proof.Machine
end

