-- ==== Sys2Proof/Machine/Ops.lean ====
section
/-! DEFINITION. Machine/Ops: the named updates of the parts of State, the message and display operations, and the order in
which parties that meet in one step are taken. -/

namespace Sys2Proof.Machine

/-- Applies `f` to entry `i`. -/
def modAt {α : Type} {n : Nat} (v : Vector α n) (i : Fin n) (f : α → α) : Vector α n := v.set i (f v[i])

def State.onPort (s : State) (st : Station) (f : Port → Port) : State := { s with ports := modAt s.ports st f }
def State.onHeadLine (s : State) (st : Station) (f : HeadLine → HeadLine) : State :=
  { s with headLines := modAt s.headLines st f }
def State.onChannel (s : State) (st : Station) (f : Channel → Channel) : State :=
  { s with channels := modAt s.channels st f }
def State.onRun (s : State) (st : Station) (f : Run → Run) : State := { s with runs := modAt s.runs st f }
def State.onPrinter (s : State) (p : Printer) (f : PrinterPort → PrinterPort) : State :=
  { s with printers := modAt s.printers p f }
def State.onPrice (s : State) (f : PriceTable → PriceTable) : State := { s with price := f s.price }
def State.onService (s : State) (f : Service → Service) : State := { s with service := f s.service }
def State.onQueuePort (s : State) (f : QueuePort → QueuePort) : State := { s with queuePort := f s.queuePort }
def State.onPool (s : State) (f : Pool → Pool) : State := { s with pool := f s.pool }
def State.onLabels (s : State) (f : LabelUnit → LabelUnit) : State := { s with labels := f s.labels }
def State.onTotals (s : State) (f : Totals → Totals) : State := { s with totals := f s.totals }
def State.onStore (s : State) (f : Store → Store) : State := { s with store := f s.store }
def State.onLink (s : State) (f : HostLink → HostLink) : State := { s with link := f s.link }

/-- All eight stations, ascending. -/
def stations : List Station := [0, 1, 2, 3, 4, 5, 6, 7]

/-- The manual's number of a station, 1 to 8. -/
def stationNumber (st : Station) : Nat := st.val + 1

/-- The manual's number of a printer, 1 or 2. -/
def printerNumber (p : Printer) : Nat := p.val + 1

/-- The station with the manual's number n, if there is one. -/
def stationOf (n : Nat) : Option Station := if h : 1 ≤ n ∧ n ≤ 8 then some ⟨n - 1, by omega⟩ else none

/-- The printer with the manual's number n, if there is one. -/
def printerOf (n : Nat) : Option Printer := if h : 1 ≤ n ∧ n ≤ 2 then some ⟨n - 1, by omega⟩ else none

/-- Inserts x by ascending key. -/
def insertByKey {α : Type} (key : α → Nat) (x : α) : List α → List α
  | [] => [x]
  | y :: ys => if key x ≤ key y then x :: y :: ys else y :: insertByKey key x ys

/-- DESIGN CHOICE (log 13): the parties that meet inside one step are taken in an order the manual leaves open, fixed by the
free value `Config.orderKey`. A single party needs no order. -/
def openOrder {α : Type} (count : Nat) (number : α → Nat) : List α → List α
  | [] => []
  | [x] => [x]
  | x :: xs => (x :: xs).foldr (insertByKey (fun y => Config.orderKey count (number y))) []

/-! ## Messages and the display (R14, R15, R16) -/

/-- The message code of 1.5. -/
def Message.code : Message → Nat
  | .none => 0
  | .notStable => 1
  | .noPlu => 2
  | .notPriceable => 3
  | .noClerk => 4
  | .noBasket => 5
  | .basketFull => 6
  | .basketsFull => 7
  | .labelsFull => 8
  | .totalsBusy => 9
  | .storeNotReady => 10
  | .zeroReturn => 11
  | .runActive => 12
  | .clockUnset => 13
  | .keyUnmapped => 14
  | .zeroRange => 15
  | .queueEmpty => 16
  | .notFound => 17
  | .priceChanged => 32

/-- R15: the image takes a new value. -/
def State.setImage (s : State) (st : Station) (image : DisplayImage) : State :=
  s.onPort st fun p => { p with image := image }

/-- R15: the message field takes a code, with no beep. -/
def State.setMessage (s : State) (st : Station) (m : Message) : State :=
  s.setImage st { s.ports[st].image with message := m }

/-- R14: a key refusal: the message field takes the code and a beep is owed, also when the field already held it. -/
def State.refuseKey (s : State) (st : Station) (m : Message) : State :=
  (s.setMessage st m).onHeadLine st fun l => { l with beepOwed := true }

/-- R15: a block withdraws its information message: the field becomes NONE when it still holds that code. -/
def State.withdraw (s : State) (st : Station) (m : Message) : State :=
  if s.ports[st].image.message = m then s.setMessage st .none else s

/-- R16: what a free scale head line sends next: the final DISPLAY of R8, an owed ACCEPT, then in PRESENT an owed DISPLAY with
the image as it stands and the owed beep. DESIGN CHOICE: the final DISPLAY carries no beep (log 47); with an ACCEPT and a DISPLAY owed as
the line becomes free the ACCEPT goes first (log 67). -/
def HeadLine.pump (port : Port) (st : Station) (l : HeadLine) : HeadLine :=
  if l.sending.isSome then l
  else if l.finalOwed then { l with sending := some (.display .initial false), finalOwed := false }
  else
    match l.owedAccepts with
    | serial :: rest => { l with sending := some (.accept serial st), owedAccepts := rest }
    | [] =>
      if port.state = .present ∧ (l.displayOwed ∨ l.beepOwed) then
        { l with sending := some (.display port.image l.beepOwed), displayOwed := false, beepOwed := false }
      else l

/-- R16: after an event a DISPLAY is owed in PRESENT when the event changed a field of the image. -/
def HeadLine.markChange (old new : Port) (l : HeadLine) : HeadLine :=
  if new.state = .present ∧ new.image ≠ old.image then { l with displayOwed := true } else l

/-- R16 on all eight lines, after an event that began in `old`. -/
def State.pumpDisplays (s old : State) : State :=
  { s with headLines := Vector.ofFn fun st =>
      ((s.headLines[st]).markChange old.ports[st] s.ports[st]).pump s.ports[st] st }

end Sys2Proof.Machine
end

