-- ==== Sys2Proof/Machine/Codec.lean ====
section
/-! DEFINITION. Machine/Codec: how numbers, flags, options, texts, lists and dates are encoded in bytes (R182), and the
frames of the peripheral lines (1.2, 5.4, 7.3). -/

namespace Sys2Proof.Machine

/-- `k` bytes of n, the least significant first. -/
def leBytes : Nat → Nat → List Byte
  | 0, _ => []
  | k + 1, n => BitVec.ofNat 8 n :: leBytes k (n / 256)

/-- The number whose bytes, the least significant first, are given. -/
def leNat : List Byte → Nat
  | [] => 0
  | b :: bs => b.toNat + 256 * leNat bs

/-- `k` bytes of a signed number in two's complement. -/
def leInt (k : Nat) (i : Int) : List Byte := leBytes k (i % (256 ^ k : Nat)).toNat

/-- The signed number that `k` bytes with unsigned value n hold. -/
def signedOf (k n : Nat) : Int := if 2 * n < 256 ^ k then (n : Int) else (n : Int) - (256 ^ k : Nat)

/-! ## Field encodings of R182 -/

def u1 (n : Nat) : List Byte := leBytes 1 n
def u2 (n : Nat) : List Byte := leBytes 2 n
def u4 (n : Nat) : List Byte := leBytes 4 n
def u8 (n : Nat) : List Byte := leBytes 8 n
def i4 (i : Int) : List Byte := leInt 4 i

def encBool (b : Bool) : List Byte := [if b then 1 else 0]

def encOpt {α : Type} (f : α → List Byte) : Option α → List Byte
  | none => [0]
  | some a => 1 :: f a

def encText (t : Text) : List Byte := u1 t.length ++ t

def encList {α : Type} (f : α → List Byte) (xs : List α) : List Byte := u1 xs.length ++ xs.flatMap f

def encDate (d : Date) : List Byte := u2 d.year ++ u1 d.month ++ u1 d.day

def encDateTime (d : DateTime) : List Byte :=
  u2 d.year ++ u1 d.month ++ u1 d.day ++ u1 d.hour ++ u1 d.minute ++ u1 d.second

def encSerial (b : BitVec 32) : List Byte := u4 b.toNat

def encStation (st : Station) : List Byte := u1 (stationNumber st)

def encPrinter (p : Printer) : List Byte := u1 (printerNumber p)

/-! ## Enumerations: the position in the list that defines them (R182) -/

def PortState.code : PortState → Nat
  | .off => 0 | .waiting => 1 | .present => 2 | .lost => 3

/-- R92: the queue port has the states WAITING, PRESENT and LOST. -/
def PortState.queueCode : PortState → Nat
  | .off => 0 | .waiting => 0 | .present => 1 | .lost => 2

def SwitchState.code : SwitchState → Nat
  | .opened => 0 | .closed => 1 | .unknown => 2

def PluMode.code : PluMode → Nat
  | .byWeight => 0 | .byCount => 1 | .fixed => 2

def PageName.code : PageName → Nat
  | .a => 0 | .b => 1

def WeightState.code : WeightState → Nat
  | .absent => 0 | .calFault => 1 | .warmup => 2 | .zeroFault => 3 | .motion => 4 | .stable => 5 | .overload => 6
  | .underload => 7

def CalStatus.code : CalStatus → Nat
  | .notLoaded => 0 | .valid => 1 | .fault => 2

def PriceOutcome.code : PriceOutcome → Nat
  | .priced _ => 0 | .noSelection => 1 | .notStable => 2 | .noCount => 3 | .netLow => 4 | .priceOverflow => 5
  | .zeroPrice => 6

/-- R72: the price of READ_CHANNEL's outcome when PRICED. DESIGN CHOICE (log 43): the four bytes are 0 for every other outcome. -/
def PriceOutcome.price : PriceOutcome → Nat
  | .priced p => p | .noSelection => 0 | .notStable => 0 | .noCount => 0 | .netLow => 0 | .priceOverflow => 0
  | .zeroPrice => 0

def BasketState.code : BasketState → Nat
  | .unused => 0 | .opened => 1 | .closed => 2 | .cancelled => 3

def LabelState.code : LabelState → Nat
  | .none => 0 | .queued => 1 | .printed => 2 | .failed => 3

/-- 7.3 numbers the classes 1 SUMMARY, 2 ITEM, 3 PREPACK on the printer line. -/
def LabelClass.lineCode : LabelClass → Nat
  | .summary => 1 | .item => 2 | .prepack => 3

/-- R182: the position in the list of R116. -/
def LabelClass.code : LabelClass → Nat
  | .summary => 0 | .item => 1 | .prepack => 2

def PrinterState.code : PrinterState → Nat
  | .waiting => 0 | .ready => 1 | .busyPrinting => 2 | .notReady => 3 | .lost => 4

def Condition.code : Condition → Nat
  | .ready => 0 | .paperOut => 1 | .headOpen => 2 | .unknown => 3

def Phase.code : Phase → Nat
  | .starting => 0 | .sending => 1 | .awaitingDone => 2

def RunState.code : RunState → Nat
  | .idle => 0 | .active => 1 | .ending => 2 | .doneHeld => 3

def EndReason.code : EndReason → Nat
  | .count => 0 | .aborted => 1 | .headLost => 2 | .priceForced => 3 | .calibration => 4 | .reset => 5

def StoreState.code : StoreState → Nat
  | .unverified => 0 | .verified => 1 | .storeFault => 2

def Requester.code : Requester → Nat
  | .commit => 0 | .periodClose => 1 | .totalsRead => 2 | .startupScan => 3 | .calibration => 4

def LogState.code : LogState → Nat
  | .none => 0 | .corrected => 1 | .uncorrectable => 2

def CommitKind.code : CommitKind → Nat
  | .basket => 0 | .cancel => 1 | .prepack => 2

/-! ## Peripheral frames (1.2) -/

/-- The sum of bytes modulo 256. -/
def byteSum (bs : List Byte) : Byte := bs.foldl (· + ·) 0

/-- A peripheral frame: start byte, kind, length, payload, check byte (1.2). -/
def peripheralFrame (kind : Nat) (payload : List Byte) : List Byte :=
  let body := BitVec.ofNat 8 kind :: BitVec.ofNat 8 payload.length :: payload
  0xA5 :: body ++ [0 - byteSum body]

/-- The payload lengths each line's receiver takes (1.2, 5.4, 7.3): kind and length. -/
def lineKinds : PeripheralLine → List (Nat × Nat)
  | .head _ => [(0x10, 5), (0x11, 4), (0x12, 3), (0x13, 1)]
  | .queue => [(0x20, 5), (0x21, 1), (0x22, 1)]
  | .printer _ => [(0x30, 5), (0x31, 1), (0x32, 2), (0x33, 3)]

/-- R123: a STATE condition above 2 or a FAULT cause outside 1 to 4 fails the printer's receiver. -/
def payloadOk (line : PeripheralLine) (kind : Nat) (payload : List Byte) : Bool :=
  match line, payload with
  | .printer _, [c] => kind != 0x31 || decide (c.toNat ≤ 2)
  | .printer _, [_, _, c] => kind != 0x33 || decide (1 ≤ c.toNat ∧ c.toNat ≤ 4)
  | _, _ => true

/-- R2 (and R92, R123 by reference): do the collected bytes pass the receiver's checks, the bytes in time. -/
def frameTaken (line : PeripheralLine) : List Byte → Bool
  | start :: kind :: length :: rest =>
    start == 0xA5 && decide (length.toNat ≤ 60) && decide (rest.length = length.toNat + 1)
      && byteSum (kind :: length :: rest) == 0
      && (lineKinds line).contains (kind.toNat, length.toNat)
      && payloadOk line kind.toNat (rest.take length.toNat)
  | _ => false

/-- The weight code and weight of a DISPLAY (1.2). -/
def WeightField.bytes : WeightField → List Byte
  | .value g => u1 0 ++ leInt 3 g
  | .dashes => u1 1 ++ leInt 3 0
  | .over => u1 2 ++ leInt 3 0
  | .under => u1 3 ++ leInt 3 0
  | .blank => u1 4 ++ leInt 3 0

/-- The price code and price of a DISPLAY (1.2). -/
def PriceField.bytes : PriceField → List Byte
  | .value p => u1 0 ++ leBytes 3 p
  | .dashes => u1 1 ++ leBytes 3 0
  | .blank => u1 2 ++ leBytes 3 0

/-- The DISPLAY payload of 39 bytes (1.2). -/
def displayPayload (image : DisplayImage) (beep : Bool) : List Byte :=
  image.weight.bytes ++ leBytes 3 (image.unitPrice.getD 0xFFFFFF) ++ image.price.bytes
    ++ (image.name ++ List.replicate (24 - image.name.length) 0) ++ u1 (image.clerk.getD 0) ++ u1 (image.ticket.getD 0)
    ++ u1 image.message.code ++ encBool beep

/-- The bytes of a frame to a scale head (1.2). -/
def HeadFrame.bytes : HeadFrame → List Byte
  | .accept serial st => peripheralFrame 0x90 (encSerial serial ++ encStation st)
  | .display image beep => peripheralFrame 0x91 (displayPayload image beep)

def encCallSign (c : CallSign) : List Byte := u1 c.ticket ++ u1 c.clerk ++ encStation c.channel

/-- The bytes of a frame on the queue line (5.4): SIGN carries four entries, an absent one as three zero bytes. -/
def QueueFrame.bytes : QueueFrame → List Byte
  | .accept serial => peripheralFrame 0xB0 (encSerial serial)
  | .issue press ticket => peripheralFrame 0xB1 ([press] ++ u1 ticket)
  | .refuse press => peripheralFrame 0xB2 [press]
  | .sign entries =>
    peripheralFrame 0xB3 (entries.flatMap encCallSign ++ List.replicate (12 - 3 * entries.length) 0)

/-- The bytes of a frame to a printer (7.3). -/
def PrinterFrame.bytes : PrinterFrame → List Byte
  | .accept serial p => peripheralFrame 0xC0 (encSerial serial ++ encPrinter p)
  | .labelBegin job format cls => peripheralFrame 0xC1 (u2 job ++ u1 format ++ u1 cls.lineCode)
  | .field ident value => peripheralFrame 0xC2 (u1 ident ++ value)
  | .labelEnd job => peripheralFrame 0xC3 (u2 job)

end Sys2Proof.Machine
end

