-- ==== Sys2Proof/Machine/Flags.lean ====
section
/-! DEFINITION. Machine/Flags: the event flag table (11.3, R176, R178) and the raising of a flag. -/

namespace Sys2Proof.Machine

/-- The flags with their sources (11.3). -/
inductive Flag where
  | storeReady
  | memUncorrectable
  | memCorrected
  | periodClosed
  | otherUsed
  | adoptionComplete
  | dispenserLost
  | dispenserFound
  | printerLost (p : Printer)
  | printerFound (p : Printer)
  | paperOut (p : Printer)
  | headOpen (p : Printer)
  | jobFailed (p : Printer)
  | headLost (st : Station)
  | headFound (st : Station)
  | calAttempt (st : Station)
  | prepackDone (st : Station)
  deriving DecidableEq, Repr

/-- The entry of a flag in table order (11.3): entry number n is index n − 1. -/
def Flag.entry : Flag → Fin 50
  | .storeReady => 0
  | .memUncorrectable => 1
  | .memCorrected => 2
  | .periodClosed => 3
  | .otherUsed => 4
  | .adoptionComplete => 5
  | .dispenserLost => 6
  | .dispenserFound => 7
  | .printerLost p => ⟨8 + p.val, by omega⟩
  | .printerFound p => ⟨10 + p.val, by omega⟩
  | .paperOut p => ⟨12 + p.val, by omega⟩
  | .headOpen p => ⟨14 + p.val, by omega⟩
  | .jobFailed p => ⟨16 + p.val, by omega⟩
  | .headLost st => ⟨18 + st.val, by omega⟩
  | .headFound st => ⟨26 + st.val, by omega⟩
  | .calAttempt st => ⟨34 + st.val, by omega⟩
  | .prepackDone st => ⟨42 + st.val, by omega⟩

/-- The source byte of an entry's report (11.3): 0, the printer number or the channel number. -/
def entrySource (n : Fin 50) : Nat :=
  if n.val < 8 then 0 else if n.val < 18 then n.val % 2 + 1 else (n.val - 18) % 8 + 1

/-- R176: an entry that is not pending becomes pending and not reported with the body; a pending one is unchanged. -/
def FlagEntry.raise (e : FlagEntry) (body : List Byte) : FlagEntry :=
  if e.pending then e else { e with pending := true, reported := false, body := body }

/-- R176: a block raises a flag. -/
def State.raise (s : State) (f : Flag) (body : List Byte) : State :=
  s.onLink fun l => { l with flags := modAt l.flags f.entry (·.raise body) }

/-- R176: an entry is due while it is pending, enabled and not reported. -/
def FlagEntry.due (e : FlagEntry) : Bool := e.pending && e.enabled && !e.reported

/-- All entries in table order. -/
def entries : List (Fin 50) := List.finRange 50

/-- R178: of two due entries the later replaces the earlier only at a higher level. -/
def better (flags : Vector FlagEntry 50) (best : Option (Fin 50)) (n : Fin 50) : Option (Fin 50) :=
  if flags[n].due then
    match best with
    | none => some n
    | some m => if flags[m].level < flags[n].level then some n else some m
  else best

/-- R178: the due entry of highest level, and among entries of equal level the first in table order. -/
def chosenEntry (flags : Vector FlagEntry 50) : Option (Fin 50) := entries.foldl (better flags) none

/-- The report payload (R178): entry number, level, source, body length, body. -/
def reportPayload (n : Fin 50) (e : FlagEntry) : List Byte :=
  u1 (n.val + 1) ++ u1 e.level ++ u1 (entrySource n) ++ encText e.body

end Sys2Proof.Machine
end

