-- ==== Sys2Proof/Machine/Link.lean ====
section
/-! DEFINITION. Machine/Link: host link frames and CRC (R170, R171), the receive holding list and reply order (R172, R173),
replies (R174) and the transmit arbiter (R178). -/

namespace Sys2Proof.Machine

/-- One bit of the CRC register: polynomial x^16 + x^12 + x^5 + 1 (R170). -/
def crcShift (c : BitVec 16) : BitVec 16 := if c.msb then (c <<< 1) ^^^ 0x1021 else c <<< 1

/-- R170: one byte, most significant bit first. -/
def crcByte (c : BitVec 16) (b : Byte) : BitVec 16 :=
  crcShift (crcShift (crcShift (crcShift (crcShift (crcShift (crcShift (crcShift (c ^^^ (b.zeroExtend 16 <<< 8)))))))))

/-- R170: the CRC of the length bytes, the kind and the payload. -/
def crc (bs : List Byte) : BitVec 16 := bs.foldl crcByte 0xFFFF

/-- A host link frame (11.1): sync byte, length, kind, payload, CRC low byte first. -/
def hostFrame (kind : Nat) (payload : List Byte) : List Byte :=
  let body := u2 (payload.length + 1) ++ u1 kind ++ payload
  0xD5 :: body ++ u2 (crc body).toNat

/-- R171: the kind and payload of a whole frame that passes the receiver's checks. -/
def parseHostFrame : List Byte → Option (Nat × List Byte)
  | sync :: lo :: hi :: rest =>
    let length := leNat [lo, hi]
    match rest with
    | kind :: after =>
      if sync = 0xD5 ∧ 1 ≤ length ∧ length ≤ 1030 ∧ rest.length = length + 2
          ∧ crc (lo :: hi :: rest.take length) = BitVec.ofNat 16 (leNat (rest.drop length))
          ∧ 1 ≤ kind.toNat ∧ kind.toNat ≤ 0x7F then
        some (kind.toNat, after.take (length - 1))
      else none
    | [] => none
  | _ => none

/-! ## Statuses and replies (R174) -/

inductive Status where
  | ok
  | clamped
  | unknownRequest
  | badArgument
  | busy
  | notFound
  | full
  | state
  | locked
  | nothingStaged
  | publishPending
  | genExhausted
  | basketsOpen
  | runActive
  | storeNotReady
  deriving DecidableEq, Repr

/-- The value of a status (R174). -/
def Status.code : Status → Nat
  | .ok => 0 | .clamped => 1 | .unknownRequest => 2 | .badArgument => 3 | .busy => 4 | .notFound => 5 | .full => 6
  | .state => 7 | .locked => 8 | .nothingStaged => 9 | .publishPending => 10 | .genExhausted => 11 | .basketsOpen => 12
  | .runActive => 13 | .storeNotReady => 14

/-- R174: the one-byte payload of a reply with a status other than OK and CLAMPED. -/
def refusal (st : Status) : List Byte := u1 st.code

/-- R174: OK followed by the content. -/
def okReply (content : List Byte) : List Byte := u1 Status.ok.code ++ content

/-! ## Taking, executing and answering (R172, R173) -/

/-- R171: the link error count grows by one and saturates at 65,535. -/
def HostLink.countError (l : HostLink) : HostLink := { l with errors := min (l.errors + 1) 65535 }

/-- R172: when no request is in execution, the head of the holding list leaves it and its execution begins. R175: none
after RESTART. -/
def HostLink.beginNext (l : HostLink) : HostLink :=
  if l.executing.isSome ∨ l.restarting then l
  else
    match l.holding with
    | [] => l
    | r :: rest => { l with executing := some r, holding := rest }

/-- R173: the BUSY answers in the reply order. -/
def HostLink.busyAnswers (l : HostLink) : Nat := l.replies.countP (·.busy)

/-- R172, R173: a taken request joins the tail of the holding list, is answered BUSY, or is discarded and counted. -/
def HostLink.take (l : HostLink) (kind : Nat) (payload : List Byte) : HostLink :=
  if l.holding.length < Config.holdingMax then
    HostLink.beginNext
      { l with holding := l.holding ++ [{ kind := kind, payload := payload, waiting := false }],
               replies := l.replies ++ [{ kind := kind, busy := false, restart := false, answer := none }] }
  else if l.busyAnswers < Config.holdingMax then
    { l with replies := l.replies ++ [{ kind := kind, busy := true, restart := false, answer := some (refusal .busy) }] }
  else l.countError

/-- The first place of the reply order that is not ready takes its answer: requests are executed in arrival order. -/
def fillAnswer (payload : List Byte) (restart : Bool) : List ReplySlot → List ReplySlot
  | [] => []
  | r :: rs =>
    if r.answer.isNone then { r with answer := some payload, restart := restart } :: rs
    else r :: fillAnswer payload restart rs

/-- R173: the execution ends: its reply is ready, and the next request begins. -/
def HostLink.answer (l : HostLink) (payload : List Byte) : HostLink :=
  HostLink.beginNext { l with replies := fillAnswer payload false l.replies, executing := none }

/-- R175: RESTART is answered OK; what stands behind it in the holding list and the reply order is dropped. -/
def HostLink.answerRestart (l : HostLink) : HostLink :=
  { l with replies := fillAnswer (okReply []) true (l.replies.takeWhile (·.answer.isSome)
             ++ (l.replies.dropWhile (·.answer.isSome)).take 1),
           executing := none, holding := [], restarting := true }

/-- R173: the request in execution waits for a store read. -/
def HostLink.markWaiting (l : HostLink) : HostLink :=
  { l with executing := l.executing.map fun r => { r with waiting := true } }

/-! ## The transmit arbiter (R178) -/

/-- R178: with no reply ready, the report of the chosen due entry, built from the entry as it stands. -/
def HostLink.pumpReport (l : HostLink) : HostLink :=
  if l.restarting then l
  else
    match chosenEntry l.flags with
    | none => l
    | some n => { l with sending := some (.report n (hostFrame 0x80 (reportPayload n l.flags[n])) false) }

/-- R178: when the line is free, a reply ready at the head of the reply order is sent, otherwise a report. -/
def HostLink.pump (l : HostLink) : HostLink :=
  if l.sending.isSome then l
  else
    match l.replies with
    | [] => l.pumpReport
    | r :: _ =>
      match r.answer with
      | some payload => { l with sending := some (.reply (hostFrame (r.kind + 0x80) payload) r.restart) }
      | none => l.pumpReport

/-- What follows every event that began in `old`: free scale head lines and a free host line begin their next frame (R16,
R178). -/
def State.finish (s old : State) : State := (s.onLink HostLink.pump).pumpDisplays old

/-- One event at the powered part. `none` is an event that cannot happen in this state: it leaves the state as it is (log 3).
With power off nothing but POWER_ON acts (log 7). -/
def State.event (s : State) (f : State → Option State) : Host.Outcome State Fault Refusal :=
  if s.powered then
    match f s with
    | some t => .next (t.finish s)
    | none => .next s
  else .next s

/-- R172: the execution of the request in execution, when it is of this kind and does not already wait for a store read.
`f` gives the state after it and its reply, or no reply when it goes on until a store read completes (R173). -/
def State.request (s : State) (kind : Nat) (f : List Byte → State → State × Option (List Byte)) :
    Host.Outcome State Fault Refusal :=
  s.event fun s =>
    match s.link.executing with
    | none => none
    | some r =>
      if r.kind = kind ∧ r.waiting = false then
        match f r.payload s with
        | (t, some payload) => some (t.onLink (·.answer payload))
        | (t, none) => some (t.onLink HostLink.markWaiting)
      else none

/-- A request whose payload must hold arguments (R172, R182): BAD_ARGUMENT when it does not. -/
def withArgs {α : Type} (parse : List Byte → Option α) (f : α → State → State × List Byte) (payload : List Byte) (s : State) :
    State × Option (List Byte) :=
  match parse payload with
  | none => (s, some (refusal .badArgument))
  | some a => ((f a s).1, some (f a s).2)

/-- A request that takes no argument: BAD_ARGUMENT when its payload is not empty (R172). -/
def noArgs (f : State → State × List Byte) (payload : List Byte) (s : State) : State × Option (List Byte) :=
  if payload = [] then ((f s).1, some (f s).2) else (s, some (refusal .badArgument))

end Sys2Proof.Machine
end

