-- ==== Sys2Proof/Machine/Operands.lean ====
section
/-! DEFINITION. Machine/Operands: the arguments of every request, read from its payload field by field (R182). A value that
fits its width is judged by the owning rule; a payload of another length, or a list or text that overruns it, gives none. -/

namespace Sys2Proof.Machine

/-- Reads a field from the front of a payload. -/
abbrev Parser (α : Type) := List Byte → Option (α × List Byte)

/-- A whole payload: nothing may be left. -/
def parseAll {α : Type} (p : Parser α) (bs : List Byte) : Option α :=
  match p bs with
  | some (a, []) => some a
  | _ => none

/-- A number of k bytes, little-endian. -/
def num (k : Nat) : Parser Nat := fun bs =>
  if bs.length < k then none else some (leNat (bs.take k), bs.drop k)

/-- A signed number of k bytes. -/
def snum (k : Nat) : Parser Int := fun bs =>
  match num k bs with
  | none => none
  | some (n, r) => some (signedOf k n, r)

/-- k bytes as they stand. -/
def rawBytes (k : Nat) : Parser (List Byte) := fun bs =>
  if bs.length < k then none else some (bs.take k, bs.drop k)

/-- A text: length byte and characters. -/
def text : Parser Text := fun bs =>
  match num 1 bs with
  | none => none
  | some (n, r) => rawBytes n r

/-- An optional field: presence byte 1 or 0. -/
def opt {α : Type} (p : Parser α) : Parser (Option α) := fun bs =>
  match num 1 bs with
  | some (0, r) => some (none, r)
  | some (1, r) =>
    match p r with
    | none => none
    | some (a, r') => some (some a, r')
  | _ => none

/-- n entries. -/
def many {α : Type} (p : Parser α) : Nat → Parser (List α)
  | 0, bs => some ([], bs)
  | n + 1, bs =>
    match p bs with
    | none => none
    | some (a, r) =>
      match many p n r with
      | none => none
      | some (as, r') => some (a :: as, r')

/-- A list: count byte and entries. -/
def list {α : Type} (p : Parser α) : Parser (List α) := fun bs =>
  match num 1 bs with
  | none => none
  | some (n, r) => many p n r

/-- Two fields in order. -/
def both {α β : Type} (p : Parser α) (q : Parser β) : Parser (α × β) := fun bs =>
  match p bs with
  | none => none
  | some (a, r) =>
    match q r with
    | none => none
    | some (b, r') => some ((a, b), r')

/-- Applies f to what p reads. -/
def mapP {α β : Type} (f : α → β) (p : Parser α) : Parser β := fun bs =>
  match p bs with
  | none => none
  | some (a, r) => some (f a, r)

/-! ## The arguments of the requests -/

/-- SET_CLOCK (R179). -/
def parseClock : List Byte → Option DateTime :=
  parseAll (mapP (fun x => { year := x.1, month := x.2.1, day := x.2.2.1, hour := x.2.2.2.1, minute := x.2.2.2.2.1,
                             second := x.2.2.2.2.2 })
    (both (num 2) (both (num 1) (both (num 1) (both (num 1) (both (num 1) (num 1)))))))

/-- A triple of SET_FLAG_CONTROL (R177). -/
structure FlagControl where
  entry : Nat
  enable : Nat
  level : Nat
  deriving DecidableEq, Repr

/-- SET_FLAG_CONTROL (R177): a list of triples. -/
def parseFlagControl : List Byte → Option (List FlagControl) :=
  parseAll (list (mapP (fun x => { entry := x.1, enable := x.2.1, level := x.2.2 }) (both (num 1) (both (num 1) (num 1)))))

/-- CLEAR_FLAGS (R177): a list of entry numbers. -/
def parseFlagList : List Byte → Option (List Nat) := parseAll (list (num 1))

/-- CONFIGURE_PORTS (R8): eight enable values. DESIGN CHOICE (log 71): they stand one after another without a count byte. -/
def parsePorts : List Byte → Option (List Nat) := parseAll (many (num 1) 8)

/-- CONFIGURE_CHANNEL (R38): channel number and the fields of 2.8. -/
structure ConfigArgs where
  channel : Nat
  filterLength : Nat
  stabilityCount : Nat
  motionBand : Nat
  zeroTracking : Nat
  tareHold : Nat
  itemLabels : Nat
  boundPrinter : Nat
  fallback : Nat
  deriving DecidableEq, Repr

def parseConfig : List Byte → Option ConfigArgs :=
  parseAll (mapP
    (fun x => { channel := x.1, filterLength := x.2.1, stabilityCount := x.2.2.1, motionBand := x.2.2.2.1,
                zeroTracking := x.2.2.2.2.1, tareHold := x.2.2.2.2.2.1, itemLabels := x.2.2.2.2.2.2.1,
                boundPrinter := x.2.2.2.2.2.2.2.1, fallback := x.2.2.2.2.2.2.2.2 })
    (both (num 1) (both (num 1) (both (num 1) (both (num 1) (both (num 1) (both (num 1) (both (num 1)
      (both (num 1) (num 1))))))))))

/-- One number of one byte: a channel, printer or clerk number. -/
def parseNumber1 : List Byte → Option Nat := parseAll (num 1)

/-- One number of two bytes: a PLU or job number. -/
def parseNumber2 : List Byte → Option Nat := parseAll (num 2)

/-- One serial. -/
def parseSerial : List Byte → Option Nat := parseAll (num 4)

/-- A calibration record without its check, in the field order of 10.7. -/
def calRecord : Parser CalRecord :=
  mapP (fun x => { zc := x.1, span := x.2.1, max := x.2.2.1, rangeMode := x.2.2.2.1, e1 := x.2.2.2.2.1, e2 := x.2.2.2.2.2.1,
                   max1 := x.2.2.2.2.2.2 })
    (both (snum 4) (both (num 4) (both (num 2) (both (num 1) (both (num 1) (both (num 1) (num 2)))))))

/-- WRITE_CALIBRATION (R167). -/
def parseCalibration : List Byte → Option (Nat × CalRecord) := parseAll (both (num 1) calRecord)

/-- The fields of a STAGE_PLU payload (11.5, central layouts), as sent. -/
structure PluArgs where
  number : Nat
  name : Text
  mode : Nat
  unitPrice : Nat
  markdown : Nat
  step : Nat
  presetTare : Nat
  department : Nat
  labelFormat : Nat
  shelfLife : Option Nat
  extraText : Option Text
  zeroAllowed : Nat
  deriving DecidableEq, Repr

/-- STAGE_PLU (R41, R46). -/
def parsePlu : List Byte → Option PluArgs :=
  parseAll (mapP
    (fun x => { number := x.1, name := x.2.1, mode := x.2.2.1, unitPrice := x.2.2.2.1, markdown := x.2.2.2.2.1,
                step := x.2.2.2.2.2.1, presetTare := x.2.2.2.2.2.2.1, department := x.2.2.2.2.2.2.2.1,
                labelFormat := x.2.2.2.2.2.2.2.2.1, shelfLife := x.2.2.2.2.2.2.2.2.2.1,
                extraText := x.2.2.2.2.2.2.2.2.2.2.1, zeroAllowed := x.2.2.2.2.2.2.2.2.2.2.2 })
    (both (num 2) (both text (both (num 1) (both (num 4) (both (num 1) (both (num 1) (both (num 2) (both (num 1)
      (both (num 1) (both (opt (num 2)) (both (opt text) (num 1)))))))))))))

/-- STAGE_KEY_PAGE (R43): channel, page, window and override list, as sent. -/
structure PageArgs where
  channel : Nat
  page : Nat
  content : KeyPage
  deriving DecidableEq, Repr

/-- A key page: optional window, override list (R43). -/
def keyPage : Parser KeyPage :=
  mapP (fun x => { window := x.1, overrides := x.2 })
    (both (opt (mapP (fun w => { first := w.1, count := w.2.1, base := w.2.2 }) (both (num 1) (both (num 1) (num 2)))))
      (list (both (num 1) (num 2))))

def parsePage : List Byte → Option PageArgs :=
  parseAll (mapP (fun x => { channel := x.1, page := x.2.1, content := x.2.2 }) (both (num 1) (both (num 1) keyPage)))

/-- READ_PLU (R58): the target alternative, the view selector and, for a PLU target, the search mode. -/
inductive ReadPluArgs where
  | plu (number : Nat) (view : Nat) (mode : Nat)
  | page (channel : Nat) (name : Nat) (view : Nat)
  | other
  deriving DecidableEq, Repr

/-- DEDUCED (log 19): the fields follow the order of R58: target, view selector, search mode. A form that is neither of
the two is out of range. -/
def parseReadPlu (bs : List Byte) : Option ReadPluArgs :=
  match num 1 bs with
  | none => none
  | some (0, r) => parseAll (mapP (fun x => .plu x.1 x.2.1 x.2.2) (both (num 2) (both (num 1) (num 1)))) r
  | some (1, r) => parseAll (mapP (fun x => .page x.1 x.2.1 x.2.2) (both (num 1) (both (num 1) (num 1)))) r
  | some (_, _) => some .other

/-- R182: the optional trailing continuation index of READ_BASKET, READ_QUEUE and READ_ADOPTION. -/
def continuation {α : Type} (p : Parser α) (bs : List Byte) : Option (α × Option Nat) :=
  match p bs with
  | some (a, []) => some (a, none)
  | some (a, [b]) => some (a, some b.toNat)
  | _ => none

/-- No argument but the continuation index. -/
def parseContinuation (bs : List Byte) : Option (Option Nat) := (continuation (fun b => some ((), b)) bs).map (·.2)

/-- DEFINE_CLERK (R79). -/
structure ClerkArgs where
  number : Nat
  name : Text
  enable : Nat
  deriving DecidableEq, Repr

def parseClerk : List Byte → Option ClerkArgs :=
  parseAll (mapP (fun x => { number := x.1, name := x.2.1, enable := x.2.2 }) (both (num 1) (both text (num 1))))

/-- READ_BASKET's selector (R115): a serial, a slot or LIST. -/
inductive BasketSelector where
  | serial (n : Nat)
  | slot (n : Nat)
  | list
  | other
  deriving DecidableEq, Repr

def basketSelector : Parser BasketSelector := fun bs =>
  match num 1 bs with
  | none => none
  | some (0, r) => mapP .serial (num 4) r
  | some (1, r) => mapP .slot (num 1) r
  | some (2, r) => some (.list, r)
  | some (_, r) => some (.other, r)

def parseReadBasket : List Byte → Option (BasketSelector × Option Nat) := continuation basketSelector

/-- START_RUN (R135). -/
structure RunArgs where
  channel : Nat
  plu : Nat
  count : Nat
  notify : Nat
  deriving DecidableEq, Repr

def parseRun : List Byte → Option RunArgs :=
  parseAll (mapP (fun x => { channel := x.1, plu := x.2.1, count := x.2.2.1, notify := x.2.2.2 })
    (both (num 1) (both (num 2) (both (num 2) (num 1)))))

/-- READ_TOTALS (R156): kind, first index, maximum count. -/
structure TotalsArgs where
  kind : Nat
  first : Nat
  maximum : Nat
  deriving DecidableEq, Repr

def parseTotals : List Byte → Option TotalsArgs :=
  parseAll (mapP (fun x => { kind := x.1, first := x.2.1, maximum := x.2.2 }) (both (num 1) (both (num 2) (num 1))))

end Sys2Proof.Machine
end

