-- ==== Sys2Proof/Machine/Dates.lean ====
section
/-! DEFINITION. Machine/Dates: the calendar of R75 and the clock of R179. -/

namespace Sys2Proof.Machine

/-- R75: within 2000 to 2099 a year divisible by 4 is a leap year. -/
def isLeap (year : Nat) : Bool := year % 4 == 0

/-- R75: the length of a month; 0 for a number that is no month. -/
def monthLength (year month : Nat) : Nat :=
  match month with
  | 1 => 31 | 2 => if isLeap year then 29 else 28 | 3 => 31 | 4 => 30 | 5 => 31 | 6 => 30 | 7 => 31 | 8 => 31 | 9 => 30
  | 10 => 31 | 11 => 30 | 12 => 31 | _ => 0

/-- R75: the next day; 2099-12-31 stays (the clamp). -/
def Date.next (d : Date) : Date :=
  if d.day < monthLength d.year d.month then { d with day := d.day + 1 }
  else if d.month < 12 then { year := d.year, month := d.month + 1, day := 1 }
  else if d.year < 2099 then { year := d.year + 1, month := 1, day := 1 }
  else d

/-- R75: L days later, clamped to 2099-12-31. -/
def Date.addDays (d : Date) : Nat → Date
  | 0 => d
  | n + 1 => d.next.addDays n

def DateTime.date (t : DateTime) : Date := { year := t.year, month := t.month, day := t.day }

/-- R179: the values the clock may hold. -/
def DateTime.valid (t : DateTime) : Bool :=
  decide (2000 ≤ t.year ∧ t.year ≤ 2099 ∧ 1 ≤ t.month ∧ t.month ≤ 12 ∧ 1 ≤ t.day ∧ t.day ≤ monthLength t.year t.month
    ∧ t.hour ≤ 23 ∧ t.minute ≤ 59 ∧ t.second ≤ 59)

/-- The last value of the clock (R179). -/
def DateTime.last : DateTime := { year := 2099, month := 12, day := 31, hour := 23, minute := 59, second := 59 }

/-- R179: one second later on the calendar; at 2099-12-31 23:59:59 the value holds. -/
def DateTime.tick (t : DateTime) : DateTime :=
  if t = .last then t
  else if t.second < 59 then { t with second := t.second + 1 }
  else if t.minute < 59 then { t with minute := t.minute + 1, second := 0 }
  else if t.hour < 23 then { t with hour := t.hour + 1, minute := 0, second := 0 }
  else
    let d := t.date.next
    { year := d.year, month := d.month, day := d.day, hour := 0, minute := 0, second := 0 }

/-- The clock (R179); none is UNSET. -/
def State.clock (s : State) : Option DateTime := s.link.clock

/-- R74: the packed date: the clock's date, absent when the clock is UNSET. -/
def State.packedDate (s : State) : Option Date := s.clock.map (·.date)

/-- R74: the use-by date: absent without a shelf life, otherwise that many days after the packed date. -/
def State.useByDate (s : State) (shelfLife : Option Nat) : Option Date :=
  match shelfLife, s.packedDate with
  | some days, some d => some (d.addDays days)
  | _, _ => none

/-- R73: the CLOCK_UNSET condition for a version. -/
def State.clockUnset (s : State) (v : PluVersion) : Bool := v.shelfLife.isSome && s.clock.isNone

end Sys2Proof.Machine
end

