-- ==== Sys2Proof/Machine/Price.lean ====
section
/-! DEFINITION. Machine/Price: the price unit (chapter 4): base price, markdown, step, limits, outcome and code strings. -/

namespace Sys2Proof.Machine

/-- R65: BY_WEIGHT base price from the displayed weight in grams. -/
def basePriceByWeight (w p : Nat) : Nat := (w * p + 500) / 1000

/-- R67: the markdown amount. -/
def markdownAmount (base m : Nat) : Nat := (base * m + 50) / 100

/-- R68: the price, rounded half up to a multiple of the step. -/
def stepPrice (pre s : Nat) : Nat := (2 * pre + s) / (2 * s) * s

/-- R67, R68: the price from a base price. -/
def finalPrice (base m s : Nat) : Nat := stepPrice (base - markdownAmount base m) s

/-- R69, R70: the limits on the final price. -/
def limitPrice (zeroAllowed : Bool) (price : Nat) : PriceOutcome :=
  if Config.priceMax < price then .priceOverflow
  else if price = 0 ∧ zeroAllowed = false then .zeroPrice
  else .priced price

/-- R65, R66: the base price of a version, given the displayed weight and the count. -/
def basePrice (v : PluVersion) (w : Int) (count : Option Nat) : Nat :=
  match v.mode with
  | .byWeight => basePriceByWeight w.toNat v.unitPrice
  | .byCount => count.getD 0 * v.unitPrice
  | .fixed => v.unitPrice

/-- R64: stages 3 to 7 for a selected version, given the last weighing's net and displayed weight and e1. -/
def priceVersion (v : PluVersion) (n w : Int) (e1 : Nat) (count : Option Nat) : PriceOutcome :=
  if v.mode = .byCount ∧ count = none then .noCount
  else if v.mode = .byWeight ∧ n < 200 * e1 then .netLow
  else limitPrice v.zeroAllowed (finalPrice (basePrice v w count) v.markdown v.step)

/-- R63, R64: the pricing outcome of a channel. A STABLE channel has a last weighing and a calibration record; without
them no weight can be priced and the outcome is NOT_STABLE. -/
def Channel.price (c : Channel) : PriceOutcome :=
  match c.selection with
  | none => .noSelection
  | some sel =>
    if sel.version.mode = .byWeight then
      match c.state, c.last, c.cal with
      | .stable, some w, some r => priceVersion sel.version w.net w.weight r.e1 sel.count
      | _, _, _ => .notStable
    else priceVersion sel.version 0 0 0 sel.count

/-- R76: markdown shown: the markdown amount is above 0. -/
def markdownShown (v : PluVersion) (w : Int) (count : Option Nat) : Bool :=
  decide (0 < markdownAmount (basePrice v w count) v.markdown)

/-! ## Digits and code strings (R77, R118, R128) -/

/-- The ASCII digit of a number below 10. -/
def digit (n : Nat) : Byte := BitVec.ofNat 8 (48 + n % 10)

/-- The last k decimal digits of n, with leading zeros. -/
def digits : Nat → Nat → Text
  | 0, _ => []
  | k + 1, n => digits k (n / 10) ++ [digit n]

/-- How many decimal digits n has, up to a bound. -/
def digitCount : Nat → Nat → Nat
  | 0, _ => 1
  | fuel + 1, n => if n < 10 then 1 else digitCount fuel (n / 10) + 1

/-- n in decimal without leading zeros (R128). -/
def decimal (n : Nat) : Text := digits (digitCount 20 n) n

/-- A signed number in decimal. -/
def decimalInt (i : Int) : Text := if i < 0 then 0x2D :: decimal i.natAbs else decimal i.toNat

/-- R128: a date as ten characters with hyphens. -/
def dateText (d : Date) : Text := digits 4 d.year ++ [0x2D] ++ digits 2 d.month ++ [0x2D] ++ digits 2 d.day

/-- R77: the item code string. -/
def itemCode (plu price : Nat) : Text := digits 1 2 ++ digits 4 plu ++ digits 7 price

/-- R118: the summary code string; ticket 00 for a walk-up basket. -/
def summaryCode (ticket : Option Nat) (serial : Nat) : Text := digits 1 9 ++ digits 2 (ticket.getD 0) ++ digits 9 serial

end Sys2Proof.Machine
end

