-- ==== Sys2Proof/Machine/Weigh.lean ====
section
/-! DEFINITION. Machine/Weigh: the weighing arithmetic of one channel (2.3 to 2.6): windows, zero, tare, weighing, armed, zero
tracking, and what each event does to the channel record alone. -/

namespace Sys2Proof.Machine

/-- n / d rounded half up, a value midway going away from zero (2.3). -/
def roundDiv (n : Int) (d : Nat) : Int :=
  if 0 ≤ n then ((2 * n.toNat + d) / (2 * d) : Nat) else -(((2 * n.natAbs + d) / (2 * d) : Nat) : Int)

/-- R22: the newest entry at the tail, the oldest removed beyond n. -/
def pushWindow (xs : List Int) (x : Int) (n : Nat) : List Int := (xs ++ [x]).drop ((xs ++ [x]).length - n)

/-- R22: the average of the counts held. -/
def average (xs : List Int) : Int := roundDiv xs.sum xs.length

/-- R22: the largest minus the smallest. -/
def spread : List Int → Int
  | [] => 0
  | x :: xs => xs.foldl max x - xs.foldl min x

/-- The lower division of the record in force. -/
def Channel.e1 (c : Channel) : Nat := (c.cal.map (·.e1)).getD 0

def CalRecord.dual (r : CalRecord) : Bool := r.rangeMode == 1

/-- R22: the window is full and its spread does not exceed the motion band, at the division of the previous weighing. -/
def Channel.atRest (c : Channel) (r : CalRecord) : Bool :=
  let e := (c.last.map (·.division)).getD r.e1
  decide (c.stability.length = c.config.stabilityCount)
    && decide (roundDiv (spread c.stability * 10000) r.span ≤ (c.config.motionBand * 5 * e : Nat))

/-- R29: the tare in force. -/
def Channel.tareInForce (c : Channel) : Nat :=
  match c.keyedTare with
  | some t => t
  | none =>
    match c.selection with
    | none => 0
    | some sel => sel.presetTare / (10 * c.e1) * (10 * c.e1)

/-- R24, steps 2 to 4: the weighing of a gross under a tare. -/
def weighing (r : CalRecord) (gross : Int) (tare : Nat) : Weighing :=
  let n := gross - tare
  let e := if r.dual ∧ (r.max1 * 10 : Nat) < n then r.e2 else r.e1
  { gross := gross, net := n, division := e, weight := roundDiv n (10 * e) * e }

/-- 2.3: the gross of an average. -/
def grossOf (r : CalRecord) (a z : Int) : Int := roundDiv ((a - r.zc - z) * 10000) r.span

/-- R24, step 5: the weight state. -/
def stateOf (r : CalRecord) (gross : Int) (rest : Bool) : WeightState :=
  let eT := if r.dual then r.e2 else r.e1
  if (10 * (r.max + 9 * eT) : Nat) < gross then .overload
  else if gross < -((200 * r.e1 : Nat) : Int) then .underload
  else if rest then .stable
  else .motion

/-- R25, R30, R31: the last weighing recomputed with the tare now in force. -/
def Channel.retare (c : Channel) : Channel :=
  match c.last, c.cal with
  | some w, some r => { c with last := some (weighing r w.gross c.tareInForce) }
  | _, _ => c

/-- R35, R63: the outcome decided again. -/
def Channel.reprice (c : Channel) : Channel := { c with outcome := c.price }

/-- R33: the selection with its count and preset tare, and the return-clear mark, cleared. DESIGN CHOICE (log 39): the last weighing
is recomputed without the preset tare at once, whatever event clears the selection, but for the logon that R81 names
(`Channel.dropSelection`). -/
def Channel.clearSelection (c : Channel) : Channel :=
  Channel.reprice (Channel.retare { c with selection := none, returnClear := false })

/-- R81: the selection of a channel whose clerk logged on elsewhere goes, with its count, its preset tare and the return-clear mark;
the weighing is not touched. -/
def Channel.dropSelection (c : Channel) : Channel := Channel.reprice { c with selection := none, returnClear := false }

/-- R32: a new selection. DESIGN CHOICE (log 48): the last weighing is recomputed with the new preset tare at once, as R25 says for
the keys, also when START_RUN (R135) selects. -/
def Channel.select (c : Channel) (v : PluVersion) : Channel :=
  Channel.reprice (Channel.retare
    { c with selection := some { version := v, presetTare := v.presetTare, count := none }, returnClear := false })

/-- R22: a sample is taken into both windows. -/
def Channel.takeCount (c : Channel) (x : Int) : Channel :=
  let f := pushWindow c.filter x c.config.filterLength
  { c with filter := f, stability := pushWindow c.stability (average f) c.config.stabilityCount }

/-- The last average: the newest of the stability window. -/
def Channel.lastAverage (c : Channel) : Option Int := c.stability.getLast?

/-- R27: within 2% of Max around zp. -/
def withinZeroRange (r : CalRecord) (candidate zp : Int) : Bool :=
  decide (50000 * (candidate - zp).natAbs ≤ r.max * r.span)

/-- R34: armed becomes set on a net below five divisions of e1 in STABLE or MOTION, clearing the selection when the
return-clear mark is set. -/
def Channel.zeroReturn (c : Channel) (r : CalRecord) : Channel :=
  match c.last with
  | none => c
  | some w =>
    if (c.state = .stable ∨ c.state = .motion) ∧ w.net < (50 * r.e1 : Nat) ∧ c.armed = false then
      if c.returnClear then Channel.clearSelection { c with armed := true } else { c with armed := true }
    else c

/-- R27: automatic zero tracking after a weighing of average a. -/
def Channel.track (c : Channel) (r : CalRecord) (a : Int) : Channel :=
  match c.last, c.zp with
  | some w, some zp =>
    if c.config.zeroTracking ∧ c.state = .stable ∧ c.tareInForce = 0 ∧ w.gross.natAbs ≤ 5 * r.e1 then
      if c.config.stabilityCount ≤ c.tracking + 1 then
        { c with tracking := 0, z := if withinZeroRange r (a - r.zc) zp then some (a - r.zc) else c.z }
      else { c with tracking := c.tracking + 1 }
    else { c with tracking := 0 }
  | _, _ => { c with tracking := 0 }

/-- R24: the weighing of the sample whose average is a, with the offset z. -/
def Channel.weigh (c : Channel) (r : CalRecord) (a z : Int) (rest : Bool) : Channel :=
  let w := weighing r (grossOf r a z) c.tareInForce
  { c with last := some w, state := stateOf r w.gross rest }

/-- R24, R25: a weighing and what follows it in the channel: zero return, zero tracking. -/
def Channel.weighAndFollow (c : Channel) (r : CalRecord) (a z : Int) (rest : Bool) : Channel :=
  ((c.weigh r a z rest).zeroReturn r).track r a

/-- R23: the power-up zero is tried. -/
def Channel.tryZero (c : Channel) (r : CalRecord) (a : Int) : Channel :=
  let d := a - r.zc
  if 10000 * d.natAbs ≤ r.max * r.span then
    Channel.weighAndFollow { c with zp := some d, z := some d, tracking := 0, state := .stable } r a d true
  else { c with state := .zeroFault }

/-- R22 to R25, R27, R34, R35: a sample handed to the channel, up to the decision of priceability. -/
def Channel.sample (c : Channel) (x : Int) : Channel :=
  let c1 := c.takeCount x
  let a := average c1.filter
  Channel.reprice <|
    match c1.cal with
    | none => c1
    | some r =>
      match c1.state with
      | .absent => c1
      | .calFault => c1
      | .warmup => if c1.calStatus = .valid ∧ c1.atRest r then c1.tryZero r a else c1
      | .zeroFault => if c1.calStatus = .valid ∧ c1.atRest r then c1.tryZero r a else c1
      | .motion => c1.weighAndFollow r a (c1.z.getD 0) (c1.atRest r)
      | .stable => c1.weighAndFollow r a (c1.z.getD 0) (c1.atRest r)
      | .overload => c1.weighAndFollow r a (c1.z.getD 0) (c1.atRest r)
      | .underload => c1.weighAndFollow r a (c1.z.getD 0) (c1.atRest r)

/-- R26: the windows are emptied; STABLE becomes MOTION, keeping its last weighing. -/
def Channel.emptyWindows (c : Channel) : Channel :=
  Channel.reprice { c with filter := [], stability := [], tracking := 0, state := if c.state = .stable then .motion else c.state }

/-- What head events, calibration writes and RESET_CHANNEL have in common (R20, R21, R39): the weighing starts afresh and the
selection, tare, mark and armed are cleared; the state is the one given. -/
def Channel.startAfresh (c : Channel) (state : WeightState) : Channel :=
  Channel.reprice
    { c with state := state, filter := [], stability := [], zp := none, z := none, last := none, tracking := 0,
             keyedTare := none, selection := none, returnClear := false, armed := false }

/-- R21, R39: the state a channel with a PRESENT head starts in. -/
def Channel.startState (c : Channel) : WeightState := if c.calStatus = .fault then .calFault else .warmup

/-- R19: the calibration status becomes FAULT. DESIGN CHOICE (log 57): a channel that enters CAL_FAULT here decides its pricing outcome
again at once (R35, R63), also when there was no keyed tare to lose. -/
def Channel.calibrationFault (c : Channel) (headPresent : Bool) : Channel :=
  let c1 := { c with calStatus := .fault, cal := none }
  if headPresent then
    Channel.reprice
      { c1 with state := .calFault, filter := [], stability := [], zp := none, z := none, last := none, keyedTare := none,
                tracking := 0, armed := false }
  else c1

/-- R19: a record handed over at the start-up verify. -/
def Channel.calibrationValid (c : Channel) (r : CalRecord) : Channel := { c with calStatus := .valid, cal := some r }

/-- R28: the ZERO key. A STABLE channel has a record, zp and an average; a record without them is refused NOT_STABLE. -/
def Channel.zeroKey (c : Channel) : Except Message Channel :=
  if c.state ≠ .stable then .error .notStable
  else if c.tareInForce ≠ 0 then .error .keyUnmapped
  else
    match c.cal, c.zp, c.lastAverage with
    | some r, some zp, some a =>
      if withinZeroRange r (a - r.zc) zp then
        .ok (Channel.reprice { c with z := some (a - r.zc), tracking := 0,
                                      last := some (weighing r (grossOf r a (a - r.zc)) c.tareInForce) })
      else .error .zeroRange
    | _, _, _ => .error .notStable

/-- R30: the TARE key. -/
def Channel.tareKey (c : Channel) : Except Message Channel :=
  if c.state ≠ .stable then .error .notStable
  else
    match c.last, c.cal with
    | some w, some r =>
      let t := roundDiv w.gross (10 * r.e1) * (10 * r.e1 : Nat)
      if t ≤ 0 then .error .keyUnmapped
      else .ok (Channel.reprice (Channel.retare { c with keyedTare := some t.toNat }))
    | _, _ => .error .notStable

/-- R31: the keyed tare and the selection's preset tare cleared. -/
def Channel.clearTare (c : Channel) : Channel :=
  Channel.reprice (Channel.retare
    { c with keyedTare := none, selection := c.selection.map fun sel => { sel with presetTare := 0 } })

/-- R37: COUNT_ENTRY. -/
def Channel.countKey (c : Channel) (q : Nat) : Except Message Channel :=
  match c.selection with
  | none => .error .noPlu
  | some sel =>
    if sel.version.mode = .byCount then
      .ok (Channel.reprice (Channel.retare { c with selection := some { sel with count := some q } }))
    else .error .keyUnmapped

/-- R31, R34: what a successful ADD does to the channel. -/
def Channel.afterAdd (c : Channel) : Channel :=
  let c1 := { c with armed := false, returnClear := true }
  if c.config.tareHold then c1 else c1.clearTare

/-! ## Display fields (R36, R71) -/

/-- R36: the weight field. -/
def Channel.weightField (c : Channel) : WeightField :=
  match c.state with
  | .absent => .blank
  | .calFault => .blank
  | .warmup => .blank
  | .zeroFault => .blank
  | .motion => .dashes
  | .stable => .value ((c.last.map (·.weight)).getD 0)
  | .overload => .over
  | .underload => .under

/-- R71: the price field. -/
def Channel.priceField (c : Channel) : PriceField :=
  match c.outcome with
  | .priced p => .value p
  | .noSelection => .blank
  | .notStable =>
    match c.state with
    | .motion => .dashes
    | .overload => .dashes
    | .underload => .dashes
    | .absent => .blank
    | .calFault => .blank
    | .warmup => .blank
    | .zeroFault => .blank
    | .stable => .blank
  | .noCount => .blank
  | .netLow => .blank
  | .priceOverflow => .dashes
  | .zeroPrice => .blank

end Sys2Proof.Machine
end

