-- ==== Sys2Proof/Machine/Table.lean ====
section
/-! DEFINITION. Machine/Table: the price table (chapter 3): views, key mapping, staging, publication. -/

namespace Sys2Proof.Machine

/-! ## Pages and views (R43 to R45) -/

def PagePair.get (p : PagePair) : PageName → KeyPage
  | .a => p.a
  | .b => p.b

def PagePair.put (p : PagePair) (page : KeyPage) : PageName → PagePair
  | .a => { p with a := page }
  | .b => { p with b := page }

/-- The page as it stands at G. -/
def PriceTable.pageAt (t : PriceTable) (st : Station) (name : PageName) : KeyPage := (t.pages[st]).get name

/-- The version present at G for a PLU number. -/
def PriceTable.find (t : PriceTable) (n : Nat) : Option PluVersion := t.versions.find? fun v => v.number == n

/-- The previous version a retained entry holds. -/
def Retained.version : Retained → Option PluVersion
  | .plu _ v => v
  | .page _ _ _ => none

/-- The PLU number a retained entry concerns. -/
def Retained.number : Retained → Option Nat
  | .plu n _ => some n
  | .page _ _ _ => none

/-- The previous content a retained entry holds for a page. -/
def Retained.pageOf (st : Station) (name : PageName) : Retained → Option KeyPage
  | .plu _ _ => none
  | .page st' name' p => if st' = st ∧ name' = name then some p else none

/-- R45: the versions of a view: at G, or at G overlaid by the retained set. -/
def PriceTable.view (t : PriceTable) (previous : Bool) : List PluVersion :=
  if previous then
    t.versions.filter (fun v => !(t.retained.any fun r => r.number == some v.number)) ++ t.retained.filterMap Retained.version
  else t.versions

/-- R45: a page in a view. -/
def PriceTable.viewPage (t : PriceTable) (previous : Bool) (st : Station) (name : PageName) : KeyPage :=
  if previous then (t.retained.findSome? (Retained.pageOf st name)).getD (t.pageAt st name) else t.pageAt st name

/-- R45: a channel not pinned to G is pinned to G − 1. -/
def PriceTable.isPrevious (t : PriceTable) (pinned : Nat) : Bool := pinned != t.generation

/-- The version of a PLU number in the view of a pinned generation. -/
def PriceTable.lookup (t : PriceTable) (pinned n : Nat) : Option PluVersion :=
  (t.view (t.isPrevious pinned)).find? fun v => v.number == n

/-- Of two versions found by a NEXT search the lower-numbered. -/
def lowerNumbered (n : Nat) (best : Option PluVersion) (v : PluVersion) : Option PluVersion :=
  if v.number < n then best
  else
    match best with
    | none => some v
    | some b => if v.number < b.number then some v else some b

/-- R58, NEXT: the lowest-numbered PLU of a view at or above n. -/
def PriceTable.next (t : PriceTable) (previous : Bool) (n : Nat) : Option PluVersion :=
  (t.view previous).foldl (lowerNumbered n) none

/-- R44: the PLU number a key maps to through a page; none is KEY_UNMAPPED. -/
def KeyPage.map (p : KeyPage) (k : Nat) : Option Nat :=
  match p.overrides.find? (fun o => o.1 == k) with
  | some o => some o.2
  | none =>
    match p.window with
    | none => none
    | some w =>
      if w.first ≤ k ∧ k < w.first + w.count ∧ w.base + (k - w.first) ≤ 9999 then some (w.base + (k - w.first)) else none

/-! ## Staged content (R41, R43) -/

/-- R41: the bytes of a name or text. -/
def printable (t : Text) : Bool := t.all fun b => decide (0x20 ≤ b.toNat ∧ b.toNat ≤ 0xFE)

def pluModeOf : Nat → Option PluMode
  | 0 => some .byWeight
  | 1 => some .byCount
  | 2 => some .fixed
  | _ => none

def pageNameOf : Nat → Option PageName
  | 0 => some .a
  | 1 => some .b
  | _ => none

def boolOf : Nat → Option Bool
  | 0 => some false
  | 1 => some true
  | _ => none

/-- R41: every field within its range. -/
def PluArgs.inRange (a : PluArgs) : Bool :=
  decide (1 ≤ a.number ∧ a.number ≤ 9999 ∧ 1 ≤ a.name.length ∧ a.name.length ≤ 24 ∧ a.unitPrice ≤ 999999 ∧ a.markdown ≤ 90
    ∧ (a.step = 1 ∨ a.step = 5 ∨ a.step = 10) ∧ a.presetTare ≤ 9999 ∧ 1 ≤ a.department ∧ a.department ≤ 16
    ∧ a.labelFormat ≤ 7)
    && printable a.name
    && a.shelfLife.all (fun d => decide (d ≤ 365))
    && a.extraText.all (fun t => decide (1 ≤ t.length ∧ t.length ≤ 120) && printable t)

/-- R41: the staged version, its generation empty (0) until publication; none is BAD_ARGUMENT. -/
def PluArgs.version (a : PluArgs) : Option PluVersion :=
  match pluModeOf a.mode, boolOf a.zeroAllowed with
  | some mode, some zero =>
    if a.inRange then
      some { number := a.number, name := a.name, mode := mode, unitPrice := a.unitPrice, markdown := a.markdown, step := a.step,
             presetTare := a.presetTare, department := a.department, labelFormat := a.labelFormat, shelfLife := a.shelfLife,
             extraText := a.extraText, zeroAllowed := zero, generation := 0 }
    else none
  | _, _ => none

/-- R43: the ranges of a window. -/
def KeyWindow.inRange (w : KeyWindow) : Bool :=
  decide (1 ≤ w.first ∧ w.first ≤ 48 ∧ 1 ≤ w.count ∧ w.count ≤ 48 ∧ w.first + w.count ≤ 49 ∧ 1 ≤ w.base ∧ w.base ≤ 9999)

/-- R43: the ranges of a page. -/
def KeyPage.inRange (p : KeyPage) : Bool :=
  p.window.all KeyWindow.inRange && decide (p.overrides.length ≤ 8)
    && p.overrides.all (fun o => decide (1 ≤ o.1 ∧ o.1 ≤ 48 ∧ 1 ≤ o.2 ∧ o.2 ≤ 9999))
    && decide (p.overrides.map Prod.fst).Nodup

/-! ## The change set (R46 to R49) -/

/-- What a change concerns (3.4). -/
inductive Subject where
  | plu (number : Nat)
  | page (st : Station) (name : PageName)
  deriving DecidableEq, Repr

def Change.subject : Change → Subject
  | .plu v => .plu v.number
  | .delete n => .plu n
  | .page st name _ => .page st name

/-- The place of the change that concerns a subject. -/
def PriceTable.placeOf (t : PriceTable) (x : Subject) : Option Nat := t.changes.findIdx? fun c => decide (c.subject = x)

/-- R46, R48, R49: replaces the change for the same thing in its position, or adds at the tail; the position from 1. None is the
change limit. -/
def PriceTable.stage (t : PriceTable) (c : Change) : Option (PriceTable × Nat) :=
  match t.placeOf c.subject with
  | some i => some ({ t with changes := t.changes.set i c }, i + 1)
  | none =>
    if t.changes.length < Config.changeSetMax then
      some ({ t with changes := t.changes ++ [c] }, t.changes.length + 1)
    else none

def PriceTable.present (t : PriceTable) (n : Nat) : Bool := t.versions.any fun v => v.number == n

/-- R49: a staged insert. -/
def PriceTable.isInsert (t : PriceTable) : Change → Bool
  | .plu v => !t.present v.number
  | .delete _ => false
  | .page _ _ _ => false

/-- R49: a staged deletion of a number present at G. -/
def PriceTable.isDeletion (t : PriceTable) : Change → Bool
  | .plu _ => false
  | .delete n => t.present n
  | .page _ _ _ => false

/-- R49: the projected count. -/
def PriceTable.projected (t : PriceTable) : Nat :=
  t.versions.length + t.changes.countP t.isInsert - t.changes.countP t.isDeletion

/-- R46, R49: STAGE_PLU of a checked version; none is FULL. -/
def PriceTable.stagePlu (t : PriceTable) (v : PluVersion) : Option (PriceTable × Nat) :=
  match t.stage (.plu v) with
  | none => none
  | some (t', i) => if t'.projected ≤ Config.pluMax then some (t', i) else none

/-- R47: the outcome of STAGE_DELETE: the table with the position, the table without one, or a status. -/
def PriceTable.stageDelete (t : PriceTable) (n : Nat) : Except Status (PriceTable × Option Nat) :=
  if t.present n then
    match t.stage (.delete n) with
    | none => .error .full
    | some (t', i) => .ok (t', some i)
  else
    match t.placeOf (.plu n) with
    | none => .error .notFound
    | some i => .ok ({ t with changes := t.changes.eraseIdx i }, none)

/-! ## Publication (R52, R53) -/

/-- R53: the retained entry of a change. -/
def PriceTable.retainedOf (t : PriceTable) : Change → Retained
  | .plu v => .plu v.number (t.find v.number)
  | .delete n => .plu n (t.find n)
  | .page st name _ => .page st name (t.pageAt st name)

def PriceTable.remove (t : PriceTable) (n : Nat) : PriceTable :=
  { t with versions := t.versions.filter fun v => v.number != n }

/-- R52, step 2: one change takes effect at generation g. -/
def PriceTable.apply (g : Nat) (t : PriceTable) : Change → PriceTable
  | .plu v =>
    { t with versions := insertByKey PluVersion.number { v with generation := g } (t.remove v.number).versions }
  | .delete n => t.remove n
  | .page st name p => { t with pages := modAt t.pages st fun pair => pair.put p name }

/-- R52, steps 1 to 5, within the price table. -/
def PriceTable.publish (t : PriceTable) : PriceTable :=
  { t.changes.foldl (PriceTable.apply (t.generation + 1)) t with
    generation := t.generation + 1, changes := [], retained := t.changes.map t.retainedOf, pending := true, record := stations }

/-- R51: the checks of PUBLISH. -/
def PriceTable.publishCheck (t : PriceTable) : Option Status :=
  if t.changes = [] then some .nothingStaged
  else if t.pending then some .publishPending
  else if t.generation = Config.max32 then some .genExhausted
  else none

/-! ## Encodings of 11.5 -/

/-- The STAGE_PLU fields of a version (11.5). -/
def PluVersion.bytes (v : PluVersion) : List Byte :=
  u2 v.number ++ encText v.name ++ u1 v.mode.code ++ u4 v.unitPrice ++ u1 v.markdown ++ u1 v.step ++ u2 v.presetTare
    ++ u1 v.department ++ u1 v.labelFormat ++ encOpt u2 v.shelfLife ++ encOpt encText v.extraText ++ encBool v.zeroAllowed

def KeyWindow.bytes (w : KeyWindow) : List Byte := u1 w.first ++ u1 w.count ++ u2 w.base

def KeyPage.bytes (p : KeyPage) : List Byte :=
  encOpt KeyWindow.bytes p.window ++ encList (fun o => u1 o.1 ++ u2 o.2) p.overrides

/-- R59, R182: kind by its position in 3.4 and the PLU number or the channel and page. DESIGN CHOICE (log 74): the kind byte names
the form of the subject, which has no form byte of its own. -/
def Change.bytes : Change → List Byte
  | .plu v => u1 0 ++ u2 v.number
  | .delete n => u1 1 ++ u2 n
  | .page st name _ => u1 2 ++ encStation st ++ u1 name.code

end Sys2Proof.Machine
end

