-- ==== Sys2Proof/Machine/Station.lean ====
section
/-! DEFINITION. Machine/Station: what several blocks do at one station: the display fields derived from their owners, holding
and free, adoption, clearing the selection, drawing a serial, and the order in which parties that meet are taken. -/

namespace Sys2Proof.Machine

/-! ## Clerk and basket of a station (R78, R83) -/

/-- R78: a clerk of the table. -/
def Service.clerk (v : Service) (n : Nat) : Option Clerk := v.clerks.find? fun c => c.number == n

/-- R78: a channel's clerk. -/
def Service.clerkAt (v : Service) (st : Station) : Option Clerk := v.clerks.find? fun c => c.channel == some st

/-- The record that holds an open basket. -/
def Pool.openBasket (p : Pool) (serial : Nat) : Option Basket :=
  p.records.find? fun b => b.state == .opened && b.serial == some serial

/-- A clerk's current basket. -/
def State.current (s : State) (c : Clerk) : Option Basket := c.current.bind s.pool.openBasket

/-- The ticket field of a channel's display: the ticket of its clerk's current basket. -/
def State.shownTicket (s : State) (st : Station) : Option Nat :=
  ((s.service.clerkAt st).bind s.current).bind (·.ticket)

/-! ## The display image (R11, R36, 1.6) -/

/-- The image of a PRESENT port with the fields their owners write (R36, R83); a converter fault blanks weight and price
(R11). DESIGN CHOICE (log 27): the fields are rewritten from their owners' state when it may have changed. -/
def State.imageOf (s : State) (st : Station) : DisplayImage :=
  let c := s.channels[st]
  let fault := s.ports[st].converterFault
  { weight := if fault then .blank else c.weightField,
    unitPrice := c.selection.map (·.version.unitPrice),
    price := if fault then .blank else c.priceField,
    name := (c.selection.map (·.version.name)).getD [],
    clerk := (s.service.clerkAt st).map (·.number),
    ticket := s.shownTicket st,
    message := s.ports[st].image.message }

/-- The display fields of a station are written. -/
def State.refresh (s : State) (st : Station) : State :=
  if s.ports[st].state = .present then s.setImage st (s.imageOf st) else s

/-! ## Holding, adoption and selection (R18, R33, R55, R56) -/

/-- A run in ACTIVE or ENDING. -/
def Run.holds (r : Run) : Bool := r.state == .active || r.state == .ending

/-- R18: the channel is free. -/
def State.free (s : State) (st : Station) : Bool := s.channels[st].selection.isNone && !s.runs[st].holds

/-- R40, R59: 0 free, 1 holding by selection, 2 by run. DESIGN CHOICE (log 40): a channel that holds by both answers 2. -/
def State.holdingCode (s : State) (st : Station) : Nat :=
  if s.runs[st].holds then 2 else if s.channels[st].selection.isSome then 1 else 0

/-- R56: the adoption completes when the last channel has left the record. -/
def State.completeAdoption (s : State) : State :=
  if s.price.pending ∧ s.price.record = [] then
    (s.onPrice fun t => { t with pending := false, retained := [] }).raise .adoptionComplete (u4 s.price.generation)
  else s

/-- R55: the channel's pinned generation becomes G and its number leaves the record. -/
def State.adopt (s : State) (st : Station) : State :=
  State.completeAdoption
    ((s.onChannel st fun c => { c with pinned := s.price.generation }).onPrice fun t =>
      { t with record := t.record.filter fun x => x != st })

/-- R55: a channel in the record adopts when it is free. -/
def State.adoptIfFree (s : State) (st : Station) : State :=
  if st ∈ s.price.record ∧ s.free st then s.adopt st else s

/-- R33: the selection is cleared, and a channel then free adopts. -/
def State.clearSelection (s : State) (st : Station) : State :=
  ((s.onChannel st (·.clearSelection)).adoptIfFree st).refresh st

/-- R33, R81: the selection goes and the weighing stays, and a channel then free adopts. -/
def State.dropSelection (s : State) (st : Station) : State :=
  ((s.onChannel st (·.dropSelection)).adoptIfFree st).refresh st

/-! ## Serials (R98, R162) -/

/-- R162: a serial can be drawn. -/
def Store.canDraw (m : Store) : Bool :=
  m.state == .verified && m.nextSerial.any fun n => decide (n ≤ m.highMark)

/-- A raise of the high mark waits or runs. -/
def Store.raising (m : Store) : Bool :=
  m.raiseWaiting || (match m.op with | some .raiseMark => true | _ => false)

/-- R162: the next serial is drawn; 32 or fewer left put a raise to wait. -/
def Store.draw (m : Store) : Store :=
  match m.nextSerial with
  | none => m
  | some n => { m with nextSerial := some (n + 1), raiseWaiting := m.raiseWaiting || (!m.raising && decide (m.highMark - n ≤ 32)) }

/-- The serial a draw gives. -/
def State.nextSerial (s : State) : Nat := s.store.nextSerial.getD 0

/-! ## The commit queue's entry (R147) -/

/-- R147: room for one commit, in a queue open to entries. -/
def State.commitRoom (s : State) : Bool :=
  decide (s.totals.commits.length < Config.commitQueueMax) && s.totals.closing.isNone

/-- R147: a commit is taken in at the tail. -/
def State.pushCommit (s : State) (c : Commit) : State := s.onTotals fun t => { t with commits := t.commits ++ [c] }

/-! ## Parties that meet in one step -/

/-- The parties in the order that the free value gives (log 13), and the state with that value used up. -/
def State.inOpenOrder {α : Type} (s : State) (number : α → Nat) (xs : List α) : State × List α :=
  match xs with
  | [] => (s, xs)
  | [_] => (s, xs)
  | _ :: _ :: _ => ({ s with freeCount := s.freeCount + 1 }, openOrder s.freeCount number xs)

end Sys2Proof.Machine
end

