-- ==== Sys2Proof/Machine/Labels.lean ====
section
/-! DEFINITION. Machine/Labels: the label queue (7.1, 7.2), the arbiters and the frames of a job (7.4), interrupted prints and
the end of a job (7.5). -/

namespace Sys2Proof.Machine

/-! ## Taking a job in (R116, R119) -/

def LabelUnit.room (l : LabelUnit) : Bool := decide (l.queue.length < Config.labelQueueMax)

/-- R119: queue order: class first, entry stamp within a class. -/
def Job.key (j : Job) : Nat := j.cls.code * 2 ^ 32 + j.stamp.toNat

/-- R119: the next job number after n that no job of the queue carries. -/
def nextFree (held : List Nat) : Nat → Nat → Nat
  | 0, n => (n + 1) % 65536
  | fuel + 1, n => if held.contains ((n + 1) % 65536) then nextFree held fuel ((n + 1) % 65536) else (n + 1) % 65536

/-- R119: the entry stamp of the next job. Past 32 bits it is a free value (log 12). -/
def LabelUnit.nextStamp (l : LabelUnit) : BitVec 32 :=
  if l.stamp.toNat < Config.max32 then l.stamp + 1 else Config.stampAfterLast l.nextJob

/-- R116: a job as its producer makes it. -/
def newJob (cls : LabelClass) (cfg : ChannelConfig) (link : JobLink) (content : LabelContent) : Job :=
  { number := 0, cls := cls, stamp := 0, preferred := cfg.boundPrinter, fallback := cfg.fallback, state := .queued,
    attempts := 0, link := link, content := content }

/-- R119: a job is taken into the queue. -/
def LabelUnit.takeIn (l : LabelUnit) (j : Job) : LabelUnit :=
  let job := { j with number := l.nextJob, stamp := l.nextStamp, state := .queued, attempts := 0 }
  let queue := insertByKey Job.key job l.queue
  { queue := queue, nextJob := nextFree (queue.map Job.number) 33 l.nextJob, stamp := l.nextStamp }

def LabelUnit.job (l : LabelUnit) (n : Nat) : Option Job := l.queue.find? fun j => j.number == n

def LabelUnit.update (l : LabelUnit) (n : Nat) (f : Job → Job) : LabelUnit :=
  { l with queue := l.queue.map fun j => if j.number = n then f j else j }

def LabelUnit.remove (l : LabelUnit) (n : Nat) : LabelUnit := { l with queue := l.queue.filter fun j => j.number != n }

/-! ## The frames of a job (R117, R128) -/

def fieldOf (ident : Nat) (value : Option Text) : List PrinterFrame :=
  match value with
  | none => []
  | some v => [.field ident v]

/-- R128: the segments of the extra text. -/
def extraFields (t : Text) : List PrinterFrame :=
  [.field 0x20 (t.take 59)] ++ (if 59 < t.length then [.field 0x21 ((t.drop 59).take 59)] else [])
    ++ (if 118 < t.length then [.field 0x22 ((t.drop 118).take 59)] else [])

/-- R128: one FIELD for each field the content carries, in ascending order of field identifier (7.3). -/
def LabelContent.fields (c : LabelContent) : List PrinterFrame :=
  fieldOf 0x01 (some (decimal (stationNumber c.channel))) ++ fieldOf 0x02 (c.clerk.map decimal)
    ++ fieldOf 0x03 (c.ticket.map decimal) ++ fieldOf 0x04 (c.serial.map decimal) ++ fieldOf 0x05 (c.plu.map decimal)
    ++ fieldOf 0x06 c.name ++ fieldOf 0x07 (c.netGrams.map decimalInt) ++ fieldOf 0x08 (c.quantity.map decimal)
    ++ fieldOf 0x09 (c.unitPrice.map decimal) ++ fieldOf 0x0A (c.markdownShown.map fun b => [if b then 0x31 else 0x30])
    ++ fieldOf 0x0B (some (decimal c.price)) ++ fieldOf 0x0C (c.lineCount.map decimal)
    ++ fieldOf 0x0D (c.packed.map dateText) ++ fieldOf 0x0E (c.useBy.map dateText)
    ++ (match c.extraText with | none => [] | some t => extraFields t) ++ fieldOf 0x30 (some c.code)

/-- R128: the frames of a job in order. -/
def Job.frames (j : Job) : List PrinterFrame :=
  .labelBegin j.number j.content.format j.cls :: j.content.fields ++ [.labelEnd j.number]

def PrinterFrame.isField : PrinterFrame → Bool
  | .field _ _ => true
  | .accept _ _ => false
  | .labelBegin _ _ _ => false
  | .labelEnd _ => false

/-- R124, R128: a free line begins an owed ACCEPT, otherwise the job's next frame; the first FIELD begins phase SENDING. DESIGN CHOICE
(log 67): an owed ACCEPT goes before an owed frame of a job. -/
def PrinterPort.pump (p : Printer) (q : PrinterPort) : PrinterPort :=
  if q.sending.isSome then q
  else
    match q.owedAccepts with
    | serial :: rest => { q with sending := some (.accept serial p), owedAccepts := rest }
    | [] =>
      match q.toSend with
      | [] => q
      | f :: rest =>
        { q with sending := some f, toSend := rest,
                 phase := if f.isField ∧ q.phase = some .starting then some .sending else q.phase }

/-! ## The arbiters (R127) -/

def allPrinters : List Printer := [0, 1]

def otherPrinter (p : Printer) : Printer := if p = 0 then 1 else 0

/-- R127: printer p is eligible for a job. -/
def State.eligible (s : State) (p : Printer) (j : Job) : Bool :=
  decide (j.state = .queued)
    && (decide (j.preferred = p) || (j.fallback && decide (s.printers[j.preferred].state ≠ .ready)))

/-- R127: the first QUEUED job in queue order for which p is eligible. -/
def State.nextJobFor (s : State) (p : Printer) : Option Job := s.labels.queue.find? (s.eligible p)

/-- R127: p takes the job and begins to send it. -/
def State.startJob (s : State) (p : Printer) (j : Job) : State :=
  (s.onLabels (·.update j.number fun x => { x with state := .printing p, attempts := x.attempts + 1 })).onPrinter p fun q =>
    PrinterPort.pump p
      { q with state := .busyPrinting, inHand := some j.number, phase := some .starting,
               toSend := ({ j with state := .printing p, attempts := j.attempts + 1 } : Job).frames }

/-- The READY printers with a job to choose. -/
def State.choosers (s : State) : List Printer :=
  allPrinters.filter fun p => decide (s.printers[p].state = .ready) && (s.nextJobFor p).isSome

/-- R127: one choice, by one of the arbiters that have one to make. -/
def State.chooseOnce (s : State) : State :=
  match s.inOpenOrder printerNumber s.choosers with
  | (t, p :: _) =>
    match t.nextJobFor p with
    | none => t
    | some j => t.startJob p j
  | (t, []) => t

/-- R127: after an event the arbiters choose until no READY printer has a job to take. A choice ends a port's READY, so two
choices are enough. -/
def State.arbitrate (s : State) : State := s.chooseOnce.chooseOnce

/-- R119: a job is taken in, and the arbiters choose. -/
def State.takeJob (s : State) (j : Job) : State := (s.onLabels (·.takeIn j)).arbitrate

/-! ## The end of a job (R120, R104, R139, R131) -/

inductive JobOutcome where
  | done
  | failed
  | cancelled
  deriving DecidableEq, Repr

/-- R104: the label state an outcome gives a line. -/
def JobOutcome.labelState : JobOutcome → LabelState
  | .done => .printed
  | .failed => .failed
  | .cancelled => .none

/-- R104: the outcome is written into the line whose latest job it is, in a basket still OPEN. -/
def Basket.takeOutcome (serial line job : Nat) (o : JobOutcome) (b : Basket) : Basket :=
  if b.state = .opened ∧ b.serial = some serial then
    { b with lines := b.lines.map fun l =>
        if l.number = line ∧ l.latestJob = some job then { l with labelState := o.labelState } else l }
  else b

/-- R139: the outcome is counted at the run of that serial, in every state of the record. -/
def Run.takeOutcome (serial : Nat) (o : JobOutcome) (r : Run) : Run :=
  if r.serial = some serial then
    match o with
    | .done => { r with printed := r.printed + 1 }
    | .failed => { r with failed := r.failed + 1 }
    | .cancelled => { r with cancelled := r.cancelled + 1 }
  else r

/-- R120: a job leaves the queue and its outcome goes to its producer. -/
def State.endJob (s : State) (j : Job) (o : JobOutcome) : State :=
  let t := s.onLabels (·.remove j.number)
  match j.link with
  | .item serial line => t.onPool fun p => { p with records := p.records.map (Basket.takeOutcome serial line j.number o) }
  | .summary _ => t
  | .prepack serial => { t with runs := Vector.ofFn fun st => (t.runs[st]).takeOutcome serial o }

def JobLink.serial : JobLink → Nat
  | .item serial _ => serial
  | .summary serial => serial
  | .prepack serial => serial

def JobLink.line : JobLink → Nat
  | .item _ line => line
  | .summary _ => 0
  | .prepack _ => 0

/-- The report body of JOB_FAILED (11.3). DESIGN CHOICE (log 45): its class byte is 0 SUMMARY, 1 ITEM, 2 PREPACK. -/
def Job.failedBody (j : Job) : List Byte := u2 j.number ++ u1 j.cls.code ++ u4 j.link.serial ++ u1 j.link.line

/-- R129, R131: what becomes of an interrupted job. Uncounted, its attempts fall back by one; counted, it returns below three
attempts and fails at three. -/
def State.returnJob (s : State) (p : Printer) (j : Job) (counted : Bool) : State :=
  if counted then
    if j.attempts < 3 then s.onLabels (·.update j.number fun x => { x with state := .queued })
    else (s.endJob j .failed).raise (.jobFailed p) j.failedBody
  else s.onLabels (·.update j.number fun x => { x with state := .queued, attempts := x.attempts - 1 })

/-- R129: the port stops sending the job, clears the job in hand and enters the state given. -/
def PrinterPort.drop (state : PrinterState) (q : PrinterPort) : PrinterPort :=
  { q with state := state, inHand := none, phase := none, doneTimer := false, toSend := [] }

/-- R129: the job in hand is interrupted; the port enters the state given. -/
def State.interrupt (s : State) (p : Printer) (state : PrinterState) : State :=
  let q := s.printers[p]
  let t := s.onPrinter p (PrinterPort.drop state)
  match q.inHand.bind s.labels.job with
  | none => t
  | some j => t.returnJob p j (q.phase != some .starting)

/-- A QUEUED item job of a basket. -/
def Job.isQueuedItemOf (serial : Nat) (j : Job) : Bool :=
  decide (j.state = .queued) && (match j.link with | .item k _ => k == serial | .summary _ => false | .prepack _ => false)

/-- R112, R121: the item jobs of a basket that are still QUEUED are cancelled; a PRINTING one is passed by. -/
def State.cancelItemJobs (s : State) (serial : Nat) : State :=
  (s.labels.queue.filter (Job.isQueuedItemOf serial)).foldl (fun t j => t.endJob j .cancelled) s

end Sys2Proof.Machine
end

