-- ==== Sys2Proof/Machine/Prepack.lean ====
section
/-! DEFINITION. Machine/Prepack: prepack runs (chapter 8): trigger conditions, triggers, waiting for room, ends, commits. -/

namespace Sys2Proof.Machine

/-! ## Triggers (R136 to R138) -/

/-- R136, condition 3: STABLE with a net of at least 200 × e1. -/
def Channel.stableLoad (c : Channel) : Bool :=
  match c.last with
  | none => false
  | some w => c.state == .stable && decide ((200 * c.e1 : Nat) ≤ w.net)

/-- R136: conditions 1 to 5 with the price they give. -/
def State.triggerPrice (s : State) (st : Station) : Option (PluVersion × Nat) :=
  match s.runs[st].state, s.runs[st].version, s.channels[st].outcome with
  | .active, some v, .priced price =>
    if s.channels[st].stableLoad && s.channels[st].armed && !s.clockUnset v then some (v, price) else none
  | _, _, _ => none

/-- The displayed weight of the last weighing. -/
def Channel.shownWeight (c : Channel) : Int := (c.last.map (·.weight)).getD 0

/-- R76, R117, R137: the content of a prepack label. -/
def State.packContent (s : State) (st : Station) (v : PluVersion) (price : Nat) : LabelContent :=
  let w := s.channels[st].shownWeight
  { format := v.labelFormat, channel := st, clerk := (s.service.clerkAt st).map (·.number), ticket := none, serial := none,
    plu := some v.number, name := some v.name, generation := some v.generation,
    netGrams := if v.mode = .byWeight then some w else none,
    tare := if v.mode = .byWeight then some s.channels[st].tareInForce else none, quantity := none, unitPrice := some v.unitPrice,
    markdown := some v.markdown, step := some v.step, markdownShown := some (markdownShown v w none), price := price,
    lineCount := none, packed := s.packedDate, useBy := s.useByDate v.shelfLife, extraText := v.extraText, code := itemCode v.number price }

/-- R137, R138: waiting for room ends, with the withdrawal of LABELS_FULL. -/
def State.stopWaiting (s : State) (st : Station) : State :=
  if s.runs[st].waitingRoom then (s.onRun st fun r => { r with waitingRoom := false }).withdraw st .labelsFull else s

/-- R140: the body of PREPACK_DONE. DESIGN CHOICE (log 51): the end reason is its place, from 0, in the list of R134. -/
def Run.doneBody (r : Run) : List Byte :=
  u4 (r.serial.getD 0) ++ u1 ((r.endReason.map (·.code)).getD 0) ++ u2 r.issued

/-- R140: the end ends silently. -/
def Run.silent (r : Run) : Bool := r.endReason == some .count && !r.notify

/-- R140: the end completes. -/
def State.completeEnd (s : State) (st : Station) : State :=
  let r := s.runs[st]
  let t := s.onRun st fun r => { r with state := if r.notify then .doneHeld else .idle }
  let t := if r.silent then t else t.raise (.prepackDone st) r.doneBody
  if t.channels[st].selection.isSome then t.clearSelection st else t.adoptIfFree st

/-- R140: the commit of a run. -/
def Run.commit (r : Run) (st : Station) : Commit :=
  { kind := .prepack, serial := r.serial.getD 0, clerk := none, channel := st, endedAt := r.endedAt,
    content :=
      match r.version with
      | some v => .pack v.number v.department v.mode r.issued r.weightSum r.valueSum
      | none => .pack 0 0 .byWeight r.issued r.weightSum r.valueSum,
    applyNumber := none }

/-- R140: an ACTIVE run ends with a reason; it hands over its commit, or waits in ENDING. -/
def State.endRun (s : State) (st : Station) (reason : EndReason) : State :=
  if s.runs[st].state = .active then
    let t := (s.stopWaiting st).onRun st fun r => { r with endReason := some reason, endedAt := s.clock }
    if t.runs[st].issued = 0 then t.completeEnd st
    else if t.commitRoom then (t.pushCommit (t.runs[st].commit st)).completeEnd st
    else t.onRun st fun r => { r with state := .ending }
  else s

/-- R137, steps 2 and 3: the counters of a trigger; R119: the number of its job is recorded with the run (log 59). -/
def Run.count (number : Nat) (w : Int) (price : Nat) (byWeight : Bool) (r : Run) : Run :=
  { r with jobs := r.jobs ++ [number], remaining := r.remaining - 1, issued := r.issued + 1,
           weightSum := if byWeight then r.weightSum + 10 * w else r.weightSum, valueSum := r.valueSum + price }

/-- R137: a trigger. -/
def State.trigger (s : State) (st : Station) (v : PluVersion) (price : Nat) : State :=
  let job := newJob .prepack s.channels[st].config (.prepack (s.runs[st].serial.getD 0)) (s.packContent st v price)
  let w := s.channels[st].shownWeight
  let t := (s.takeJob job).onChannel st fun c => { c with armed := false }
  let t := (t.onRun st (Run.count s.labels.nextJob w price (v.mode == .byWeight))).stopWaiting st
  if t.runs[st].remaining = 0 then t.endRun st .count else t

/-- R136, R138: the trigger conditions of a run are examined. -/
def State.examine (s : State) (st : Station) : State :=
  if s.runs[st].state = .active then
    match s.triggerPrice st with
    | none => s.stopWaiting st
    | some (v, price) =>
      if s.labels.room then s.trigger st v price
      else (s.onRun st fun r => { r with waitingRoom := true }).setMessage st .labelsFull
  else s

/-- R136: the conditions of every ACTIVE run are examined: first, in an open order, the runs for which conditions 1 to 5 hold
(log 13), then the others. -/
def State.examineAll (s : State) : State :=
  let wanting := stations.filter fun st => (s.triggerPrice st).isSome
  let others := stations.filter fun st => (s.triggerPrice st).isNone
  match s.inOpenOrder stationNumber wanting with
  | (t, order) => (order ++ others).foldl State.examine t

/-- R120, R136: after an event that began in `old`, room freed by a departing job is an examination event. -/
def State.afterDepartures (s old : State) : State :=
  if s.labels.queue.length < old.labels.queue.length then s.examineAll else s

/-! ## Runs in ENDING (R141) -/

/-- R141: one run in ENDING offers its commit. -/
def State.offer (s : State) (st : Station) : State :=
  if s.runs[st].state = .ending ∧ s.commitRoom then (s.pushCommit (s.runs[st].commit st)).completeEnd st else s

/-- R141: every run in ENDING offers its commit, in an open order (log 13). -/
def State.offerAll (s : State) : State :=
  match s.inOpenOrder stationNumber (stations.filter fun st => s.runs[st].state == .ending) with
  | (t, order) => order.foldl State.offer t

/-! ## The weighing of a station decided again (R25, R35, R36, R136) -/

/-- After the channel decided priceability: its display fields are written and its run examined. -/
def State.decided (s : State) (st : Station) : State := (s.refresh st).examine st

end Sys2Proof.Machine
end

