-- ==== Sys2Proof/Machine/Service.lean ====
section
/-! DEFINITION. Machine/Service: clerks (5.1), tickets (5.2) and the call sign list (5.3). -/

namespace Sys2Proof.Machine

/-! ## Clerks (R78 to R82) -/

def Service.updateClerk (v : Service) (n : Nat) (f : Clerk → Clerk) : Service :=
  { v with clerks := v.clerks.map fun c => if c.number = n then f c else c }

/-- R82: what the loss of its clerk does to a channel: the selection is cleared unless a run on it is ACTIVE or ENDING, and
the display follows. -/
def State.clerkLost (s : State) (st : Station) : State := if s.runs[st].holds then s.refresh st else s.clearSelection st

/-- R81: what its clerk's logon elsewhere does to a channel: as `State.clerkLost`, with its weighing not touched. -/
def State.clerkMoved (s : State) (st : Station) : State := if s.runs[st].holds then s.refresh st else s.dropSelection st

/-- R82: the clerk of a channel is logged off it. -/
def State.logOffAt (s : State) (st : Station) : State :=
  match s.service.clerkAt st with
  | none => s
  | some c => (s.onService (·.updateClerk c.number fun x => { x with channel := none })).clerkLost st

/-- R79, R80: a clerk is logged off its channel, when it has one. -/
def State.logOffClerk (s : State) (n : Nat) : State :=
  match (s.service.clerk n).bind (·.channel) with
  | none => s
  | some st => s.logOffAt st

/-- R81: clerk n moves to channel st: another clerk there loses it, and the channel the clerk comes from is left. -/
def State.logOn (s : State) (st : Station) (n : Nat) (old : Option Station) : State :=
  let displaced := s.service.clerkAt st
  let t := s.onService fun v =>
    { v with clerks := v.clerks.map fun c =>
        if c.number = n then { c with channel := some st } else if c.channel = some st then { c with channel := none } else c }
  let t := if displaced.isSome then t.clerkLost st else t
  let t := match old with | none => t | some st' => t.clerkMoved st'
  t.refresh st

/-- The open baskets of a clerk. -/
def Clerk.openCount (c : Clerk) : Nat := (if c.current.isSome then 1 else 0) + c.parked.length

/-- R83: a basket leaves its clerk's lists. -/
def Service.dropBasket (v : Service) (serial : Nat) : Service :=
  { v with clerks := v.clerks.map fun c =>
      { c with current := if c.current = some serial then none else c.current, parked := c.parked.filter fun x => x != serial } }

/-! ## Tickets (R84 to R87) -/

/-- R84: the numbers of the live tickets. -/
def Service.live (v : Service) : List Nat := v.waiting ++ v.bound.map BoundTicket.number ++ v.recallList

/-- R85: the number after n, cyclically through 1 to 99. -/
def ticketAfter (n : Nat) : Nat := if n < 99 then n + 1 else 1

/-- R85: the first of the next `fuel` numbers after n that is not live. -/
def firstFree (live : List Nat) : Nat → Nat → Option Nat
  | 0, _ => none
  | fuel + 1, n => if live.contains (ticketAfter n) then firstFree live fuel (ticketAfter n) else some (ticketAfter n)

/-- R85: a ticket is issued; none is FULL. -/
def Service.issue (v : Service) : Option (Service × Nat) :=
  match firstFree v.live 99 v.lastIssued with
  | none => none
  | some n => some ({ v with waiting := v.waiting ++ [n], lastIssued := n }, n)

/-- R87: a ticket is pushed on the recall list, and the ninth falls off its tail. -/
def Service.pushRecall (v : Service) (t : Nat) : Service := { v with recallList := (t :: v.recallList).take 8 }

/-- R86: a basket's ticket after the basket ended: a basket that never held a line sends it to the recall list when it was
cancelled, otherwise the number is free. -/
def Service.endTicket (v : Service) (b : Basket) (recallable : Bool) : Service :=
  match b.ticket with
  | none => v
  | some t =>
    let v' := { v with bound := v.bound.filter fun x => some x.serial != b.serial }
    if recallable then v'.pushRecall t else v'

/-- R86: the first line makes a CALLED ticket SERVING. -/
def Service.serve (v : Service) (serial : Nat) : Service :=
  { v with bound := v.bound.map fun x => if x.serial = serial then { x with serving := true } else x }

/-! ## The call sign list (R91, R94) -/

/-- R91, R94: the list takes a value, and a change owes a SIGN. DESIGN CHOICE (log 44): a push that leaves the list as it was is no
change. -/
def State.setSigns (s : State) (signs : List CallSign) : State :=
  if s.service.callSigns = signs then s
  else (s.onService fun v => { v with callSigns := signs }).onQueuePort fun q => { q with signOwed := true }

/-- R91: an entry is pushed at the head; an older one of the same ticket and a fifth entry leave. -/
def State.pushSign (s : State) (e : CallSign) : State :=
  s.setSigns ((e :: s.service.callSigns.filter fun x => x.ticket != e.ticket).take 4)

/-! ## The queue line (R94) -/

/-- R94: what a free queue line sends next: the owed frames in order, then an owed SIGN with the list as it stands. -/
def QueuePort.pump (signs : List CallSign) (q : QueuePort) : QueuePort :=
  if q.sending.isSome then q
  else
    match q.owed with
    | f :: rest => { q with sending := some f, owed := rest }
    | [] => if q.signOwed then { q with sending := some (.sign signs), signOwed := false } else q

/-- R94: the line begins what is owed, if it is free. -/
def State.pumpQueue (s : State) : State := s.onQueuePort (·.pump s.service.callSigns)

/-- R94: a frame becomes owed. -/
def QueuePort.owe (f : QueueFrame) (q : QueuePort) : QueuePort := { q with owed := q.owed ++ [f] }

end Sys2Proof.Machine
end

