-- ==== Sys2Proof/Machine/Baskets.lean ====
section
/-! DEFINITION. Machine/Baskets: the basket pool (chapter 6): opening, lines, item labels, closing, cancelling; calling a
customer (R88 to R90). -/

namespace Sys2Proof.Machine

/-! ## Records (R97 to R100) -/

/-- A basket that never held a line. -/
def Basket.isEmpty (b : Basket) : Bool := b.lines.isEmpty

def Basket.unvoided (b : Basket) : List Line := b.lines.filter fun l => !l.voided

/-- The newest unvoided line. -/
def Basket.newest (b : Basket) : Option Line := b.unvoided.getLast?

def Pool.update (p : Pool) (slot : Nat) (f : Basket → Basket) : Pool :=
  { p with records := p.records.map fun b => if b.slot = slot then f b else b }

def State.onBasket (s : State) (b : Basket) (f : Basket → Basket) : State := s.onPool (·.update b.slot f)

/-- One line of a basket is changed. -/
def Basket.onLine (n : Nat) (f : Line → Line) (b : Basket) : Basket :=
  { b with lines := b.lines.map fun l => if l.number = n then f l else l }

/-- R100: the record is freed in the state given, its slot at the tail of the free list. -/
def State.freeRecord (s : State) (b : Basket) (state : BasketState) : State :=
  (s.onBasket b fun x => { x with state := state, endedAt := s.clock }).onPool fun p => { p with free := p.free ++ [b.slot] }

/-- R99: a basket opens for clerk n at channel st with a ticket or none, and becomes the clerk's current basket; a called ticket
records its serial (R89, steps 3 and 4). -/
def State.openBasket (s : State) (st : Station) (n : Nat) (ticket : Option Nat) : State :=
  match s.pool.free with
  | [] => s
  | slot :: rest =>
    let serial := s.nextSerial
    let t := s.onStore Store.draw
    let t := t.onPool fun p =>
      Pool.update { p with free := rest } slot fun _ =>
        { slot := slot, state := .opened, serial := some serial, clerk := some n, ticket := ticket, channel := some st,
          openedAt := s.clock, endedAt := none, lines := [], total := 0 }
    t.onService fun v =>
      { v.updateClerk n fun c => { c with current := some serial } with
        bound := v.bound ++ (ticket.toList.map fun k => { number := k, serving := false, clerk := n, serial := serial }) }

/-! ## Commits (R110, R112) -/

def Line.commitLine (l : Line) : CommitLine :=
  { plu := l.plu, department := l.department, mode := l.mode, channel := l.channel, netWeight := l.netWeight,
    quantity := l.quantity, price := l.price, voided := l.voided }

/-- R110, R112: the commit of a basket that ended at channel st. -/
def State.basketCommit (s : State) (b : Basket) (kind : CommitKind) (st : Station) : Commit :=
  { kind := kind, serial := b.serial.getD 0, clerk := b.clerk, channel := st, endedAt := s.clock,
    content := .lines (b.lines.map Line.commitLine), applyNumber := none }

/-- The display of the channel of a basket's clerk follows (R83). -/
def State.refreshClerk (s : State) (b : Basket) : State :=
  match (b.clerk.bind s.service.clerk).bind (·.channel) with
  | none => s
  | some st => s.refresh st

/-- R112: a cancel taken at channel st. -/
def State.cancelOpen (s : State) (b : Basket) (st : Station) : State :=
  let serial := b.serial.getD 0
  let t := if b.isEmpty then s else s.pushCommit (s.basketCommit b .cancel st)
  let t := ((t.cancelItemJobs serial).freeRecord b .cancelled).onService fun v => (v.dropBasket serial).endTicket b b.isEmpty
  (t.refreshClerk b).afterDepartures s

/-! ## The basket keys (R102 to R111) -/

/-- What a basket key finds at its channel: the clerk and the current basket. -/
def State.withBasket (s : State) (st : Station) (f : Clerk → Basket → Except Message State) : Except Message State :=
  match s.service.clerkAt st with
  | none => .error .noClerk
  | some c =>
    match s.current c with
    | none => .error .noBasket
    | some b => f c b

/-- R76, R101: the line that ADD makes. -/
def State.newLine (s : State) (st : Station) (b : Basket) (sel : Selection) (price : Nat) : Line :=
  let c := s.channels[st]
  let v := sel.version
  let w := c.shownWeight
  let labelled := c.config.itemLabels
  { number := b.lines.length + 1, plu := v.number, name := v.name, mode := v.mode, department := v.department,
    labelFormat := v.labelFormat, shelfLife := v.shelfLife, extraText := v.extraText, generation := v.generation,
    netWeight := if v.mode = .byWeight then some (10 * w) else none,
    tare := if v.mode = .byWeight then some c.tareInForce else none,
    quantity := if v.mode = .byCount then sel.count else none,
    unitPrice := v.unitPrice, markdown := v.markdown, step := v.step, markdownShown := markdownShown v w sel.count,
    price := price, packed := s.packedDate, useBy := s.useByDate v.shelfLife, channel := st, voided := false,
    labelState := if labelled then .queued else .none, latestJob := if labelled then some s.labels.nextJob else none,
    reprints := 0 }

/-- R76, R104, R117: the content of an item label. -/
def itemContent (b : Basket) (l : Line) : LabelContent :=
  { format := l.labelFormat, channel := l.channel, clerk := b.clerk, ticket := b.ticket, serial := b.serial, plu := some l.plu,
    name := some l.name, generation := some l.generation, netGrams := l.netWeight.map (· / 10), tare := l.tare,
    quantity := l.quantity, unitPrice := some l.unitPrice, markdown := some l.markdown, step := some l.step,
    markdownShown := some l.markdownShown, price := l.price, lineCount := none, packed := l.packed, useBy := l.useBy,
    extraText := l.extraText, code := itemCode l.plu l.price }

/-- R104: the item job of a line made at channel st. -/
def State.itemJob (s : State) (st : Station) (b : Basket) (l : Line) : Job :=
  newJob .item s.channels[st].config (.item (b.serial.getD 0) l.number) (itemContent b l)

/-- R103: the effects of an accepted ADD. -/
def State.addLine (s : State) (st : Station) (b : Basket) (sel : Selection) (price : Nat) : State :=
  let l := s.newLine st b sel price
  let t := s.onBasket b fun x => { x with lines := x.lines ++ [l], total := x.total + price }
  let t := if s.channels[st].config.itemLabels then t.takeJob (s.itemJob st b l) else t
  let t := if b.isEmpty then t.onService (·.serve (b.serial.getD 0)) else t
  (t.onChannel st (·.afterAdd)).decided st

/-- R102, checks 4 to 10, in order, for clerk and basket. -/
def State.addChecked (s : State) (st : Station) (b : Basket) : Except Message State :=
  let c := s.channels[st]
  match c.selection with
  | none => .error .noPlu
  | some sel =>
    if sel.version.mode = .byWeight ∧ c.state ≠ .stable then .error .notStable
    else if c.armed = false then .error .zeroReturn
    else
      match c.outcome with
      | .priced price =>
        if s.clockUnset sel.version then .error .clockUnset
        else if Config.basketLinesMax ≤ b.lines.length then .error .basketFull
        else if c.config.itemLabels ∧ s.labels.room = false then .error .labelsFull
        else .ok (s.addLine st b sel price)
      | _ => .error .notPriceable

/-- R102, R103: ADD. -/
def State.addKey (st : Station) (s : State) : Except Message State :=
  match s.service.clerkAt st with
  | none => .error .noClerk
  | some _ =>
    if s.runs[st].state ≠ .idle then .error .runActive
    else s.withBasket st fun _ b => s.addChecked st b

/-- R105, R121: the latest job of a line is cancelled when it is still QUEUED; a PRINTING one is passed by. -/
def State.cancelLineJob (s : State) (serial : Nat) (l : Line) : State :=
  match l.latestJob.bind s.labels.job with
  | none => s
  | some j => if j.link = .item serial l.number ∧ j.state = .queued then s.endJob j .cancelled else s

/-- R105: VOID_LAST. -/
def State.voidKey (st : Station) (s : State) : Except Message State :=
  s.withBasket st fun _ b =>
    match b.newest with
    | none => .error .notFound
    | some l =>
      let t := s.onBasket b fun x => { (x.onLine l.number fun y => { y with voided := true }) with total := x.total - l.price }
      .ok ((t.cancelLineJob (b.serial.getD 0) l).afterDepartures s)

/-- R106: PARK. -/
def State.parkKey (st : Station) (s : State) : Except Message State :=
  s.withBasket st fun c b =>
    if 2 ≤ c.parked.length then .error .basketsFull
    else
      .ok ((s.onService (·.updateClerk c.number fun x =>
        { x with current := none, parked := x.parked ++ b.serial.toList })).refresh st)

/-- R107: RECALL_BASKET. -/
def State.recallBasketKey (st : Station) (s : State) : Except Message State :=
  match s.service.clerkAt st with
  | none => .error .noClerk
  | some c =>
    match c.parked with
    | [] => .error .notFound
    | h :: rest =>
      .ok ((s.onService (·.updateClerk c.number fun x =>
        { x with current := some h, parked := rest ++ c.current.toList })).refresh st)

/-- R108: REPRINT. -/
def State.reprintKey (st : Station) (s : State) : Except Message State :=
  s.withBasket st fun _ b =>
    match b.newest with
    | none => .error .notFound
    | some l =>
      if 9 ≤ l.reprints then .error .notFound
      else if s.labels.room = false then .error .labelsFull
      else
        let t := s.onBasket b (·.onLine l.number fun y =>
          { y with reprints := y.reprints + 1, latestJob := some s.labels.nextJob, labelState := .queued })
        .ok (t.takeJob (s.itemJob st b l))

/-- R110, R117: the content of a summary label. -/
def State.summaryContent (s : State) (st : Station) (b : Basket) : LabelContent :=
  { format := 0, channel := st, clerk := b.clerk, ticket := b.ticket, serial := b.serial, plu := none, name := none,
    generation := none, netGrams := none, tare := none, quantity := none, unitPrice := none, markdown := none, step := none,
    markdownShown := none, price := b.total,
    lineCount := some b.unvoided.length, packed := s.packedDate, useBy := none, extraText := none,
    code := summaryCode b.ticket (b.serial.getD 0) }

/-- R110: the basket closes at channel st. -/
def State.closeBasket (s : State) (st : Station) (b : Basket) : State :=
  let serial := b.serial.getD 0
  let t := s.takeJob (newJob .summary s.channels[st].config (.summary serial) (s.summaryContent st b))
  let t := (t.pushCommit (s.basketCommit b .basket st)).freeRecord b .closed
  (t.onService fun v => (v.dropBasket serial).endTicket b false).refreshClerk b

/-- R109, R111: TOTAL. -/
def State.totalKey (st : Station) (s : State) : Except Message State :=
  s.withBasket st fun _ b =>
    if b.isEmpty then .ok (s.cancelOpen b st)
    else if s.store.state ≠ .verified then .error .storeNotReady
    else if s.commitRoom = false then .error .totalsBusy
    else if b.unvoided = [] then .ok (s.cancelOpen b st)
    else if s.labels.room = false then .error .labelsFull
    else .ok (s.closeBasket st b)

/-! ## Calling customers (R88 to R90) -/

/-- R88, checks 2 to 4. -/
def State.callCheck (s : State) (c : Clerk) : Option Message :=
  if 3 ≤ c.openCount then some .basketsFull
  else if s.store.canDraw = false then some .storeNotReady
  else if s.pool.free = [] ∧ ((s.current c).any (·.isEmpty)) = false then some .basketsFull
  else none

/-- R89, steps 1 and 2: no-show and park. -/
def State.giveUp (s : State) (st : Station) (c : Clerk) : State :=
  match s.current c with
  | none => s
  | some b =>
    if b.isEmpty then s.cancelOpen b st
    else s.onService (·.updateClerk c.number fun x => { x with current := none, parked := x.parked ++ b.serial.toList })

/-- R89, steps 4 and 5, for a called ticket. -/
def State.callTicket (s : State) (st : Station) (n ticket : Nat) : State :=
  ((s.openBasket st n (some ticket)).pushSign { ticket := ticket, clerk := n, channel := st }).refresh st

/-- R89: NEXT, once accepted. -/
def State.callNext (s : State) (st : Station) (c : Clerk) : State :=
  let t := s.giveUp st c
  match t.service.waiting with
  | ticket :: rest => (t.onService fun v => { v with waiting := rest }).callTicket st c.number ticket
  | [] => ((t.openBasket st c.number none).refresh st).setMessage st .queueEmpty

/-- R88, R89: NEXT. -/
def State.nextCustomer (st : Station) (s : State) : Except Message State :=
  match s.service.clerkAt st with
  | none => .error .noClerk
  | some c =>
    match s.callCheck c with
    | some m => .error m
    | none => .ok (s.callNext st c).pumpQueue

/-- R90: RECALL_TICKET. -/
def State.recallTicketKey (st : Station) (ticket : Nat) (s : State) : Except Message State :=
  match s.service.clerkAt st with
  | none => .error .noClerk
  | some c =>
    if s.service.recallList.contains ticket then
      match s.callCheck c with
      | some m => .error m
      | none =>
        let t := (s.onService fun v => { v with recallList := v.recallList.filter fun x => x != ticket }).giveUp st c
        .ok (t.callTicket st c.number ticket).pumpQueue
    else .error .notFound

end Sys2Proof.Machine
end

