-- ==== Sys2Proof/Machine/Mem.lean ====
section
/-! DEFINITION. Machine/Mem: the bytes and stored words of the FRAM and its check code (R158). -/

namespace Sys2Proof.Machine

/-! ## Bytes, in canonical form -/

/-- What an unlisted address reads as: 0 (a blank FRAM, R158; log 1). -/
def Memory.blank : Byte := 0

/-- One byte. -/
def Memory.byte (m : List Host.Cell) (a : Nat) : Byte :=
  match m with
  | [] => Memory.blank
  | c :: rest => if c.1 = a then c.2 else Memory.byte rest a

/-- One byte is written; writing 0 removes the entry. -/
def Memory.put (m : List Host.Cell) (a : Nat) (b : Byte) : List Host.Cell :=
  match m with
  | [] => if b = Memory.blank then [] else [(a, b)]
  | c :: rest =>
    if a < c.1 then (if b = Memory.blank then c :: rest else (a, b) :: c :: rest)
    else if a = c.1 then (if b = Memory.blank then rest else (a, b) :: rest)
    else c :: Memory.put rest a b

/-- The canonical form: addresses strictly rising and inside the FRAM, no listed byte equal to the unlisted value. -/
abbrev Memory.wf (m : List Host.Cell) : Prop :=
  m.Pairwise (fun c d => c.1 < d.1) ∧ (∀ c ∈ m, c.2 ≠ Memory.blank) ∧ ∀ c ∈ m, c.1 < Config.framBytes

/-- Consecutive bytes. -/
def Memory.bytes (m : List Host.Cell) (a : Nat) : Nat → List Byte
  | 0 => []
  | n + 1 => Memory.byte m a :: Memory.bytes m (a + 1) n

/-- Consecutive bytes are written. -/
def Memory.putAll (m : List Host.Cell) (a : Nat) : List Byte → List Host.Cell
  | [] => m
  | b :: bs => Memory.putAll (Memory.put m a b) (a + 1) bs

/-! ## Stored words (R158) -/

/-- The nine bytes of a stored word as they stand in the FRAM, the first the least significant. DESIGN CHOICE (log 72): R158 does not
say which of them is the check byte; the model stores the eight data bytes first, byte 0 foremost, and the check byte ninth. -/
def wordBytes (v : BitVec 72) : List Byte :=
  [v.extractLsb' 0 8, v.extractLsb' 8 8, v.extractLsb' 16 8, v.extractLsb' 24 8, v.extractLsb' 32 8, v.extractLsb' 40 8,
   v.extractLsb' 48 8, v.extractLsb' 56 8, v.extractLsb' 64 8]

def joinBytes : List Byte → Nat
  | [] => 0
  | b :: bs => b.toNat + 256 * joinBytes bs

/-- Word w as it stands in the FRAM. -/
def Memory.word (m : List Host.Cell) (w : Nat) : BitVec 72 := BitVec.ofNat 72 (joinBytes (Memory.bytes m (9 * w) 9))

/-- Word w is transferred. The store's words are 0 to 14,562; there is no other. -/
def Memory.putWord (m : List Host.Cell) (w : Nat) (v : BitVec 72) : List Host.Cell :=
  if w < Config.framWords then Memory.putAll m (9 * w) (wordBytes v) else m

/-! ## The check code (R158) -/

/-- The numbers from 3 to 71 that are not powers of 2: the position of data bit d is the entry d. -/
def positions : List Nat := (List.range' 3 69).filter fun n => !([4, 8, 16, 32, 64].contains n)

/-- The exclusive-or of bits. -/
def xorAll (bs : List Bool) : Bool := bs.foldl Bool.xor false

/-- The data bits whose position has bit j set. -/
def covered (j : Nat) : List Nat := (List.range 64).filter fun d => (positions.getD d 0).testBit j

/-- Check bit j, for j from 0 to 6. -/
def checkBit (data : BitVec 64) (j : Nat) : Bool := xorAll ((covered j).map data.getLsbD)

/-- Check bits 0 to 6, as a number. -/
def checkLow (data : BitVec 64) : Nat :=
  (List.range 7).foldl (fun n j => n + (checkBit data j).toNat * 2 ^ j) 0

/-- The exclusive-or of the low k bits of a number. -/
def parity (k n : Nat) : Bool := xorAll ((List.range k).map n.testBit)

/-- The check byte: check bits 0 to 6, and bit 7 over the 64 data bits and check bits 0 to 6. -/
def checkByte (data : BitVec 64) : BitVec 8 :=
  BitVec.ofNat 8 (checkLow data + (Bool.xor (parity 64 data.toNat) (parity 7 (checkLow data))).toNat * 128)

/-- The stored word of eight data bytes: their 64 data bits, then the check byte, which `wordBytes` makes the ninth byte (log 72, DESIGN
CHOICE). -/
def storedWord (data : BitVec 64) : BitVec 72 := checkByte data ++ data

/-- The data of a stored word. -/
def wordData (v : BitVec 72) : BitVec 64 := v.extractLsb' 0 64

/-- The check byte of a stored word. -/
def wordCheck (v : BitVec 72) : BitVec 8 := v.extractLsb' 64 8

/-- The syndrome: bits 0 to 6 stored against recomputed, bit 7 over all 72 bits. -/
def syndrome (v : BitVec 72) : BitVec 8 :=
  BitVec.ofNat 8 (((wordCheck v).toNat % 128 ^^^ checkLow (wordData v)) + (parity 72 v.toNat).toNat * 128)

/-- What the store makes of a word read. -/
inductive WordRead where
  | good (data : BitVec 64)
  | corrected (data : BitVec 64) (syndrome : BitVec 8)
  | uncorrectable (syndrome : BitVec 8)
  deriving DecidableEq, Repr

/-- The data after the one wrong bit that the value of syndrome bits 0 to 6 names: a data bit, or a check bit. -/
def corrected (data : BitVec 64) (v : Nat) : BitVec 64 :=
  match positions.findIdx? (· == v) with
  | some d => data ^^^ BitVec.ofNat 64 (2 ^ d)
  | none => data

/-- R158: a word is judged by its syndrome. -/
def judge (v : BitVec 72) : WordRead :=
  let syn := syndrome v
  if syn = 0 then .good (wordData v)
  else if syn.toNat < 128 then .uncorrectable syn
  else if 71 < syn.toNat - 128 then .uncorrectable syn
  else .corrected (corrected (wordData v) (syn.toNat - 128)) syn

end Sys2Proof.Machine
end

