-- ==== Sys2Proof/Machine/Pass.lean ====
section
/-! DEFINITION. Machine/Pass: one pass of an operation over the FRAM: words read with correction and write-back, words written,
the memory error log (R158, R164), and the record of the words transferred, which POWER_LOSS cuts short. -/

namespace Sys2Proof.Machine

/-- The FRAM and the log as a pass leaves them, the words it transferred, the flags it raises, and whether both copies of a
value read as uncorrectable (R159). -/
structure Pass where
  fram : List Host.Cell
  log : MemLog
  trace : List (Nat × BitVec 72)
  raises : List (Flag × List Byte)
  failed : Bool
  deriving DecidableEq, Repr

def Pass.start (fram : List Host.Cell) (log : MemLog) : Pass :=
  { fram := fram, log := log, trace := [], raises := [], failed := false }

/-- A word is transferred as it stands. -/
def Pass.transfer (p : Pass) (w : Nat) (v : BitVec 72) : Pass :=
  { p with fram := Memory.putWord p.fram w v, trace := p.trace ++ [(w, v)] }

/-- Words of eight bytes: the bytes of a record, the last word filled with zero bytes (R158). -/
def wordsOf : Nat → List Byte → List (BitVec 64)
  | 0, _ => []
  | n + 1, bs => BitVec.ofNat 64 (leNat (bs.take 8)) :: wordsOf n (bs.drop 8)

/-- The eight bytes of a word's data. -/
def dataBytes (d : BitVec 64) : List Byte := leBytes 8 d.toNat

/-- Words are written in ascending order from word w. -/
def Pass.writeWords (p : Pass) (w : Nat) : List (BitVec 64) → Pass
  | [] => p
  | d :: ds => Pass.writeWords (p.transfer w (storedWord d)) (w + 1) ds

/-- A record of n words is written from word w. -/
def Pass.write (p : Pass) (w n : Nat) (bs : List Byte) : Pass := p.writeWords w (wordsOf n bs)

/-! ## The memory error log (R164) -/

def logWord : Nat := 10824

def logWords : Nat := 2

/-- The fields of the log record, in the order of R164 (log 18). -/
def MemLog.bytes (l : MemLog) : List Byte :=
  u1 l.state.code ++ encOpt u2 l.address ++ encOpt (fun r => u1 r.code) l.requester ++ encOpt (fun b => [b]) l.syndrome
    ++ encBool l.second ++ encOpt (fun r => u1 r.code) l.lastRequester ++ encOpt u2 l.lastAddress

/-- One byte that names the place of a value in a list whose last place is `last`. -/
def place (last : Nat) : Parser Nat := fun bs =>
  match num 1 bs with
  | none => none
  | some (n, r) => if n ≤ last then some (n, r) else none

def logStateOf : Nat → LogState
  | 1 => .corrected
  | 2 => .uncorrectable
  | _ => .none

def requesterOf : Nat → Requester
  | 0 => .commit
  | 1 => .periodClose
  | 2 => .totalsRead
  | 3 => .startupScan
  | _ => .calibration

/-- The log record its bytes hold. DESIGN CHOICE (log 18): bytes that hold none, as with a state, a requester or a flag byte out of its
range, read as the NONE log with every field absent. -/
def parseLog (bs : List Byte) : MemLog :=
  match both (place 2) (both (opt (num 2)) (both (opt (place 4)) (both (opt (rawBytes 1)) (both (place 1)
    (both (opt (place 4)) (opt (num 2))))))) bs with
  | some (x, _) =>
    { state := logStateOf x.1, address := x.2.1, requester := x.2.2.1.map requesterOf,
      syndrome := x.2.2.2.1.bind List.head?, second := x.2.2.2.2.1 == 1, lastRequester := x.2.2.2.2.2.1.map requesterOf,
      lastAddress := x.2.2.2.2.2.2 }
  | none => .reset

/-- One word in error. -/
structure WordError where
  word : Nat
  correctable : Bool
  syndrome : BitVec 8
  deriving DecidableEq, Repr

/-- R164: an error captured, in the fields of the log. -/
def MemLog.capture (l : MemLog) (r : Requester) (e : WordError) (second : Bool) : MemLog :=
  { l with state := if e.correctable then .corrected else .uncorrectable, address := some e.word, requester := some r,
           syndrome := some e.syndrome, second := second, lastRequester := some r, lastAddress := some e.word }

/-- R164: an error that sets second-error only. -/
def MemLog.again (l : MemLog) (r : Requester) (e : WordError) : MemLog :=
  { l with second := true, lastRequester := some r, lastAddress := some e.word }

/-- R164: the log after an error. -/
def MemLog.take (l : MemLog) (r : Requester) (e : WordError) : MemLog :=
  match l.state with
  | .none => l.capture r e l.second
  | .corrected => if e.correctable then l.again r e else l.capture r e true
  | .uncorrectable => l.again r e

/-- R164: the flag an error raises. -/
def MemLog.flagOf (l : MemLog) (e : WordError) : Option Flag :=
  match l.state with
  | .none => if e.correctable then some .memCorrected else some .memUncorrectable
  | .corrected => if e.correctable then none else some .memUncorrectable
  | .uncorrectable => none

/-- R164: an error found updates the log, in the image and in the FRAM, in the same operation. DESIGN CHOICE (log 51): the body of
MEM_CORRECTED and MEM_UNCORRECTABLE has the requester's place, from 0, in the list of R164. -/
def Pass.capture (r : Requester) (p : Pass) (e : WordError) : Pass :=
  let log := p.log.take r e
  let raises := match p.log.flagOf e with
    | none => p.raises
    | some f => p.raises ++ [(f, u2 e.word ++ u1 r.code)]
  Pass.write { p with log := log, raises := raises } logWord logWords log.bytes

/-! ## Reading (R158) -/

/-- What a pass reads: the data of the words, none for an uncorrectable one, and the errors found. -/
structure Reading where
  words : List (Option (BitVec 64))
  errors : List WordError
  deriving DecidableEq, Repr

/-- One word is read; a corrected word is written back. -/
def Pass.readOne (p : Pass) (w : Nat) : Pass × Option (BitVec 64) × List WordError :=
  match judge (Memory.word p.fram w) with
  | .good d => (p, some d, [])
  | .corrected d syn => (p.transfer w (storedWord d), some d, [{ word := w, correctable := true, syndrome := syn }])
  | .uncorrectable syn => (p, none, [{ word := w, correctable := false, syndrome := syn }])

/-- n words from word w, in ascending address order. -/
def Pass.readWords (p : Pass) (w : Nat) : Nat → Pass × Reading
  | 0 => (p, { words := [], errors := [] })
  | n + 1 =>
    let one := p.readOne w
    let rest := Pass.readWords one.1 (w + 1) n
    (rest.1, { words := one.2.1 :: rest.2.words, errors := one.2.2 ++ rest.2.errors })

/-- The bytes of words that were all readable; one uncorrectable word makes the whole record uncorrectable. -/
def recordBytes : List (Option (BitVec 64)) → Option (List Byte)
  | [] => some []
  | none :: _ => none
  | some d :: rest =>
    match recordBytes rest with
    | none => none
    | some bs => some (dataBytes d ++ bs)

/-- A record of n words is read from word w for a requester, each error captured in ascending order. DESIGN CHOICE (log 73): R158 and
R164 say only that a corrected word is written back and the log updated in the same operation; here every word of the record is read,
and written back where it was corrected, before the first log write, and each error then makes one log write. The order is seen when
power is lost. -/
def Pass.read (p : Pass) (r : Requester) (w n : Nat) : Pass × Option (List Byte) :=
  let one := p.readWords w n
  (one.2.errors.foldl (Pass.capture r) one.1, recordBytes one.2.words)

/-! ## Two copies of one value (R160, R163) -/

/-- The value two copies hold: the larger of two readable ones, the readable one of two, or none. -/
def agreed {α : Type} (larger : α → α → α) : Option α → Option α → Option α
  | some a, some b => some (larger a b)
  | some a, none => some a
  | none, some b => some b
  | none, none => none

/-- Two copies of n words each, at words w and w + n, are read; a copy that does not hold the agreed value is rewritten with it.
With both uncorrectable the pass fails. The rewrites follow both reads and their log writes (log 73, DESIGN CHOICE). -/
def Pass.readPair {α : Type} [DecidableEq α] (p : Pass) (r : Requester) (w n : Nat) (parse : List Byte → α)
    (bytes : α → List Byte) (larger : α → α → α) : Pass × Option α :=
  let one := p.read r w n
  let two := one.1.read r (w + n) n
  let a := one.2.map parse
  let b := two.2.map parse
  match agreed larger a b with
  | none => ({ two.1 with failed := true }, none)
  | some v =>
    let p1 := if a = some v then two.1 else two.1.write w n (bytes v)
    let p2 := if b = some v then p1 else p1.write (w + n) n (bytes v)
    (p2, some v)

/-! ## A write cut short (R158) -/

/-- The words transferred before power failed: n whole ones, and the next holding what the cut left. -/
def cutShort (m : List Host.Cell) (cut : BitVec 72) : Nat → List (Nat × BitVec 72) → List Host.Cell
  | _, [] => m
  | 0, (w, _) :: _ => Memory.putWord m w cut
  | n + 1, (w, v) :: rest => cutShort (Memory.putWord m w v) cut n rest

/-- The words transferred before RESTART took effect: n whole ones and the one in progress (R158, R175). -/
def completeWord (m : List Host.Cell) : Nat → List (Nat × BitVec 72) → List Host.Cell
  | _, [] => m
  | 0, (w, v) :: _ => Memory.putWord m w v
  | n + 1, (w, v) :: rest => completeWord (Memory.putWord m w v) n rest

end Sys2Proof.Machine
end

