-- ==== Sys2Proof/Machine/Accounts.lean ====
section
/-! DEFINITION. Machine/Accounts: accumulators (9.1): their places in the FRAM (R158), records, images, saturation (R145); the
deltas of a commit (R148, R149) and the assignment of PLU slots (R146). -/

namespace Sys2Proof.Machine

/-! ## Names and places (R144, R158) -/

/-- The place of an accumulator in the order of its region: PLU slots 0 to 1,024, departments, clerks, channels, summary. -/
def AccId.index : AccId → Nat
  | .plu s => s
  | .department d => 1024 + d
  | .clerk c => 1040 + c
  | .channel st => 1073 + st.val
  | .summary => 1081

/-- How many accumulator records there are. -/
def accCount : Nat := 1082

/-- The accumulator at a place. -/
def accAt (i : Nat) : AccId :=
  if i ≤ 1024 then .plu i
  else if i ≤ 1040 then .department (i - 1024)
  else if i ≤ 1072 then .clerk (i - 1040)
  else
    match stationOf (i - 1072) with
    | some st => .channel st
    | none => .summary

/-- R145: the limits of an accumulator's figures, in the order of R144. -/
def AccId.limits : AccId → List Nat
  | .plu _ => [Config.max32, Config.max48, Config.max32, Config.max48, Config.max32, Config.max48, Config.max48]
  | .department _ => [Config.max32, Config.max48]
  | .clerk _ => [Config.max32, Config.max48, Config.max32, Config.max48, Config.max32, Config.max48]
  | .channel _ => [Config.max32, Config.max48, Config.max32]
  | .summary => [Config.max32, Config.max32, Config.max48, Config.max48, Config.max48, Config.max48]

/-- R158: the first word of a record. -/
def AccId.word : AccId → Nat
  | .plu s => 1280 + 9 * s
  | .department d => 10505 + 3 * (d - 1)
  | .clerk c => 10553 + 7 * (c - 1)
  | .channel st => 10777 + 4 * st.val
  | .summary => 10809

/-- R158: the words of a record before its last, which holds the last-applied number and the flags. -/
def AccId.bodyWords : AccId → Nat
  | .plu _ => 8
  | .department _ => 2
  | .clerk _ => 6
  | .channel _ => 3
  | .summary => 6

/-- A PLU slot carries the PLU number it is assigned to (log 16). -/
def AccId.isPlu : AccId → Bool
  | .plu _ => true
  | .department _ => false
  | .clerk _ => false
  | .channel _ => false
  | .summary => false

/-! ## Records and images (R144, R158) -/

/-- A record with zero figures. -/
def AccId.zero (a : AccId) : Acc :=
  { plu := none, figures := a.limits.map fun _ => 0, lastApplied := 0, saturated := false, damaged := false }

/-- R163: an uncorrectable record rewritten as zero with the damaged flag set. -/
def AccId.damagedZero (a : AccId) : Acc := { a.zero with damaged := true }

/-- The bytes of a record's words before the last. -/
def Acc.bodyBytes (a : AccId) (x : Acc) : List Byte :=
  (if a.isPlu then encOpt u2 x.plu else []) ++ x.figures.flatMap u8

/-- The last word of a record. -/
def Acc.lastBytes (x : Acc) : List Byte := u4 x.lastApplied ++ encBool x.saturated ++ encBool x.damaged

/-- k figures of eight bytes. -/
def figuresOf : Nat → List Byte → List Nat
  | 0, _ => []
  | k + 1, bs => leNat (bs.take 8) :: figuresOf k (bs.drop 8)

/-- The PLU number of a slot record and what follows it. DESIGN CHOICE (log 70): a presence byte other than 1 reads as unassigned. -/
def slotPlu (bs : List Byte) : Option Nat × List Byte :=
  match bs with
  | p :: rest => if p = 1 then (some (leNat (rest.take 2)), rest.drop 2) else (none, rest)
  | [] => (none, [])

/-- The record its bytes hold. DESIGN CHOICE (log 70): a flag byte other than 1 reads as a clear flag. -/
def parseAcc (a : AccId) (bs : List Byte) : Acc :=
  let body := bs.take (8 * a.bodyWords)
  let last := bs.drop (8 * a.bodyWords)
  let plu := if a.isPlu then slotPlu body else (none, body)
  { plu := plu.1, figures := figuresOf a.limits.length plu.2, lastApplied := leNat (last.take 4),
    saturated := (last.drop 4).head? == some 1, damaged := (last.drop 5).head? == some 1 }

/-- R161: a record is written, its last word last. -/
def Pass.writeAcc (p : Pass) (a : AccId) (x : Acc) : Pass :=
  (p.write a.word a.bodyWords (x.bodyBytes a)).write (a.word + a.bodyWords) 1 x.lastBytes

/-- A record is read; R163: an uncorrectable one is rewritten as zero with the damaged flag set, its PLU number as given. -/
def Pass.readAcc (p : Pass) (r : Requester) (a : AccId) (plu : Option Nat) : Pass × Acc :=
  match p.read r a.word (a.bodyWords + 1) with
  | (q, some bs) => (q, parseAcc a bs)
  | (q, none) => (q.writeAcc a { a.damagedZero with plu := plu }, { a.damagedZero with plu := plu })

/-- Replaces or adds an image at a place. -/
def putImage (i : Nat) (x : Acc) : List (Nat × Acc) → List (Nat × Acc)
  | [] => [(i, x)]
  | y :: ys => if i < y.1 then (i, x) :: y :: ys else if i = y.1 then (i, x) :: ys else y :: putImage i x ys

/-- An image takes a value; a zero record is not listed. -/
def setAcc (accs : List (Nat × Acc)) (a : AccId) (x : Acc) : List (Nat × Acc) :=
  if x = a.zero then accs.filter fun y => y.1 != a.index else putImage a.index x accs

/-- The image of an accumulator. -/
def accOf (accs : List (Nat × Acc)) (a : AccId) : Acc :=
  match accs.find? (fun y => y.1 == a.index) with
  | some y => y.2
  | none => a.zero

/-! ## Saturation (R145) -/

/-- A figure after a delta, and whether the delta would have carried it past its limit. -/
def addFigure (limit figure delta : Nat) : Nat × Bool :=
  if limit < figure + delta then (limit, true) else (figure + delta, false)

def addFigures : List Nat → List Nat → List Nat → List Nat × Bool
  | l :: ls, f :: fs, d :: ds =>
    let one := addFigure l f d
    let rest := addFigures ls fs ds
    (one.1 :: rest.1, one.2 || rest.2)
  | _, fs, _ => (fs, false)

/-- R145, R150: a delta is added and the last-applied number set; a slot takes its PLU number. -/
def Acc.addDelta (a : AccId) (x : Acc) (plu : Option Nat) (delta : List Nat) (number : Nat) : Acc :=
  let sum := addFigures a.limits x.figures delta
  { plu := plu, figures := sum.1, lastApplied := number, saturated := x.saturated || sum.2, damaged := x.damaged }

/-! ## The deltas of a commit (R148, R149) -/

/-- What a delta is for: a PLU number still without its slot, or another accumulator. -/
inductive Target where
  | plu (number : Nat)
  | acc (a : AccId)
  deriving DecidableEq, Repr

/-- R148: what an unvoided line adds. -/
def CommitLine.sold (clerk : Option Nat) (l : CommitLine) : List (Target × List Nat) :=
  let weight := if l.mode = .byWeight then (l.netWeight.getD 0).toNat else 0
  let quantity := if l.mode = .byCount then l.quantity.getD 0 else 0
  [(.plu l.plu, [1, weight, quantity, l.price, 0, 0, 0]), (.acc (.department l.department), [1, l.price]),
   (.acc (.channel l.channel), [1, l.price, 0])]
    ++ (clerk.toList.map fun c => (.acc (.clerk c), [1, l.price, 0, 0, 0, 0]))
    ++ [(.acc .summary, [0, 1, l.price, 0, 0, 0])]

/-- R148, R149: what a voided line adds. -/
def CommitLine.void (clerk : Option Nat) (l : CommitLine) : List (Target × List Nat) :=
  (clerk.toList.map fun c => (.acc (.clerk c), [0, 0, 1, l.price, 0, 0])) ++ [(.acc .summary, [0, 0, 0, 0, l.price, 0])]

/-- The prices of the unvoided lines, summed. -/
def unvoidedValue (ls : List CommitLine) : Nat := ((ls.filter fun l => !l.voided).map CommitLine.price).sum

/-- R148, R149: the deltas of a commit, line by line. -/
def Commit.deltas (c : Commit) : List (Target × List Nat) :=
  match c.content with
  | .lines ls =>
    match c.kind with
    | .cancel =>
      (ls.filter (·.voided)).flatMap (CommitLine.void c.clerk)
        ++ (c.clerk.toList.map fun n => (.acc (.clerk n), [0, 0, 0, 0, 1, unvoidedValue ls]))
        ++ [(.acc .summary, [0, 0, 0, 0, 0, unvoidedValue ls])]
    | _ =>
      ls.flatMap (fun l => if l.voided then l.void c.clerk else l.sold c.clerk) ++ [(.acc .summary, [1, 0, 0, 0, 0, 0])]
  | .pack plu department _ labels weight value =>
    [(.plu plu, [0, 0, 0, 0, labels, weight.toNat, value]), (.acc (.department department), [labels, value]),
     (.acc (.channel c.channel), [0, value, labels]), (.acc .summary, [0, 0, value, value, 0, 0])]

/-! ## PLU slots (R146) -/

/-- The slot assigned to a PLU number. -/
def slotOf (accs : List (Nat × Acc)) (plu : Nat) : Option Nat :=
  (accs.find? fun y => decide (1 ≤ y.1 ∧ y.1 ≤ 1024) && y.2.plu == some plu).map Prod.fst

/-- A slot of 1 to 1,024 assigned to no PLU number, neither in the images nor earlier in the same commit. -/
def unassigned (accs : List (Nat × Acc)) (new : List (Nat × Nat)) (s : Nat) : Bool :=
  (accOf accs (.plu s)).plu.isNone && !(new.any fun x => x.2 == s)

/-- The lowest-numbered unassigned slot, looked for from slot s on. -/
def lowestFree (accs : List (Nat × Acc)) (new : List (Nat × Nat)) : Nat → Nat → Option Nat
  | 0, _ => none
  | fuel + 1, s => if unassigned accs new s then some s else lowestFree accs new fuel (s + 1)

/-- The work of forming a journal entry: the slots newly assigned, the PLU numbers that go to slot 0, the entries. -/
structure Forming where
  new : List (Nat × Nat)
  others : List Nat
  entries : List DeltaEntry
  deriving DecidableEq, Repr

/-- R146: the slot of a PLU number in a commit, with a new assignment or "other". -/
def Forming.slot (accs : List (Nat × Acc)) (f : Forming) (plu : Nat) : Forming × Nat :=
  match slotOf accs plu with
  | some s => (f, s)
  | none =>
    match f.new.find? (fun x => x.1 == plu) with
    | some x => (f, x.2)
    | none =>
      match lowestFree accs f.new 1024 1 with
      | some s => ({ f with new := f.new ++ [(plu, s)] }, s)
      | none => ({ f with others := f.others ++ (if f.others.contains plu then [] else [plu]) }, 0)

def addLists : List Nat → List Nat → List Nat
  | x :: xs, y :: ys => (x + y) :: addLists xs ys
  | xs, _ => xs

/-- A delta joins the entry of its accumulator, the entries in the order of the region (log 31). -/
def addEntry (accs : List (Nat × Acc)) (a : AccId) (plu : Option Nat) (delta : List Nat) : List DeltaEntry → List DeltaEntry
  | [] => [{ acc := a, plu := plu, before := (accOf accs a).figures, delta := delta }]
  | e :: es =>
    if e.acc = a then { e with delta := addLists e.delta delta } :: es
    else if a.index < e.acc.index then
      { acc := a, plu := plu, before := (accOf accs a).figures, delta := delta } :: e :: es
    else e :: addEntry accs a plu delta es

/-- One delta is placed. -/
def Forming.place (accs : List (Nat × Acc)) (f : Forming) (d : Target × List Nat) : Forming :=
  match d.1 with
  | .acc a => { f with entries := addEntry accs a none d.2 f.entries }
  | .plu n =>
    let g := f.slot accs n
    { g.1 with entries := addEntry accs (.plu g.2) (if g.2 = 0 then none else some n) d.2 g.1.entries }

/-- R150, stage 1: the deltas of a commit against the images. -/
def Commit.form (accs : List (Nat × Acc)) (c : Commit) : Forming :=
  c.deltas.foldl (Forming.place accs) { new := [], others := [], entries := [] }

/-! ## The grand total (R158) -/

/-- R158: the grand value, then a word with the Z counter and the saturated flag. -/
def Grand.bytes (g : Grand) : List Byte := u8 g.value ++ u4 g.z ++ encBool g.saturated

/-- The grand total its bytes hold. DESIGN CHOICE (log 70): a saturated byte other than 1 reads as a clear flag. -/
def parseGrand (bs : List Byte) : Grand :=
  { value := leNat (bs.take 8), z := leNat ((bs.drop 8).take 4), saturated := (bs.drop 12).head? == some 1 }

/-- R160: the larger of two grand total copies. DESIGN CHOICE (log 62): with equal Z counters and equal values it is the first copy,
also when the saturated flags differ. -/
def largerGrand (a b : Grand) : Grand :=
  if a.z < b.z then b else if b.z < a.z then a else if a.value < b.value then b else a

def grandWord : Nat := 42

/-- R153: the grand total after a period of a given value. -/
def Grand.close (before : Nat) (saturated : Bool) (value z : Nat) : Grand :=
  let sum := addFigure Config.max48 before value
  { value := sum.1, z := z, saturated := saturated || sum.2 }

/-- Both copies of the grand total are written, the first before the second. -/
def Pass.writeGrand (p : Pass) (g : Grand) : Pass := (p.write grandWord 2 g.bytes).write (grandWord + 2) 2 g.bytes

/-- R157: any accumulator saturated or damaged. -/
def Images.marked (i : Images) : Bool := i.grand.saturated || i.accs.any fun y => y.2.saturated || y.2.damaged

end Sys2Proof.Machine
end

