-- ==== Sys2Proof/Machine/Journal.lean ====
section
/-! DEFINITION. Machine/Journal: the journal entry (R161), the last-period record (R155), the legal region's records (R158,
R167, R168), and the writes that several operations share. -/

namespace Sys2Proof.Machine

/-! ## The last-period record (R155, R158) -/

def lastPeriodWord : Nat := 10816

def lastPeriodWords : Nat := 8

/-- R155: the fields of the record, in the order of the rule. -/
def LastPeriod.bytes (l : LastPeriod) : List Byte :=
  u4 l.z ++ encOpt encDateTime l.closedAt ++ l.figures.flatMap u8 ++ encBool l.saturated ++ encBool l.damaged

/-- The empty record: a blank one, Z number 0. -/
def LastPeriod.empty : LastPeriod :=
  { z := 0, closedAt := none, figures := [0, 0, 0, 0, 0, 0], saturated := false, damaged := false }

/-- A date and time field (R182). -/
def dateTime : Parser DateTime :=
  mapP (fun x => { year := x.1, month := x.2.1, day := x.2.2.1, hour := x.2.2.2.1, minute := x.2.2.2.2.1,
                   second := x.2.2.2.2.2 })
    (both (num 2) (both (num 1) (both (num 1) (both (num 1) (both (num 1) (num 1))))))

/-- The last-period record. DESIGN CHOICE (log 70): a flag byte other than 1 reads as a clear flag. -/
def lastPeriod : Parser LastPeriod :=
  mapP (fun x => { z := x.1, closedAt := x.2.1, figures := x.2.2.1, saturated := x.2.2.2.1 == 1, damaged := x.2.2.2.2 == 1 })
    (both (num 4) (both (opt dateTime) (both (many (num 8) 6) (both (num 1) (num 1)))))

/-- The record its bytes hold; bytes that hold none read as the empty record (log 18). -/
def parseLastPeriod (bs : List Byte) : LastPeriod := ((lastPeriod bs).map Prod.fst).getD .empty

def Pass.writeLastPeriod (p : Pass) (l : LastPeriod) : Pass := p.write lastPeriodWord lastPeriodWords l.bytes

/-- R163: the last-period record is read; an uncorrectable one is rewritten empty. -/
def Pass.readLastPeriod (p : Pass) (r : Requester) : Pass × LastPeriod :=
  match p.read r lastPeriodWord lastPeriodWords with
  | (q, some bs) => (q, parseLastPeriod bs)
  | (q, none) => (q.writeLastPeriod .empty, .empty)

/-! ## The journal (R158, R161; the fields inside a kind's content are placed by log 14) -/

def journalWord : Nat := 256

/-- The kinds of a journal entry, by their place in the list of R161. -/
def journalBasket : Nat := 1
def journalCancel : Nat := 2
def journalPrepack : Nat := 3
def journalClose : Nat := 4
def journalClear : Nat := 5
def journalRestored : Nat := 6

def CommitKind.journal : CommitKind → Nat
  | .basket => journalBasket
  | .cancel => journalCancel
  | .prepack => journalPrepack

/-- R158, R161: the fields of an entry before its content: kind, apply number, state (0 PENDING, 1 DONE). The content follows
with no padding. -/
def journalHeader (kind number : Nat) (done : Bool) : List Byte := u1 kind ++ u4 number ++ encBool done

def DeltaEntry.bytes (e : DeltaEntry) : List Byte :=
  u2 e.acc.index ++ encOpt u2 e.plu ++ e.before.flatMap u8 ++ e.delta.flatMap u8

def CommitJournal.content (j : CommitJournal) : List Byte := u4 j.serial ++ encList DeltaEntry.bytes j.entries

def CloseJournal.content (j : CloseJournal) : List Byte := j.period.bytes ++ u8 j.beforeValue ++ u4 j.beforeZ

/-- Words needed for n bytes. -/
def wordCount (n : Nat) : Nat := (n + 7) / 8

/-- R150, R153: an entry is written PENDING, its first word last (log 15). -/
def Pass.writeJournal (p : Pass) (kind number : Nat) (content : List Byte) : Pass :=
  let bs := journalHeader kind number false ++ content
  (p.write (journalWord + 1) (wordCount bs.length - 1) (bs.drop 8)).write journalWord 1 bs

/-- The entry's state is written DONE: its first word is written again with the state changed. -/
def Pass.doneJournal (p : Pass) (kind number : Nat) (content : List Byte) : Pass :=
  p.write journalWord 1 (journalHeader kind number true ++ content)

/-- One touched accumulator of a commit's entry. -/
def deltaEntry : Parser DeltaEntry := fun bs =>
  match num 2 bs with
  | none => none
  | some (i, r) =>
    let k := (accAt i).limits.length
    mapP (fun x => { acc := accAt i, plu := x.1, before := x.2.1, delta := x.2.2 })
      (both (opt (num 2)) (both (many (num 8) k) (many (num 8) k))) r

def commitKindOf : Nat → CommitKind
  | 1 => .basket
  | 2 => .cancel
  | _ => .prepack

/-- A PENDING entry of a kind with content; none when the content cannot be read (log 15). -/
def parsePending (kind number : Nat) (content : List Byte) : JournalRead :=
  if kind ≤ 3 then
    match both (num 4) (list deltaEntry) content with
    | some (x, _) => .commit { kind := commitKindOf kind, applyNumber := number, serial := x.1, entries := x.2 }
    | none => .uncorrectable
  else if kind = 4 then
    match both lastPeriod (both (num 8) (num 4)) content with
    | some (x, _) => .close { applyNumber := number, period := x.1, beforeValue := x.2.1, beforeZ := x.2.2 }
    | none => .uncorrectable
  else if kind = 5 then .clear
  else .uncorrectable

/-- R161: an entry: its kind, apply number and state, and its content. DESIGN CHOICE (log 69): a readable header with state 1 is DONE
whatever its kind but NONE, one with any other state byte is PENDING, and a PENDING one of kind RESTORED or of no listed kind is handled
as an uncorrectable entry. -/
def parseJournal (bs : List Byte) : JournalRead :=
  match both (num 1) (both (num 4) (num 1)) bs with
  | none => .uncorrectable
  | some (x, content) =>
    if x.1 = 0 then .nothing
    else if x.2.2 = 1 then .done x.2.1
    else parsePending x.1 x.2.1 content

/-- The bytes that n touched accumulators take, as far as the bytes read show it; more than were read when some are missing. -/
def deltasNeed : Nat → List Byte → Nat
  | 0, _ => 0
  | n + 1, i :: j :: present :: rest =>
    let k := 16 * (accAt (leNat [i, j])).limits.length + (if present = 1 then 2 else 0)
    3 + k + deltasNeed n (rest.drop k)
  | _ + 1, _ => 3

/-- The bytes of a period close's content: with and without the close time. -/
def closeNeed (content : List Byte) : Nat :=
  match content.drop 4 with
  | [] => 5
  | present :: _ => if present = 1 then 74 else 67

/-- The bytes that an entry takes, as far as the bytes read show it; more than were read when some are missing. -/
def journalNeed (bs : List Byte) : Nat :=
  let kind := leNat (bs.take 1)
  if kind = 0 ∨ 4 < kind then 6
  else if kind = 4 then 6 + closeNeed (bs.drop 6)
  else
    match bs.drop 10 with
    | [] => 11
    | n :: entries => 11 + deltasNeed n.toNat entries

/-- The errors of n words from word w are found by `next`, word by word; their data is not used. -/
def Pass.readPast (next : Pass → Nat → Pass × Option (List Byte)) (p : Pass) (w n : Nat) : Pass :=
  (List.range n).foldl (fun q i => (next q (w + i)).1) p

/-- R164: the words of an entry are read by `next` in ascending order as long as its fields go on. An uncorrectable word leaves open
how far they go on. DESIGN CHOICE (log 15): the reading then goes on to the last word of the journal, so that every word of the entry
in error is an error of its own, and the entry is uncorrectable. -/
def Pass.readEntry (next : Pass → Nat → Pass × Option (List Byte)) : Nat → Pass → Nat → List Byte → Pass × Option (List Byte)
  | 0, p, _, bs => (p, some bs)
  | fuel + 1, p, w, bs =>
    if journalNeed bs ≤ bs.length then (p, some bs)
    else
      match next p w with
      | (q, none) => (Pass.readPast next q (w + 1) fuel, none)
      | (q, some more) => Pass.readEntry next fuel q (w + 1) (bs ++ more)

/-- The words of the journal (R158). -/
def journalWords : Nat := 1024

/-- R160, stage 5: the journal is read. -/
def Pass.readJournal (p : Pass) (r : Requester) : Pass × JournalRead :=
  match Pass.readEntry (fun q w => q.read r w 1) journalWords p journalWord [] with
  | (q, none) => (q, .uncorrectable)
  | (q, some bs) => (q, parseJournal bs)

/-! ## The legal region's records (R158, R167, R168) -/

/-- The upper division for a lower one (2.2). -/
def nextDivision : Nat → Nat
  | 1 => 2
  | 2 => 5
  | 5 => 10
  | 10 => 20
  | _ => 0

/-- R168: the record is valid. -/
def CalRecord.valid (r : CalRecord) : Bool :=
  decide (-8388608 ≤ r.zc ∧ r.zc ≤ 8388607 ∧ 1000 ≤ r.span ∧ r.span ≤ 4000000 ∧ 100 ≤ r.max ∧ r.max ≤ 30000)
    && [1, 2, 5, 10, 20].contains r.e1
    && (match r.rangeMode with
        | 0 => r.e2 == 0 && r.max1 == 0
        | 1 => r.e1 != 20 && r.e2 == nextDivision r.e1 && decide (100 ≤ r.max1 ∧ r.max1 < r.max)
        | _ => false)

/-- The fields of a record without its check (10.7). -/
def CalRecord.bytes (r : CalRecord) : List Byte :=
  i4 r.zc ++ u4 r.span ++ u2 r.max ++ u1 r.rangeMode ++ u1 r.e1 ++ u1 r.e2 ++ u2 r.max1

/-- R168: the record check. -/
def recordCheck (bs : List Byte) : Nat := ((bs.map BitVec.toNat).sum + 0xA5A5) % 65536

/-- A record with its check, as it is stored. -/
def CalRecord.stored (r : CalRecord) : List Byte := r.bytes ++ u2 (recordCheck r.bytes)

/-- R168: the valid record that stored bytes hold; none is a missing one. -/
def parseCal (bs : List Byte) : Option CalRecord :=
  match calRecord bs with
  | none => none
  | some (r, rest) => if r.valid ∧ leNat (rest.take 2) = recordCheck (bs.take 15) then some r else none

def calWord (st : Station) : Nat := 3 * st.val

def counterWord (st : Station) : Nat := 24 + 2 * st.val

def highMarkWord : Nat := 40

/-- R168: what the store finds of a station's record. -/
inductive CalFound where
  | valid (r : CalRecord)
  | missing
  | damaged
  deriving DecidableEq, Repr

/-- A station's calibration record is read. -/
def Pass.readCal (p : Pass) (r : Requester) (st : Station) : Pass × CalFound :=
  match p.read r (calWord st) 3 with
  | (q, none) => (q, .damaged)
  | (q, some bs) =>
    match parseCal bs with
    | none => (q, .missing)
    | some c => (q, .valid c)

/-- A 32-bit count in one word. -/
def parseCount (bs : List Byte) : Nat := leNat (bs.take 4)

/-- R167: the event counter, first copy then second, and after that the record with its check. -/
def Pass.writeCal (p : Pass) (w : CalWrite) : Pass :=
  ((p.write (counterWord w.channel) 1 (u4 w.counter)).write (counterWord w.channel + 1) 1 (u4 w.counter)).write
    (calWord w.channel) 3 w.record.stored

/-- R162: the high mark 64 higher, within 32 bits. -/
def raisedMark (mark : Nat) : Nat := min (mark + 64) Config.max32

/-- R162: both copies of the high mark are written. -/
def Pass.writeMark (p : Pass) (mark : Nat) : Pass :=
  (p.write highMarkWord 1 (u4 mark)).write (highMarkWord + 1) 1 (u4 mark)

/-! ## Writes that a period close, a clear and a replay share (R153, R161, R166) -/

/-- R153, stage 4; R166, step 2: every accumulator is written with zero figures and clear flags. -/
def Pass.zeroAll (p : Pass) : Pass := (List.range accCount).foldl (fun q i => q.writeAcc (accAt i) (accAt i).zero) p

/-- R166, steps 2 to 4: what a clear writes after its journal entry. -/
def Pass.clearRest (p : Pass) : Pass :=
  let q := p.zeroAll
  ({ q with log := .reset }.write logWord logWords MemLog.reset.bytes).write journalWord 1 (journalHeader 0 0 false)

end Sys2Proof.Machine
end

