-- ==== Sys2Proof/Machine/Verify.lean ====
section
/-! DEFINITION. Machine/Verify: the start-up verify (R160 to R163) stage by stage, the journal replay, and STORE_FAULT (R159). -/

namespace Sys2Proof.Machine

/-! ## Passes and the state -/

/-- A pass over the FRAM as it stands. -/
def State.pass (s : State) : Pass := Pass.start s.store.fram s.store.log

/-- The FRAM and the log image as a pass left them; its flags rise (R164). -/
def State.takePass (s : State) (p : Pass) : State :=
  p.raises.foldl (fun t f => t.raise f.1 f.2) (s.onStore fun m => { m with fram := p.fram, log := p.log })

/-! ## STORE_FAULT (R19, R159) -/

/-- R19: a channel's calibration status becomes FAULT. -/
def State.calFault (s : State) (st : Station) : State :=
  (s.onChannel st fun c => c.calibrationFault (s.ports[st].state == .present)).decided st

/-- R159, R173: a request that waits for a store read is answered STORE_NOT_READY. -/
def HostLink.refuseWaiting (l : HostLink) : HostLink :=
  match l.executing with
  | none => l
  | some r => if r.waiting then l.answer (refusal .storeNotReady) else l

/-- R159: the store enters STORE_FAULT; the operation in flight is abandoned, and no read or log write waits any longer. -/
def State.storeFault (s : State) : State :=
  let t := s.onStore fun m => { m with state := .storeFault, op := none, waiting := [] }
  (stations.foldl State.calFault t).onLink (·.refuseWaiting)

/-! ## Stages 2 to 5 (R160) -/

/-- Stage 2: the log record is read into the image; an uncorrectable one is rewritten as NONE; then the errors found in it are
captured (R163, R164). DESIGN CHOICE (log 73): in that order. -/
def Pass.loadLog (p : Pass) : Pass :=
  let one := p.readWords logWord logWords
  let q := match recordBytes one.2.words with
    | some bs => { one.1 with log := parseLog bs }
    | none => { one.1 with log := .reset }.write logWord logWords MemLog.reset.bytes
  one.2.errors.foldl (Pass.capture .startupScan) q

/-- What stage 3 finds: a calibration record and an event counter for each station, the high mark, the grand total. -/
structure Legal where
  cals : List CalFound
  counters : List (Option Nat)
  mark : Option Nat
  grand : Option Grand
  deriving DecidableEq, Repr

/-- The calibration records are read in order. -/
def Pass.readCals (p : Pass) : List Station → Pass × List CalFound
  | [] => (p, [])
  | st :: rest =>
    let one := p.readCal .startupScan st
    let more := Pass.readCals one.1 rest
    (more.1, one.2 :: more.2)

/-- The event counters are read in order, copy by copy; two uncorrectable copies end the reading (R159). -/
def Pass.readCounters (p : Pass) : List Station → Pass × List (Option Nat)
  | [] => (p, [])
  | st :: rest =>
    let one := p.readPair .startupScan (counterWord st) 1 parseCount u4 max
    if one.1.failed then (one.1, [one.2])
    else
      let more := Pass.readCounters one.1 rest
      (more.1, one.2 :: more.2)

/-- Stage 3. Two uncorrectable copies of one value abandon the operation: nothing after them is read (R159). -/
def Pass.readLegal (p : Pass) : Pass × Legal :=
  let cals := p.readCals stations
  let counters := cals.1.readCounters stations
  if counters.1.failed then (counters.1, { cals := cals.2, counters := counters.2, mark := none, grand := none })
  else
    let mark := counters.1.readPair .startupScan highMarkWord 1 parseCount u4 max
    if mark.1.failed then (mark.1, { cals := cals.2, counters := counters.2, mark := mark.2, grand := none })
    else
      let grand := mark.1.readPair .startupScan grandWord 2 parseGrand Grand.bytes largerGrand
      (grand.1, { cals := cals.2, counters := counters.2, mark := mark.2, grand := grand.2 })

/-- Stage 4: the accumulators of a list are read into images, with the highest last-applied number. -/
def Pass.readAccs (p : Pass) (accs : List (Nat × Acc)) (highest : Nat) : List Nat → Pass × List (Nat × Acc) × Nat
  | [] => (p, accs, highest)
  | i :: rest =>
    let one := p.readAcc .startupScan (accAt i) none
    Pass.readAccs one.1 (setAcc accs (accAt i) one.2) (max highest one.2.lastApplied) rest

/-- Stage 5: the journal and the last-period record are read. -/
def Pass.readRecords (p : Pass) : Pass × JournalRead :=
  let one := p.readJournal .startupScan
  ((one.1.readLastPeriod .startupScan).1, one.2)

/-! ## Stage 6: replay (R161) -/

/-- R161: one touched accumulator of a PENDING commit: written with its before-figures plus the delta when its last-applied
number is below the entry's, otherwise passed by. -/
def replayEntry (number : Nat) (x : Pass × List (Nat × Acc)) (e : DeltaEntry) : Pass × List (Nat × Acc) :=
  let image := accOf x.2 e.acc
  if image.lastApplied < number then
    let new := Acc.addDelta e.acc { image with figures := e.before } e.plu e.delta number
    (x.1.writeAcc e.acc new, setAcc x.2 e.acc new)
  else x

/-- The value of a period summary. -/
def LastPeriod.value (l : LastPeriod) : Nat := l.figures.getD 2 0

/-- R161: a PENDING period close: stages 2 to 5 of R153 again, the grand value from the before-value. -/
def replayClose (p : Pass) (d : VerifyData) (j : CloseJournal) : Pass × VerifyData :=
  let p1 := p.writeLastPeriod j.period
  let grand := if d.grand.z < j.period.z then Grand.close j.beforeValue d.grand.saturated j.period.value j.period.z else d.grand
  let p2 := if d.grand.z < j.period.z then p1.writeGrand grand else p1
  (p2.zeroAll.doneJournal journalClose j.applyNumber j.content,
   { d with accs := [], grand := grand, replayed := journalClose, closedZ := some j.period.z, applyNumber := j.applyNumber })

/-- R161: what the verify does on the journal it read. -/
def replay (p : Pass) (d : VerifyData) : Pass × VerifyData :=
  match d.journal with
  | .nothing => (p, { d with applyNumber := 0 })
  | .done n => (p, { d with applyNumber := n })
  | .commit j =>
    let x := j.entries.foldl (replayEntry j.applyNumber) (p, d.accs)
    (x.1.doneJournal j.kind.journal j.applyNumber j.content,
     { d with accs := x.2, replayed := j.kind.journal, applyNumber := j.applyNumber })
  | .close j => replayClose p d j
  | .clear => (p.clearRest, { d with accs := [], replayed := journalClear, applyNumber := 0 })
  | .uncorrectable =>
    (p.doneJournal journalRestored d.highest [], { d with replayed := journalRestored, applyNumber := d.highest })

/-! ## The stages (R160) -/

/-- The pass of a stage and what the verify has gathered after it. -/
def verifyPass (stage : VerifyStage) (d : VerifyData) (p : Pass) : Pass × VerifyData :=
  match stage with
  | .presence => (p, d)
  | .log => (p.loadLog, d)
  | .legal =>
    let x := p.readLegal
    (x.1, { d with highMark := x.2.mark.getD 0, grand := x.2.grand.getD .zero })
  | .accumulators =>
    let x := p.readAccs [] 0 (List.range accCount)
    (x.1, { d with accs := x.2.1, highest := x.2.2 })
  | .journal =>
    let x := p.readRecords
    (x.1, { d with journal := x.2 })
  | .replay => replay p d
  | .serials => (p.writeMark (raisedMark d.highMark), d)

/-- R19, R160: a calibration record is handed to its channel, or reported missing or damaged. -/
def State.handCal (s : State) (x : Station × CalFound) : State :=
  match x.2 with
  | .valid r => s.onChannel x.1 (·.calibrationValid r)
  | .missing => s.calFault x.1
  | .damaged => s.calFault x.1

/-- Stage 3, its effects outside the FRAM: calibration records handed over, event counters known. -/
def State.takeLegal (s : State) (l : Legal) : State :=
  ((stations.zip l.cals).foldl State.handCal s).onStore fun m =>
    { m with eventCounters := Vector.ofFn fun st => (l.counters.getD st.val none).getD 0 }

/-- R160, R162: the verify completes: the serial counter is set up, the images are loaded, the store is VERIFIED and STORE_READY
rises; PERIOD_CLOSED rises after a replayed period close. DESIGN CHOICE (log 60): the apply number of the last completed commit
(R156) is the number that the journal entry carries after the replay, RESTORED among them. -/
def State.verified (s : State) (d : VerifyData) : State :=
  let t := s.onStore fun m =>
    { m with state := .verified, op := none, nextSerial := some (d.highMark + 1), highMark := raisedMark d.highMark }
  let t := t.onTotals fun x =>
    { x with images := some { accs := d.accs, grand := d.grand }, journalApply := d.applyNumber, lastCompleted := d.applyNumber }
  let t := t.raise .storeReady (u1 d.replayed)
  match d.closedZ with
  | none => t
  | some z => t.raise .periodClosed (u4 z)

def VerifyStage.next : VerifyStage → Option VerifyStage
  | .presence => some .log
  | .log => some .legal
  | .legal => some .accumulators
  | .accumulators => some .journal
  | .journal => some .replay
  | .replay => some .serials
  | .serials => none

/-- The next stage of the verify begins, or the verify completes. -/
def State.nextStage (s : State) (stage : VerifyStage) (d : VerifyData) : State :=
  match stage.next with
  | some n => s.onStore fun m => { m with op := some (.verify n d) }
  | none => s.verified d

/-- R160: a stage of the verify completes. -/
def State.stageComplete (s : State) (stage : VerifyStage) (d : VerifyData) : State :=
  let x := verifyPass stage d s.pass
  let t := s.takePass x.1
  if stage = .presence ∧ s.store.framAnswers = false then s.storeFault
  else if x.1.failed then t.storeFault
  else if stage = .legal then (t.takeLegal s.pass.readLegal.2).nextStage stage x.2
  else t.nextStage stage x.2

/-- VERIFY_STAGE_COMPLETE (R160). -/
def execVerifyStageComplete (s : State) : Host.Outcome State Fault Refusal :=
  s.event fun s =>
    match s.store.op with
    | some (.verify stage d) => some (s.stageComplete stage d)
    | _ => none

end Sys2Proof.Machine
end

