-- ==== Sys2Proof/Machine/Store.lean ====
section
/-! DEFINITION. Machine/Store: the operations on the SPI port after the verify: the port arbiter (R159), commits (R150), period
closes (R153), clears (R166), calibration writes (R167), raises (R162), reads (R155, R169), log writes (R165). -/

namespace Sys2Proof.Machine

/-! ## The port arbiter (R159) -/

/-- What waits for the port and is to begin next. -/
inductive Waiting where
  | raise
  | calibration (w : CalWrite)
  | access (a : WaitingAccess)
  | commit (c : Commit)
  | close (z : Nat)
  | clear
  deriving DecidableEq, Repr

/-- R159: the fourth rank: the commit at the head of the queue, the accepted close or the accepted clear. -/
def State.lastRank (s : State) : Option Waiting :=
  match s.totals.commits with
  | c :: _ => some (.commit c)
  | [] =>
    match s.totals.closing with
    | some z => some (.close z)
    | none => if s.store.clearAccepted then some .clear else none

/-- R159: with the port free, what the arbiter begins next. None begins in STORE_FAULT. -/
def State.nextOp (s : State) : Option Waiting :=
  if s.store.op.isSome ∨ s.store.state = .storeFault then none
  else if s.store.raiseWaiting then some .raise
  else
    match s.store.calWrites, s.store.waiting with
    | w :: _, _ => some (.calibration w)
    | [], a :: _ => some (.access a)
    | [], [] => s.lastRank

/-- R159: an operation begins with a status read; the store faults when the FRAM does not answer. -/
def State.begin (s : State) (t : State) : State := if s.store.framAnswers then t else s.storeFault

def State.setOp (s : State) (op : StoreOp) : State := s.onStore fun m => { m with op := some op }

def State.clearOp (s : State) : State := s.onStore fun m => { m with op := none }

/-! ## Commits (R150) -/

/-- R150: the apply number one above the one the journal holds. Past 32 bits it is a free value (log 12). -/
def Totals.nextApply (t : Totals) : Nat :=
  if t.journalApply < Config.max32 then t.journalApply + 1 else (Config.applyAfterLast t.journalApply).toNat

/-- The accumulator images, none listed while none are loaded. -/
def Totals.accs (t : Totals) : List (Nat × Acc) := (t.images.map (·.accs)).getD []

def Totals.grand (t : Totals) : Grand := (t.images.map (·.grand)).getD .zero

/-- R146: OTHER_USED rises for a PLU number that goes to slot 0. -/
def State.raiseOther (s : State) (plu : Nat) : State := s.raise .otherUsed (u2 plu)

/-- R150, stage 1: the head commit takes its apply number, its deltas and its slots. -/
def State.beginCommit (s : State) (c : Commit) : State :=
  let n := s.totals.nextApply
  let f := c.form s.totals.accs
  let t := s.onTotals fun x => { x with commits := { c with applyNumber := some n } :: x.commits.tail }
  (f.others.foldl State.raiseOther t).setOp
    (.commit { kind := c.kind, applyNumber := n, serial := c.serial, entries := f.entries } .journal [])

/-- R150, stage 2; R163: one accumulator is read and, when its last-applied number is below the commit's, written. -/
def applyEntry (p : Pass) (number : Nat) (e : DeltaEntry) : Pass × Acc :=
  let x := p.readAcc .commit e.acc e.plu
  if x.2.lastApplied < number then
    let new := Acc.addDelta e.acc x.2 e.plu e.delta number
    (x.1.writeAcc e.acc new, new)
  else x

/-- R150, R153: the pass of a commit's write in progress. -/
def commitPass (j : CommitJournal) (phase : CommitPhase) (p : Pass) : Pass :=
  match phase with
  | .journal => p.writeJournal j.kind.journal j.applyNumber j.content
  | .apply [] => p.doneJournal j.kind.journal j.applyNumber j.content
  | .apply (e :: _) => (applyEntry p j.applyNumber e).1
  | .done => p.doneJournal j.kind.journal j.applyNumber j.content

/-- The phase that follows once the entries left are these. -/
def applyNext (rest : List DeltaEntry) : CommitPhase :=
  match rest with
  | [] => .done
  | _ :: _ => .apply rest

/-- R150, stage 4: the images of the touched accumulators take what was written, the commit leaves the queue, and the place is
offered to runs in ENDING (R141). -/
def State.commitComplete (s : State) (j : CommitJournal) (written : List (Nat × Acc)) : State :=
  let accs := written.foldl (fun xs w => setAcc xs (accAt w.1) w.2) s.totals.accs
  (s.clearOp.onTotals fun t =>
    { t with images := t.images.map fun i => { i with accs := accs }, commits := t.commits.tail,
             lastCompleted := j.applyNumber }).offerAll

/-- COMMIT_WRITE_COMPLETE: the write in progress is done and the next follows. -/
def State.commitWritten (s : State) (j : CommitJournal) (phase : CommitPhase) (written : List (Nat × Acc)) : State :=
  let t := s.takePass (commitPass j phase s.pass)
  match phase with
  | .journal =>
    (t.onTotals fun x => { x with journalApply := j.applyNumber }).setOp (.commit j (applyNext j.entries) written)
  | .apply [] => t.commitComplete j written
  | .apply (e :: rest) =>
    t.setOp (.commit j (applyNext rest) (written ++ [(e.acc.index, (applyEntry s.pass j.applyNumber e).2)]))
  | .done => t.commitComplete j written

/-! ## Period close (R153) -/

/-- R153, stage 1: the summary is read and the journal entry formed. A damaged summary gives a zero copy (R163). -/
def State.beginClose (s : State) (z : Nat) : State :=
  let x := s.pass.readAcc .periodClose .summary none
  let period : LastPeriod :=
    { z := z, closedAt := s.clock, figures := x.2.figures, saturated := x.2.saturated, damaged := x.2.damaged }
  (s.takePass x.1).setOp
    (.close { applyNumber := s.totals.journalApply, period := period, beforeValue := s.totals.grand.value,
              beforeZ := s.totals.grand.z } .journal s.totals.grand)

/-- R153, stage 3: both copies of the grand total are read, and written when the Z counter is below the entry's. -/
def closeGrand (p : Pass) (j : CloseJournal) : Pass × Option Grand :=
  match p.readPair .periodClose grandWord 2 parseGrand Grand.bytes largerGrand with
  | (q, none) => (q, none)
  | (q, some g) =>
    if g.z < j.period.z then
      let new := Grand.close g.value g.saturated j.period.value j.period.z
      (q.writeGrand new, some new)
    else (q, some g)

/-- The pass of a period close's write in progress. -/
def closePass (j : CloseJournal) (phase : ClosePhase) (p : Pass) : Pass :=
  match phase with
  | .journal => p.writeJournal journalClose j.applyNumber j.content
  | .lastPeriod => p.writeLastPeriod j.period
  | .grand => (closeGrand p j).1
  | .zeroing => p.zeroAll
  | .done => p.doneJournal journalClose j.applyNumber j.content

/-- R153, stage 6: the images take the new values, the queue reopens, PERIOD_CLOSED rises, and runs in ENDING offer (R141). -/
def State.closeComplete (s : State) (j : CloseJournal) (grand : Grand) : State :=
  let t := s.clearOp.onTotals fun t => { t with images := some { accs := [], grand := grand }, closing := none }
  (t.raise .periodClosed (u4 j.period.z)).offerAll

/-- PERIOD_CLOSE_WRITE_COMPLETE: the write in progress is done and the next follows. -/
def State.closeWritten (s : State) (j : CloseJournal) (phase : ClosePhase) (grand : Grand) : State :=
  let p := closePass j phase s.pass
  let t := s.takePass p
  match phase with
  | .journal => t.setOp (.close j .lastPeriod grand)
  | .lastPeriod => t.setOp (.close j .grand grand)
  | .grand =>
    match (closeGrand s.pass j).2 with
    | none => t.storeFault
    | some g => t.setOp (.close j .zeroing g)
  | .zeroing => t.setOp (.close j .done grand)
  | .done => t.closeComplete j grand

/-! ## Clear, calibration, high mark, reads (R162, R165 to R169) -/

/-- R166: all a clear writes. DESIGN CHOICE (log 61): its PENDING entry of kind CLEAR carries the apply number of the entry before it. -/
def clearPass (number : Nat) (p : Pass) : Pass := (p.writeJournal journalClear number []).clearRest

/-- R166: the clear completes: the images take the cleared values, the store is VERIFIED and STORE_READY rises. DESIGN CHOICE
(log 55): the apply number of the last completed commit (R156) is 0 afterwards. -/
def State.clearStoreComplete (s : State) : State :=
  let t := s.takePass (clearPass s.totals.journalApply s.pass)
  let t := t.onStore fun m => { m with op := none, state := .verified, clearAccepted := false }
  let t := t.onTotals fun x =>
    { x with images := x.images.map fun i => { i with accs := [] }, journalApply := 0, lastCompleted := 0 }
  t.raise .storeReady (u1 0)

/-- R167: the calibration write completes. -/
def State.calWritten (s : State) (w : CalWrite) : State :=
  (s.takePass (s.pass.writeCal w)).onStore fun m =>
    { m with op := none, eventCounters := modAt m.eventCounters w.channel fun _ => w.counter }

/-- R162: the raise completes and the serials it reserves can be drawn. -/
def State.markRaised (s : State) : State :=
  (s.takePass (s.pass.writeMark (raisedMark s.store.highMark))).onStore fun m =>
    { m with op := none, highMark := raisedMark m.highMark }

/-- R169: the record and the event counter are read; a second copy when the first is uncorrectable. With both copies
uncorrectable the pass fails (R159). -/
def readCalPass (p : Pass) (st : Station) : Pass × CalFound × Nat :=
  let one := p.readCal .calibration st
  match one.1.read .calibration (counterWord st) 1 with
  | (q, some bs) => (q, one.2, parseCount bs)
  | (q, none) =>
    match q.read .calibration (counterWord st + 1) 1 with
    | (q2, some bs) => (q2, one.2, parseCount bs)
    | (q2, none) => ({ q2 with failed := true }, one.2, 0)

/-- R169: the first field of a READ_CALIBRATION reply, an alternative of R182: the record with its check, the indication missing, or
the indication damaged (R168, log 22). -/
def CalFound.bytes : CalFound → List Byte
  | .valid r => 0 :: r.stored
  | .missing => [1]
  | .damaged => [2]

/-- R169: the content of a READ_CALIBRATION reply: what was found, and the event counter. -/
def calReply (f : CalFound) (counter : Nat) : List Byte := f.bytes ++ u4 counter

/-- R169: the read completes. -/
def State.calRead (s : State) (st : Station) : State :=
  let x := readCalPass s.pass st
  let t := (s.takePass x.1).clearOp
  if x.1.failed then t.storeFault
  else
    let t := if x.2.1 = .damaged then t.calFault st else t
    t.onLink (·.answer (okReply (calReply x.2.1 x.2.2)))

/-- R155, R163: the read of the last-period record completes. -/
def State.lastPeriodRead (s : State) : State :=
  let x := s.pass.readLastPeriod .totalsRead
  ((s.takePass x.1).clearOp).onLink (·.answer (if x.2.z = 0 then refusal .notFound else okReply x.2.bytes))

/-- R165: the log image is written. -/
def Pass.writeLog (p : Pass) : Pass := p.write logWord logWords p.log.bytes

/-! ## What an operation transfers (R158) -/

/-- The pass of the operation in flight, as far as its write in progress goes: its trace has the words that POWER_LOSS, RESTART and a
FRAM that stops answering may cut short (`State.cutTrace`). -/
def State.opPass (s : State) : Pass :=
  match s.store.op with
  | none => s.pass
  | some (.verify stage d) => (verifyPass stage d s.pass).1
  | some .clear => clearPass s.totals.journalApply s.pass
  | some (.commit j phase _) => commitPass j phase s.pass
  | some (.close j phase _) => closePass j phase s.pass
  | some (.calWrite w) => s.pass.writeCal w
  | some .raiseMark => s.pass.writeMark (raisedMark s.store.highMark)
  | some (.readCalibration st) => (readCalPass s.pass st).1
  | some .readLastPeriod => (s.pass.readLastPeriod .totalsRead).1
  | some .writeLog => s.pass.writeLog

/-- R167: the words of the write in progress that may be in the FRAM before it completes: of a calibration write only the two of the
event counter, so that the old record stays whole until the write completes (DESIGN CHOICE for RESTART and for a FRAM that stops
answering, logs 9 and 56: R167 speaks of power loss); of any other write all of them. -/
def State.cutTrace (s : State) : List (Nat × BitVec 72) :=
  match s.store.op with
  | some (.calWrite _) => s.opPass.trace.take 2
  | _ => s.opPass.trace

/-- The FRAM after the write in progress was cut short, at a word and with contents the model leaves free: by power loss (R158,
log 8), or by a FRAM that stops answering (R159, DESIGN CHOICE, log 56). -/
def State.cutWrites (s : State) : State :=
  { s with
    freeCount := s.freeCount + 1,
    store := { s.store with
      fram := cutShort s.store.fram (Config.cutWord s.freeCount) (Config.wordsDone s.freeCount) s.cutTrace } }

/-! ## The commands -/

/-- FRAM_NOT_ANSWERING (R159). With no operation in flight the FRAM only answers later status reads or does not (log 10). DESIGN
CHOICE (log 56): R151 and R159 do not say how much of the write in progress has reached the FRAM; it is cut short at a free word,
and the log image and the flags stay as they were when that write began. -/
def execFramNotAnswering (answersAfter : Bool) (s : State) : Host.Outcome State Fault Refusal :=
  s.event fun s =>
    let t := if s.store.op.isSome then s.cutWrites.storeFault else s
    some (t.onStore fun m => { m with framAnswers := answersAfter })

/-- COMMIT_APPLY_BEGIN (R150). -/
def execCommitApplyBegin (s : State) : Host.Outcome State Fault Refusal :=
  s.event fun s =>
    match s.nextOp with
    | some (.commit c) => some (s.begin (s.beginCommit c))
    | _ => none

/-- COMMIT_WRITE_COMPLETE (R150). -/
def execCommitWriteComplete (s : State) : Host.Outcome State Fault Refusal :=
  s.event fun s =>
    match s.store.op with
    | some (.commit j phase written) => some (s.commitWritten j phase written)
    | _ => none

/-- PERIOD_CLOSE_BEGIN (R153). -/
def execPeriodCloseBegin (s : State) : Host.Outcome State Fault Refusal :=
  s.event fun s =>
    match s.nextOp with
    | some (.close z) => some (s.begin (s.beginClose z))
    | _ => none

/-- PERIOD_CLOSE_WRITE_COMPLETE (R153). -/
def execPeriodCloseWriteComplete (s : State) : Host.Outcome State Fault Refusal :=
  s.event fun s =>
    match s.store.op with
    | some (.close j phase grand) => some (s.closeWritten j phase grand)
    | _ => none

/-- CLEAR_OPERATION_BEGIN (R166). -/
def execClearOperationBegin (s : State) : Host.Outcome State Fault Refusal :=
  s.event fun s =>
    match s.nextOp with
    | some .clear => some (s.begin (s.setOp .clear))
    | _ => none

/-- CLEAR_COMPLETE (R166). -/
def execClearComplete (s : State) : Host.Outcome State Fault Refusal :=
  s.event fun s =>
    match s.store.op with
    | some .clear => some s.clearStoreComplete
    | _ => none

/-- CALIBRATION_WRITE_BEGIN (R167). -/
def execCalibrationWriteBegin (s : State) : Host.Outcome State Fault Refusal :=
  s.event fun s =>
    match s.nextOp with
    | some (.calibration w) =>
      some (s.begin ((s.onStore fun m => { m with calWrites := m.calWrites.tail }).setOp (.calWrite w)))
    | _ => none

/-- CALIBRATION_WRITE_COMPLETE (R167). -/
def execCalibrationWriteComplete (s : State) : Host.Outcome State Fault Refusal :=
  s.event fun s =>
    match s.store.op with
    | some (.calWrite w) => some (s.calWritten w)
    | _ => none

/-- HIGH_MARK_RAISE_BEGIN (R162). -/
def execHighMarkRaiseBegin (s : State) : Host.Outcome State Fault Refusal :=
  s.event fun s =>
    match s.nextOp with
    | some .raise => some (s.begin ((s.onStore fun m => { m with raiseWaiting := false }).setOp .raiseMark))
    | _ => none

/-- HIGH_MARK_RAISE_COMPLETE (R162). -/
def execHighMarkRaiseComplete (s : State) : Host.Outcome State Fault Refusal :=
  s.event fun s =>
    match s.store.op with
    | some .raiseMark => some s.markRaised
    | _ => none

/-- The waiting access at the head begins. -/
def State.beginAccess (s : State) (op : StoreOp) : State :=
  s.begin ((s.onStore fun m => { m with waiting := m.waiting.tail }).setOp op)

/-- CALIBRATION_READ_BEGIN (R169). -/
def execCalibrationReadBegin (s : State) : Host.Outcome State Fault Refusal :=
  s.event fun s =>
    match s.nextOp with
    | some (.access (.readCalibration st)) => some (s.beginAccess (.readCalibration st))
    | _ => none

/-- CALIBRATION_READ_COMPLETE (R169). -/
def execCalibrationReadComplete (s : State) : Host.Outcome State Fault Refusal :=
  s.event fun s =>
    match s.store.op with
    | some (.readCalibration st) => some (s.calRead st)
    | _ => none

/-- LAST_PERIOD_READ_BEGIN (R155). -/
def execLastPeriodReadBegin (s : State) : Host.Outcome State Fault Refusal :=
  s.event fun s =>
    match s.nextOp with
    | some (.access .readLastPeriod) => some (s.beginAccess .readLastPeriod)
    | _ => none

/-- LAST_PERIOD_READ_COMPLETE (R155). -/
def execLastPeriodReadComplete (s : State) : Host.Outcome State Fault Refusal :=
  s.event fun s =>
    match s.store.op with
    | some .readLastPeriod => some s.lastPeriodRead
    | _ => none

/-- MEMORY_LOG_WRITE_BEGIN (R165). -/
def execMemoryLogWriteBegin (s : State) : Host.Outcome State Fault Refusal :=
  s.event fun s =>
    match s.nextOp with
    | some (.access .writeLog) => some (s.beginAccess .writeLog)
    | _ => none

/-- MEMORY_LOG_WRITE_COMPLETE (R165). -/
def execMemoryLogWriteComplete (s : State) : Host.Outcome State Fault Refusal :=
  s.event fun s =>
    match s.store.op with
    | some .writeLog => some ((s.takePass s.pass.writeLog).clearOp)
    | _ => none

end Sys2Proof.Machine
end

