-- ==== Sys2Proof/Machine/PriceRequests.lean ====
section
/-! DEFINITION. Machine/PriceRequests: the requests of the price table (3.4 to 3.7), and replies in parts (R182). -/

namespace Sys2Proof.Machine

/-! ## Replies in parts (R182) -/

/-- How many entries fit into a number of bytes, from the front. -/
def fitting : Nat → List (List Byte) → Nat
  | _, [] => 0
  | room, e :: es => if e.length ≤ room then fitting (room - e.length) es + 1 else 0

/-- R182: the payload bytes a reply has beside its status (log 21). -/
def contentMax : Nat := 1028

/-- R182: a list carried from a first entry (counting from 1; the whole list when none is named), as many whole entries as fit
beside `fixed` other bytes, and the continuation index. None when the index lies beyond the list's end (log 20). -/
def inParts (es : List (List Byte)) (start : Option Nat) (fixed : Nat) : Option (List Byte × List Byte) :=
  let first := start.getD 1
  if first = 0 ∨ (start.isSome ∧ es.length < first) then none
  else
    let rest := es.drop (first - 1)
    let n := fitting (contentMax - fixed - 2) rest
    some (u1 n ++ (rest.take n).flatten, u1 (if n < rest.length then first + n else 0))

/-- R182: a reply of fields before the long list, the list, and fields after it. -/
def partsReply (before : List Byte) (es : List (List Byte)) (after : List Byte) (start : Option Nat) : List Byte :=
  match inParts es start (before.length + after.length) with
  | none => refusal .badArgument
  | some (list, next) => okReply (before ++ list ++ after ++ next)

/-! ## Staging (R46 to R50) -/

/-- The reply to an accepted STAGE_PLU or STAGE_KEY_PAGE: position and list length. -/
def stageReply (t : PriceTable) (position : Nat) : List Byte := okReply (u1 position ++ u1 t.changes.length)

/-- R46: STAGE_PLU. -/
def State.stagePlu (a : PluArgs) (s : State) : State × List Byte :=
  match a.version with
  | none => (s, refusal .badArgument)
  | some v =>
    match s.price.stagePlu v with
    | none => (s, refusal .full)
    | some (t, i) => (s.onPrice fun _ => t, stageReply t i)

/-- STAGE_PLU (R46). -/
def execStagePlu (s : State) : Host.Outcome State Fault Refusal := s.request 0x20 (withArgs parsePlu State.stagePlu)

/-- R47: STAGE_DELETE. -/
def State.stageDelete (n : Nat) (s : State) : State × List Byte :=
  if n < 1 ∨ 9999 < n then (s, refusal .badArgument)
  else
    match s.price.stageDelete n with
    | .error status => (s, refusal status)
    | .ok (t, position) => (s.onPrice fun _ => t, okReply (u1 t.changes.length ++ encOpt u1 position))

/-- STAGE_DELETE (R47). -/
def execStageDelete (s : State) : Host.Outcome State Fault Refusal := s.request 0x21 (withArgs parseNumber2 State.stageDelete)

/-- R48: STAGE_KEY_PAGE. -/
def State.stageKeyPage (a : PageArgs) (s : State) : State × List Byte :=
  match stationOf a.channel, pageNameOf a.page with
  | some st, some name =>
    if a.content.inRange then
      match s.price.stage (.page st name a.content) with
      | none => (s, refusal .full)
      | some (t, i) => (s.onPrice fun _ => t, stageReply t i)
    else (s, refusal .badArgument)
  | _, _ => (s, refusal .badArgument)

/-- STAGE_KEY_PAGE (R48). -/
def execStageKeyPage (s : State) : Host.Outcome State Fault Refusal := s.request 0x22 (withArgs parsePage State.stageKeyPage)

/-- DISCARD_STAGE (R50). -/
def execDiscardStage (s : State) : Host.Outcome State Fault Refusal :=
  s.request 0x23 (noArgs fun s => (s.onPrice fun t => { t with changes := [] }, okReply []))

/-! ## Publication and forced adoption (R51, R52, R57) -/

/-- R52: an accepted publication: every free channel adopts at once. -/
def State.publishNow (s : State) : State := stations.foldl State.adoptIfFree (s.onPrice PriceTable.publish)

/-- R51, R52: PUBLISH. -/
def State.publish (s : State) : State × List Byte :=
  match s.price.publishCheck with
  | some status => (s, refusal status)
  | none =>
    let t := s.publishNow
    (t, okReply (u4 t.price.generation ++ u1 t.price.record.length))

/-- PUBLISH (R52). -/
def execPublish (s : State) : Host.Outcome State Fault Refusal := s.request 0x24 (noArgs State.publish)

/-- R57: one channel is forced. -/
def State.forceChannel (s : State) (st : Station) : State :=
  let t := s.endRun st .priceForced
  let t := if t.channels[st].selection.isSome then t.clearSelection st else t
  (t.setMessage st .priceChanged).adopt st

/-- R57: FORCE_ADOPTION. DESIGN CHOICE (log 42): with adoption pending no, the OK carries the count 0. -/
def State.forceAdoption (s : State) : State × List Byte :=
  (s.price.record.foldl State.forceChannel s, okReply (u1 s.price.record.length))

/-- FORCE_ADOPTION (R57). -/
def execForceAdoption (s : State) : Host.Outcome State Fault Refusal := s.request 0x25 (noArgs State.forceAdoption)

/-! ## Reading (R58, R59) -/

/-- R58: the view selector: 0 ACTIVE, 1 RETAINED. RETAINED needs a pending adoption. -/
def State.viewOf (s : State) (view : Nat) : Except Status Bool :=
  match boolOf view with
  | none => .error .badArgument
  | some previous => if previous ∧ s.price.pending = false then .error .state else .ok previous

/-- R58: the version a PLU target reads. -/
def State.readVersion (s : State) (previous exact : Bool) (n : Nat) : Option PluVersion :=
  if exact then (s.price.view previous).find? fun v => v.number == n else s.price.next previous n

/-- R58: READ_PLU. -/
def State.readPlu (a : ReadPluArgs) (s : State) : List Byte :=
  match a with
  | .other => refusal .badArgument
  | .plu n view mode =>
    match boolOf mode with
    | none => refusal .badArgument
    | some next =>
      if n < 1 ∨ 9999 < n then refusal .badArgument
      else
        match s.viewOf view with
        | .error status => refusal status
        | .ok previous =>
          match s.readVersion previous (!next) n with
          | none => refusal .notFound
          | some v => okReply (v.bytes ++ u4 v.generation)
  | .page channel page view =>
    match stationOf channel, pageNameOf page with
    | some st, some name =>
      match s.viewOf view with
      | .error status => refusal status
      | .ok previous => okReply (s.price.viewPage previous st name).bytes
    | _, _ => refusal .badArgument

/-- READ_PLU (R58). -/
def execReadPlu (s : State) : Host.Outcome State Fault Refusal :=
  s.request 0x26 (withArgs parseReadPlu fun a s => (s, s.readPlu a))

/-- R59: a channel's pinned generation and holding. -/
def State.pinBytes (s : State) (st : Station) : List Byte :=
  u4 s.channels[st].pinned ++ u1 (s.holdingCode st)

/-- R59: READ_ADOPTION. DESIGN CHOICE (log 41): the eight channels' items are sent in channel order with no count and no channel
number; (log 74): a change-set entry has its kind byte and no form byte beside it. -/
def State.readAdoption (start : Option Nat) (s : State) : List Byte :=
  partsReply
    (u4 s.price.generation ++ encBool s.price.pending ++ encList encStation s.price.record ++ stations.flatMap s.pinBytes
      ++ u2 s.price.versions.length ++ u2 s.price.projected)
    (s.price.changes.map Change.bytes) (u1 s.price.retained.length) start

/-- READ_ADOPTION (R59). -/
def execReadAdoption (s : State) : Host.Outcome State Fault Refusal :=
  s.request 0x27 (withArgs parseContinuation fun start s => (s, s.readAdoption start))

end Sys2Proof.Machine
end

