-- ==== Sys2Proof/Machine/CounterRequests.lean ====
section
/-! DEFINITION. Machine/CounterRequests: the requests of the service queue (5.1, 5.2, 5.5), the basket pool (6.8, 6.10), the
label unit (7.2, 7.6, 7.7) and the prepack controller (8.2, 8.4, 8.5). -/

namespace Sys2Proof.Machine

/-! ## Clerks and tickets (R79, R80, R85, R95, R96) -/

/-- R79: the ranges of DEFINE_CLERK. -/
def ClerkArgs.inRange (a : ClerkArgs) : Bool :=
  decide (1 ≤ a.number ∧ a.number ≤ 32 ∧ 1 ≤ a.name.length ∧ a.name.length ≤ 12 ∧ a.enable ≤ 1) && printable a.name

/-- R79: the clerk a definition makes: nobody logged on, no tickets. -/
def ClerkArgs.newClerk (a : ClerkArgs) : Clerk :=
  { number := a.number, name := a.name, enabled := a.enable == 1, channel := none, current := none, parked := [] }

/-- R79: a clerk is defined, or its name and enable are replaced. -/
def Service.define (v : Service) (a : ClerkArgs) : Service :=
  if (v.clerk a.number).isSome then
    v.updateClerk a.number (fun c => { c with name := a.name, enabled := a.enable == 1 })
  else { v with clerks := insertByKey Clerk.number a.newClerk v.clerks }

/-- R79: DEFINE_CLERK. -/
def State.defineClerk (a : ClerkArgs) (s : State) : State × List Byte :=
  if a.inRange then
    let t := s.onService (·.define a)
    (if a.enable = 0 then t.logOffClerk a.number else t, okReply [])
  else (s, refusal .badArgument)

/-- DEFINE_CLERK (R79). -/
def execDefineClerk (s : State) : Host.Outcome State Fault Refusal := s.request 0x30 (withArgs parseClerk State.defineClerk)

/-- R80: REMOVE_CLERK. -/
def State.removeClerk (n : Nat) (s : State) : State × List Byte :=
  if n < 1 ∨ 32 < n then (s, refusal .badArgument)
  else
    match s.service.clerk n with
    | none => (s, refusal .notFound)
    | some c =>
      if 0 < c.openCount then (s, refusal .state)
      else
        ((s.logOffClerk n).onService fun v => { v with clerks := v.clerks.filter fun x => x.number != n }, okReply [])

/-- REMOVE_CLERK (R80). -/
def execRemoveClerk (s : State) : Host.Outcome State Fault Refusal := s.request 0x31 (withArgs parseNumber1 State.removeClerk)

/-- R85: ISSUE_TICKET. -/
def State.issueTicket (s : State) : State × List Byte :=
  match s.service.issue with
  | none => (s, refusal .full)
  | some (v, n) => (s.onService fun _ => v, okReply (u1 n))

/-- ISSUE_TICKET (R85). -/
def execIssueTicket (s : State) : Host.Outcome State Fault Refusal := s.request 0x32 (noArgs State.issueTicket)

/-- R95: RESET_NUMBERING; the emptied list is sent to the sign (log 35). -/
def State.resetNumbering (s : State) : State × List Byte :=
  if s.service.live = [] then
    (((s.onService fun v => { v with lastIssued := 0, callSigns := [] }).onQueuePort fun q =>
        { q with signOwed := true }).pumpQueue, okReply [])
  else (s, refusal .state)

/-- RESET_NUMBERING (R95). -/
def execResetNumbering (s : State) : Host.Outcome State Fault Refusal := s.request 0x33 (noArgs State.resetNumbering)

/-- R96: a clerk. -/
def Clerk.bytes (c : Clerk) : List Byte :=
  u1 c.number ++ encText c.name ++ encBool c.enabled ++ encOpt encStation c.channel ++ encOpt u4 c.current ++ encList u4 c.parked

/-- R96: a CALLED or SERVING ticket. -/
def BoundTicket.bytes (b : BoundTicket) : List Byte := u1 b.number ++ u1 b.clerk ++ u4 b.serial

/-- R96: the CALLED and SERVING tickets in ascending ticket order. -/
def Service.boundAscending (v : Service) : List BoundTicket := v.bound.foldr (insertByKey BoundTicket.number) []

/-- R96: the queue port. -/
def QueuePort.bytes (q : QueuePort) : List Byte :=
  u1 q.state.queueCode ++ encOpt encSerial q.serial ++ encOpt (fun b => [b]) q.model ++ encBool q.rollLow

/-- R96: READ_QUEUE. -/
def State.readQueue (start : Option Nat) (s : State) : List Byte :=
  let v := s.service
  partsReply
    (u1 v.lastIssued ++ encList u1 v.waiting ++ encList BoundTicket.bytes v.boundAscending ++ encList u1 v.recallList
      ++ encList encCallSign v.callSigns)
    (v.clerks.map Clerk.bytes) s.queuePort.bytes start

/-- READ_QUEUE (R96). -/
def execReadQueue (s : State) : Host.Outcome State Fault Refusal :=
  s.request 0x34 (withArgs parseContinuation fun start s => (s, s.readQueue start))

/-! ## Baskets (R113, R115) -/

/-- R101: a line. -/
def Line.bytes (l : Line) : List Byte :=
  u1 l.number ++ u2 l.plu ++ encText l.name ++ u1 l.mode.code ++ u1 l.department ++ u1 l.labelFormat ++ encOpt u2 l.shelfLife
    ++ encOpt encText l.extraText ++ u4 l.generation ++ encOpt i4 l.netWeight ++ encOpt u4 l.tare ++ encOpt u2 l.quantity
    ++ u4 l.unitPrice ++ u1 l.markdown ++ u1 l.step ++ encBool l.markdownShown ++ u4 l.price ++ encOpt encDate l.packed
    ++ encOpt encDate l.useBy ++ encStation l.channel ++ encBool l.voided ++ u1 l.labelState.code ++ encOpt u2 l.latestJob
    ++ u1 l.reprints

/-- R115: an open basket of the LIST form. DESIGN CHOICE (log 49): its line count counts every line, voided lines included. -/
def Basket.listBytes (b : Basket) : List Byte :=
  u1 b.slot ++ u4 (b.serial.getD 0) ++ u1 (b.clerk.getD 0) ++ encOpt u1 b.ticket ++ u1 b.lines.length ++ u4 b.total

/-- R97: the fields of a record before its lines. -/
def Basket.headBytes (b : Basket) : List Byte :=
  u1 b.slot ++ u1 b.state.code ++ u4 (b.serial.getD 0) ++ u1 (b.clerk.getD 0) ++ encOpt u1 b.ticket
    ++ u1 ((b.channel.map stationNumber).getD 0) ++ encOpt encDateTime b.openedAt ++ encOpt encDateTime b.endedAt

/-- R115: a record read; an UNUSED slot has its state alone, and a continuation index lies beyond the end of the list it does not
have (R182). -/
def Basket.reply (b : Basket) (start : Option Nat) : List Byte :=
  if b.state = .unused then (if start.isSome then refusal .badArgument else okReply (u1 b.state.code))
  else partsReply b.headBytes (b.lines.map Line.bytes) (u4 b.total) start

/-- R115: READ_BASKET. -/
def State.readBasket (a : BasketSelector × Option Nat) (s : State) : List Byte :=
  match a.1 with
  | .other => refusal .badArgument
  | .list =>
    partsReply [] ((s.pool.records.filter fun b => b.state == .opened).map Basket.listBytes) (u1 s.pool.free.length) a.2
  | .serial n =>
    match s.pool.records.find? (fun b => b.serial == some n) with
    | none => refusal .notFound
    | some b => b.reply a.2
  | .slot n =>
    match s.pool.records.find? (fun b => b.slot == n) with
    | none => refusal .badArgument
    | some b => b.reply a.2

/-- READ_BASKET (R115). -/
def execReadBasket (s : State) : Host.Outcome State Fault Refusal :=
  s.request 0x38 (withArgs parseReadBasket fun a s => (s, s.readBasket a))

/-- R113: the checks on the basket found. -/
def State.cancelCheck (s : State) (b : Basket) : Option Status :=
  if b.isEmpty then none
  else if s.store.state ≠ .verified then some .storeNotReady
  else if s.commitRoom = false then some .busy
  else none

/-- R113: CANCEL_BASKET. The cancel is taken at the basket's opened-at channel (R112). -/
def State.cancelBasket (n : Nat) (s : State) : State × List Byte :=
  match s.pool.openBasket n with
  | none => (s, refusal .notFound)
  | some b =>
    match s.cancelCheck b with
    | some status => (s, refusal status)
    | none => (s.cancelOpen b (b.channel.getD 0), okReply (u4 n ++ u4 b.total ++ u1 b.unvoided.length))

/-- CANCEL_BASKET (R113). -/
def execCancelBasket (s : State) : Host.Outcome State Fault Refusal := s.request 0x39 (withArgs parseSerial State.cancelBasket)

/-! ## Labels (R121, R132, R133) -/

/-- R116, R182: a link: its form and its fields. -/
def JobLink.bytes : JobLink → List Byte
  | .item serial line => u1 0 ++ u4 serial ++ u1 line
  | .summary serial => u1 1 ++ u4 serial
  | .prepack serial => u1 2 ++ u4 serial

/-- R133: the printer while PRINTING. -/
def JobState.printer : JobState → Option Printer
  | .queued => none
  | .printing p => some p

/-- R133: a job. -/
def Job.bytes (j : Job) : List Byte :=
  u2 j.number ++ u1 j.cls.code ++ encSerial j.stamp ++ encPrinter j.preferred ++ encBool j.fallback
    ++ u1 (if j.state = .queued then 0 else 1) ++ encOpt encPrinter j.state.printer ++ u1 j.attempts ++ j.link.bytes

/-- R133: a printer port. DESIGN CHOICE (log 50): the job in hand with its phase is one optional field, one presence byte before the
number and the phase. -/
def PrinterPort.bytes (q : PrinterPort) : List Byte :=
  u1 q.state.code ++ encOpt encSerial q.serial ++ encOpt (fun b => [b]) q.model ++ u1 q.condition.code
    ++ encOpt (fun n => u2 n ++ u1 ((q.phase.map Phase.code).getD 0)) q.inHand

/-- R133: READ_LABEL_QUEUE. DESIGN CHOICE (log 58): the two printer ports follow the jobs in printer order, with no count byte and no
printer number. -/
def State.labelBytes (s : State) : List Byte :=
  encList Job.bytes s.labels.queue ++ (allPrinters.flatMap fun p => (s.printers[p]).bytes) ++ u2 s.labels.nextJob

/-- READ_LABEL_QUEUE (R133). -/
def execReadLabelQueue (s : State) : Host.Outcome State Fault Refusal :=
  s.request 0x40 (noArgs fun s => (s, okReply s.labelBytes))

/-- R121: CANCEL_JOB. -/
def State.cancelJob (n : Nat) (s : State) : State × List Byte :=
  match s.labels.job n with
  | none => (s, refusal .notFound)
  | some j =>
    if j.state = .queued then ((s.endJob j .cancelled).afterDepartures s, okReply (u1 j.cls.code ++ j.link.bytes))
    else (s, refusal .state)

/-- CANCEL_JOB (R121). -/
def execCancelJob (s : State) : Host.Outcome State Fault Refusal := s.request 0x41 (withArgs parseNumber2 State.cancelJob)

/-- R132: the port's job in hand returns uncounted, and the port enters WAITING. An ACCEPT still owed
stays owed (log 25). -/
def State.resetPort (s : State) (p : Printer) : State :=
  let q := s.printers[p]
  let t := s.onPrinter p fun q => { q.drop .waiting with frameTimer := false, condition := .unknown }
  let t := match q.inHand.bind s.labels.job with
    | none => t
    | some j => t.returnJob p j false
  t.arbitrate

/-- R132: RESET_PRINTER_PORT. -/
def State.resetPrinterPort (n : Nat) (s : State) : State × List Byte :=
  match printerOf n with
  | none => (s, refusal .badArgument)
  | some p => (s.resetPort p, okReply [])

/-- RESET_PRINTER_PORT (R132). -/
def execResetPrinterPort (s : State) : Host.Outcome State Fault Refusal :=
  s.request 0x42 (withArgs parseNumber1 State.resetPrinterPort)

/-! ## Prepack runs (R135, R140, R142, R143) -/

/-- R135, check 4: the clerk at the channel has no current basket that has held a line. -/
def State.clerkBusy (s : State) (st : Station) : Bool :=
  ((s.service.clerkAt st).bind s.current).any fun b => !b.isEmpty

/-- R135: the record of an accepted run. -/
def startedRun (serial : Nat) (v : PluVersion) (count : Nat) (notify : Bool) (at_ : Option DateTime) : Run :=
  { state := .active, serial := some serial, version := some v, ordered := count, remaining := count, issued := 0, weightSum := 0,
    valueSum := 0, printed := 0, failed := 0, cancelled := 0, notify := notify, waitingRoom := false, endReason := none,
    startedAt := at_, endedAt := none, jobs := [] }

/-- R135: an accepted START_RUN. Its selection is an examination event (log 24). DESIGN CHOICE (log 48): the last weighing is
recomputed with the new preset tare at once. -/
def State.startRunNow (s : State) (st : Station) (v : PluVersion) (count : Nat) (notify : Bool) : State :=
  let t := (s.onStore Store.draw).onRun st fun _ => startedRun s.nextSerial v count notify s.clock
  (t.onChannel st (·.select v)).decided st

/-- R135, checks 2 to 7. -/
def State.runCheck (s : State) (st : Station) (plu : Nat) : Except Status PluVersion :=
  if s.runs[st].state ≠ .idle then .error .state
  else if s.ports[st].state ≠ .present then .error .state
  else if s.clerkBusy st then .error .state
  else
    match s.price.lookup s.channels[st].pinned plu with
    | none => .error .notFound
    | some v =>
      if v.mode = .byCount then .error .badArgument
      else if s.store.canDraw = false then .error .storeNotReady
      else .ok v

/-- R135: START_RUN. -/
def State.startRun (a : RunArgs) (s : State) : State × List Byte :=
  match stationOf a.channel, boolOf a.notify with
  | some st, some notify =>
    if a.plu < 1 ∨ 9999 < a.plu ∨ a.count < 1 ∨ 999 < a.count then (s, refusal .badArgument)
    else
      match s.runCheck st a.plu with
      | .error status => (s, refusal status)
      | .ok v => (s.startRunNow st v a.count notify, okReply (u4 s.nextSerial))
  | _, _ => (s, refusal .badArgument)

/-- START_RUN (R135). -/
def execStartRun (s : State) : Host.Outcome State Fault Refusal := s.request 0x48 (withArgs parseRun State.startRun)

/-- R140: ABORT_RUN. -/
def State.abortRun (n : Nat) (s : State) : State × List Byte :=
  match stationOf n with
  | none => (s, refusal .badArgument)
  | some st =>
    if s.runs[st].state = .active then (s.endRun st .aborted, okReply (u2 s.runs[st].issued)) else (s, refusal .state)

/-- ABORT_RUN (R140). -/
def execAbortRun (s : State) : Host.Outcome State Fault Refusal := s.request 0x49 (withArgs parseNumber1 State.abortRun)

/-- R142: CLEAR_RUN. -/
def State.clearRun (n : Nat) (s : State) : State × List Byte :=
  match stationOf n with
  | none => (s, refusal .badArgument)
  | some st =>
    if s.runs[st].state = .doneHeld then (s.onRun st fun r => { r with state := .idle }, okReply []) else (s, refusal .state)

/-- CLEAR_RUN (R142). -/
def execClearRun (s : State) : Host.Outcome State Fault Refusal := s.request 0x4A (withArgs parseNumber1 State.clearRun)

/-- R143: the PLU number and generation of a snapshot. -/
def PluVersion.snapshotBytes (v : PluVersion) : List Byte := u2 v.number ++ u4 v.generation

/-- R143: the run record; one that has had no run has its state alone. The serial and the snapshot are optional fields (R134), each
with its presence byte (R182, log 22). -/
def Run.bytes (r : Run) : List Byte :=
  if r.serial.isNone then u1 r.state.code
  else
    u1 r.state.code ++ encOpt u4 r.serial ++ encOpt PluVersion.snapshotBytes r.version ++ u2 r.ordered
      ++ u2 r.remaining ++ u2 r.issued ++ i4 r.weightSum ++ u8 r.valueSum ++ u2 r.printed ++ u2 r.failed
      ++ u2 r.cancelled ++ encBool r.notify ++ encBool r.waitingRoom ++ encOpt (fun e => u1 e.code) r.endReason
      ++ encOpt encDateTime r.startedAt ++ encOpt encDateTime r.endedAt

/-- R143: READ_RUN. -/
def State.readRun (n : Nat) (s : State) : List Byte :=
  match stationOf n with
  | none => refusal .badArgument
  | some st => okReply (s.runs[st]).bytes

/-- READ_RUN (R143). -/
def execReadRun (s : State) : Host.Outcome State Fault Refusal :=
  s.request 0x4B (withArgs parseNumber1 fun n s => (s, s.readRun n))

end Sys2Proof.Machine
end

