-- ==== Sys2Proof/Machine/Dispenser.lean ====
section
/-! DEFINITION. Machine/Dispenser: the queue port (5.4): dispenser presence, ticket issue on TAKE, the now-serving sign. -/

namespace Sys2Proof.Machine

/-- R93: a dispenser is accepted. -/
def State.acceptDispenser (s : State) (serial : BitVec 32) (model : Byte) : State :=
  (s.onQueuePort fun q =>
    { q with state := .present, serial := some serial, model := some model, lastPress := none, lastAnswer := none,
             rollLow := false, frameTimer := true, owed := q.owed ++ [.accept serial] }).raise .dispenserFound (encSerial serial)

/-- R93: the dispenser is lost; its serial number is kept. -/
def State.loseDispenser (s : State) : State :=
  (s.onQueuePort fun q =>
    { q with state := .lost, lastPress := none, lastAnswer := none, rollLow := false, frameTimer := false }).raise .dispenserLost
      (encSerial (s.queuePort.serial.getD 0))

/-- R92, R93: a HELLO. -/
def State.dispenserSpeaks (serial : BitVec 32) (model : Byte) (s : State) : State :=
  if s.queuePort.state = .present then
    if s.queuePort.serial = some serial then
      s.onQueuePort fun q => { q.owe (.accept serial) with frameTimer := true }
    else s.loseDispenser.acceptDispenser serial model
  else s.acceptDispenser serial model

/-- R94: the answer of a TAKE becomes owed and the last answer. -/
def QueuePort.answerTake (press : Byte) (f : QueueFrame) (q : QueuePort) : QueuePort :=
  { q.owe f with lastPress := some press, lastAnswer := some f, frameTimer := true }

/-- R94: a repeated TAKE gets the last answer again. -/
def QueuePort.repeatAnswer (q : QueuePort) : QueuePort :=
  { q with owed := q.owed ++ q.lastAnswer.toList, frameTimer := true }

/-- R85, R94: a TAKE in PRESENT. -/
def State.takeTicket (press : Byte) (s : State) : State :=
  if s.queuePort.lastPress = some press then s.onQueuePort QueuePort.repeatAnswer
  else
    match s.service.issue with
    | none => s.onQueuePort (·.answerTake press (.refuse press))
    | some (v, n) => (s.onService fun _ => v).onQueuePort (·.answerTake press (.issue press n))

/-- DISPENSER_HELLO (R93). -/
def execDispenserHello (serial : BitVec 32) (model : Byte) (s : State) : Host.Outcome State Fault Refusal :=
  s.event fun s => some (s.dispenserSpeaks serial model).pumpQueue

/-- DISPENSER_STATE (R92). -/
def execDispenserState (condition : Byte) (s : State) : Host.Outcome State Fault Refusal :=
  s.event fun s =>
    if s.queuePort.state = .present then
      some (s.onQueuePort fun q => { q with rollLow := condition.getLsbD 0, frameTimer := true })
    else none

/-- TAKE (R94). -/
def execTake (press : Byte) (s : State) : Host.Outcome State Fault Refusal :=
  s.event fun s => if s.queuePort.state = .present then some (s.takeTicket press).pumpQueue else none

/-- DISPENSER_TIMEOUT (R93). -/
def execDispenserTimeout (s : State) : Host.Outcome State Fault Refusal :=
  s.event fun s => if s.queuePort.state = .present ∧ s.queuePort.frameTimer then some s.loseDispenser else none

/-- SIGN_REFRESH (R94). DESIGN CHOICE (log 68): it is taken in every powered state, also before any SIGN has begun since power-on. -/
def execSignRefresh (s : State) : Host.Outcome State Fault Refusal :=
  s.event fun s => some (s.onQueuePort fun q => { q with signOwed := true }).pumpQueue

/-- QUEUE_PORT_FRAME_END (R94). -/
def execQueuePortFrameEnd (s : State) : Host.Outcome State Fault Refusal :=
  s.event fun s =>
    if s.queuePort.sending.isSome then some (s.onQueuePort fun q => { q with sending := none }).pumpQueue else none

end Sys2Proof.Machine
end

