-- ==== Sys2Proof/Machine/Keys.lean ====
section
/-! DEFINITION. Machine/Keys: the KEY frame and the keys of the clerk's keypad (1.5, 2.4 to 2.7, 3.2, 5.1, 5.3, 6.4 to 6.8). -/

namespace Sys2Proof.Machine

/-! ## Taking a key (R3, R12 to R15) -/

/-- R12, R13: a key is taken in PRESENT with no keypad fault. R15: an accepted key sets the message field to NONE before its own
action; R14: a refused key changes the message field alone and owes a beep. -/
def State.takeKey (s : State) (st : Station) (f : State → Except Message State) : Option State :=
  if s.ports[st].state = .present ∧ s.ports[st].keypadFault = false then
    match f (s.setMessage st .none) with
    | .ok t => some t
    | .error m => some (s.refuseKey st m)
  else none

/-! ## The keys of the channel (R28, R30 to R33, R37, R44) -/

/-- R32: a new selection from the channel's view. -/
def State.selectPlu (st : Station) (n : Nat) (s : State) : Except Message State :=
  match s.price.lookup s.channels[st].pinned n with
  | none => .error .notFound
  | some v => .ok ((s.onChannel st (·.select v)).decided st)

/-- R32, R44: PRESET k. -/
def State.presetKey (st : Station) (k : Nat) (s : State) : Except Message State :=
  if s.runs[st].holds then .error .runActive
  else
    let c := s.channels[st]
    match (s.price.viewPage (s.price.isPrevious c.pinned) st c.page).map k with
    | none => .error .keyUnmapped
    | some n => s.selectPlu st n

/-- R13, R32: PLU_ENTRY. -/
def State.pluEntryKey (st : Station) (n : Nat) (s : State) : Except Message State :=
  if n < 1 ∨ 9999 < n then .error .notFound
  else if s.runs[st].holds then .error .runActive
  else s.selectPlu st n

/-- The channel as a key leaves it, with what follows (R25). -/
def State.keyOnChannel (st : Station) (r : Except Message Channel) (s : State) : Except Message State :=
  match r with
  | .error m => .error m
  | .ok c => .ok ((s.onChannel st fun _ => c).decided st)

/-- R13, R37: COUNT_ENTRY. -/
def State.countEntryKey (st : Station) (q : Nat) (s : State) : Except Message State :=
  if q < 1 ∨ 999 < q then .error .keyUnmapped else s.keyOnChannel st (s.channels[st].countKey q)

/-- R28: ZERO. -/
def State.zeroKey (st : Station) (s : State) : Except Message State := s.keyOnChannel st s.channels[st].zeroKey

/-- R30: TARE. -/
def State.tareKey (st : Station) (s : State) : Except Message State := s.keyOnChannel st s.channels[st].tareKey

/-- R31: CLEAR_TARE. -/
def State.clearTareKey (st : Station) (s : State) : Except Message State := s.keyOnChannel st (.ok s.channels[st].clearTare)

/-- R142: a run in DONE_HELD returns to IDLE. -/
def Run.release (r : Run) : Run := if r.state = .doneHeld then { r with state := .idle } else r

/-- R37: CLEAR. -/
def State.clearKey (st : Station) (s : State) : Except Message State :=
  if s.runs[st].holds then .error .runActive
  else
    let t := if s.channels[st].selection.isSome then s.clearSelection st else s
    .ok (t.onRun st Run.release)

def PageName.other : PageName → PageName
  | .a => .b
  | .b => .a

/-- R37: PAGE. -/
def State.pageKey (st : Station) (s : State) : Except Message State :=
  .ok (s.onChannel st fun c => { c with page := c.page.other })

/-! ## The clerk keys (R81, R82) -/

/-- R13, R81: CLERK. -/
def State.clerkKey (st : Station) (n : Nat) (s : State) : Except Message State :=
  if n < 1 ∨ 32 < n then .error .notFound
  else
    match s.service.clerk n with
    | none => .error .notFound
    | some c =>
      if c.enabled = false then .error .notFound
      else if c.channel = some st then .ok s
      else .ok (s.logOn st n c.channel)

/-- R82: LOGOFF. -/
def State.logoffKey (st : Station) (s : State) : Except Message State :=
  if (s.service.clerkAt st).isNone then .error .noClerk else .ok (s.logOffAt st)

/-- R13, R90: RECALL_TICKET. -/
def State.recallKey (st : Station) (n : Nat) (s : State) : Except Message State :=
  if n < 1 ∨ 99 < n then .error .notFound else s.recallTicketKey st n

/-- 1.5: the key of a key code; none for an unknown code. -/
def keyOf (st : Station) (code number : Nat) : Option (State → Except Message State) :=
  if 1 ≤ code ∧ code ≤ 48 then some (State.presetKey st code)
  else
    match code with
    | 0x40 => some (State.pluEntryKey st number)
    | 0x41 => some (State.countEntryKey st number)
    | 0x42 => some (State.zeroKey st)
    | 0x43 => some (State.tareKey st)
    | 0x44 => some (State.clearTareKey st)
    | 0x45 => some (State.clearKey st)
    | 0x46 => some (State.addKey st)
    | 0x47 => some (State.voidKey st)
    | 0x48 => some (State.totalKey st)
    | 0x49 => some (State.nextCustomer st)
    | 0x4A => some (State.parkKey st)
    | 0x4B => some (State.recallBasketKey st)
    | 0x4C => some (State.recallKey st number)
    | 0x4D => some (State.reprintKey st)
    | 0x4E => some (State.clerkKey st number)
    | 0x4F => some (State.logoffKey st)
    | 0x50 => some (State.pageKey st)
    | _ => none

/-- R13: an unknown key code is refused KEY_UNMAPPED. -/
def State.keyAction (st : Station) (code number : Nat) (s : State) : Except Message State :=
  match keyOf st code number with
  | none => .error .keyUnmapped
  | some f => f s

/-! ## The commands -/

/-- KEY (R13). -/
def execKey (st : Station) (code : Byte) (number : BitVec 16) (s : State) : Host.Outcome State Fault Refusal :=
  s.event fun s => s.takeKey st (State.keyAction st code.toNat number.toNat)

/-- PRESET (R44). -/
def execPreset (st : Station) (k : Nat) (s : State) : Host.Outcome State Fault Refusal :=
  s.event fun s => s.takeKey st (State.presetKey st k)

/-- PLU_ENTRY (R32). -/
def execPluEntry (st : Station) (number : BitVec 16) (s : State) : Host.Outcome State Fault Refusal :=
  s.event fun s => s.takeKey st (State.pluEntryKey st number.toNat)

/-- COUNT_ENTRY (R37). -/
def execCountEntry (st : Station) (number : BitVec 16) (s : State) : Host.Outcome State Fault Refusal :=
  s.event fun s => s.takeKey st (State.countEntryKey st number.toNat)

/-- ZERO (R28). -/
def execZero (st : Station) (s : State) : Host.Outcome State Fault Refusal :=
  s.event fun s => s.takeKey st (State.zeroKey st)

/-- TARE (R30). -/
def execTare (st : Station) (s : State) : Host.Outcome State Fault Refusal :=
  s.event fun s => s.takeKey st (State.tareKey st)

/-- CLEAR_TARE (R31). -/
def execClearTare (st : Station) (s : State) : Host.Outcome State Fault Refusal :=
  s.event fun s => s.takeKey st (State.clearTareKey st)

/-- CLEAR (R37). -/
def execClear (st : Station) (s : State) : Host.Outcome State Fault Refusal :=
  s.event fun s => s.takeKey st (State.clearKey st)

/-- PAGE (R37). -/
def execPage (st : Station) (s : State) : Host.Outcome State Fault Refusal :=
  s.event fun s => s.takeKey st (State.pageKey st)

/-- ADD (R103). -/
def execAdd (st : Station) (s : State) : Host.Outcome State Fault Refusal :=
  s.event fun s => s.takeKey st (State.addKey st)

/-- VOID_LAST (R105). -/
def execVoidLast (st : Station) (s : State) : Host.Outcome State Fault Refusal :=
  s.event fun s => s.takeKey st (State.voidKey st)

/-- TOTAL (R110). -/
def execTotal (st : Station) (s : State) : Host.Outcome State Fault Refusal :=
  s.event fun s => s.takeKey st (State.totalKey st)

/-- NEXT (R89). -/
def execNextKey (st : Station) (s : State) : Host.Outcome State Fault Refusal :=
  s.event fun s => s.takeKey st (State.nextCustomer st)

/-- PARK (R106). -/
def execPark (st : Station) (s : State) : Host.Outcome State Fault Refusal :=
  s.event fun s => s.takeKey st (State.parkKey st)

/-- RECALL_BASKET (R107). -/
def execRecallBasket (st : Station) (s : State) : Host.Outcome State Fault Refusal :=
  s.event fun s => s.takeKey st (State.recallBasketKey st)

/-- RECALL_TICKET (R90). -/
def execRecallTicket (st : Station) (number : BitVec 16) (s : State) : Host.Outcome State Fault Refusal :=
  s.event fun s => s.takeKey st (State.recallKey st number.toNat)

/-- REPRINT (R108). -/
def execReprint (st : Station) (s : State) : Host.Outcome State Fault Refusal :=
  s.event fun s => s.takeKey st (State.reprintKey st)

/-- CLERK (R81). -/
def execClerk (st : Station) (number : BitVec 16) (s : State) : Host.Outcome State Fault Refusal :=
  s.event fun s => s.takeKey st (State.clerkKey st number.toNat)

/-- LOGOFF (R82). -/
def execLogoff (st : Station) (s : State) : Host.Outcome State Fault Refusal :=
  s.event fun s => s.takeKey st (State.logoffKey st)

end Sys2Proof.Machine
end

