-- ==== Sys2Proof/Machine/LinkRequests.lean ====
section
/-! DEFINITION. Machine/LinkRequests: the commands of the host link itself (chapter 11): frames received and sent, the seven
requests it owns, UNKNOWN_REQUEST; power and the clock's second. -/

namespace Sys2Proof.Machine

/-! ## Frames (R171, R172, R178) -/

/-- A whole frame: sync byte, a length the receiver takes, and that many bytes with the CRC. -/
def wholeFrame : List Byte → Bool
  | sync :: lo :: hi :: rest =>
    decide (sync = 0xD5 ∧ 1 ≤ leNat [lo, hi] ∧ leNat [lo, hi] ≤ 1030 ∧ rest.length = leNat [lo, hi] + 2)
  | _ => false

/-- R171, R172: a whole frame is discarded and counted, or it is a taken request. -/
def HostLink.receive (l : HostLink) (frame : List Byte) : HostLink :=
  match parseHostFrame frame with
  | none => l.countError
  | some (kind, payload) => l.take kind payload

/-- HOST_FRAME_RECEIVED (R172). -/
def execHostFrameReceived (frame : List Byte) (s : State) : Host.Outcome State Fault Refusal :=
  s.event fun s => if wholeFrame frame then some (s.onLink (·.receive frame)) else none

/-- HOST_INTERBYTE_TIMEOUT (R171). -/
def execHostInterbyteTimeout (s : State) : Host.Outcome State Fault Refusal :=
  s.event fun s => some (s.onLink (·.countError))

/-- HOST_FRAME_BAD_LENGTH (R171): a length of 0 or above 1,030. -/
def execHostFrameBadLength (length : BitVec 16) (s : State) : Host.Outcome State Fault Refusal :=
  s.event fun s => if length = 0 ∨ 1030 < length.toNat then some (s.onLink (·.countError)) else none

/-- R175: the reset at the end of the RESTART reply: the power-on reset of every block; a word being transferred is completed
(R158, log 9). The words of a calibration record are in the FRAM only once its write is complete (R167, log 9). -/
def State.restarted (s : State) : State :=
  State.powerOn s.pending (s.freeCount + 1)
    (completeWord s.store.fram (Config.wordsDone s.freeCount) s.cutTrace) s.store.framAnswers

/-- R178: an entry whose report was sent becomes reported, unless it was cleared meanwhile (R177). DESIGN CHOICE (log 63): an entry
cleared meanwhile and raised again stays not reported, so that its new raise is due. -/
def HostLink.reportSent (l : HostLink) (n : Fin 50) (cleared : Bool) : HostLink :=
  { l with sending := none, flags := if cleared then l.flags else modAt l.flags n fun e => { e with reported := true } }

/-- R173: the reply at the head of the reply order has been sent. -/
def HostLink.replySent (l : HostLink) : HostLink := { l with sending := none, replies := l.replies.tail }

/-- HOST_FRAME_SENT (R178, R175). -/
def execHostFrameSent (s : State) : Host.Outcome State Fault Refusal :=
  s.event fun s =>
    match s.link.sending with
    | none => none
    | some (.report n _ cleared) => some (s.onLink (·.reportSent n cleared))
    | some (.reply _ false) => some (s.onLink (·.replySent))
    | some (.reply _ true) => some s.restarted

/-! ## Power and clock (R160, R161, R179) -/

/-- POWER_ON (R160): the power-on values of every block over the FRAM's contents. -/
def execPowerOn (framAnswers : Bool) (s : State) : Host.Outcome State Fault Refusal :=
  if s.powered then .next s else .next (State.powerOn s.pending s.freeCount s.store.fram framAnswers)

/-- R158, R161: what power loss leaves: all volatile state gone, the write in progress cut short (log 8). -/
def State.powerLost (s : State) : State :=
  { State.powerOn s.pending s.cutWrites.freeCount s.cutWrites.store.fram s.store.framAnswers with powered := false }

/-- POWER_LOSS (R161). -/
def execPowerLoss (s : State) : Host.Outcome State Fault Refusal :=
  if s.powered then .next s.powerLost else .next s

/-- CLOCK_SECOND (R179): a set clock advances. -/
def execClockSecond (s : State) : Host.Outcome State Fault Refusal :=
  s.event fun s => some (s.onLink fun l => { l with clock := l.clock.map DateTime.tick })

/-! ## The requests of the host link (11.2 to 11.4) -/

/-- The kinds that name a request (11.5). -/
def knownKinds : List Nat :=
  [0x01, 0x02, 0x03, 0x04, 0x05, 0x06, 0x07, 0x10, 0x11, 0x12, 0x13, 0x18, 0x19, 0x1A, 0x1B, 0x1C, 0x20, 0x21, 0x22, 0x23, 0x24,
   0x25, 0x26, 0x27, 0x30, 0x31, 0x32, 0x33, 0x34, 0x38, 0x39, 0x40, 0x41, 0x42, 0x48, 0x49, 0x4A, 0x4B, 0x50, 0x51, 0x52]

/-- UNKNOWN_REQUEST (R172). -/
def execUnknownRequest (s : State) : Host.Outcome State Fault Refusal :=
  s.event fun s =>
    match s.link.executing with
    | none => none
    | some r => if knownKinds.contains r.kind then none else some (s.onLink (·.answer (refusal .unknownRequest)))

/-- IDENTIFY (R180). -/
def execIdentify (s : State) : Host.Outcome State Fault Refusal :=
  s.request 0x01 (noArgs fun s => (s, okReply (u2 0x50B3 ++ u2 0x0008 ++ [Config.siliconRevision] ++ u1 1)))

/-- RESTART (R175). -/
def execRestart (s : State) : Host.Outcome State Fault Refusal :=
  s.event fun s =>
    match s.link.executing with
    | none => none
    | some r =>
      if r.kind = 0x02 ∧ r.waiting = false then
        if r.payload = [] then some (s.onLink (·.answerRestart)) else some (s.onLink (·.answer (refusal .badArgument)))
      else none

/-- R179: SET_CLOCK sets a valid value; the runs are then examined (R136). -/
def State.setClock (t : DateTime) (s : State) : State × List Byte :=
  if t.valid then ((s.onLink fun l => { l with clock := some t }).examineAll, okReply []) else (s, refusal .badArgument)

/-- SET_CLOCK (R179). -/
def execSetClock (s : State) : Host.Outcome State Fault Refusal := s.request 0x03 (withArgs parseClock State.setClock)

/-- R181: the summary word. -/
def State.summary (s : State) : Nat :=
  (stations.any fun st => s.ports[st].state == .lost).toNat
    + 2 * (allPrinters.any fun p =>
        s.printers[p].state == .waiting || s.printers[p].state == .notReady || s.printers[p].state == .lost).toNat
    + 4 * (s.store.state != .verified).toNat + 8 * (s.store.log.state != .none).toNat + 16 * s.price.pending.toNat
    + 32 * (s.totals.images.any Images.marked).toNat

/-- R181: the clock value; zeros when UNSET. -/
def clockBytes (c : Option DateTime) : List Byte :=
  match c with
  | none => u1 0 ++ List.replicate 7 0
  | some t => u1 1 ++ encDateTime t

/-- R181: the status items. -/
def State.status (s : State) : List Byte :=
  u2 s.summary ++ u1 s.store.state.code ++ u4 s.price.generation ++ clockBytes s.clock ++ u1 s.totals.commits.length
    ++ encBool s.totals.closing.isSome ++ u1 s.labels.queue.length ++ u1 s.link.holding.length ++ u2 s.link.errors

/-- GET_STATUS (R181). -/
def execGetStatus (s : State) : Host.Outcome State Fault Refusal :=
  s.request 0x04 (noArgs fun s => (s, okReply s.status))

/-- The entry of a number 1 to 50. -/
def entryOf (n : Nat) : Option (Fin 50) := if h : 1 ≤ n ∧ n ≤ 50 then some ⟨n - 1, by omega⟩ else none

/-- R177: the ranges of a triple. -/
def FlagControl.inRange (c : FlagControl) : Bool := decide (1 ≤ c.entry ∧ c.entry ≤ 50 ∧ c.enable ≤ 1 ∧ c.level ≤ 3)

/-- R177: one triple takes effect. -/
def controlFlag (flags : Vector FlagEntry 50) (c : FlagControl) : Vector FlagEntry 50 :=
  match entryOf c.entry with
  | none => flags
  | some n => modAt flags n fun e => { e with enabled := c.enable == 1, level := c.level }

/-- R177: SET_FLAG_CONTROL. -/
def State.setFlagControl (cs : List FlagControl) (s : State) : State × List Byte :=
  if 1 ≤ cs.length ∧ cs.length ≤ 50 ∧ cs.all FlagControl.inRange then
    (s.onLink fun l => { l with flags := cs.foldl controlFlag l.flags }, okReply [])
  else (s, refusal .badArgument)

/-- SET_FLAG_CONTROL (R177). -/
def execSetFlagControl (s : State) : Host.Outcome State Fault Refusal :=
  s.request 0x05 (withArgs parseFlagControl State.setFlagControl)

/-- R177: an entry is cleared. -/
def FlagEntry.clear (e : FlagEntry) : FlagEntry := { e with pending := false, reported := false, body := [] }

/-- R177: the report of a cleared entry on the line leaves the entry clear at its end. -/
def HostTx.clear (n : Fin 50) : HostTx → HostTx
  | .reply f r => .reply f r
  | .report m f c => .report m f (c || m == n)

/-- R177: one named entry is cleared. -/
def HostLink.clearFlag (l : HostLink) (n : Nat) : HostLink :=
  match entryOf n with
  | none => l
  | some i => { l with flags := modAt l.flags i FlagEntry.clear, sending := l.sending.map (HostTx.clear i) }

/-- R177: CLEAR_FLAGS. -/
def State.clearFlagList (ns : List Nat) (s : State) : State × List Byte :=
  if 1 ≤ ns.length ∧ ns.length ≤ 50 ∧ ns.all (fun n => decide (1 ≤ n ∧ n ≤ 50)) then
    (s.onLink fun l => ns.foldl HostLink.clearFlag l, okReply [])
  else (s, refusal .badArgument)

/-- CLEAR_FLAGS (R177). -/
def execClearFlags (s : State) : Host.Outcome State Fault Refusal :=
  s.request 0x06 (withArgs parseFlagList State.clearFlagList)

/-- R177: the indications of an entry. -/
def FlagEntry.bytes (e : FlagEntry) : List Byte := encBool e.enabled ++ u1 e.level ++ encBool e.pending ++ encBool e.reported

/-- READ_FLAGS (R177). -/
def execReadFlags (s : State) : Host.Outcome State Fault Refusal :=
  s.request 0x07 (noArgs fun s => (s, okReply (entries.flatMap fun n => (s.link.flags[n]).bytes)))

end Sys2Proof.Machine
end

