-- ==== Sys2Proof/Machine/Printers.lean ====
section
/-! DEFINITION. Machine/Printers: the printer ports (7.3 to 7.6): presence, condition, DONE, FAULT, timers, frames. -/

namespace Sys2Proof.Machine

/-! ## Conditions (R125) -/

/-- R125: the flag a new condition raises, when it differs from the old one. -/
def conditionFlag (p : Printer) (old new : Condition) : Option Flag :=
  if old = new then none
  else
    match new with
    | .ready => none
    | .paperOut => some (.paperOut p)
    | .headOpen => some (.headOpen p)
    | .unknown => none

/-- R125: the condition takes a value; PAPER_OUT and HEAD_OPEN rise on a change, with the interrupted job or none.
DESIGN CHOICE (log 46): the optional job number of the report body is a presence byte and the number. -/
def State.setCondition (s : State) (p : Printer) (c : Condition) (job : Option Nat) : State :=
  let t := s.onPrinter p fun q => { q with condition := c }
  match conditionFlag p s.printers[p].condition c with
  | none => t
  | some f => t.raise f (encOpt u2 job)

/-- 7.3: the condition a STATE reports. -/
def conditionOf : Nat → Option Condition
  | 0 => some .ready
  | 1 => some .paperOut
  | 2 => some .headOpen
  | _ => none

/-- R129: the condition a FAULT cause gives. -/
def causeCondition : Nat → Option Condition
  | 1 => some .paperOut
  | 2 => some .headOpen
  | 3 => some .unknown
  | 4 => some .unknown
  | _ => none

/-- R126: the states in which the frame timer runs. -/
def PrinterState.accepted : PrinterState → Bool
  | .waiting => false
  | .ready => true
  | .busyPrinting => true
  | .notReady => true
  | .lost => false

/-- R123: the frame timer restarts. -/
def State.restartFrameTimer (s : State) (p : Printer) : State := s.onPrinter p fun q => { q with frameTimer := true }

/-- What follows a printer event that began in `old`: the arbiters choose (R127), then freed label room is offered (R136,
log 23). -/
def State.afterPrinter (s old : State) : State := s.arbitrate.afterDepartures old

/-! ## Presence (R124, R126) -/

/-- R124: a printer is accepted. -/
def State.acceptPrinter (s : State) (p : Printer) (serial : BitVec 32) (model : Byte) : State :=
  (s.onPrinter p fun q =>
    { q with state := .notReady, serial := some serial, model := some model, condition := .unknown, frameTimer := true,
             owedAccepts := q.owedAccepts ++ [serial] }).raise (.printerFound p) (encSerial serial)

/-- R126: the printer is lost; its job in hand is interrupted first. -/
def State.losePrinter (s : State) (p : Printer) : State :=
  let t := s.interrupt p .lost
  let t := t.onPrinter p fun q => { q with frameTimer := false, doneTimer := false, condition := .unknown }
  t.raise (.printerLost p) (encSerial (s.printers[p].serial.getD 0))

/-- R124: the recorded printer has started afresh. -/
def State.printerRestarted (s : State) (p : Printer) (serial : BitVec 32) : State :=
  let t := if s.printers[p].state = .busyPrinting then s.interrupt p .notReady
    else s.onPrinter p fun q => { q with state := .notReady }
  t.onPrinter p fun q => { q with condition := .unknown, frameTimer := true, owedAccepts := q.owedAccepts ++ [serial] }

/-- R124: a HELLO. -/
def State.printerSpeaks (s : State) (p : Printer) (serial : BitVec 32) (model : Byte) : State :=
  if s.printers[p].state.accepted then
    if s.printers[p].serial = some serial then s.printerRestarted p serial
    else (s.losePrinter p).acceptPrinter p serial model
  else s.acceptPrinter p serial model

/-- The line begins what it owes, if it is free. -/
def State.pumpPrinter (s : State) (p : Printer) : State := s.onPrinter p (PrinterPort.pump p)

/-! ## STATE, DONE and FAULT (R125, R128, R129) -/

/-- R125: a STATE taken by the port. -/
def State.takePrinterState (s : State) (p : Printer) (c : Condition) : State :=
  let q := s.printers[p]
  let t := s.restartFrameTimer p
  match q.state with
  | .busyPrinting =>
    if c = .ready then t.setCondition p c none else (t.interrupt p .notReady).setCondition p c q.inHand
  | _ => (t.onPrinter p fun q => { q with state := if c = .ready then .ready else .notReady }).setCondition p c none

/-- R123: a STATE is discarded in LOST, and in WAITING with no serial number recorded. -/
def PrinterPort.takesState (q : PrinterPort) : Bool := q.state.accepted || (q.state == .waiting && q.serial.isSome)

/-- R128: the job in hand is DONE. -/
def State.jobDone (s : State) (p : Printer) (j : Job) : State :=
  let t := s.onPrinter p fun q => q.drop (if q.condition = .ready then .ready else .notReady)
  t.endJob j .done

/-- R128: a DONE taken by the port. -/
def State.takeDone (s : State) (p : Printer) (job : Nat) : State :=
  let q := s.printers[p]
  let t := s.restartFrameTimer p
  if q.inHand = some job ∧ q.phase = some .awaitingDone then
    match s.labels.job job with
    | none => t
    | some j => t.jobDone p j
  else t

/-- R129: a FAULT taken by the port. -/
def State.takeFault (s : State) (p : Printer) (job : Nat) (c : Condition) : State :=
  let q := s.printers[p]
  let t := s.restartFrameTimer p
  if q.state = .busyPrinting ∧ q.inHand = some job then (t.interrupt p .notReady).setCondition p c q.inHand else t

/-- R128: a frame to the printer has ended. The end of LABEL_END begins AWAITING_DONE and the DONE timer. -/
def PrinterPort.frameEnd (p : Printer) (f : PrinterFrame) (q : PrinterPort) : PrinterPort :=
  let q1 := { q with sending := none }
  let ended := q.phase = some .sending ∧ q.toSend = [] ∧ q.inHand.any fun n => f = .labelEnd n
  PrinterPort.pump p (if ended then { q1 with phase := some .awaitingDone, doneTimer := true } else q1)

/-! ## The commands -/

/-- PRINTER_HELLO (R124). -/
def execPrinterHello (p : Printer) (serial : BitVec 32) (model : Byte) (s : State) : Host.Outcome State Fault Refusal :=
  s.event fun s => some (((s.printerSpeaks p serial model).pumpPrinter p).afterPrinter s)

/-- PRINTER_STATE (R125). -/
def execPrinterState (p : Printer) (condition : Byte) (s : State) : Host.Outcome State Fault Refusal :=
  s.event fun s =>
    match conditionOf condition.toNat with
    | none => none
    | some c => if s.printers[p].takesState then some ((s.takePrinterState p c).afterPrinter s) else none

/-- PRINTER_DONE (R128). -/
def execPrinterDone (p : Printer) (job : BitVec 16) (s : State) : Host.Outcome State Fault Refusal :=
  s.event fun s =>
    if s.printers[p].state.accepted then some ((s.takeDone p job.toNat).afterPrinter s) else none

/-- PRINTER_FAULT (R129). -/
def execPrinterFault (p : Printer) (job : BitVec 16) (cause : Byte) (s : State) : Host.Outcome State Fault Refusal :=
  s.event fun s =>
    match causeCondition cause.toNat with
    | none => none
    | some c => if s.printers[p].state.accepted then some ((s.takeFault p job.toNat c).afterPrinter s) else none

/-- PRINTER_FRAME_TIMEOUT (R126). -/
def execPrinterFrameTimeout (p : Printer) (s : State) : Host.Outcome State Fault Refusal :=
  s.event fun s =>
    if s.printers[p].state.accepted ∧ s.printers[p].frameTimer then some ((s.losePrinter p).afterPrinter s) else none

/-- DONE_TIMEOUT (R130). -/
def execDoneTimeout (p : Printer) (s : State) : Host.Outcome State Fault Refusal :=
  s.event fun s =>
    if s.printers[p].phase = some .awaitingDone ∧ s.printers[p].doneTimer then
      some (((s.interrupt p .notReady).onPrinter p fun q => { q with condition := .unknown }).afterPrinter s)
    else none

/-- PRINTER_FRAME_END (R128). -/
def execPrinterFrameEnd (p : Printer) (s : State) : Host.Outcome State Fault Refusal :=
  s.event fun s =>
    match s.printers[p].sending with
    | none => none
    | some f => some (s.onPrinter p (PrinterPort.frameEnd p f))

end Sys2Proof.Machine
end

