-- ==== Sys2Proof/Machine/Heads.lean ====
section
/-! DEFINITION. Machine/Heads: the scale ports (chapter 1): presence, samples, head condition, displays; and the discarded
peripheral frames. -/

namespace Sys2Proof.Machine

/-! ## Presence (R4 to R8, R20, R21) -/

/-- R4: the port record of an accepted head. -/
def Port.accepted (serial : BitVec 32) (model : Byte) : Port :=
  { state := .present, serial := some serial, model := some model, lastSeq := none, switch := .unknown, converterFault := false,
    keypadFault := false, image := .initial, sampleTimer := true, stateTimer := true }

/-- R4, R5: an ACCEPT is owed. -/
def HeadLine.oweAccept (serial : BitVec 32) (l : HeadLine) : HeadLine := { l with owedAccepts := l.owedAccepts ++ [serial] }

/-- R4, R21: a head is accepted and the channel told of its arrival. DESIGN CHOICE (log 47): the first DISPLAY carries no beep. -/
def State.acceptHead (s : State) (st : Station) (serial : BitVec 32) (model : Byte) : State :=
  let t := s.onPort st fun _ => .accepted serial model
  let t := t.onHeadLine st fun l => { l.oweAccept serial with displayOwed := true, beepOwed := false }
  let t := t.raise (.headFound st) (encSerial serial)
  t.onChannel st fun c => c.startAfresh c.startState

/-- R7: the port record after PRESENT was left; the serial number and model code are kept. -/
def Port.departed (p : Port) (state : PortState) : Port :=
  { p with state := state, lastSeq := none, switch := .unknown, converterFault := false, keypadFault := false,
           image := .initial, sampleTimer := false, stateTimer := false }

/-- R7, R21: the port leaves PRESENT with all effects. DESIGN CHOICE (log 47): a beep still owed is dropped. -/
def State.leavePresent (s : State) (st : Station) (state : PortState) : State :=
  let t := s.raise (.headLost st) (encSerial (s.ports[st].serial.getD 0))
  let t := t.onPort st (·.departed state)
  let t := t.onHeadLine st fun l => { l with displayOwed := false, beepOwed := false }
  let t := t.onChannel st (·.startAfresh .absent)
  ((t.endRun st .headLost).logOffAt st).adoptIfFree st

/-- R8: a port enters OFF and sends nothing more; an owed ACCEPT is dropped (log 25), and so is an owed beep (log 47). -/
def HeadLine.silence (final : Bool) (l : HeadLine) : HeadLine :=
  { l with owedAccepts := [], displayOwed := false, beepOwed := false, finalOwed := l.finalOwed || final }

/-- R8: one port acts on its enable value. -/
def State.enablePort (s : State) (st : Station) (enable : Bool) : State :=
  match s.ports[st].state, enable with
  | .off, true => s.onPort st fun p => { p with state := .waiting, serial := none }
  | .off, false => s
  | .waiting, true => s
  | .waiting, false => (s.onPort st fun p => { p with state := .off }).onHeadLine st (·.silence false)
  | .present, true => s
  | .present, false => (s.leavePresent st .off).onHeadLine st (·.silence true)
  | .lost, true => s
  | .lost, false => (s.onPort st fun p => { p with state := .off }).onHeadLine st (·.silence false)

/-- R3 to R5: a HELLO. -/
def State.hello (st : Station) (serial : BitVec 32) (model : Byte) (s : State) : Option State :=
  match s.ports[st].state with
  | .off => none
  | .waiting => some (s.acceptHead st serial model)
  | .lost => some (s.acceptHead st serial model)
  | .present =>
    if s.ports[st].serial = some serial then some (s.onHeadLine st (·.oweAccept serial))
    else some ((s.leavePresent st .lost).acceptHead st serial model)

/-! ## Samples and head condition (R9 to R12) -/

/-- R26, R36: the channel's windows are emptied and the weighing decided again. -/
def State.emptyWindows (s : State) (st : Station) : State := (s.onChannel st (·.emptyWindows)).decided st

/-- R22 to R25, R34: a count is handed to the channel; a zero return may free it. -/
def State.handCount (s : State) (st : Station) (x : Int) : State :=
  ((s.onChannel st (·.sample x)).adoptIfFree st).decided st

/-- R9: the number is a gap. -/
def Port.gap (p : Port) (seq : Byte) : Bool := p.lastSeq.any fun l => seq != l + 1

/-- R9, R11: a SAMPLE. -/
def State.takeSample (st : Station) (raw : BitVec 24) (seq : Byte) (s : State) : Option State :=
  let p := s.ports[st]
  if p.state = .present then
    let t := s.onPort st fun p => { p with sampleTimer := true, lastSeq := some seq }
    if p.converterFault then some t
    else if p.gap seq then some ((t.emptyWindows st).handCount st raw.toInt)
    else some (t.handCount st raw.toInt)
  else none

/-- R10: the indications of a condition byte. -/
def Port.takeCondition (c : Byte) (p : Port) : Port :=
  { p with stateTimer := true, switch := if c.getLsbD 0 then .opened else .closed, converterFault := c.getLsbD 1,
           keypadFault := c.getLsbD 2 }

/-- R10 to R12: a HEAD_STATE. -/
def State.takeHeadState (st : Station) (c : Byte) (s : State) : Option State :=
  if s.ports[st].state = .present then
    let t := s.onPort st (Port.takeCondition c)
    if s.ports[st].converterFault = c.getLsbD 1 then some t else some (t.emptyWindows st)
  else none

/-! ## The commands -/

/-- PERIPHERAL_FRAME_DISCARDED (R2): a frame that fails the receiver's checks has no effect. (Bytes that pass them are no such
event, and the model changes nothing for them either: log 3.) -/
def execPeripheralFrameDiscarded (_line : PeripheralLine) (_frame : List Byte) (s : State) : Host.Outcome State Fault Refusal :=
  s.event fun s => some s

/-- PERIPHERAL_INTERBYTE_TIMEOUT (R2): the frame is discarded without effect. -/
def execPeripheralInterbyteTimeout (_line : PeripheralLine) (s : State) : Host.Outcome State Fault Refusal :=
  s.event fun s => some s

/-- HEAD_HELLO (R4, R5). -/
def execHeadHello (st : Station) (serial : BitVec 32) (model : Byte) (s : State) : Host.Outcome State Fault Refusal :=
  s.event (State.hello st serial model)

/-- SAMPLE (R9). -/
def execSample (st : Station) (raw : BitVec 24) (seq : Byte) (s : State) : Host.Outcome State Fault Refusal :=
  s.event (State.takeSample st raw seq)

/-- SAMPLE_TIMEOUT (R6). -/
def execSampleTimeout (st : Station) (s : State) : Host.Outcome State Fault Refusal :=
  s.event fun s => if s.ports[st].state = .present ∧ s.ports[st].sampleTimer then some (s.leavePresent st .lost) else none

/-- HEAD_STATE (R10). -/
def execHeadState (st : Station) (condition : Byte) (s : State) : Host.Outcome State Fault Refusal :=
  s.event (State.takeHeadState st condition)

/-- STATE_TIMEOUT (R10). -/
def execStateTimeout (st : Station) (s : State) : Host.Outcome State Fault Refusal :=
  s.event fun s =>
    if s.ports[st].state = .present ∧ s.ports[st].stateTimer then some (s.onPort st fun p => { p with switch := .unknown })
    else none

/-- DISPLAY_REFRESH (R16). -/
def execDisplayRefresh (st : Station) (s : State) : Host.Outcome State Fault Refusal :=
  s.event fun s =>
    if s.ports[st].state = .present then some (s.onHeadLine st fun l => { l with displayOwed := true }) else none

/-- DISPLAY_FRAME_END (R16): the frame on the line ends; what is owed follows. -/
def execDisplayFrameEnd (st : Station) (s : State) : Host.Outcome State Fault Refusal :=
  s.event fun s =>
    if s.headLines[st].sending.isSome then some (s.onHeadLine st fun l => { l with sending := none }) else none

end Sys2Proof.Machine
end

