-- ==== Sys2Proof/Machine/ChannelRequests.lean ====
section
/-! DEFINITION. Machine/ChannelRequests: CONFIGURE_PORTS (R8), the requests for one channel (2.8, 2.9) and the requests of the
counter store (chapter 10). -/

namespace Sys2Proof.Machine

/-! ## Ports and channels -/

/-- R8: every port acts on its value. DESIGN CHOICE (log 38): the ports act in ascending order. -/
def State.configurePorts (values : List Nat) (s : State) : State × List Byte :=
  if values.all (fun v => decide (v ≤ 1)) then
    ((stations.zip values).foldl (fun t x => t.enablePort x.1 (x.2 == 1)) s, okReply [])
  else (s, refusal .badArgument)

/-- CONFIGURE_PORTS (R8). -/
def execConfigurePorts (s : State) : Host.Outcome State Fault Refusal :=
  s.request 0x10 (withArgs parsePorts State.configurePorts)

/-- R38: N clamped to the nearest of 4, 8 and 16. -/
def clampFilter (n : Nat) : Nat := if n < 6 then 4 else if n < 12 then 8 else 16

/-- A number clamped to a range. -/
def clampTo (low high n : Nat) : Nat := max low (min high n)

/-- R38: the configuration written, its numeric fields clamped; none is BAD_ARGUMENT. DESIGN CHOICE (log 65): printer fallback, which 2.8
gives as allowed / not allowed, is taken as 1 for allowed and 0 for not allowed. -/
def ConfigArgs.config (a : ConfigArgs) : Option ChannelConfig :=
  match boolOf a.zeroTracking, boolOf a.tareHold, boolOf a.itemLabels, boolOf a.fallback with
  | some z, some t, some i, some f =>
    some { filterLength := clampFilter a.filterLength, stabilityCount := clampTo 5 25 a.stabilityCount,
           motionBand := clampTo 1 6 a.motionBand, zeroTracking := z, tareHold := t, itemLabels := i,
           boundPrinter := if a.boundPrinter ≤ 1 then 0 else 1, fallback := f }
  | _, _, _, _ => none

/-- R38: a field was clamped. -/
def ConfigArgs.clamped (a : ConfigArgs) (c : ChannelConfig) : Bool :=
  decide (a.filterLength ≠ c.filterLength ∨ a.stabilityCount ≠ c.stabilityCount ∨ a.motionBand ≠ c.motionBand
    ∨ a.boundPrinter ≠ printerNumber c.boundPrinter)

/-- R38: the configuration is written; a change of N or M empties the windows, zero tracking off sets its count to 0. -/
def State.writeConfig (s : State) (st : Station) (cfg : ChannelConfig) : State :=
  let old := s.channels[st].config
  let t := s.onChannel st fun c => { c with config := cfg, tracking := if cfg.zeroTracking then c.tracking else 0 }
  if old.filterLength = cfg.filterLength ∧ old.stabilityCount = cfg.stabilityCount then t else t.emptyWindows st

/-- R38: CONFIGURE_CHANNEL. -/
def State.configureChannel (a : ConfigArgs) (s : State) : State × List Byte :=
  match stationOf a.channel, a.config with
  | some st, some cfg => (s.writeConfig st cfg, u1 (if a.clamped cfg then Status.clamped.code else Status.ok.code))
  | _, _ => (s, refusal .badArgument)

/-- CONFIGURE_CHANNEL (R38). -/
def execConfigureChannel (s : State) : Host.Outcome State Fault Refusal :=
  s.request 0x11 (withArgs parseConfig State.configureChannel)

/-- R40: the last weighing. -/
def Weighing.bytes (w : Weighing) : List Byte := i4 w.gross ++ i4 w.net ++ u1 w.division ++ i4 w.weight

/-- R40: the selection. -/
def Selection.bytes (x : Selection) : List Byte := u2 x.version.number ++ u4 x.version.generation ++ encOpt u2 x.count

/-- 2.8: the configuration in field order. DESIGN CHOICE (log 65): printer fallback is sent as 1 for allowed, 0 for not allowed. -/
def ChannelConfig.bytes (c : ChannelConfig) : List Byte :=
  u1 c.filterLength ++ u1 c.stabilityCount ++ u1 c.motionBand ++ encBool c.zeroTracking ++ encBool c.tareHold
    ++ encBool c.itemLabels ++ encPrinter c.boundPrinter ++ encBool c.fallback

/-- R40: the port record. -/
def Port.bytes (p : Port) : List Byte :=
  u1 p.state.code ++ encOpt encSerial p.serial ++ encOpt (fun b => [b]) p.model ++ u1 p.switch.code ++ encBool p.converterFault
    ++ encBool p.keypadFault

/-- R40: the READ_CHANNEL content (11.5). DESIGN CHOICE (log 66): armed and the return-clear mark, which R18 gives as set / clear, are
sent as 1 for set, 0 for clear. -/
def State.channelBytes (s : State) (st : Station) : List Byte :=
  let c := s.channels[st]
  encStation st ++ u1 c.state.code ++ u1 c.calStatus.code ++ encOpt Weighing.bytes c.last ++ u1 c.outcome.code
    ++ u4 c.outcome.price ++ encOpt i4 c.zp ++ encOpt i4 c.z ++ encOpt u4 c.keyedTare ++ u4 c.tareInForce
    ++ encOpt Selection.bytes c.selection ++ encBool c.armed ++ encBool c.returnClear ++ u1 (s.holdingCode st)
    ++ u4 c.pinned ++ u1 c.page.code ++ c.config.bytes ++ u1 (((s.service.clerkAt st).map (·.number)).getD 0)
    ++ (s.ports[st]).bytes

/-- R40: READ_CHANNEL. -/
def State.readChannel (n : Nat) (s : State) : State × List Byte :=
  match stationOf n with
  | none => (s, refusal .badArgument)
  | some st => (s, okReply (s.channelBytes st))

/-- READ_CHANNEL (R40). -/
def execReadChannel (s : State) : Host.Outcome State Fault Refusal := s.request 0x12 (withArgs parseNumber1 State.readChannel)

/-- R39: the weighing starts afresh, whatever the channel's state. -/
def State.restartChannel (s : State) (st : Station) : State :=
  let t := s.endRun st .reset
  let t := t.onChannel st fun c => c.startAfresh (if s.ports[st].state = .present then c.startState else .absent)
  (t.adoptIfFree st).decided st

/-- R39: RESET_CHANNEL. -/
def State.resetChannel (n : Nat) (s : State) : State × List Byte :=
  match stationOf n with
  | none => (s, refusal .badArgument)
  | some st => (s.restartChannel st, okReply [])

/-- RESET_CHANNEL (R39). -/
def execResetChannel (s : State) : Host.Outcome State Fault Refusal := s.request 0x13 (withArgs parseNumber1 State.resetChannel)

/-! ## Calibration (R167, R169) -/

/-- R167: a calibration write waits or is in flight for a channel. -/
def Store.calBusy (m : Store) (st : Station) : Bool :=
  m.calWrites.any (fun w => w.channel == st) || (match m.op with | some (.calWrite w) => w.channel == st | _ => false)

/-- R167: the checks after the channel number and the switch. -/
def State.calCheck (s : State) (st : Station) (r : CalRecord) : Option Status :=
  if s.store.state ≠ .verified then some .storeNotReady
  else if s.store.calBusy st then some .busy
  else if s.store.eventCounters[st] = Config.max32 then some .full
  else if r.valid = false then some .badArgument
  else none

/-- R20: the channel takes an accepted calibration record. -/
def State.takeCalibration (s : State) (st : Station) (r : CalRecord) : State :=
  let t := s.endRun st .calibration
  let t := t.onChannel st fun c => (c.calibrationValid r).startAfresh .warmup
  (t.adoptIfFree st).decided st

/-- R167: WRITE_CALIBRATION. DESIGN CHOICE (log 51): CAL_ATTEMPT's body has the switch state's place, from 0, in its list. -/
def State.writeCalibration (a : Nat × CalRecord) (s : State) : State × List Byte :=
  match stationOf a.1 with
  | none => (s, refusal .badArgument)
  | some st =>
    if s.ports[st].switch ≠ .opened then (s.raise (.calAttempt st) (u1 s.ports[st].switch.code), refusal .locked)
    else
      match s.calCheck st a.2 with
      | some status => (s, refusal status)
      | none =>
        let counter := s.store.eventCounters[st] + 1
        ((s.takeCalibration st a.2).onStore fun m =>
           { m with calWrites := m.calWrites ++ [{ channel := st, counter := counter, record := a.2 }] },
         okReply (u4 counter))

/-- WRITE_CALIBRATION (R167). -/
def execWriteCalibration (s : State) : Host.Outcome State Fault Refusal :=
  s.request 0x18 (withArgs parseCalibration State.writeCalibration)

/-- R159: an access waits for the port. -/
def State.awaitAccess (s : State) (a : WaitingAccess) : State := s.onStore fun m => { m with waiting := m.waiting ++ [a] }

/-- R169: READ_CALIBRATION's checks; an accepted request waits for the store's read. -/
def State.readCalibration (payload : List Byte) (s : State) : State × Option (List Byte) :=
  match parseNumber1 payload with
  | none => (s, some (refusal .badArgument))
  | some n =>
    match stationOf n with
    | none => (s, some (refusal .badArgument))
    | some st =>
      if s.store.state ≠ .verified then (s, some (refusal .storeNotReady)) else (s.awaitAccess (.readCalibration st), none)

/-- READ_CALIBRATION (R169). -/
def execReadCalibration (s : State) : Host.Outcome State Fault Refusal := s.request 0x19 State.readCalibration

/-! ## The memory error log and the clear (R165, R166) -/

/-- READ_MEMORY_LOG (R165). -/
def execReadMemoryLog (s : State) : Host.Outcome State Fault Refusal :=
  s.request 0x1A (noArgs fun s => (s, okReply s.store.log.bytes))

/-- R165: the log image cleared; the last requester and address are kept. -/
def MemLog.cleared (l : MemLog) : MemLog :=
  { l with state := .none, address := none, requester := none, syndrome := none, second := false }

/-- R165: CLEAR_MEMORY_LOG. -/
def State.clearMemoryLog (s : State) : State × List Byte :=
  if s.store.state ≠ .verified then (s, refusal .storeNotReady)
  else ((s.onStore fun m => { m with log := m.log.cleared }).awaitAccess .writeLog, okReply [])

/-- CLEAR_MEMORY_LOG (R165). -/
def execClearMemoryLog (s : State) : Host.Outcome State Fault Refusal := s.request 0x1B (noArgs State.clearMemoryLog)

/-- R152, R166: the checks that a period close and a clear share. -/
def State.quietCheck (s : State) : Option Status :=
  if s.store.state ≠ .verified then some .storeNotReady
  else if s.pool.records.any (fun b => b.state == .opened) then some .basketsOpen
  else if stations.any (fun st => s.runs[st].holds) then some .runActive
  else if s.totals.commits ≠ [] ∨ s.totals.closing.isSome then some .busy
  else none

/-- R166: CLEAR_STORE. -/
def State.clearStore (s : State) : State × List Byte :=
  match s.quietCheck with
  | some status => (s, refusal status)
  | none => (s.onStore fun m => { m with state := .unverified, clearAccepted := true }, okReply [])

/-- CLEAR_STORE (R166). -/
def execClearStore (s : State) : Host.Outcome State Fault Refusal := s.request 0x1C (noArgs State.clearStore)

end Sys2Proof.Machine
end

