-- ==== Sys2Proof/Machine/TotalsRequests.lean ====
section
/-! DEFINITION. Machine/TotalsRequests: CLOSE_PERIOD (R152), READ_TOTALS (R156), READ_LAST_PERIOD (R155). -/

namespace Sys2Proof.Machine

/-! ## READ_TOTALS (R156) -/

/-- An entry and the index that names it. -/
structure TotalsEntry where
  index : Nat
  bytes : List Byte
  deriving DecidableEq, Repr

/-- R156: figures, saturated flag and damaged flag. -/
def Acc.replyBytes (x : Acc) : List Byte := x.figures.flatMap u8 ++ encBool x.saturated ++ encBool x.damaged

/-- The entry of a PLU slot with its PLU number; slot 0 is marked by the number 0 (log 22). -/
def pluEntryOf (number : Nat) (x : Acc) : TotalsEntry := { index := number, bytes := u2 number ++ x.replyBytes }

/-- The assigned slots in ascending PLU number order. -/
def assignedSlots (accs : List (Nat × Acc)) : List TotalsEntry :=
  (accs.filterMap fun y => if 1 ≤ y.1 ∧ y.1 ≤ 1024 then y.2.plu.map (fun n => pluEntryOf n y.2) else none).foldr
    (insertByKey TotalsEntry.index) []

/-- The accumulators numbered first to last. -/
def numbered (accs : List (Nat × Acc)) (first last : Nat) (acc : Nat → AccId) : List TotalsEntry :=
  (List.range' first (last + 1 - first)).map fun n => { index := n, bytes := (accOf accs (acc n)).replyBytes }

/-- The channel accumulator of a number. -/
def channelAcc (n : Nat) : AccId :=
  match stationOf n with
  | some st => .channel st
  | none => .summary

/-- The grand total: figures and saturated flag. -/
def Grand.replyBytes (g : Grand) : List Byte := u8 g.value ++ u8 g.z ++ encBool g.saturated

/-- R156: the entries of a kind from the first index on; none is BAD_ARGUMENT. -/
def Images.entriesOf (i : Images) (kind first : Nat) : Option (List TotalsEntry) :=
  match kind with
  | 0 =>
    if first ≤ 9999 then
      some ((if first = 0 then [pluEntryOf 0 (accOf i.accs (.plu 0))] else [])
        ++ (assignedSlots i.accs).filter fun e => decide (first ≤ e.index))
    else none
  | 1 => if 1 ≤ first ∧ first ≤ 16 then some (numbered i.accs first 16 .department) else none
  | 2 => if 1 ≤ first ∧ first ≤ 32 then some (numbered i.accs first 32 .clerk) else none
  | 3 => if 1 ≤ first ∧ first ≤ 8 then some (numbered i.accs first 8 channelAcc) else none
  | 4 => some [{ index := 1, bytes := (accOf i.accs .summary).replyBytes }]
  | 5 => some [{ index := 1, bytes := i.grand.replyBytes }]
  | _ => none

/-- R156, R182: the entries of one page: at most the maximum, and as many as fit beside 12 other bytes (log 20); the next index
or none; the apply number of the last completed commit and the Z counter. DESIGN CHOICES: slot 0 counts toward the maximum
(log 52), the one accumulator of SUMMARY and GRAND is sent as a list of one, behind its count (log 54), and the Z counter that closes
the reply is a number of 4 bytes, not a figure of 8 (log 64). -/
def totalsPage (es : List TotalsEntry) (maximum lastCompleted z : Nat) : List Byte :=
  let n := min maximum (fitting (contentMax - 12) (es.map (·.bytes)))
  u1 n ++ ((es.take n).flatMap (·.bytes)) ++ encOpt u2 (((es.drop n).head?).map (·.index)) ++ u4 lastCompleted ++ u4 z

/-- R156: READ_TOTALS. DESIGN CHOICE (log 53): a bad argument is refused BAD_ARGUMENT also while the store is not VERIFIED. -/
def State.readTotals (a : TotalsArgs) (s : State) : List Byte :=
  match (s.totals.images.getD { accs := [], grand := .zero }).entriesOf a.kind a.first with
  | none => refusal .badArgument
  | some es =>
    if a.maximum < 1 ∨ 32 < a.maximum then refusal .badArgument
    else if s.store.state ≠ .verified then refusal .storeNotReady
    else okReply (totalsPage es a.maximum s.totals.lastCompleted s.totals.grand.z)

/-- READ_TOTALS (R156). -/
def execReadTotals (s : State) : Host.Outcome State Fault Refusal :=
  s.request 0x50 (withArgs parseTotals fun a s => (s, s.readTotals a))

/-! ## The period (R152, R155) -/

/-- R155: READ_LAST_PERIOD's checks; an accepted request waits for the store's read (log 29). -/
def State.readLastPeriod (payload : List Byte) (s : State) : State × Option (List Byte) :=
  if payload ≠ [] then (s, some (refusal .badArgument))
  else if s.store.state ≠ .verified then (s, some (refusal .storeNotReady))
  else (s.awaitAccess .readLastPeriod, none)

/-- READ_LAST_PERIOD (R155). -/
def execReadLastPeriod (s : State) : Host.Outcome State Fault Refusal := s.request 0x51 State.readLastPeriod

/-- R152: CLOSE_PERIOD. -/
def State.closePeriod (s : State) : State × List Byte :=
  match s.quietCheck with
  | some status => (s, refusal status)
  | none =>
    let z := s.totals.grand.z
    if z = Config.max32 then (s, refusal .full)
    else (s.onTotals fun t => { t with closing := some (z + 1) }, okReply (u4 (z + 1)))

/-- CLOSE_PERIOD (R152). -/
def execClosePeriod (s : State) : Host.Outcome State Fault Refusal := s.request 0x52 (noArgs State.closePeriod)

end Sys2Proof.Machine
end

