-- ==== Sys2Proof/Machine/Dispatch.lean ====
section
/-! DEFINITION. Machine/Dispatch: the meaning of each command, one arm per row of spec/opcode_table.json. -/

namespace Sys2Proof.Machine

def exec (i : Instr) (s : State) : Host.Outcome State Fault Refusal :=
  match i with
  | .powerOn framAnswers => Sys2Proof.Machine.execPowerOn framAnswers s
  | .powerLoss => Sys2Proof.Machine.execPowerLoss s
  | .clockSecond => Sys2Proof.Machine.execClockSecond s
  | .hostFrameReceived frame => Sys2Proof.Machine.execHostFrameReceived frame s
  | .hostInterbyteTimeout => Sys2Proof.Machine.execHostInterbyteTimeout s
  | .hostFrameSent => Sys2Proof.Machine.execHostFrameSent s
  | .unknownRequest => Sys2Proof.Machine.execUnknownRequest s
  | .identify => Sys2Proof.Machine.execIdentify s
  | .restart => Sys2Proof.Machine.execRestart s
  | .setClock => Sys2Proof.Machine.execSetClock s
  | .getStatus => Sys2Proof.Machine.execGetStatus s
  | .setFlagControl => Sys2Proof.Machine.execSetFlagControl s
  | .clearFlags => Sys2Proof.Machine.execClearFlags s
  | .readFlags => Sys2Proof.Machine.execReadFlags s
  | .configurePorts => Sys2Proof.Machine.execConfigurePorts s
  | .configureChannel => Sys2Proof.Machine.execConfigureChannel s
  | .readChannel => Sys2Proof.Machine.execReadChannel s
  | .resetChannel => Sys2Proof.Machine.execResetChannel s
  | .writeCalibration => Sys2Proof.Machine.execWriteCalibration s
  | .readCalibration => Sys2Proof.Machine.execReadCalibration s
  | .readMemoryLog => Sys2Proof.Machine.execReadMemoryLog s
  | .clearMemoryLog => Sys2Proof.Machine.execClearMemoryLog s
  | .clearStore => Sys2Proof.Machine.execClearStore s
  | .stagePlu => Sys2Proof.Machine.execStagePlu s
  | .stageDelete => Sys2Proof.Machine.execStageDelete s
  | .stageKeyPage => Sys2Proof.Machine.execStageKeyPage s
  | .discardStage => Sys2Proof.Machine.execDiscardStage s
  | .publish => Sys2Proof.Machine.execPublish s
  | .forceAdoption => Sys2Proof.Machine.execForceAdoption s
  | .readPlu => Sys2Proof.Machine.execReadPlu s
  | .readAdoption => Sys2Proof.Machine.execReadAdoption s
  | .defineClerk => Sys2Proof.Machine.execDefineClerk s
  | .removeClerk => Sys2Proof.Machine.execRemoveClerk s
  | .issueTicket => Sys2Proof.Machine.execIssueTicket s
  | .resetNumbering => Sys2Proof.Machine.execResetNumbering s
  | .readQueue => Sys2Proof.Machine.execReadQueue s
  | .readBasket => Sys2Proof.Machine.execReadBasket s
  | .cancelBasket => Sys2Proof.Machine.execCancelBasket s
  | .readLabelQueue => Sys2Proof.Machine.execReadLabelQueue s
  | .cancelJob => Sys2Proof.Machine.execCancelJob s
  | .resetPrinterPort => Sys2Proof.Machine.execResetPrinterPort s
  | .startRun => Sys2Proof.Machine.execStartRun s
  | .abortRun => Sys2Proof.Machine.execAbortRun s
  | .clearRun => Sys2Proof.Machine.execClearRun s
  | .readRun => Sys2Proof.Machine.execReadRun s
  | .readTotals => Sys2Proof.Machine.execReadTotals s
  | .readLastPeriod => Sys2Proof.Machine.execReadLastPeriod s
  | .closePeriod => Sys2Proof.Machine.execClosePeriod s
  | .peripheralFrameDiscarded line frame => Sys2Proof.Machine.execPeripheralFrameDiscarded line frame s
  | .peripheralInterbyteTimeout line => Sys2Proof.Machine.execPeripheralInterbyteTimeout line s
  | .headHello st serial model => Sys2Proof.Machine.execHeadHello st serial model s
  | .sample st raw seq => Sys2Proof.Machine.execSample st raw seq s
  | .sampleTimeout st => Sys2Proof.Machine.execSampleTimeout st s
  | .headState st condition => Sys2Proof.Machine.execHeadState st condition s
  | .stateTimeout st => Sys2Proof.Machine.execStateTimeout st s
  | .key st code number => Sys2Proof.Machine.execKey st code number s
  | .preset st k => Sys2Proof.Machine.execPreset st k s
  | .pluEntry st number => Sys2Proof.Machine.execPluEntry st number s
  | .countEntry st number => Sys2Proof.Machine.execCountEntry st number s
  | .zero st => Sys2Proof.Machine.execZero st s
  | .tare st => Sys2Proof.Machine.execTare st s
  | .clearTare st => Sys2Proof.Machine.execClearTare st s
  | .clear st => Sys2Proof.Machine.execClear st s
  | .page st => Sys2Proof.Machine.execPage st s
  | .add st => Sys2Proof.Machine.execAdd st s
  | .voidLast st => Sys2Proof.Machine.execVoidLast st s
  | .total st => Sys2Proof.Machine.execTotal st s
  | .nextKey st => Sys2Proof.Machine.execNextKey st s
  | .park st => Sys2Proof.Machine.execPark st s
  | .recallBasket st => Sys2Proof.Machine.execRecallBasket st s
  | .recallTicket st number => Sys2Proof.Machine.execRecallTicket st number s
  | .reprint st => Sys2Proof.Machine.execReprint st s
  | .clerk st number => Sys2Proof.Machine.execClerk st number s
  | .logoff st => Sys2Proof.Machine.execLogoff st s
  | .displayRefresh st => Sys2Proof.Machine.execDisplayRefresh st s
  | .displayFrameEnd st => Sys2Proof.Machine.execDisplayFrameEnd st s
  | .dispenserHello serial model => Sys2Proof.Machine.execDispenserHello serial model s
  | .dispenserState condition => Sys2Proof.Machine.execDispenserState condition s
  | .take press => Sys2Proof.Machine.execTake press s
  | .dispenserTimeout => Sys2Proof.Machine.execDispenserTimeout s
  | .signRefresh => Sys2Proof.Machine.execSignRefresh s
  | .queuePortFrameEnd => Sys2Proof.Machine.execQueuePortFrameEnd s
  | .printerHello p serial model => Sys2Proof.Machine.execPrinterHello p serial model s
  | .printerState p condition => Sys2Proof.Machine.execPrinterState p condition s
  | .printerDone p job => Sys2Proof.Machine.execPrinterDone p job s
  | .printerFault p job cause => Sys2Proof.Machine.execPrinterFault p job cause s
  | .printerFrameTimeout p => Sys2Proof.Machine.execPrinterFrameTimeout p s
  | .doneTimeout p => Sys2Proof.Machine.execDoneTimeout p s
  | .printerFrameEnd p => Sys2Proof.Machine.execPrinterFrameEnd p s
  | .framNotAnswering answersAfter => Sys2Proof.Machine.execFramNotAnswering answersAfter s
  | .verifyStageComplete => Sys2Proof.Machine.execVerifyStageComplete s
  | .commitApplyBegin => Sys2Proof.Machine.execCommitApplyBegin s
  | .commitWriteComplete => Sys2Proof.Machine.execCommitWriteComplete s
  | .periodCloseBegin => Sys2Proof.Machine.execPeriodCloseBegin s
  | .periodCloseWriteComplete => Sys2Proof.Machine.execPeriodCloseWriteComplete s
  | .clearOperationBegin => Sys2Proof.Machine.execClearOperationBegin s
  | .clearComplete => Sys2Proof.Machine.execClearComplete s
  | .calibrationWriteBegin => Sys2Proof.Machine.execCalibrationWriteBegin s
  | .calibrationWriteComplete => Sys2Proof.Machine.execCalibrationWriteComplete s
  | .highMarkRaiseBegin => Sys2Proof.Machine.execHighMarkRaiseBegin s
  | .highMarkRaiseComplete => Sys2Proof.Machine.execHighMarkRaiseComplete s
  | .calibrationReadBegin => Sys2Proof.Machine.execCalibrationReadBegin s
  | .calibrationReadComplete => Sys2Proof.Machine.execCalibrationReadComplete s
  | .lastPeriodReadBegin => Sys2Proof.Machine.execLastPeriodReadBegin s
  | .lastPeriodReadComplete => Sys2Proof.Machine.execLastPeriodReadComplete s
  | .memoryLogWriteBegin => Sys2Proof.Machine.execMemoryLogWriteBegin s
  | .memoryLogWriteComplete => Sys2Proof.Machine.execMemoryLogWriteComplete s
  | .hostFrameBadLength length => Sys2Proof.Machine.execHostFrameBadLength length s

end Sys2Proof.Machine
end

