-- ==== Sys2Proof/Safety.lean ====
section
/-! DEFINITION. Safety: what the statements speak of: a request in execution, an answered request, a key that is taken, the
calendar of R75 counted in days, what the end of a run, a cleared selection, a logoff and an adoption leave, and the
invariants. -/

namespace Sys2Proof.Machine

/-! ## Requests and keys -/

/-- R172: the powered part executes a request of this kind and payload, which waits for no store read. -/
def Executing (s : State) (kind : Nat) (payload : List Byte) : Prop :=
  s.powered = true ∧ s.link.executing = some { kind := kind, payload := payload, waiting := false }

/-- R173: the request in execution at `s` has ended: the part is as in `t`, the reply is ready at its place, the next held
request begins, and free lines begin their next frames. -/
def answered (s t : State) (payload : List Byte) : State := (t.onLink (·.answer payload)).finish s

/-- R12, R13: a key of this station is taken. -/
def KeyTaken (s : State) (st : Station) : Prop :=
  s.powered = true ∧ s.ports[st].state = .present ∧ s.ports[st].keypadFault = false

/-- R15: the accepted key has set the message field to NONE. -/
def accepted (s : State) (st : Station) : State := s.setMessage st .none

/-- The station whose keypad sends a key row, and the station of a SAMPLE or HEAD_STATE row. -/
def stationRow : Instr → Option Station
  | .key st _ _ => some st
  | .preset st _ => some st
  | .pluEntry st _ => some st
  | .countEntry st _ => some st
  | .zero st => some st
  | .tare st => some st
  | .clearTare st => some st
  | .clear st => some st
  | .page st => some st
  | .add st => some st
  | .voidLast st => some st
  | .total st => some st
  | .nextKey st => some st
  | .park st => some st
  | .recallBasket st => some st
  | .recallTicket st _ => some st
  | .reprint st => some st
  | .clerk st _ => some st
  | .logoff st => some st
  | _ => none

/-- What no operation of the store changes: the command queue, the power, clerks and tickets, the queue port and the baskets. -/
def CounterKept (s t : State) : Prop :=
  t.pending = s.pending ∧ t.powered = s.powered ∧ t.service = s.service ∧ t.queuePort = s.queuePort ∧ t.pool = s.pool

/-- R19: the calibration status of a station's channel has become FAULT. With its head PRESENT the channel has entered CAL_FAULT: the
windows are empty, zp, z, the last weighing and the keyed tare absent, the tracking count 0, armed clear, the selection and all else
kept; otherwise the status and the record alone have changed, and what an examination of an ACTIVE run does. -/
def CalFaultEntered (s t : State) (st : Station) : Prop :=
  t.channels[st].calStatus = .fault ∧ t.channels[st].cal = none ∧
  (s.ports[st].state = .present → t.channels[st].outcome = t.channels[st].price ∧
    t.channels[st] = { s.channels[st] with
      calStatus := .fault, cal := none, state := .calFault, filter := [], stability := [], zp := none, z := none, last := none,
      keyedTare := none, tracking := 0, armed := false, outcome := t.channels[st].outcome }) ∧
  (s.ports[st].state ≠ .present → s.runs[st].state ≠ .active →
    t.channels[st] = { s.channels[st] with calStatus := .fault, cal := none })

/-! ## What the end of a run, a logoff and an adoption leave (R140, R82, R55) -/

/-- R140: an ACTIVE run of the station has ended with this reason, and nothing else has become of runs that are not ACTIVE. The record
has the reason and the time and waits for no room; with no label issued, or with room in the commit queue, the end is complete (the run
in DONE_HELD or IDLE, its commit handed over when it issued labels, PREPACK_DONE raised unless the end is silent), otherwise the run
waits in ENDING. -/
def RunEnded (s t : State) (st : Station) (reason : EndReason) : Prop :=
  let r := s.runs[st]
  let room := s.totals.commits.length < 8 ∧ s.totals.closing = none
  (r.state ≠ .active → t.runs[st] = r ∧ t.totals = s.totals) ∧
  (r.state = .active →
    t.runs[st] = { r with
      state := if r.issued = 0 ∨ room then (if r.notify then .doneHeld else .idle) else .ending,
      endReason := some reason, endedAt := s.link.clock, waitingRoom := false } ∧
    t.totals = (if r.issued ≠ 0 ∧ room then { s.totals with commits := s.totals.commits ++
      [{ kind := .prepack, serial := r.serial.getD 0, clerk := none, channel := st, endedAt := s.link.clock,
         content :=
           match r.version with
           | some v => .pack v.number v.department v.mode r.issued r.weightSum r.valueSum
           | none => .pack 0 0 .byWeight r.issued r.weightSum r.valueSum,
         applyNumber := none }] } else s.totals) ∧
    (r.issued = 0 ∨ room → ¬(reason = .count ∧ r.notify = false) →
      (t.link.flags[(Flag.prepackDone st).entry]).pending = true))

/-- R82: the clerks after the one logged on at this station, if there is one, was logged off. -/
def loggedOff (v : Service) (st : Station) : List Clerk :=
  v.clerks.map fun x => if (v.clerkAt st).map (·.number) = some x.number then { x with channel := none } else x

/-- R55, R56: the price table after this channel adopted: its number has left the record, and with the last one the adoption is complete. -/
def PriceTable.withoutChannel (t : PriceTable) (st : Station) : PriceTable :=
  let record := t.record.filter fun x => x != st
  if t.pending = true ∧ record = [] then { t with record := [], pending := false, retained := [] } else { t with record := record }

/-- R33, R55: after an event that left the channel without a selection: it is pinned to the active generation when it was in the record of
an adoption and no run on it is ACTIVE or ENDING, and has left the record; otherwise its pinned generation and the table are as before. -/
def AdoptedIfFree (s t : State) (st : Station) : Prop :=
  if st ∈ s.price.record ∧ t.runs[st].state ≠ .active ∧ t.runs[st].state ≠ .ending then
    t.channels[st].pinned = s.price.generation ∧ t.price = s.price.withoutChannel st ∧
      (s.price.pending = true → (s.price.withoutChannel st).pending = false →
        (t.link.flags[Flag.adoptionComplete.entry]).pending = true)
  else t.channels[st].pinned = s.channels[st].pinned ∧ t.price = s.price

/-- R33, log 39: the channel with its selection cleared: the count and the preset tare gone with it, the return-clear mark clear, the last
weighing recomputed without the preset tare, the outcome decided again. -/
def SelectionCleared (c d : Channel) : Prop :=
  d = { c with selection := none, returnClear := false, last := d.last, outcome := .noSelection, pinned := d.pinned } ∧
  (∀ w r, c.last = some w → c.cal = some r → d.last = some (weighing r w.gross (c.keyedTare.getD 0))) ∧
  (c.last = none ∨ c.cal = none → d.last = c.last)

/-- R82, R33, R55: what is left of a station whose clerk was logged off it: the selection cleared and the channel, then free, adopted,
unless a run holds it; the display fields as their owners give them (`refresh`, HeadLineEventsActOnTheLineAlone), the message as it was;
the other stations' channels and ports as they were. -/
def ClerkLeft (s t : State) (st : Station) : Prop :=
  (s.runs[st].holds = true → t.channels[st] = s.channels[st]) ∧
  (s.runs[st].holds = false → SelectionCleared s.channels[st] t.channels[st]) ∧
  AdoptedIfFree s t st ∧ t.refresh st = t ∧ t.ports[st] = { s.ports[st] with image := t.ports[st].image } ∧
  t.ports[st].image.message = s.ports[st].image.message ∧
  ∀ x : Station, x ≠ st → t.channels[x] = s.channels[x] ∧ t.ports[x] = s.ports[x]

/-! ## The counter store and the totals -/

/-- R176: the flag table after a list of flags was raised. -/
def raisedFlags (flags : Vector FlagEntry 50) (raises : List (Flag × List Byte)) : Vector FlagEntry 50 :=
  raises.foldl (fun fl f => modAt fl f.1.entry fun e => e.raise f.2) flags

/-- R158, R164: the part with the FRAM and the log image as a pass over the FRAM left them, and the flags of that pass raised. -/
def afterPass (s : State) (p : Pass) : State :=
  { s with store := { s.store with fram := p.fram, log := p.log },
           link := { s.link with flags := raisedFlags s.link.flags p.raises } }

/-- The part with this operation on the SPI port, or the port free. -/
def onPortOf (s : State) (op : Option StoreOp) : State := { s with store := { s.store with op := op } }

/-- The first k figures that a list of deltas adds to one target, all its deltas together. -/
def credited (ds : List (Target × List Nat)) (target : Target) (k : Nat) : List Nat :=
  (List.range k).map fun i => ((ds.filter fun d => d.1 = target).map fun d => d.2.getD i 0).sum

/-! ## The calendar, counted in days (R75) -/

/-- The month lengths of R75. -/
def monthLengths (year : Nat) : List Nat :=
  [31, if year % 4 = 0 then 29 else 28, 31, 30, 31, 30, 31, 31, 30, 31, 30, 31]

/-- A date of 2000-01-01 to 2099-12-31. -/
def Date.legal (d : Date) : Prop :=
  2000 ≤ d.year ∧ d.year ≤ 2099 ∧ 1 ≤ d.month ∧ d.month ≤ 12 ∧ 1 ≤ d.day ∧ d.day ≤ (monthLengths d.year).getD (d.month - 1) 0

/-- The number of a date, counted from 2000-01-01 as 1. -/
def Date.number (d : Date) : Nat :=
  365 * (d.year - 2000) + (d.year - 2000 + 3) / 4 + ((monthLengths d.year).take (d.month - 1)).sum + d.day

/-- The seconds of a clock value, counted from 2000-01-01 00:00:00. -/
def DateTime.seconds (t : DateTime) : Nat := (((t.date.number - 1) * 24 + t.hour) * 60 + t.minute) * 60 + t.second

/-! ## Price table and label queue -/

/-- R41: a version whose fields lie in their ranges. -/
def PluVersion.inRange (v : PluVersion) : Prop :=
  1 ≤ v.number ∧ v.number ≤ 9999 ∧ 1 ≤ v.name.length ∧ v.name.length ≤ 24 ∧ (∀ b ∈ v.name, 0x20 ≤ b.toNat ∧ b.toNat ≤ 0xFE) ∧
  v.unitPrice ≤ 999999 ∧ v.markdown ≤ 90 ∧ (v.step = 1 ∨ v.step = 5 ∨ v.step = 10) ∧ v.presetTare ≤ 9999 ∧ 1 ≤ v.department ∧
  v.department ≤ 16 ∧ v.labelFormat ≤ 7 ∧ (∀ d, v.shelfLife = some d → d ≤ 365) ∧
  ∀ x, v.extraText = some x → 1 ≤ x.length ∧ x.length ≤ 120 ∧ ∀ b ∈ x, 0x20 ≤ b.toNat ∧ b.toNat ≤ 0xFE

/-- R46, R48, R49: where a staged change goes: in the place of the change for the same thing, or at the tail of fewer than 64. -/
def Staged (old : List Change) (new : Change) (staged : List Change) (position : Nat) : Prop :=
  ((∀ c ∈ old, c.subject ≠ new.subject) ∧ old.length < 64 ∧ staged = old ++ [new] ∧ position = old.length + 1) ∨
  ∃ before c after, old = before ++ c :: after ∧ (∀ x ∈ before, x.subject ≠ new.subject) ∧ c.subject = new.subject ∧
    staged = before ++ new :: after ∧ position = before.length + 1

/-! ## Invariants -/

/-- R158: the FRAM keeps its canonical form: addresses rising inside the 131,072 bytes, no blank byte listed. -/
def FramCanonical (s : State) : Prop := Memory.wf s.store.fram

/-- R171 to R173, R119, R147, R49, R84, R87, R91: the bounds of the host link, the label queue, the commit queue, the change set, the
last issued number, the recall list and the call sign list. -/
def Bounded (s : State) : Prop :=
  s.link.holding.length ≤ 4 ∧ s.link.busyAnswers ≤ 4 ∧ s.link.errors ≤ 65535 ∧ s.labels.queue.length ≤ 32 ∧
  s.totals.commits.length ≤ 8 ∧ s.price.changes.length ≤ 64 ∧ s.service.lastIssued ≤ 99 ∧ s.service.recallList.length ≤ 8 ∧
  s.service.callSigns.length ≤ 4

/-- R119: no two jobs of the label queue carry one number, and no job carries the number that the next one takes. -/
def JobNumbersDistinct (s : State) : Prop :=
  (s.labels.queue.map (·.number)).Nodup ∧ s.labels.nextJob ∉ s.labels.queue.map (·.number)

/-- R78, R97: the clerk table is ascending with no two clerks on one channel, and the pool has its 48 slots in order, only those on
the free list. -/
def TablesConsistent (s : State) : Prop :=
  s.service.clerks.Pairwise (fun c d => c.number < d.number ∧ (c.channel = none ∨ c.channel ≠ d.channel)) ∧
  s.pool.records.map (·.slot) = (List.range 48).map (· + 1) ∧ ∀ n ∈ s.pool.free, 1 ≤ n ∧ n ≤ 48

/-- R98, R162: no basket record carries a serial that a later draw can give: every serial lies below the next one, and while the start-up
verify runs there is no next one. -/
def SerialsFresh (s : State) : Prop :=
  (∀ b ∈ s.pool.records, ∀ n, b.serial = some n → ∃ next, s.store.nextSerial = some next ∧ n < next) ∧
  ∀ stage d, s.store.op = some (.verify stage d) → s.store.nextSerial = none

end Sys2Proof.Machine
end

