-- ==== Sys2Proof/Certificates/Slice0/Obligations.lean ====
section
/-! DEFINITION. Certificates/Slice0/Obligations: the statements, in the order of the manual's blocks. `finish` begins the next
frames on free lines (FinishBeginsNextFrames says what it does), `answered` ends a request (AnsweredRequestTakesItsPlace). -/

open Sys2Proof Sys2Proof.Machine

/-! ## The step -/

/-- One step takes the command at the front of the queue and acts on the state with the queue's rest. -/
def Obligations.StepTakesFrontCommand : Prop :=
  ∀ (c : Instr) (rest : List Instr) (s : State), step { s with pending := c :: rest } = exec c { s with pending := rest }

/-- The model's choice (log 2, log 7): with an empty queue the part idles; with power off every command but POWER_ON leaves the state
as it is, and POWER_ON changes nothing with power on. -/
def Obligations.IdleOrUnpoweredPartKeepsItsState : Prop :=
  (∀ s : State, s.pending = [] → step s = .next s) ∧
  (∀ (c : Instr) (s : State), (∀ b, c ≠ .powerOn b) → s.powered = false → exec c s = .next s) ∧
  ∀ (b : Bool) (s : State), s.powered = true → exec (.powerOn b) s = .next s

/-! ## Power, reset and clock -/

/-- The values the manual gives every block after power-on, the printers, labels, totals, log and serial counter among them (R122,
R144, R147, R162, R164). The model's own choice are the powered part, the blank FRAM and its answering (log 1, log 7, log 10), the empty
queue of commands and the counter of free values (log 2, log 8), the pricing outcome NO_SELECTION, stopped timers and lines that send
and owe nothing (log 37), and the store's counters before the verify has read them (log 33). -/
def Obligations.ResetHoldsPowerOnValues : Prop :=
  State.reset.powered = true ∧ State.reset.pending = [] ∧ State.reset.freeCount = 0 ∧
  (∀ st : Station, State.reset.ports[st] =
    { state := .waiting, serial := none, model := none, lastSeq := none, switch := .unknown, converterFault := false,
      keypadFault := false,
      image := { weight := .blank, unitPrice := none, price := .blank, name := [], clerk := none, ticket := none, message := .none },
      sampleTimer := false, stateTimer := false }) ∧
  (∀ st : Station, State.reset.headLines[st] =
    { sending := none, owedAccepts := [], displayOwed := false, beepOwed := false, finalOwed := false }) ∧
  (∀ st : Station, State.reset.channels[st] =
    { state := .absent, calStatus := .notLoaded, cal := none, filter := [], stability := [], zp := none, z := none, tracking := 0,
      keyedTare := none, selection := none, returnClear := false, armed := false, pinned := 0, page := .a,
      config := { filterLength := 8, stabilityCount := 10, motionBand := 2, zeroTracking := true, tareHold := false,
                  itemLabels := true, boundPrinter := 0, fallback := true },
      last := none, outcome := .noSelection }) ∧
  State.reset.price.versions = [] ∧ State.reset.price.generation = 0 ∧ State.reset.price.changes = [] ∧
  State.reset.price.retained = [] ∧ State.reset.price.pending = false ∧ State.reset.price.record = [] ∧
  (∀ (st : Station) (n : PageName), State.reset.price.pageAt st n = { window := none, overrides := [] }) ∧
  State.reset.service = { clerks := [], waiting := [], bound := [], recallList := [], lastIssued := 0, callSigns := [] } ∧
  State.reset.queuePort =
    { state := .waiting, serial := none, model := none, lastPress := none, lastAnswer := none, rollLow := false, frameTimer := false,
      sending := none, owed := [], signOwed := false } ∧
  State.reset.pool.records.length = 48 ∧
  (∀ k : Nat, k < 48 → State.reset.pool.records[k]? = some
    { slot := k + 1, state := .unused, serial := none, clerk := none, ticket := none, channel := none, openedAt := none,
      endedAt := none, lines := [], total := 0 }) ∧
  State.reset.pool.free = (List.range 48).map (· + 1) ∧
  State.reset.labels = { queue := [], nextJob := 1, stamp := 0 } ∧
  (∀ p : Printer, State.reset.printers[p] =
    { state := .waiting, serial := none, model := none, condition := .unknown, inHand := none, phase := none, frameTimer := false,
      doneTimer := false, sending := none, owedAccepts := [], toSend := [] }) ∧
  (∀ st : Station, State.reset.runs[st] =
    { state := .idle, serial := none, version := none, ordered := 0, remaining := 0, issued := 0, weightSum := 0, valueSum := 0,
      printed := 0, failed := 0, cancelled := 0, notify := false, waitingRoom := false, endReason := none, startedAt := none,
      endedAt := none, jobs := [] }) ∧
  State.reset.totals = { commits := [], images := none, closing := none, journalApply := 0, lastCompleted := 0 } ∧
  State.reset.store.fram = [] ∧ (∀ a : Nat, a < 131072 → Memory.byte State.reset.store.fram a = 0) ∧
  State.reset.store =
    { fram := [], framAnswers := true, state := .unverified,
      op := some (.verify .presence
        { accs := [], grand := { value := 0, z := 0, saturated := false }, highest := 0, journal := .nothing, replayed := 0,
          closedZ := none, applyNumber := 0, highMark := 0 }),
      nextSerial := none, highMark := 0, raiseWaiting := false, calWrites := [], waiting := [], clearAccepted := false,
      eventCounters := Vector.replicate 8 0,
      log := { state := .none, address := none, requester := none, syndrome := none, second := false, lastRequester := none,
               lastAddress := none } } ∧
  State.reset.link.executing = none ∧ State.reset.link.holding = [] ∧ State.reset.link.replies = [] ∧
  State.reset.link.sending = none ∧ State.reset.link.restarting = false ∧ State.reset.link.errors = 0 ∧
  State.reset.link.clock = none ∧
  ∀ n : Fin 50, State.reset.link.flags[n] = { enabled := false, level := 0, pending := false, reported := false, body := [] }

/-- POWER_ON gives every block its power-on values over the FRAM's contents, which persist, and begins the start-up verify. That the
command says whether the FRAM answers is the model's choice (log 10), and so is the powered flag it sets (log 7). -/
def Obligations.PowerOnStartsAfreshOverTheFram : Prop :=
  ∀ (b : Bool) (s : State), s.powered = false →
    exec (.powerOn b) s = .next
      { State.reset with
        pending := s.pending, freeCount := s.freeCount,
        store := { State.reset.store with fram := s.store.fram, framAnswers := b } }

/-- POWER_LOSS loses everything but the FRAM. The words of the write in progress are cut short at a word the model leaves free (log 8),
whatever that choice: every byte outside the words being written is kept, of a calibration write every byte outside the two words of the
event counter, so that the old record stays (R167), and with no operation in flight the whole FRAM. All words but the one that was being
transferred are whole: as before, or as the operation wrote them. The model's choice are the power-on values that the lost fields show while
the power is off (log 7), and that the FRAM answers afterwards as before (log 10). -/
def Obligations.PowerLossKeepsOnlyTheFram : Prop :=
  ∀ s : State, s.powered = true → ∃ t : State,
    exec .powerLoss s = .next t ∧
    t = { State.reset with
          pending := s.pending, powered := false, freeCount := t.freeCount,
          store := { State.reset.store with fram := t.store.fram, framAnswers := s.store.framAnswers } } ∧
    (s.store.op = none → t.store.fram = s.store.fram) ∧
    (Memory.wf s.store.fram → ∀ a : Nat, (∀ w v, (w, v) ∈ s.opPass.trace → a < 9 * w ∨ 9 * w + 9 ≤ a) →
      Memory.byte t.store.fram a = Memory.byte s.store.fram a) ∧
    (Memory.wf s.store.fram → ∀ w, s.store.op = some (.calWrite w) → ∀ a : Nat,
      a < 9 * (24 + 2 * w.channel.val) ∨ 9 * (26 + 2 * w.channel.val) ≤ a →
      Memory.byte t.store.fram a = Memory.byte s.store.fram a) ∧
    (Memory.wf s.store.fram → ∃ cut : Nat, ∀ w : Nat, w < 14563 → w ≠ cut →
      Memory.word t.store.fram w = Memory.word s.store.fram w ∨ (w, Memory.word t.store.fram w) ∈ s.opPass.trace)

/-- R179: CLOCK_SECOND advances a set clock by one second on the calendar, holds the last value, and leaves an UNSET clock
UNSET; nothing else changes. -/
def Obligations.ClockSecondAdvancesASetClock : Prop :=
  (∀ s : State, s.powered = true →
    exec .clockSecond s = .next (State.finish { s with link := { s.link with clock := s.link.clock.map DateTime.tick } } s)) ∧
  (∀ t : DateTime, t.valid = true → t ≠ .last → t.tick.valid = true ∧ t.tick.seconds = t.seconds + 1) ∧
  DateTime.tick .last = .last

/-- R75: the use-by date is the date L days later on the calendar, the day of the month advancing one at a time, clamped to
2099-12-31; a shelf life of at most 365 days passes the end of the range only from a packed date in 2099. The clamp is a value: no
flag and no message comes from it. -/
def Obligations.UseByDateFollowsTheCalendar : Prop :=
  (∀ (s : State) (t : DateTime) (n : Nat), s.link.clock = some t → s.useByDate (some n) = some (t.date.addDays n)) ∧
  ∀ (d : Date) (n : Nat), d.legal →
    (d.addDays n).legal ∧
    (d.addDays n).number = min (d.number + n) (Date.number { year := 2099, month := 12, day := 31 }) ∧
    (Date.number { year := 2099, month := 12, day := 31 } < d.number + n →
      d.addDays n = { year := 2099, month := 12, day := 31 } ∧ (n ≤ 365 → d.year = 2099)) ∧
    (d.addDays 1 = if d.day < (monthLengths d.year).getD (d.month - 1) 0 then { d with day := d.day + 1 }
      else if d.month < 12 then { year := d.year, month := d.month + 1, day := 1 }
      else if d.year < 2099 then { year := d.year + 1, month := 1, day := 1 } else d)

/-! ## The host link -/

/-- R170, R171, R41, R182: a host frame is the sync byte, the length and the kind, the payload and the CRC, each low byte first. The CRC
register starts from 0xFFFF and takes the bits of length, kind and payload one after another, each byte's most significant bit first: it
moves up one place, and where the bit that leaves it differs from the bit taken, x^12 + x^5 + 1 is added; there is no final inversion. A
host frame is read back as the kind and payload it was built from, and the receiver takes nothing but such frames: with any other CRC it
takes none. The payload of a STAGE_PLU is read back as the version whose fields it carries, every field at every value of its range. R2,
R92, R94, R123, R128 with the tables of 1.2, 1.5, 5.4 and 7.3: a frame on a scale head line, the queue line or a printer line is the start
byte, the kind, the length, the payload and the byte that brings the sum of all but the first to 0 modulo 256; the payloads of ACCEPT and
DISPLAY, of ACCEPT, ISSUE, REFUSE and SIGN, and of ACCEPT, LABEL_BEGIN, FIELD and LABEL_END are laid out as the tables have them, and the
receivers take no frame but those of their kinds, each with its length (and from a printer a condition of 0 to 2 and a cause of 1 to 4). -/
def Obligations.HostFramesAndPluPayloadsReadBack : Prop :=
  let bitsOf := fun b : Byte => [7, 6, 5, 4, 3, 2, 1, 0].map b.getLsbD
  let register := fun bs : List Byte => (bs.flatMap bitsOf).foldl
    (fun (c : BitVec 16) bit => if c.getLsbD 15 = bit then c <<< 1 else (c <<< 1) ^^^ 0x1021) 0xFFFF
  (∀ (kind : Nat) (payload : List Byte),
    let length := payload.length + 1
    let body := [BitVec.ofNat 8 length, BitVec.ofNat 8 (length / 256), BitVec.ofNat 8 kind] ++ payload
    hostFrame kind payload =
      [0xD5] ++ body ++ [(register body).extractLsb' 0 8, (register body).extractLsb' 8 8]) ∧
  (∀ (kind : Nat) (payload : List Byte), 1 ≤ kind → kind ≤ 0x7F → payload.length ≤ 1029 →
    parseHostFrame (hostFrame kind payload) = some (kind, payload) ∧ wholeFrame (hostFrame kind payload) = true) ∧
  (∀ (frame : List Byte) (kind : Nat) (payload : List Byte), parseHostFrame frame = some (kind, payload) →
    frame = hostFrame kind payload ∧ 1 ≤ kind ∧ kind ≤ 0x7F ∧ payload.length ≤ 1029) ∧
  (∀ v : PluVersion, v.inRange → (parsePlu v.bytes).bind PluArgs.version = some { v with generation := 0 }) ∧
  let low := fun (n : Nat) => BitVec.ofNat 8 n
  let two := fun (n : Nat) => [low n, low (n / 256)]
  let three := fun (n : Nat) => [low n, low (n / 256), low (n / 65536)]
  let serialBytes := fun (b : BitVec 32) => [b.extractLsb' 0 8, b.extractLsb' 8 8, b.extractLsb' 16 8, b.extractLsb' 24 8]
  let framed := fun (kind : Byte) (payload : List Byte) =>
    [0xA5, kind, low payload.length] ++ payload ++
      [low (256 - (kind.toNat + payload.length + (payload.map BitVec.toNat).sum) % 256)]
  (∀ (serial : BitVec 32) (st : Station), (HeadFrame.accept serial st).bytes = framed 0x90 (serialBytes serial ++ [low (st.val + 1)])) ∧
  (∀ (image : DisplayImage) (beep : Bool),
    let display := (HeadFrame.display image beep).bytes
    display = framed 0x91
      ((match image.weight with
        | .value g => 0 :: three (g % 16777216).toNat
        | .dashes => [1, 0, 0, 0]
        | .over => [2, 0, 0, 0]
        | .under => [3, 0, 0, 0]
        | .blank => [4, 0, 0, 0]) ++
       (match image.unitPrice with
        | none => [0xFF, 0xFF, 0xFF]
        | some p => three p) ++
       (match image.price with
        | .value p => 0 :: three p
        | .dashes => [1, 0, 0, 0]
        | .blank => [2, 0, 0, 0]) ++
       image.name ++ List.replicate (24 - image.name.length) 0 ++
       [low (image.clerk.getD 0), low (image.ticket.getD 0), low image.message.code, if beep then 1 else 0]) ∧
    (image.name.length ≤ 24 → display.length = 43)) ∧
  [Message.none, .notStable, .noPlu, .notPriceable, .noClerk, .noBasket, .basketFull, .basketsFull, .labelsFull, .totalsBusy,
    .storeNotReady, .zeroReturn, .runActive, .clockUnset, .keyUnmapped, .zeroRange, .queueEmpty, .notFound, .priceChanged].map
      Message.code = List.range 18 ++ [32] ∧
  (∀ serial : BitVec 32, (QueueFrame.accept serial).bytes = framed 0xB0 (serialBytes serial)) ∧
  (∀ (press : Byte) (ticket : Nat), (QueueFrame.issue press ticket).bytes = framed 0xB1 [press, low ticket] ∧
    (QueueFrame.refuse press).bytes = framed 0xB2 [press]) ∧
  (∀ signs : List CallSign, signs.length ≤ 4 → (QueueFrame.sign signs).bytes = framed 0xB3
    ((signs.flatMap fun x => [low x.ticket, low x.clerk, low (x.channel.val + 1)]) ++ List.replicate (12 - 3 * signs.length) 0) ∧
    (QueueFrame.sign signs).bytes.length = 16) ∧
  (∀ (serial : BitVec 32) (p : Printer), (PrinterFrame.accept serial p).bytes = framed 0xC0 (serialBytes serial ++ [low (p.val + 1)])) ∧
  (∀ (job format : Nat) (cls : LabelClass),
    (PrinterFrame.labelBegin job format cls).bytes = framed 0xC1
      (two job ++ [low format, match cls with | .summary => 1 | .item => 2 | .prepack => 3]) ∧
    (PrinterFrame.labelEnd job).bytes = framed 0xC3 (two job)) ∧
  (∀ (ident : Nat) (value : Text), (PrinterFrame.field ident value).bytes = framed 0xC2 (low ident :: value)) ∧
  ∀ (line : PeripheralLine) (frame : List Byte), frameTaken line frame = true ↔ ∃ (kind : Byte) (payload : List Byte),
    frame = framed kind payload ∧
    match line with
    | .head _ => (kind, payload.length) ∈ [((0x10 : Byte), 5), (0x11, 4), (0x12, 3), (0x13, 1)]
    | .queue => (kind, payload.length) ∈ [((0x20 : Byte), 5), (0x21, 1), (0x22, 1)]
    | .printer _ => (kind, payload.length) ∈ [((0x30 : Byte), 5), (0x31, 1), (0x32, 2), (0x33, 3)] ∧
        (kind = 0x31 → ∃ c, payload = [c] ∧ c.toNat ≤ 2) ∧
        (kind = 0x33 → ∃ x y c, payload = [x, y, c] ∧ 1 ≤ c.toNat ∧ c.toNat ≤ 4)

/-- R172: a taken request joins the tail of the holding list (and begins at once when nothing is in execution), or is answered
BUSY with four frames held, or is discarded and counted with four BUSY answers waiting as well. -/
def Obligations.HostRequestIsHeldOrRefusedBusy : Prop :=
  ∀ (s : State) (kind : Nat) (payload : List Byte), s.powered = true → 1 ≤ kind → kind ≤ 0x7F → payload.length ≤ 1029 →
    (s.link.holding.length < 4 → s.link.executing.isSome = true →
      exec (.hostFrameReceived (hostFrame kind payload)) s = .next (State.finish { s with link := { s.link with
        holding := s.link.holding ++ [{ kind := kind, payload := payload, waiting := false }],
        replies := s.link.replies ++ [{ kind := kind, busy := false, restart := false, answer := none }] } } s)) ∧
    (s.link.holding = [] → s.link.executing = none → s.link.restarting = false →
      exec (.hostFrameReceived (hostFrame kind payload)) s = .next (State.finish { s with link := { s.link with
        executing := some { kind := kind, payload := payload, waiting := false },
        replies := s.link.replies ++ [{ kind := kind, busy := false, restart := false, answer := none }] } } s)) ∧
    (4 ≤ s.link.holding.length → (s.link.replies.countP fun r => r.busy) < 4 →
      exec (.hostFrameReceived (hostFrame kind payload)) s = .next (State.finish { s with link := { s.link with
        replies := s.link.replies ++ [{ kind := kind, busy := true, restart := false, answer := some [4] }] } } s)) ∧
    (4 ≤ s.link.holding.length → 4 ≤ (s.link.replies.countP fun r => r.busy) →
      exec (.hostFrameReceived (hostFrame kind payload)) s = .next (State.finish { s with link := { s.link with
        errors := min (s.link.errors + 1) 65535 } } s))

/-- R171: a frame cut short by the interbyte timer, a length the receiver refuses, and a whole frame that fails a check are
discarded and counted; nothing else changes. -/
def Obligations.HostFramesInErrorAreCounted : Prop :=
  ∀ s : State, s.powered = true →
    exec .hostInterbyteTimeout s = .next (State.finish { s with link := { s.link with errors := min (s.link.errors + 1) 65535 } } s) ∧
    (∀ length : BitVec 16, length = 0 ∨ 1030 < length.toNat → exec (.hostFrameBadLength length) s =
      .next (State.finish { s with link := { s.link with errors := min (s.link.errors + 1) 65535 } } s)) ∧
    (∀ frame : List Byte, wholeFrame frame = true → parseHostFrame frame = none → exec (.hostFrameReceived frame) s =
      .next (State.finish { s with link := { s.link with errors := min (s.link.errors + 1) 65535 } } s))

/-- R178, R177, R175: at the end of a frame to the host a reply has left the reply order, a reported entry is reported unless it
was cleared meanwhile, and the RESTART reply resets every block over the FRAM: kept whole with no operation in flight, otherwise in
every byte outside the words being transferred, and each of those words is whole, as it was before or as the operation writes it: the
first words of the write in progress are written, in its order, the one being transferred among them. How many they are the model leaves
free, and a calibration record that is not written whole it leaves as it was, as R167 says of power loss (log 9); that the FRAM
answers afterwards as before is its choice (log 10), and so is that an entry cleared and raised again meanwhile stays not reported
(log 63). -/
def Obligations.HostFrameSentEndsTheTransmission : Prop :=
  ∀ s : State, s.powered = true →
    (∀ frame, s.link.sending = some (.reply frame false) → exec .hostFrameSent s =
      .next (State.finish { s with link := { s.link with sending := none, replies := s.link.replies.tail } } s)) ∧
    (∀ n frame, s.link.sending = some (.report n frame true) → exec .hostFrameSent s =
      .next (State.finish { s with link := { s.link with sending := none } } s)) ∧
    (∀ n frame, s.link.sending = some (.report n frame false) → exec .hostFrameSent s =
      .next (State.finish { s with link := { s.link with
        sending := none, flags := modAt s.link.flags n fun e => { e with reported := true } } } s)) ∧
    (∀ frame, s.link.sending = some (.reply frame true) → ∃ t : State, exec .hostFrameSent s = .next t ∧
      t = { State.reset with
            pending := s.pending, freeCount := t.freeCount,
            store := { State.reset.store with fram := t.store.fram, framAnswers := s.store.framAnswers } } ∧
      (s.store.op = none → t.store.fram = s.store.fram) ∧
      (Memory.wf s.store.fram → ∀ a : Nat, (∀ w v, (w, v) ∈ s.opPass.trace → a < 9 * w ∨ 9 * w + 9 ≤ a) →
        Memory.byte t.store.fram a = Memory.byte s.store.fram a) ∧
      (Memory.wf s.store.fram → ∀ w, s.store.op = some (.calWrite w) → ∀ a : Nat,
        a < 9 * (24 + 2 * w.channel.val) ∨ 9 * (26 + 2 * w.channel.val) ≤ a →
        Memory.byte t.store.fram a = Memory.byte s.store.fram a) ∧
      (Memory.wf s.store.fram → ∀ w : Nat, w < 14563 →
        Memory.word t.store.fram w = Memory.word s.store.fram w ∨ (w, Memory.word t.store.fram w) ∈ s.opPass.trace) ∧
      ∃ written : Nat, 0 < written ∧ t.store.fram =
        (s.opPass.trace.take written).foldl (fun fram x => Memory.putWord fram x.1 x.2) s.store.fram)

/-- R178: a busy line goes on; a free one sends the reply ready at the head of the reply order, otherwise the report of a due
entry, of the highest level and first in the table among equals; with neither nothing is sent. R175: from the execution of RESTART on
no report is sent. The entry numbers of the table of 11.3, and the source byte of each entry's report. -/
def Obligations.ArbiterSendsReplyThenHighestFlag : Prop :=
  (∀ (f : Flag) (entry : Nat), (f, entry) ∈ [(.storeReady, 1), (.memUncorrectable, 2), (.memCorrected, 3), (.periodClosed, 4),
      (.otherUsed, 5), (.adoptionComplete, 6), (.dispenserLost, 7), (.dispenserFound, 8)] →
    f.entry.val + 1 = entry ∧ entrySource f.entry = 0) ∧
  (∀ (p : Printer) (f : Flag) (first : Nat), (f, first) ∈ [(.printerLost p, 9), (.printerFound p, 11), (.paperOut p, 13),
      (.headOpen p, 15), (.jobFailed p, 17)] →
    f.entry.val + 1 = first + p.val ∧ entrySource f.entry = p.val + 1) ∧
  (∀ (st : Station) (f : Flag) (first : Nat), (f, first) ∈ [(.headLost st, 19), (.headFound st, 27), (.calAttempt st, 35),
      (.prepackDone st, 43)] →
    f.entry.val + 1 = first + st.val ∧ entrySource f.entry = st.val + 1) ∧
  ∀ l : HostLink,
    (l.sending.isSome = true → l.pump = l) ∧
    (l.sending = none → l.restarting = true → (∀ r, l.replies.head? = some r → r.answer = none) → l.pump = l) ∧
    (∀ r rest payload, l.sending = none → l.replies = r :: rest → r.answer = some payload →
      l.pump = { l with sending := some (.reply (hostFrame (r.kind + 0x80) payload) r.restart) }) ∧
    (l.sending = none → l.restarting = false → (∀ r, l.replies.head? = some r → r.answer = none) →
      ((∀ n : Fin 50, (l.flags[n]).due = false) → l.pump = l) ∧
      ((∃ n : Fin 50, (l.flags[n]).due = true) → ∃ n : Fin 50, (l.flags[n]).due = true ∧
        (∀ m : Fin 50, (l.flags[m]).due = true →
          (l.flags[m]).level ≤ (l.flags[n]).level ∧ ((l.flags[m]).level = (l.flags[n]).level → n ≤ m)) ∧
        l.pump = { l with sending := some (.report n (hostFrame 0x80
          ([BitVec.ofNat 8 (n.val + 1), BitVec.ofNat 8 (l.flags[n]).level, BitVec.ofNat 8 (entrySource n),
            BitVec.ofNat 8 (l.flags[n]).body.length] ++ (l.flags[n]).body)) false) }))

/-- R16, R8, R178: what follows every event: the host line and each scale head line begin their next frame when free, a DISPLAY
is owed in PRESENT when the event changed the image, and nothing else changes. That a change is a difference between the image at the
event's end and the one at its begin (log 27), that the final DISPLAY of R8 carries no beep (log 47) and that an owed ACCEPT goes before
an owed DISPLAY (log 67) are the model's choices. -/
def Obligations.FinishBeginsNextFrames : Prop :=
  ∀ s t : State,
    t.finish s = { t with link := t.link.pump, headLines := (t.finish s).headLines } ∧
    ∀ st : Station,
      let owed := t.headLines[st].displayOwed || decide (t.ports[st].state = .present ∧ t.ports[st].image ≠ s.ports[st].image)
      let line := { t.headLines[st] with displayOwed := owed }
      (t.finish s).headLines[st] =
        if line.sending.isSome then line
        else if line.finalOwed then { line with sending := some (.display .initial false), finalOwed := false }
        else
          match line.owedAccepts with
          | serial :: rest => { line with sending := some (.accept serial st), owedAccepts := rest }
          | [] =>
            if t.ports[st].state = .present ∧ (owed = true ∨ line.beepOwed = true) then
              { line with sending := some (.display t.ports[st].image line.beepOwed), displayOwed := false, beepOwed := false }
            else line

/-- R173: the reply of the request in execution is ready at the first place of the reply order that was not ready, and the
request at the head of the holding list begins. -/
def Obligations.AnsweredRequestTakesItsPlace : Prop :=
  ∀ (s t : State) (payload : List Byte) (before after : List ReplySlot) (r : ReplySlot),
    t.link.replies = before ++ r :: after → (∀ x ∈ before, x.answer.isSome = true) → r.answer = none →
    t.link.restarting = false →
    (answered s t payload).link = HostLink.pump { t.link with
      replies := before ++ { r with answer := some payload, restart := false } :: after,
      executing := t.link.holding.head?, holding := t.link.holding.tail } ∧
    answered s t payload = State.finish { t with link := { t.link with
      replies := before ++ { r with answer := some payload, restart := false } :: after,
      executing := t.link.holding.head?, holding := t.link.holding.tail } } s

/-- R180: IDENTIFY is answered in every state of the powered part, and changes nothing else. The revision letter is a free value
(log 11). -/
def Obligations.IdentifyReplies : Prop :=
  ∀ s : State, Executing s 0x01 [] →
    exec .identify s = .next (answered s s [0, 0xB3, 0x50, 0x08, 0x00, Config.siliconRevision, 1])

/-- R172, R175: a request of no known kind is answered UNKNOWN_REQUEST; RESTART is answered OK, the requests held and the reply
places behind it are dropped, and no request begins after it. -/
def Obligations.UnknownRequestAndRestart : Prop :=
  (∀ (s : State) (kind : Nat) (payload : List Byte), Executing s kind payload → kind ∉ knownKinds →
    exec .unknownRequest s = .next (answered s s [2])) ∧
  ∀ (s : State) (before after : List ReplySlot) (r : ReplySlot), Executing s 0x02 [] →
    s.link.replies = before ++ r :: after → (∀ x ∈ before, x.answer.isSome = true) → r.answer = none →
    exec .restart s = .next (State.finish { s with link := { s.link with
      replies := before ++ [{ r with answer := some [0], restart := true }], executing := none, holding := [],
      restarting := true } } s)

/-- R172, R182: a request without arguments is answered BAD_ARGUMENT when its payload is not empty, and one of fixed length when its
payload has another; nothing else changes. That CONFIGURE_PORTS has a fixed length, its eight enable values without a count byte, is the
model's choice (log 71). -/
def Obligations.RequestsRefusePayloadsOfAnotherLength : Prop :=
  (∀ (c : Instr) (kind : Nat) (s : State) (payload : List Byte),
    (c, kind) ∈ [(.identify, 0x01), (.restart, 0x02), (.getStatus, 0x04), (.readFlags, 0x07), (.readMemoryLog, 0x1A),
      (.clearMemoryLog, 0x1B), (.clearStore, 0x1C), (.discardStage, 0x23), (.publish, 0x24), (.forceAdoption, 0x25),
      (.issueTicket, 0x32), (.resetNumbering, 0x33), (.readLabelQueue, 0x40), (.readLastPeriod, 0x51), (.closePeriod, 0x52)] →
    payload ≠ [] → Executing s kind payload → exec c s = .next (answered s s [3])) ∧
  ∀ (c : Instr) (kind length : Nat) (s : State) (payload : List Byte),
    (c, kind, length) ∈ [(.setClock, 0x03, 7), (.configurePorts, 0x10, 8), (.configureChannel, 0x11, 9), (.readChannel, 0x12, 1),
      (.resetChannel, 0x13, 1), (.writeCalibration, 0x18, 16), (.readCalibration, 0x19, 1), (.stageDelete, 0x21, 2),
      (.removeClerk, 0x31, 1), (.cancelBasket, 0x39, 4), (.cancelJob, 0x41, 2), (.resetPrinterPort, 0x42, 1),
      (.startRun, 0x48, 6), (.abortRun, 0x49, 1), (.clearRun, 0x4A, 1), (.readRun, 0x4B, 1), (.readTotals, 0x50, 4)] →
    payload.length ≠ length → Executing s kind payload → exec c s = .next (answered s s [3])

/-- R179, R136: SET_CLOCK sets a valid value, after which the runs are examined; another value is BAD_ARGUMENT. -/
def Obligations.SetClockSetsAValidValue : Prop :=
  ∀ (s : State) (d : DateTime), d.year < 65536 → d.month < 256 → d.day < 256 → d.hour < 256 → d.minute < 256 → d.second < 256 →
    Executing s 0x03 (encDateTime d) →
    (d.valid = true → exec .setClock s =
      .next (answered s (State.examineAll { s with link := { s.link with clock := some d } }) [0])) ∧
    (d.valid = false → exec .setClock s = .next (answered s s [3]))

/-- R181: GET_STATUS replies with the status items and changes nothing; the bits of the summary word. -/
def Obligations.GetStatusReportsTheSummary : Prop :=
  ∀ s : State,
    (Executing s 0x04 [] → exec .getStatus s = .next (answered s s
      (0 :: (u2 s.summary ++ u1 s.store.state.code ++ u4 s.price.generation
        ++ (match s.link.clock with | none => [0, 0, 0, 0, 0, 0, 0, 0] | some d => 1 :: encDateTime d)
        ++ u1 s.totals.commits.length ++ [if s.totals.closing.isSome then 1 else 0] ++ u1 s.labels.queue.length
        ++ u1 s.link.holding.length ++ u2 s.link.errors)))) ∧
    s.summary < 64 ∧
    (s.summary.testBit 0 = true ↔ ∃ st : Station, s.ports[st].state = .lost) ∧
    (s.summary.testBit 1 = true ↔ ∃ p : Printer,
      s.printers[p].state = .waiting ∨ s.printers[p].state = .notReady ∨ s.printers[p].state = .lost) ∧
    (s.summary.testBit 2 = true ↔ s.store.state ≠ .verified) ∧
    (s.summary.testBit 3 = true ↔ s.store.log.state ≠ .none) ∧
    (s.summary.testBit 4 = true ↔ s.price.pending = true) ∧
    (s.summary.testBit 5 = true ↔ ∃ i, s.totals.images = some i ∧
      (i.grand.saturated = true ∨ ∃ y ∈ i.accs, y.2.saturated = true ∨ y.2.damaged = true))

/-- R177: SET_FLAG_CONTROL writes the enable and level of the entries named, the last triple for an entry standing, and no other
field of any entry; CLEAR_FLAGS clears the entries named and marks a report of one of them that is on the line; READ_FLAGS
gives the 50 entries in table order, four bytes each without a count (the model's reading of R182: log 22). A list of none or more
than 50, and a triple or an entry number out of range, is BAD_ARGUMENT and changes nothing. R176: raising a flag makes an entry that is
not pending pending and not reported with the body given; a pending entry and all other entries stay; an entry is due while it is
pending, enabled and not reported. -/
def Obligations.FlagsAreRaisedAndControlled : Prop :=
  (∀ (s : State) (cs : List FlagControl), 1 ≤ cs.length → cs.length ≤ 50 →
    (∀ c ∈ cs, 1 ≤ c.entry ∧ c.entry ≤ 50 ∧ c.enable ≤ 1 ∧ c.level ≤ 3) →
    Executing s 0x05 (encList (fun c => u1 c.entry ++ u1 c.enable ++ u1 c.level) cs) →
    ∃ flags : Vector FlagEntry 50,
      exec .setFlagControl s = .next (answered s { s with link := { s.link with flags := flags } } [0]) ∧
      (∀ n : Fin 50, (flags[n]).pending = (s.link.flags[n]).pending ∧ (flags[n]).reported = (s.link.flags[n]).reported ∧
        (flags[n]).body = (s.link.flags[n]).body) ∧
      (∀ n : Fin 50, (∀ c ∈ cs, c.entry ≠ n.val + 1) → flags[n] = s.link.flags[n]) ∧
      (∀ (n : Fin 50) before c after, cs = before ++ c :: after → c.entry = n.val + 1 → (∀ x ∈ after, x.entry ≠ n.val + 1) →
        (flags[n]).enabled = (c.enable == 1) ∧ (flags[n]).level = c.level)) ∧
  (∀ (s : State) (ns : List Nat), 1 ≤ ns.length → ns.length ≤ 50 → (∀ n ∈ ns, 1 ≤ n ∧ n ≤ 50) → Executing s 0x06 (encList u1 ns) →
    ∃ (flags : Vector FlagEntry 50) (sending : Option HostTx),
      exec .clearFlags s = .next (answered s { s with link := { s.link with flags := flags, sending := sending } } [0]) ∧
      (∀ n : Fin 50, flags[n] = if n.val + 1 ∈ ns then { s.link.flags[n] with pending := false, reported := false, body := [] }
        else s.link.flags[n]) ∧
      sending = s.link.sending.map fun x =>
        match x with
        | .reply f r => .reply f r
        | .report n f c => .report n f (c || decide (n.val + 1 ∈ ns))) ∧
  (∀ (s : State) (cs : List FlagControl), cs.length < 256 → (∀ c ∈ cs, c.entry < 256 ∧ c.enable < 256 ∧ c.level < 256) →
    (cs = [] ∨ 50 < cs.length ∨ ∃ c ∈ cs, c.entry = 0 ∨ 50 < c.entry ∨ 1 < c.enable ∨ 3 < c.level) →
    Executing s 0x05 (encList (fun c => u1 c.entry ++ u1 c.enable ++ u1 c.level) cs) →
    exec .setFlagControl s = .next (answered s s [3])) ∧
  (∀ (s : State) (ns : List Nat), ns.length < 256 → (∀ n ∈ ns, n < 256) → (ns = [] ∨ 50 < ns.length ∨ ∃ n ∈ ns, n = 0 ∨ 50 < n) →
    Executing s 0x06 (encList u1 ns) → exec .clearFlags s = .next (answered s s [3])) ∧
  (∀ s : State, Executing s 0x07 [] → ∃ content : List Byte,
    exec .readFlags s = .next (answered s s (0 :: content)) ∧ content.length = 200 ∧
    ∀ n : Fin 50, (content.drop (4 * n.val)).take 4 =
      encBool (s.link.flags[n]).enabled ++ u1 (s.link.flags[n]).level ++ encBool (s.link.flags[n]).pending
        ++ encBool (s.link.flags[n]).reported) ∧
  ∀ (s : State) (f : Flag) (body : List Byte),
    (s.raise f body = { s with link := { s.link with flags := (s.raise f body).link.flags } }) ∧
    ((s.link.flags[f.entry]).pending = true → s.raise f body = s) ∧
    ((s.link.flags[f.entry]).pending = false →
      (s.raise f body).link.flags[f.entry] = { s.link.flags[f.entry] with pending := true, reported := false, body := body } ∧
      ∀ n : Fin 50, n ≠ f.entry → (s.raise f body).link.flags[n] = s.link.flags[n]) ∧
    (∀ e : FlagEntry, e.due = true ↔ e.pending = true ∧ e.enabled = true ∧ e.reported = false)

/-! ## Scale heads and scale ports -/

/-- R4, R5, R7, R21, R82, R140: a HELLO in WAITING or LOST is accepted: the port record of a new head, an owed ACCEPT and DISPLAY,
HEAD_FOUND, and a channel whose weighing starts afresh. A HELLO of the head present only owes another ACCEPT. A HELLO of another head takes
the first from PRESENT, its ACTIVE run ended with HEAD_LOST, the channel's clerk logged off and the channel, if it is then free, pinned to
the active generation, and accepts the other in the same way: HEAD_LOST and HEAD_FOUND rise, an ACCEPT and a DISPLAY are owed, the channel
is in WARMUP or CAL_FAULT. That the ACCEPTs owed to the first head stay owed (log 25) and that an owed beep is dropped (log 47) are the
model's choices. -/
def Obligations.HeadHelloAcceptsTheHead : Prop :=
  ∀ (s : State) (st : Station) (serial : BitVec 32) (model : Byte), s.powered = true →
    (s.ports[st].state = .waiting ∨ s.ports[st].state = .lost →
      exec (.headHello st serial model) s = .next (State.finish (State.raise { s with
        ports := modAt s.ports st fun _ =>
          { state := .present, serial := some serial, model := some model, lastSeq := none, switch := .unknown,
            converterFault := false, keypadFault := false, image := .initial, sampleTimer := true, stateTimer := true },
        headLines := modAt s.headLines st fun l =>
          { l with owedAccepts := l.owedAccepts ++ [serial], displayOwed := true, beepOwed := false },
        channels := modAt s.channels st fun c =>
          { c with state := if c.calStatus = .fault then .calFault else .warmup, filter := [], stability := [], zp := none,
                   z := none, last := none, tracking := 0, keyedTare := none, selection := none, returnClear := false,
                   armed := false, outcome := .noSelection } } (.headFound st) (encSerial serial)) s)) ∧
    (s.ports[st].state = .present → s.ports[st].serial = some serial →
      exec (.headHello st serial model) s = .next (State.finish { s with
        headLines := modAt s.headLines st fun l => { l with owedAccepts := l.owedAccepts ++ [serial] } } s)) ∧
    (s.ports[st].state = .present → s.ports[st].serial ≠ some serial → ∃ t : State,
      exec (.headHello st serial model) s = .next t ∧
      t.ports[st] = { state := .present, serial := some serial, model := some model, lastSeq := none, switch := .unknown,
                      converterFault := false, keypadFault := false, image := .initial, sampleTimer := true, stateTimer := true } ∧
      (t.link.flags[(Flag.headLost st).entry]).pending = true ∧
      (t.link.flags[(Flag.headFound st).entry]).pending = true ∧ t.runs[st].state ≠ .active ∧ RunEnded s t st .headLost ∧
      AdoptedIfFree s t st ∧
      t.channels[st] = { s.channels[st] with
        state := if s.channels[st].calStatus = .fault then .calFault else .warmup, filter := [], stability := [], zp := none,
        z := none, last := none, tracking := 0, keyedTare := none, selection := none, returnClear := false, armed := false,
        outcome := .noSelection, pinned := t.channels[st].pinned } ∧
      (∃ u : State, t = State.finish u s ∧ ∀ x : Station, u.headLines[x] =
        if x = st then { s.headLines[x] with
          owedAccepts := s.headLines[x].owedAccepts ++ [serial], displayOwed := true, beepOwed := false }
        else s.headLines[x]) ∧
      t.service.clerks = loggedOff s.service st ∧
      (∀ c, s.service.clerkAt st = some c → ∀ x ∈ t.service.clerks, x.number = c.number → x.channel = none) ∧
      (∀ x : Station, x ≠ st → t.ports[x] = s.ports[x] ∧ t.channels[x] = s.channels[x] ∧ t.runs[x] = s.runs[x]) ∧
      t = { s with ports := t.ports, headLines := t.headLines, channels := t.channels, price := t.price,
                   service := { s.service with clerks := t.service.clerks }, runs := t.runs, totals := t.totals, link := t.link })

/-- R6, R7, R21, R82, R140: the expiry of the sample timer takes the port from PRESENT to LOST with all effects: the record's other
indications cleared, HEAD_LOST raised with the lost head's serial number, the channel ABSENT with its windows, zp, z, last weighing, tare
and selection gone, the tracking count 0, the return-clear mark and armed clear, an ACTIVE run ended with HEAD_LOST, the clerk of the
channel logged off, and the channel, if it is then free, pinned to the active generation. No DISPLAY is sent for it; that an owed beep is
dropped (log 47) and an owed ACCEPT stays owed (log 25) are the model's choices. The rest of the channel, the other stations, the service
queue's tickets, the baskets, the label queue, the printers, the queue port and the store do not change. -/
def Obligations.SampleTimeoutLosesTheHead : Prop :=
  ∀ (s : State) (st : Station), s.powered = true → s.ports[st].state = .present → s.ports[st].sampleTimer = true →
    ∃ t : State, exec (.sampleTimeout st) s = .next t ∧
      t.ports[st] = { state := .lost, serial := s.ports[st].serial, model := s.ports[st].model, lastSeq := none,
                      switch := .unknown, converterFault := false, keypadFault := false, image := .initial,
                      sampleTimer := false, stateTimer := false } ∧
      (∀ x : Station, x ≠ st → t.ports[x] = s.ports[x]) ∧
      t.channels[st] = { s.channels[st] with
        state := .absent, filter := [], stability := [], zp := none, z := none, last := none, tracking := 0, keyedTare := none,
        selection := none, returnClear := false, armed := false, outcome := .noSelection, pinned := t.channels[st].pinned } ∧
      AdoptedIfFree s t st ∧
      (∀ x : Station, x ≠ st → t.channels[x] = s.channels[x]) ∧
      t.runs[st].state ≠ .active ∧ RunEnded s t st .headLost ∧ (∀ x : Station, x ≠ st → t.runs[x] = s.runs[x]) ∧
      t.service.clerks = loggedOff s.service st ∧
      (∀ c, s.service.clerkAt st = some c → ∀ x ∈ t.service.clerks, x.number = c.number → x.channel = none) ∧
      (t.link.flags[(Flag.headLost st).entry]).pending = true ∧
      t.link.flags[(Flag.headLost st).entry] =
        (s.raise (.headLost st) (encSerial (s.ports[st].serial.getD 0))).link.flags[(Flag.headLost st).entry] ∧
      (∃ u : State, t = State.finish u s ∧ ∀ x : Station, u.headLines[x] =
        if x = st then { s.headLines[x] with displayOwed := false, beepOwed := false } else s.headLines[x]) ∧
      t = { s with ports := t.ports, headLines := t.headLines, channels := t.channels, price := t.price,
                   service := { s.service with clerks := t.service.clerks }, runs := t.runs, totals := t.totals, link := t.link }

/-- R3, R12: frames a port does not take change nothing: everything in OFF, all but a HELLO outside PRESENT, and keys while the
head reports a keypad fault. -/
def Obligations.PortDiscardsFramesByItsState : Prop :=
  ∀ (s : State) (st : Station), s.powered = true →
    (s.ports[st].state = .off → ∀ serial model, exec (.headHello st serial model) s = .next s) ∧
    (s.ports[st].state ≠ .present →
      (∀ raw seq, exec (.sample st raw seq) s = .next s) ∧ ∀ condition, exec (.headState st condition) s = .next s) ∧
    (s.ports[st].state ≠ .present ∨ s.ports[st].keypadFault = true →
      ∀ c : Instr, stationRow c = some st → exec c s = .next s)

/-- R9, R11, R22, R26: a SAMPLE in PRESENT restarts the sample timer and is recorded; while the head reports a converter fault
nothing else happens; otherwise the raw count joins the filter window and the average the stability window, both emptied first
at a sequence gap, and the channel is as `Channel.sample` leaves it (SampleIsWeighed says how): it adopts when that freed it, its
display fields follow and an ACTIVE run is examined. Clerks, tickets, baskets, the queue port and the store do not change. -/
def Obligations.SampleJoinsTheWindows : Prop :=
  ∀ (s : State) (st : Station) (raw : BitVec 24) (seq : Byte), s.powered = true → s.ports[st].state = .present →
    (s.ports[st].converterFault = true →
      exec (.sample st raw seq) s = .next (State.finish { s with
        ports := modAt s.ports st fun p => { p with sampleTimer := true, lastSeq := some seq } } s)) ∧
    (s.ports[st].converterFault = false → ∃ t : State, exec (.sample st raw seq) s = .next t ∧
      let c := s.channels[st]
      let gap := decide (∃ last, s.ports[st].lastSeq = some last ∧ seq ≠ last + 1)
      let filter := (if gap then [] else c.filter) ++ [raw.toInt]
      let filter := filter.drop (filter.length - c.config.filterLength)
      let stability := (if gap then [] else c.stability) ++ [roundDiv filter.sum filter.length]
      t.channels[st].filter = filter ∧
      t.channels[st].stability = stability.drop (stability.length - c.config.stabilityCount) ∧
      t.channels[st].config = c.config ∧ t.channels[st].cal = c.cal ∧
      (let taken := s.onPort st fun p => { p with sampleTimer := true, lastSeq := some seq }
       let fresh := if gap then taken.emptyWindows st else taken
       t = State.finish (State.decided (State.adoptIfFree (fresh.onChannel st fun x => x.sample raw.toInt) st) st) s) ∧
      (let sampled := (if gap then c.emptyWindows else c).sample raw.toInt
       let adopts := decide (st ∈ s.price.record) && sampled.selection.isNone && !s.runs[st].holds
       t.channels[st].state = sampled.state ∧ t.channels[st].zp = sampled.zp ∧ t.channels[st].z = sampled.z ∧
       t.channels[st].tracking = sampled.tracking ∧
       t.channels[st].last.map Weighing.gross = sampled.last.map Weighing.gross ∧
       (s.runs[st].state ≠ .active →
         t.channels[st] = { sampled with pinned := if adopts then s.price.generation else c.pinned })) ∧
      t.ports[st] = { s.ports[st] with sampleTimer := true, lastSeq := some seq, image := t.ports[st].image } ∧
      t = { s with freeCount := t.freeCount, ports := t.ports, headLines := t.headLines, channels := t.channels,
                   price := t.price, labels := t.labels, printers := t.printers, runs := t.runs, totals := t.totals,
                   link := t.link })

/-- R10, R11, R26: a HEAD_STATE in PRESENT restarts the state timer and writes the three indications; a change of the converter
indication empties the windows of the channel, the weight and price fields of the display are BLANK when it begins, and nothing but the
port changes otherwise. R26, of every emptying: both windows are empty, the tracking count is 0, STABLE becomes MOTION and any other state
stays, the outcome is decided again; the last weighing, the zero offset and its centre, the tare, the selection, armed, the
configuration and all else of the channel stay, and so do the other channels. -/
def Obligations.HeadStateWritesTheIndications : Prop :=
  (∀ c : Channel, c.emptyWindows.outcome = c.emptyWindows.price ∧ c.emptyWindows = { c with
    filter := [], stability := [], tracking := 0, state := if c.state = .stable then .motion else c.state,
    outcome := c.emptyWindows.outcome }) ∧
  (∀ (s : State) (st : Station), (s.emptyWindows st).channels = modAt s.channels st Channel.emptyWindows ∧
    s.emptyWindows st = { s with
      ports := (s.emptyWindows st).ports, channels := (s.emptyWindows st).channels, runs := (s.emptyWindows st).runs } ∧
    (s.emptyWindows st).ports[st] = { s.ports[st] with image := (s.emptyWindows st).ports[st].image } ∧
    (s.emptyWindows st).runs[st] = (if s.runs[st].state = .active then { s.runs[st] with waitingRoom := false } else s.runs[st]) ∧
    ∀ x : Station, x ≠ st → (s.emptyWindows st).ports[x] = s.ports[x] ∧ (s.emptyWindows st).runs[x] = s.runs[x]) ∧
  ∀ (s : State) (st : Station) (condition : Byte), s.powered = true → s.ports[st].state = .present →
    (s.ports[st].converterFault = condition.getLsbD 1 →
      exec (.headState st condition) s = .next (State.finish { s with ports := modAt s.ports st fun p =>
        { p with stateTimer := true, switch := if condition.getLsbD 0 then .opened else .closed,
                 converterFault := condition.getLsbD 1, keypadFault := condition.getLsbD 2 } } s)) ∧
    (s.ports[st].converterFault ≠ condition.getLsbD 1 → ∃ t : State, exec (.headState st condition) s = .next t ∧
      t.ports[st] = { s.ports[st] with
        stateTimer := true, switch := if condition.getLsbD 0 then .opened else .closed,
        converterFault := condition.getLsbD 1, keypadFault := condition.getLsbD 2, image := t.ports[st].image } ∧
      (condition.getLsbD 1 = true → t.ports[st].image.weight = .blank ∧ t.ports[st].image.price = .blank) ∧
      t.channels[st].outcome = t.channels[st].price ∧
      t.channels[st] = { s.channels[st] with
        filter := [], stability := [], tracking := 0,
        state := if s.channels[st].state = .stable then .motion else s.channels[st].state, outcome := t.channels[st].outcome } ∧
      (∀ x : Station, x ≠ st → t.ports[x] = s.ports[x] ∧ t.channels[x] = s.channels[x] ∧ t.runs[x] = s.runs[x]) ∧
      t = { s with ports := t.ports, headLines := t.headLines, channels := t.channels, runs := t.runs, link := t.link })

/-- R10, R16, R2: the state timer's expiry makes the switch UNKNOWN, a DISPLAY refresh owes a DISPLAY, the end of a frame frees the
line, and a discarded or unfinished frame of a peripheral has no effect. R11, R36, R71, R83: what the display image of a station holds
when its fields are written (`refresh`), in PRESENT alone: the weight by the weight state and the price by the pricing outcome, both
BLANK while the head reports a converter fault, the unit price and the name of the selected version, the clerk logged on to the channel,
the ticket of the clerk's current basket, and the message as it was; nothing else changes. That the state timer runs on after its expiry
(log 6) and when the fields are written (log 27) are the model's choices. -/
def Obligations.HeadLineEventsActOnTheLineAlone : Prop :=
  (∀ (s : State) (st : Station),
    let c := s.channels[st]
    let p := s.ports[st]
    let image := (s.refresh st).ports[st].image
    (p.state ≠ .present → s.refresh st = s) ∧
    (p.state = .present →
      s.refresh st = { s with ports := modAt s.ports st fun p => { p with image := image } } ∧
      (p.converterFault = true → image.weight = .blank ∧ image.price = .blank) ∧
      (p.converterFault = false →
        (c.state ∈ [.absent, .calFault, .warmup, .zeroFault] → image.weight = .blank) ∧
        (c.state = .motion → image.weight = .dashes) ∧
        (∀ w, c.state = .stable → c.last = some w → image.weight = .value w.weight) ∧
        (c.state = .overload → image.weight = .over) ∧
        (c.state = .underload → image.weight = .under) ∧
        (∀ price, c.outcome = .priced price → image.price = .value price) ∧
        (c.outcome = .notStable →
          image.price = if c.state ∈ [.motion, .overload, .underload] then .dashes else .blank) ∧
        (c.outcome ∈ [.noSelection, .noCount, .netLow, .zeroPrice] → image.price = .blank) ∧
        (c.outcome = .priceOverflow → image.price = .dashes)) ∧
      (c.selection = none → image.unitPrice = none ∧ image.name = []) ∧
      (∀ sel, c.selection = some sel → image.unitPrice = some sel.version.unitPrice ∧ image.name = sel.version.name) ∧
      (s.service.clerkAt st = none → image.clerk = none ∧ image.ticket = none) ∧
      (∀ k, s.service.clerkAt st = some k → image.clerk = some k.number ∧
        (s.current k = none → image.ticket = none) ∧ ∀ b, s.current k = some b → image.ticket = b.ticket) ∧
      image.message = p.image.message)) ∧
  ∀ (s : State) (st : Station), s.powered = true →
    (s.ports[st].state = .present → s.ports[st].stateTimer = true → exec (.stateTimeout st) s =
      .next (State.finish { s with ports := modAt s.ports st fun p => { p with switch := .unknown } } s)) ∧
    (s.ports[st].state = .present → exec (.displayRefresh st) s =
      .next (State.finish { s with headLines := modAt s.headLines st fun l => { l with displayOwed := true } } s)) ∧
    (s.headLines[st].sending.isSome = true → exec (.displayFrameEnd st) s =
      .next (State.finish { s with headLines := modAt s.headLines st fun l => { l with sending := none } } s)) ∧
    (∀ line frame, exec (.peripheralFrameDiscarded line frame) s = .next (s.finish s)) ∧
    ∀ line, exec (.peripheralInterbyteTimeout line) s = .next (s.finish s)

/-! ## Weighing -/

/-- 2.3, R65, R67, R68: a quotient of weighing is rounded to the nearest integer, a value midway going away from zero; the base
price, the markdown amount and the price are rounded half up, and no markdown up to 90 percent exceeds its base. -/
def Obligations.RoundingsAreToTheNearest : Prop :=
  (∀ (n : Int) (d : Nat), 0 < d →
    2 * (roundDiv n d).natAbs * d ≤ 2 * n.natAbs + d ∧ 2 * n.natAbs + d < 2 * ((roundDiv n d).natAbs + 1) * d ∧
    (0 ≤ n → 0 ≤ roundDiv n d) ∧ (n ≤ 0 → roundDiv n d ≤ 0)) ∧
  (∀ w p : Nat, 1000 * basePriceByWeight w p ≤ w * p + 500 ∧ w * p + 500 < 1000 * (basePriceByWeight w p + 1)) ∧
  (∀ base m : Nat, 100 * markdownAmount base m ≤ base * m + 50 ∧ base * m + 50 < 100 * (markdownAmount base m + 1) ∧
    (m ≤ 90 → markdownAmount base m ≤ base)) ∧
  ∀ pre s : Nat, s = 1 ∨ s = 5 ∨ s = 10 →
    s ∣ stepPrice pre s ∧ 2 * stepPrice pre s ≤ 2 * pre + s ∧ 2 * pre + s < 2 * stepPrice pre s + 2 * s

/-- R22, R23, R24, R27, R29, R34, R35: what a sample does to the channel. The windows take it. In MOTION, STABLE, OVERLOAD or UNDERLOAD it
is weighed: gross from the average and the zero offset, net under the tare in force, the division of the net's range, the displayed weight,
the weight state. In WARMUP and ZERO_FAULT the power-up zero is tried at rest with a VALID record: within 10% of Max it is taken and the
sample reads zero gross, outside it the channel is in ZERO_FAULT; otherwise nothing but the windows changes, as in ABSENT and CAL_FAULT.
Without a calibration record (CAL_FAULT, or WARMUP with the status NOT_LOADED) nothing is weighed: the windows take the sample, the outcome
is decided again, and all else stays as it was, the weight state too. A net below five lower divisions in STABLE or MOTION sets armed, which
clears the selection when the return-clear mark is set. Zero tracking counts a weighing in STABLE with no tare and a gross of half a
division, and at M of them takes the offset within 2% of Max. The outcome is decided last. The tare in force, here and wherever it is named:
the keyed tare; without one the preset tare of the selection rounded down to a multiple of ten lower divisions of the record in force;
otherwise 0. That it is 0 without a record to round by is the model's reading (log 34). That the last weighing is recomputed when the zero
return clears a selection is the model's choice (log 39), and that CAL_FAULT takes samples into its windows is its reading (log 28). -/
def Obligations.SampleIsWeighed : Prop :=
  (∀ c : Channel,
    (∀ t, c.keyedTare = some t → c.tareInForce = t) ∧
    (c.keyedTare = none → c.selection = none → c.tareInForce = 0) ∧
    (c.keyedTare = none → c.cal = none → c.tareInForce = 0) ∧
    ∀ sel r, c.keyedTare = none → c.selection = some sel → c.cal = some r →
      10 * r.e1 ∣ c.tareInForce ∧ c.tareInForce + sel.presetTare % (10 * r.e1) = sel.presetTare) ∧
  (∀ (c : Channel) (x : Int), c.cal = none →
    let filter := (c.filter ++ [x]).drop ((c.filter ++ [x]).length - c.config.filterLength)
    let stability := c.stability ++ [roundDiv filter.sum filter.length]
    let after := c.sample x
    after.outcome = after.price ∧
    after = { c with
      filter := filter, stability := stability.drop (stability.length - c.config.stabilityCount), outcome := after.outcome }) ∧
  ∀ (c : Channel) (r : CalRecord) (x : Int), c.cal = some r →
    let filter := (c.filter ++ [x]).drop ((c.filter ++ [x]).length - c.config.filterLength)
    let a := roundDiv filter.sum filter.length
    let stability := (c.stability ++ [a]).drop ((c.stability ++ [a]).length - c.config.stabilityCount)
    let upper : Nat := if r.rangeMode = 1 then r.e2 else r.e1
    let e : Nat := match c.last with | none => r.e1 | some w => w.division
    let rest := decide (stability.length = c.config.stabilityCount ∧
      roundDiv (spread stability * 10000) r.span ≤ ((c.config.motionBand * 5 * e : Nat) : Int))
    let after := c.sample x
    let unweighed := after.zp = c.zp ∧ after.z = c.z ∧ after.last = c.last ∧ after.tracking = c.tracking ∧ after.armed = c.armed ∧
      after.selection = c.selection ∧ after.returnClear = c.returnClear
    let zeroReturn := fun gross : Int =>
      let arms := (after.state = .stable ∨ after.state = .motion) ∧ gross - (c.tareInForce : Int) < ((50 * r.e1 : Nat) : Int) ∧
        c.armed = false
      (arms → after.armed = true ∧ after.returnClear = false ∧
        after.selection = if c.returnClear then none else c.selection) ∧
      (¬arms → after.armed = c.armed ∧ after.returnClear = c.returnClear ∧ after.selection = c.selection)
    let tracks := fun gross : Int =>
      c.config.zeroTracking = true ∧ after.state = .stable ∧ after.tareInForce = 0 ∧ gross.natAbs ≤ 5 * r.e1
    let trying := c.state = .warmup ∨ c.state = .zeroFault
    let deviation := (a - r.zc).natAbs
    after.filter = filter ∧ after.stability = stability ∧ after.keyedTare = c.keyedTare ∧ after.outcome = after.price ∧
    after = { c with
      filter := filter, stability := stability, state := after.state, zp := after.zp, z := after.z, tracking := after.tracking,
      selection := after.selection, returnClear := after.returnClear, armed := after.armed, last := after.last,
      outcome := after.outcome } ∧
    (∀ z : Int, c.z = some z → c.state = .motion ∨ c.state = .stable ∨ c.state = .overload ∨ c.state = .underload →
      let gross := roundDiv ((a - r.zc - z) * 10000) r.span
      (∃ w : Weighing, after.last = some w ∧ w.gross = gross ∧ w.net = gross - (after.tareInForce : Int) ∧
        w.division = (if r.rangeMode = 1 ∧ ((10 * r.max1 : Nat) : Int) < w.net then r.e2 else r.e1) ∧
        w.weight = roundDiv w.net (10 * w.division) * (w.division : Int)) ∧
      after.state =
        (if ((10 * (r.max + 9 * upper) : Nat) : Int) < gross then .overload
         else if gross < -((200 * r.e1 : Nat) : Int) then .underload
         else if rest then .stable else .motion) ∧
      after.zp = c.zp ∧ zeroReturn gross ∧
      ∀ zp : Int, c.zp = some zp →
        (¬tracks gross → after.tracking = 0 ∧ after.z = some z) ∧
        (tracks gross → c.tracking + 1 < c.config.stabilityCount → after.tracking = c.tracking + 1 ∧ after.z = some z) ∧
        (tracks gross → c.config.stabilityCount ≤ c.tracking + 1 → after.tracking = 0 ∧
          after.z = some (if 50000 * (a - r.zc - zp).natAbs ≤ r.max * r.span then a - r.zc else z))) ∧
    (trying → ¬(c.calStatus = .valid ∧ rest = true) → after.state = c.state ∧ unweighed) ∧
    (trying → c.calStatus = .valid → rest = true → r.max * r.span < 10000 * deviation → after.state = .zeroFault ∧ unweighed) ∧
    (trying → c.calStatus = .valid → rest = true → 10000 * deviation ≤ r.max * r.span →
      after.state = .stable ∧ after.zp = some (a - r.zc) ∧ after.z = some (a - r.zc) ∧ zeroReturn 0 ∧
      (∃ w : Weighing, after.last = some w ∧ w.gross = 0 ∧ w.net = -(after.tareInForce : Int) ∧ w.division = r.e1 ∧
        w.weight = roundDiv w.net (10 * r.e1) * (r.e1 : Int)) ∧
      (1 < c.config.stabilityCount → (tracks 0 → after.tracking = 1) ∧ (¬tracks 0 → after.tracking = 0))) ∧
    (c.state = .absent ∨ c.state = .calFault → after.state = c.state ∧ unweighed)

/-! ## The keys of the channel -/

/-- R13: the keys a KEY frame carries: a code 1 to 48 is PRESET of that key, the codes of 1.5 are their keys, and every other code
is refused KEY_UNMAPPED. -/
def Obligations.KeyFrameCarriesItsKey : Prop :=
  ∀ (s : State) (st : Station) (number : BitVec 16),
    (∀ k : Nat, 1 ≤ k → k ≤ 48 → exec (.key st (BitVec.ofNat 8 k) number) s = exec (.preset st k) s) ∧
    (∀ (code : Byte) (c : Instr), (code, c) ∈ [(0x40, .pluEntry st number), (0x41, .countEntry st number), (0x42, .zero st),
      (0x43, .tare st), (0x44, .clearTare st), (0x45, .clear st), (0x46, .add st), (0x47, .voidLast st), (0x48, .total st),
      (0x49, .nextKey st), (0x4A, .park st), (0x4B, .recallBasket st), (0x4C, .recallTicket st number), (0x4D, .reprint st),
      (0x4E, .clerk st number), (0x4F, .logoff st), (0x50, .page st)] → exec (.key st code number) s = exec c s) ∧
    (∀ code : Byte, code = 0 ∨ (48 < code.toNat ∧ code.toNat < 0x40) ∨ 0x50 < code.toNat → KeyTaken s st →
      exec (.key st code number) s = .next (State.finish (s.refuseKey st .keyUnmapped) s)) ∧
    (KeyTaken s st → exec (.key st 0x50 number) s = .next (State.finish ((accepted s st).onChannel st fun c =>
      { c with page := if c.page = .a then .b else .a }) s))

/-- R25, R28, R30, R31, R33, R37: what the channel keys do when they are accepted: the message field becomes NONE, the key has its own
effect, and after a change of the tare or the selection the last weighing is recomputed (`retare`: the gross stays, the net is what is left
under the tare now in force, then the division of the net's range and the displayed weight; the weight state, decided on the gross, stays),
the pricing outcome is decided again (`reprice`), and the display fields follow and an ACTIVE run is examined (`decided`). Clearing the
selection takes its count and preset tare and the return-clear mark, recomputes the last weighing without the preset tare, and lets a channel
then free adopt. CLEAR returns a run in DONE_HELD to IDLE and leaves an IDLE one. What the tare in force is SampleIsWeighed says. The model's
choice in it: the last weighing is recomputed at once whatever event clears the selection (log 39). -/
def Obligations.ChannelKeysAct : Prop :=
  (∀ (r : CalRecord) (gross : Int) (tare : Nat),
    let w := weighing r gross tare
    w.gross = gross ∧ w.net = gross - (tare : Int) ∧
    w.division = (if r.rangeMode = 1 ∧ ((10 * r.max1 : Nat) : Int) < w.net then r.e2 else r.e1) ∧
    w.weight = roundDiv w.net (10 * w.division) * (w.division : Int)) ∧
  (∀ c : Channel, c.reprice = { c with outcome := c.price } ∧
    (∀ w r, c.last = some w → c.cal = some r → c.retare = { c with last := some (weighing r w.gross c.tareInForce) }) ∧
    (c.last = none ∨ c.cal = none → c.retare = c)) ∧
  (∀ (s : State) (st : Station),
    let c := s.channels[st]
    let t := s.clearSelection st
    t.channels[st] = { c with selection := none, returnClear := false, last := t.channels[st].last, outcome := .noSelection,
                              pinned := t.channels[st].pinned } ∧
    (∀ w r, c.last = some w → c.cal = some r → t.channels[st].last = some (weighing r w.gross (c.keyedTare.getD 0))) ∧
    (c.last = none ∨ c.cal = none → t.channels[st].last = c.last) ∧
    AdoptedIfFree s t st ∧
    (s.ports[st].state = .present →
      t.ports[st].image.unitPrice = none ∧ t.ports[st].image.name = [] ∧ t.ports[st].image.price = .blank) ∧
    t.ports[st] = { s.ports[st] with image := t.ports[st].image } ∧
    t.ports[st].image.message = s.ports[st].image.message ∧
    (∀ x : Station, x ≠ st → t.channels[x] = s.channels[x] ∧ t.ports[x] = s.ports[x]) ∧
    t = State.refresh { s with channels := t.channels, price := t.price, link := { s.link with flags := t.link.flags } } st) ∧
  ∀ (s : State) (st : Station), KeyTaken s st →
    accepted s st = { s with ports := modAt s.ports st fun p => { p with image := { p.image with message := .none } } } ∧
    (∀ (r : CalRecord) (zp a : Int), s.channels[st].state = .stable → s.channels[st].tareInForce = 0 →
      s.channels[st].cal = some r → s.channels[st].zp = some zp → s.channels[st].stability.getLast? = some a →
      50000 * (a - r.zc - zp).natAbs ≤ r.max * r.span →
      exec (.zero st) s = .next (State.finish (((accepted s st).onChannel st fun c => Channel.reprice
        { c with z := some (a - r.zc), tracking := 0, last := some { gross := 0, net := 0, division := r.e1, weight := 0 } }).decided
          st) s)) ∧
    (∀ (r : CalRecord) (w : Weighing) (t : Nat), s.channels[st].state = .stable → s.channels[st].cal = some r →
      s.channels[st].last = some w → (t : Int) = roundDiv w.gross (10 * r.e1) * ((10 * r.e1 : Nat) : Int) → 0 < t →
      exec (.tare st) s = .next (State.finish (((accepted s st).onChannel st fun c => Channel.reprice
        { c with keyedTare := some t, last := some (weighing r w.gross t) }).decided st) s)) ∧
    exec (.clearTare st) s = .next (State.finish (((accepted s st).onChannel st fun c => Channel.reprice (Channel.retare
      { c with keyedTare := none, selection := c.selection.map fun x => { x with presetTare := 0 } })).decided st) s) ∧
    (∀ (r : CalRecord) (w : Weighing), s.channels[st].cal = some r → s.channels[st].last = some w →
      exec (.clearTare st) s = .next (State.finish (((accepted s st).onChannel st fun c => Channel.reprice
        { c with keyedTare := none, selection := c.selection.map fun x => { x with presetTare := 0 },
                 last := some (weighing r w.gross 0) }).decided st) s)) ∧
    (∀ (number : BitVec 16) (sel : Selection), 1 ≤ number.toNat → number.toNat ≤ 999 →
      s.channels[st].selection = some sel → sel.version.mode = .byCount →
      exec (.countEntry st number) s = .next (State.finish (((accepted s st).onChannel st fun c => Channel.reprice
        (Channel.retare { c with selection := some { sel with count := some number.toNat } })).decided st) s)) ∧
    (s.runs[st].state ≠ .active → s.runs[st].state ≠ .ending →
      let cleared := if s.channels[st].selection = none then accepted s st else (accepted s st).clearSelection st
      (s.runs[st].state = .idle → exec (.clear st) s = .next (State.finish cleared s)) ∧
      (s.runs[st].state = .doneHeld → exec (.clear st) s = .next (State.finish { cleared with
        runs := modAt s.runs st fun r => { r with state := .idle } } s))) ∧
    exec (.page st) s = .next (State.finish ((accepted s st).onChannel st fun c =>
      { c with page := if c.page = .a then .b else .a }) s)

/-- R32, R44, R45: PRESET selects the PLU its key maps to, and PLU_ENTRY the PLU of its number, from the view of the channel's pinned
generation: the version, its preset tare and no count, the return-clear mark cleared. An override names its key's PLU, otherwise
the window does; a channel pinned to G sees the versions and pages at G, and one pinned to the generation before sees the retained
entries, of PLUs and of pages, in place of what replaced them. -/
def Obligations.PluKeysSelectFromTheView : Prop :=
  (∀ (s : State) (st : Station) (v : PluVersion), KeyTaken s st → s.runs[st].state ≠ .active → s.runs[st].state ≠ .ending →
    (∀ k n : Nat, (s.price.viewPage (s.price.isPrevious s.channels[st].pinned) st s.channels[st].page).map k = some n →
      s.price.lookup s.channels[st].pinned n = some v →
      exec (.preset st k) s = .next (State.finish (((accepted s st).onChannel st fun c => Channel.reprice (Channel.retare
        { c with selection := some { version := v, presetTare := v.presetTare, count := none }, returnClear := false })).decided
          st) s)) ∧
    (∀ number : BitVec 16, 1 ≤ number.toNat → number.toNat ≤ 9999 →
      s.price.lookup s.channels[st].pinned number.toNat = some v →
      exec (.pluEntry st number) s = .next (State.finish (((accepted s st).onChannel st fun c => Channel.reprice (Channel.retare
        { c with selection := some { version := v, presetTare := v.presetTare, count := none }, returnClear := false })).decided
          st) s))) ∧
  (∀ (p : KeyPage) (k n : Nat), (k, n) ∈ p.overrides → (p.overrides.map Prod.fst).Nodup → p.map k = some n) ∧
  (∀ (p : KeyPage) (k : Nat), (∀ o ∈ p.overrides, o.1 ≠ k) → p.map k =
    match p.window with
    | none => none
    | some w => if w.first ≤ k ∧ k < w.first + w.count ∧ w.base + (k - w.first) ≤ 9999 then some (w.base + (k - w.first)) else none) ∧
  (∀ (t : PriceTable) (st : Station), t.pageAt st .a = (t.pages[st]).a ∧ t.pageAt st .b = (t.pages[st]).b) ∧
  (∀ (t : PriceTable) (st : Station) (name : PageName), t.viewPage (t.isPrevious t.generation) st name = t.pageAt st name) ∧
  (∀ (t : PriceTable) (pinned : Nat) (st : Station) (name : PageName), pinned ≠ t.generation →
    ((∀ p, Retained.page st name p ∉ t.retained) → t.viewPage (t.isPrevious pinned) st name = t.pageAt st name) ∧
    ∀ before p after, t.retained = before ++ .page st name p :: after → (∀ q, Retained.page st name q ∉ before) →
      t.viewPage (t.isPrevious pinned) st name = p) ∧
  (∀ (t : PriceTable) (n : Nat), t.lookup t.generation n = t.versions.find? fun v => v.number == n) ∧
  ∀ (t : PriceTable) (pinned n : Nat), pinned ≠ t.generation →
    ((∀ p, Retained.plu n p ∉ t.retained) →
      (∀ m v, Retained.plu m (some v) ∈ t.retained → v.number = m) →
      t.lookup pinned n = t.versions.find? fun v => v.number == n) ∧
    ∀ previous : Option PluVersion, Retained.plu n previous ∈ t.retained →
      (∀ p, Retained.plu n p ∈ t.retained → p = previous) →
      (∀ m v, Retained.plu m (some v) ∈ t.retained → v.number = m) → t.lookup pinned n = previous

/-- R13, R14: a refused key changes the message field to its code and owes a beep, also when the field held that code already, and
changes nothing else. The refusals of the channel's keys (R28, R30, R32, R37, R44), a mapped PLU that is not in the view among them; of
CLERK for a number out of range, undefined or disabled (R81) and of LOGOFF (R82); NO_CLERK of the basket keys and of NEXT (R88, R102,
R105 to R109); of RECALL_TICKET for a number out of range, no clerk, or a ticket not in the recall list (R90). -/
def Obligations.KeysAreRefusedByTheirRules : Prop :=
  (∀ (s : State) (st : Station) (m : Message), s.refuseKey st m = { s with
    ports := modAt s.ports st fun p => { p with image := { p.image with message := m } },
    headLines := modAt s.headLines st fun l => { l with beepOwed := true } }) ∧
  ∀ (s : State) (st : Station), KeyTaken s st →
    let refused := fun (c : Instr) (m : Message) => exec c s = .next (State.finish (s.refuseKey st m) s)
    let c := s.channels[st]
    (c.state ≠ .stable → refused (.zero st) .notStable ∧ refused (.tare st) .notStable) ∧
    (c.state = .stable → c.tareInForce ≠ 0 → refused (.zero st) .keyUnmapped) ∧
    (∀ r zp a, c.state = .stable → c.tareInForce = 0 → c.cal = some r → c.zp = some zp → c.stability.getLast? = some a →
      r.max * r.span < 50000 * (a - r.zc - zp).natAbs → refused (.zero st) .zeroRange) ∧
    (∀ r w, c.state = .stable → c.cal = some r → c.last = some w →
      roundDiv w.gross (10 * r.e1) * ((10 * r.e1 : Nat) : Int) ≤ 0 → refused (.tare st) .keyUnmapped) ∧
    (∀ number : BitVec 16,
      (number.toNat < 1 ∨ 999 < number.toNat → refused (.countEntry st number) .keyUnmapped) ∧
      (1 ≤ number.toNat → number.toNat ≤ 999 → c.selection = none → refused (.countEntry st number) .noPlu) ∧
      (∀ sel, 1 ≤ number.toNat → number.toNat ≤ 999 → c.selection = some sel → sel.version.mode ≠ .byCount →
        refused (.countEntry st number) .keyUnmapped) ∧
      (number.toNat < 1 ∨ 9999 < number.toNat → refused (.pluEntry st number) .notFound) ∧
      (number.toNat < 1 ∨ 99 < number.toNat → refused (.recallTicket st number) .notFound) ∧
      (number.toNat < 1 ∨ 32 < number.toNat → refused (.clerk st number) .notFound) ∧
      (1 ≤ number.toNat → number.toNat ≤ 9999 → s.runs[st].holds = true → refused (.pluEntry st number) .runActive) ∧
      (1 ≤ number.toNat → number.toNat ≤ 9999 → s.runs[st].holds = false → s.price.lookup c.pinned number.toNat = none →
        refused (.pluEntry st number) .notFound)) ∧
    (s.runs[st].holds = true → refused (.clear st) .runActive ∧ ∀ k, refused (.preset st k) .runActive) ∧
    (∀ k, s.runs[st].holds = false → (s.price.viewPage (s.price.isPrevious c.pinned) st c.page).map k = none →
      refused (.preset st k) .keyUnmapped) ∧
    (∀ k n, s.runs[st].holds = false → (s.price.viewPage (s.price.isPrevious c.pinned) st c.page).map k = some n →
      s.price.lookup c.pinned n = none → refused (.preset st k) .notFound) ∧
    (∀ number : BitVec 16, 1 ≤ number.toNat → number.toNat ≤ 32 →
      (s.service.clerk number.toNat = none ∨ ∃ k, s.service.clerk number.toNat = some k ∧ k.enabled = false) →
      refused (.clerk st number) .notFound) ∧
    (∀ number : BitVec 16, 1 ≤ number.toNat → number.toNat ≤ 99 →
      (s.service.clerkAt st = none → refused (.recallTicket st number) .noClerk) ∧
      (s.service.clerkAt st ≠ none → number.toNat ∉ s.service.recallList → refused (.recallTicket st number) .notFound)) ∧
    (s.service.clerkAt st = none → refused (.logoff st) .noClerk ∧ refused (.add st) .noClerk ∧ refused (.total st) .noClerk ∧
      refused (.voidLast st) .noClerk ∧ refused (.park st) .noClerk ∧ refused (.recallBasket st) .noClerk ∧
      refused (.reprint st) .noClerk ∧ refused (.nextKey st) .noClerk)

/-! ## Requests for ports and channels -/

/-- R7, R8, R21, R38: CONFIGURE_PORTS acts on the eight ports by their values; a disabled port goes to OFF and sends nothing more, from
PRESENT with all the effects of a head's departure (the record cleared, HEAD_LOST, the channel ABSENT, its ACTIVE run ended with HEAD_LOST,
its clerk logged off, the channel, if then free, pinned to the active generation) and the final DISPLAY; an enabled one in OFF goes to
WAITING; other values are BAD_ARGUMENT. The model's choices here: the ports act in ascending order (log 38), the eight values come without a
count byte (log 71), printer fallback is 1 for allowed and 0 for not allowed (log 65), an owed ACCEPT and an owed beep are dropped on
entering OFF (log 25, log 47), and OFF to WAITING clears the serial and keeps the model code (log 36). CONFIGURE_CHANNEL writes the fields
clamped to their ranges, and replies CLAMPED when one was; a change of N or M empties the windows; a channel number that is none, or a
yes/no value that is neither, is BAD_ARGUMENT. -/
def Obligations.PortsAndChannelsAreConfigured : Prop :=
  (∀ (s : State) (values : List Nat), values.length = 8 → (∀ v ∈ values, v < 256) → Executing s 0x10 (values.map (BitVec.ofNat 8)) →
    ((∀ v ∈ values, v ≤ 1) → exec .configurePorts s =
      .next (answered s ((stations.zip values).foldl (fun t x => t.enablePort x.1 (x.2 == 1)) s) [0])) ∧
    ((∃ v ∈ values, 1 < v) → exec .configurePorts s = .next (answered s s [3]))) ∧
  (∀ (s : State) (st : Station),
    (s.ports[st].state = .off → s.enablePort st false = s ∧
      s.enablePort st true = s.onPort st fun p => { p with state := .waiting, serial := none }) ∧
    (s.ports[st].state ≠ .off → s.enablePort st true = s) ∧
    (s.ports[st].state ≠ .off → (s.enablePort st false).ports[st].state = .off ∧
      (s.enablePort st false).headLines[st].owedAccepts = [] ∧ (s.enablePort st false).headLines[st].displayOwed = false ∧
      (s.enablePort st false).headLines[st].beepOwed = false ∧
      (s.ports[st].state = .present → (s.enablePort st false).headLines[st].finalOwed = true)) ∧
    (s.ports[st].state = .waiting ∨ s.ports[st].state = .lost → s.enablePort st false = { s with
      ports := modAt s.ports st fun p => { p with state := .off },
      headLines := modAt s.headLines st fun l => { l with owedAccepts := [], displayOwed := false, beepOwed := false } }) ∧
    (s.ports[st].state = .present →
      let t := s.enablePort st false
      t.ports[st] = { state := .off, serial := s.ports[st].serial, model := s.ports[st].model, lastSeq := none, switch := .unknown,
                      converterFault := false, keypadFault := false, image := .initial, sampleTimer := false,
                      stateTimer := false } ∧
      t.channels[st] = { s.channels[st] with
        state := .absent, filter := [], stability := [], zp := none, z := none, last := none, tracking := 0, keyedTare := none,
        selection := none, returnClear := false, armed := false, outcome := .noSelection, pinned := t.channels[st].pinned } ∧
      t.runs[st].state ≠ .active ∧ RunEnded s t st .headLost ∧ AdoptedIfFree s t st ∧ t.service.clerks = loggedOff s.service st ∧
      (t.link.flags[(Flag.headLost st).entry]).pending = true ∧
      (∀ c, s.service.clerkAt st = some c → ∀ x ∈ t.service.clerks, x.number = c.number → x.channel = none) ∧
      (∀ x : Station, x ≠ st → t.ports[x] = s.ports[x] ∧ t.headLines[x] = s.headLines[x] ∧ t.channels[x] = s.channels[x] ∧
        t.runs[x] = s.runs[x]) ∧
      t = { s with ports := t.ports, headLines := t.headLines, channels := t.channels, price := t.price,
                   service := { s.service with clerks := t.service.clerks }, runs := t.runs, totals := t.totals,
                   link := { s.link with flags := t.link.flags } })) ∧
  (∀ (s : State) (channel n m b z t i printer f : Byte), Executing s 0x11 [channel, n, m, b, z, t, i, printer, f] →
    (channel = 0 ∨ 8 < channel.toNat ∨ 1 < z.toNat ∨ 1 < t.toNat ∨ 1 < i.toNat ∨ 1 < f.toNat) →
    exec .configureChannel s = .next (answered s s [3])) ∧
  ∀ (s : State) (st : Station) (n m b printer : Byte) (z t i f : Bool),
    Executing s 0x11 [BitVec.ofNat 8 (st.val + 1), n, m, b, if z then 1 else 0, if t then 1 else 0, if i then 1 else 0, printer,
      if f then 1 else 0] →
    let cfg : ChannelConfig :=
      { filterLength := if n.toNat < 6 then 4 else if n.toNat < 12 then 8 else 16,
        stabilityCount := max 5 (min 25 m.toNat), motionBand := max 1 (min 6 b.toNat), zeroTracking := z, tareHold := t,
        itemLabels := i, boundPrinter := if printer.toNat ≤ 1 then 0 else 1, fallback := f }
    let clamped := decide (n.toNat ≠ cfg.filterLength ∨ m.toNat ≠ cfg.stabilityCount ∨ b.toNat ≠ cfg.motionBand ∨
      printer.toNat ≠ cfg.boundPrinter.val + 1)
    let written := s.onChannel st fun c => { c with config := cfg, tracking := if z then c.tracking else 0 }
    exec .configureChannel s = .next (answered s
      (if s.channels[st].config.filterLength = cfg.filterLength ∧ s.channels[st].config.stabilityCount = cfg.stabilityCount
        then written else written.emptyWindows st)
      [if clamped then 1 else 0])

/-- R39, R40: READ_CHANNEL replies with the record, field by field, and changes nothing (its holding code with both a selection and a
run is the model's choice, log 40, as are the price of an outcome that is not PRICED, log 43, the fallback sent as 1 for allowed, log 65,
and armed and the return-clear mark sent as 1 for set, log 66); RESET_CHANNEL ends an ACTIVE run with RESET and starts the weighing
afresh, in WARMUP, CAL_FAULT or ABSENT: the windows, zp, z, the last weighing, the keyed tare and the selection gone, the tracking count 0,
the return-clear mark and armed clear, and so no selection to price; the channel, if it is then free, adopts; its calibration record,
configuration and key page stay, and so do the clerks, the scale port but for its display and the other stations. Both refuse a channel
number that is none. -/
def Obligations.ReadAndResetChannel : Prop :=
  (∀ (s : State) (st : Station),
    let c := s.channels[st]
    let p := s.ports[st]
    let flag := fun b : Bool => (if b then 1 else 0 : Byte)
    let weighed : List Byte := match c.last with
      | none => [0]
      | some w => 1 :: (i4 w.gross ++ i4 w.net ++ u1 w.division ++ i4 w.weight)
    let selected : List Byte := match c.selection with
      | none => [0]
      | some x => 1 :: (u2 x.version.number ++ u4 x.version.generation ++ (match x.count with | none => [0] | some q => 1 :: u2 q))
    let offset := fun z : Option Int => (match z with | none => [0] | some z => 1 :: i4 z : List Byte)
    let outcome : List Byte := match c.outcome with
      | .priced price => 0 :: u4 price
      | .noSelection => [1, 0, 0, 0, 0]
      | .notStable => [2, 0, 0, 0, 0]
      | .noCount => [3, 0, 0, 0, 0]
      | .netLow => [4, 0, 0, 0, 0]
      | .priceOverflow => [5, 0, 0, 0, 0]
      | .zeroPrice => [6, 0, 0, 0, 0]
    s.channelBytes st =
      u1 (st.val + 1) ++ u1 ([.absent, .calFault, .warmup, .zeroFault, .motion, .stable, .overload, .underload].idxOf c.state)
      ++ [(match c.calStatus with | .notLoaded => 0 | .valid => 1 | .fault => 2 : Byte)] ++ weighed
      ++ outcome ++ offset c.zp ++ offset c.z ++ encOpt u4 c.keyedTare ++ u4 c.tareInForce ++ selected
      ++ [flag c.armed, flag c.returnClear, if s.runs[st].holds then 2 else flag c.selection.isSome] ++ u4 c.pinned
      ++ [flag (c.page == .b)]
      ++ (u1 c.config.filterLength ++ u1 c.config.stabilityCount ++ u1 c.config.motionBand
        ++ [flag c.config.zeroTracking, flag c.config.tareHold, flag c.config.itemLabels] ++ u1 (c.config.boundPrinter.val + 1)
        ++ [flag c.config.fallback])
      ++ u1 (match s.service.clerkAt st with | none => 0 | some k => k.number)
      ++ ([(match p.state with | .off => 0 | .waiting => 1 | .present => 2 | .lost => 3 : Byte)]
        ++ encOpt (fun x : BitVec 32 => u4 x.toNat) p.serial ++ encOpt (fun x => [x]) p.model
        ++ [(match p.switch with | .opened => 0 | .closed => 1 | .unknown => 2 : Byte), flag p.converterFault, flag p.keypadFault])) ∧
  ∀ (s : State) (n : Byte),
    (∀ st : Station, n.toNat = st.val + 1 →
      (Executing s 0x12 [n] → exec .readChannel s = .next (answered s s (0 :: s.channelBytes st))) ∧
      (Executing s 0x13 [n] → ∃ t : State, exec .resetChannel s = .next (answered s t [0]) ∧
        t.channels[st] = { s.channels[st] with
          state := if s.ports[st].state = .present then (if s.channels[st].calStatus = .fault then .calFault else .warmup)
            else .absent,
          filter := [], stability := [], zp := none, z := none, last := none, tracking := 0, keyedTare := none, selection := none,
          returnClear := false, armed := false, outcome := .noSelection, pinned := t.channels[st].pinned } ∧
        AdoptedIfFree s t st ∧
        t.runs[st].state ≠ .active ∧ RunEnded s t st .reset ∧ t.ports[st] = { s.ports[st] with image := t.ports[st].image } ∧
        (∀ x : Station, x ≠ st → t.channels[x] = s.channels[x] ∧ t.runs[x] = s.runs[x] ∧ t.ports[x] = s.ports[x]) ∧
        t = { s with ports := t.ports, channels := t.channels, price := t.price, runs := t.runs, totals := t.totals,
                     link := { s.link with flags := t.link.flags } })) ∧
    (n = 0 ∨ 8 < n.toNat →
      (Executing s 0x12 [n] → exec .readChannel s = .next (answered s s [3])) ∧
      (Executing s 0x13 [n] → exec .resetChannel s = .next (answered s s [3])))

/-! ## Calibration, the memory error log and the clear -/

/-- R167, R168, R20, R169: WRITE_CALIBRATION is checked in order: a channel number outside 1 to 8 is BAD_ARGUMENT; with the switch not OPEN
it is LOCKED and CAL_ATTEMPT rises, whatever the record; a store not VERIFIED gives STORE_NOT_READY, a write that waits or is in flight for
the channel BUSY, an event counter at 4,294,967,295 FULL, and a record that R168 does not call valid BAD_ARGUMENT. Accepted, it puts the
record in force at once, starts the weighing afresh with all that R20 clears, ends an ACTIVE run with CALIBRATION, lets a channel that is
then free adopt, keeps the configuration, the key page and the clerk, and leaves a write to wait with the event counter one higher, which
the reply gives. READ_CALIBRATION of a channel outside 1 to 8 is BAD_ARGUMENT, of a store not VERIFIED STORE_NOT_READY; of a VERIFIED store
it waits for the store's read. The model's choices in it: the body of CAL_ATTEMPT is one byte, the switch state's place in its list from 0
(log 51, the spec gives only the field's length), and the event counters of the volatile state (log 33). -/
def Obligations.CalibrationRequests : Prop :=
  let fits := fun (r : CalRecord) => -2147483648 ≤ r.zc ∧ r.zc < 2147483648 ∧ r.span < 4294967296 ∧ r.max < 65536 ∧
    r.rangeMode < 256 ∧ r.e1 < 256 ∧ r.e2 < 256 ∧ r.max1 < 65536
  (∀ r : CalRecord, r.valid = true ↔
    -8388608 ≤ r.zc ∧ r.zc ≤ 8388607 ∧ 1000 ≤ r.span ∧ r.span ≤ 4000000 ∧ 100 ≤ r.max ∧ r.max ≤ 30000 ∧
    r.e1 ∈ [1, 2, 5, 10, 20] ∧
    ((r.rangeMode = 0 ∧ r.e2 = 0 ∧ r.max1 = 0) ∨
     (r.rangeMode = 1 ∧ (r.e1, r.e2) ∈ [(1, 2), (2, 5), (5, 10), (10, 20)] ∧ 100 ≤ r.max1 ∧ r.max1 < r.max))) ∧
  (∀ (s : State) (n : Byte) (r : CalRecord), fits r → (n = 0 ∨ 8 < n.toNat) → Executing s 0x18 (n :: r.bytes) →
    exec .writeCalibration s = .next (answered s s [3])) ∧
  (∀ (s : State) (st : Station) (r : CalRecord), fits r → Executing s 0x18 (BitVec.ofNat 8 (st.val + 1) :: r.bytes) →
    let refused := fun (status : Byte) => exec .writeCalibration s = .next (answered s s [status])
    let busy := (∃ w ∈ s.store.calWrites, w.channel = st) ∨ ∃ w, s.store.op = some (.calWrite w) ∧ w.channel = st
    (s.ports[st].switch ≠ .opened → exec .writeCalibration s =
      .next (answered s (s.raise (.calAttempt st) [BitVec.ofNat 8 s.ports[st].switch.code]) [8])) ∧
    (s.ports[st].switch = .opened → s.store.state ≠ .verified → refused 14) ∧
    (s.ports[st].switch = .opened → s.store.state = .verified → busy → refused 4) ∧
    (s.ports[st].switch = .opened → s.store.state = .verified → ¬busy →
      (s.store.eventCounters[st] = 4294967295 → refused 6) ∧
      (s.store.eventCounters[st] < 4294967295 → r.valid = false → refused 3) ∧
      (s.store.eventCounters[st] < 4294967295 → r.valid = true → ∃ t : State,
        exec .writeCalibration s = .next (answered s t (0 :: u4 (s.store.eventCounters[st] + 1))) ∧
        t.channels[st] = { s.channels[st] with
          calStatus := .valid, cal := some r, state := .warmup, filter := [], stability := [], zp := none, z := none, last := none,
          tracking := 0, keyedTare := none, selection := none, returnClear := false, armed := false, outcome := .noSelection,
          pinned := if st ∈ s.price.record ∧ t.runs[st].state ≠ .ending then s.price.generation else s.channels[st].pinned } ∧
        t.ports[st] = { s.ports[st] with image := t.ports[st].image } ∧
        t.runs[st].state ≠ .active ∧ RunEnded s t st .calibration ∧ AdoptedIfFree s t st ∧
        (∀ x : Station, x ≠ st → t.channels[x] = s.channels[x] ∧ t.runs[x] = s.runs[x] ∧ t.ports[x] = s.ports[x]) ∧
        t = { s with
              ports := t.ports, channels := t.channels, price := t.price, runs := t.runs, totals := t.totals,
              store := { s.store with calWrites := s.store.calWrites ++
                [{ channel := st, counter := s.store.eventCounters[st] + 1, record := r }] },
              link := { s.link with flags := t.link.flags } }))) ∧
  (∀ (s : State) (n : Byte), (n = 0 ∨ 8 < n.toNat) → Executing s 0x19 [n] →
    exec .readCalibration s = .next (answered s s [3])) ∧
  (∀ (s : State) (st : Station), Executing s 0x19 [BitVec.ofNat 8 (st.val + 1)] →
    (s.store.state ≠ .verified → exec .readCalibration s = .next (answered s s [14])) ∧
    (s.store.state = .verified → exec .readCalibration s = .next (State.finish { s with
      store := { s.store with waiting := s.store.waiting ++ [.readCalibration st] },
      link := { s.link with executing := some { kind := 0x19, payload := [BitVec.ofNat 8 (st.val + 1)], waiting := true } } } s)))

/-- R165, R164: READ_MEMORY_LOG replies with the log image in every store state; CLEAR_MEMORY_LOG of a VERIFIED store clears the image at
once, keeping the last requester and address, and leaves a write to wait; the write carries the image as it stands then. Each error that a
read finds, in ascending address order, updates the log by R164's table, in the image and in the FRAM, and raises the flag the table names.
The model's choices in it: the log writes of a record after its write-backs (log 73), the log record's bytes (log 18), and the requester's
place in its list from 0 in the body of MEM_CORRECTED and MEM_UNCORRECTABLE (log 51). -/
def Obligations.MemoryLogIsReadAndCleared : Prop :=
  (∀ (p : Pass) (r : Requester) (w n : Nat), (p.readWords w n).2.errors.Pairwise (fun d e => d.word < e.word) ∧
    (p.read r w n).1 = (p.readWords w n).2.errors.foldl (Pass.capture r) (p.readWords w n).1) ∧
  (∀ (p : Pass) (r : Requester) (e : WordError),
    let l := p.log
    let captured := fun (state : LogState) (second : Bool) =>
      ({ state := state, address := some e.word, requester := some r, syndrome := some e.syndrome, second := second,
         lastRequester := some r, lastAddress := some e.word } : MemLog)
    let again := { l with second := true, lastRequester := some r, lastAddress := some e.word }
    let becomes := fun (log : MemLog) (raised : List Flag) =>
      p.capture r e = Pass.write
        { p with log := log, raises := p.raises ++ raised.map fun f => (f, u2 e.word ++ u1 r.code) } 10824 2 log.bytes
    (l.state = .none → e.correctable = true → becomes (captured .corrected l.second) [.memCorrected]) ∧
    (l.state = .none → e.correctable = false → becomes (captured .uncorrectable l.second) [.memUncorrectable]) ∧
    (l.state = .corrected → e.correctable = true → becomes again []) ∧
    (l.state = .corrected → e.correctable = false → becomes (captured .uncorrectable true) [.memUncorrectable]) ∧
    (l.state = .uncorrectable → becomes again [])) ∧
  (∀ s : State, Executing s 0x1A [] → exec .readMemoryLog s = .next (answered s s (0 :: s.store.log.bytes))) ∧
  (∀ s : State, Executing s 0x1B [] → s.store.state ≠ .verified → exec .clearMemoryLog s = .next (answered s s [14])) ∧
  (∀ s : State, Executing s 0x1B [] → s.store.state = .verified → exec .clearMemoryLog s = .next (answered s { s with
    store := { s.store with
      log := { s.store.log with state := .none, address := none, requester := none, syndrome := none, second := false },
      waiting := s.store.waiting ++ [.writeLog] } } [0])) ∧
  ∀ s : State, s.powered = true → s.store.op = some .writeLog → exec .memoryLogWriteComplete s = .next (State.finish { s with
    store := { s.store with op := none, fram := (s.pass.write logWord logWords s.store.log.bytes).fram } } s)

/-- R166, R152: CLEAR_STORE of a quiet VERIFIED store is accepted: the store is UNVERIFIED and the clear waits; the checks in order:
STORE_NOT_READY, BASKETS_OPEN, RUN_ACTIVE, BUSY. CLOSE_PERIOD has the same checks, is FULL at the last Z number, and otherwise
closes the queue for the period whose Z number the reply gives. -/
def Obligations.ClearAndCloseNeedAQuietStore : Prop :=
  ∀ s : State,
    let opened := ∃ b ∈ s.pool.records, b.state = .opened
    let running := ∃ st : Station, s.runs[st].state = .active ∨ s.runs[st].state = .ending
    let busy := s.totals.commits ≠ [] ∨ s.totals.closing.isSome = true
    (∀ (c : Instr) (kind : Nat), (c, kind) ∈ [(.clearStore, 0x1C), (.closePeriod, 0x52)] → Executing s kind [] →
      (s.store.state ≠ .verified → exec c s = .next (answered s s [14])) ∧
      (s.store.state = .verified → opened → exec c s = .next (answered s s [12])) ∧
      (s.store.state = .verified → ¬opened → running → exec c s = .next (answered s s [13])) ∧
      (s.store.state = .verified → ¬opened → ¬running → busy → exec c s = .next (answered s s [4]))) ∧
    (s.store.state = .verified → ¬opened → ¬running → ¬busy →
      (Executing s 0x1C [] → exec .clearStore s = .next (answered s { s with
        store := { s.store with state := .unverified, clearAccepted := true } } [0])) ∧
      (Executing s 0x52 [] →
        (s.totals.grand.z = 4294967295 → exec .closePeriod s = .next (answered s s [6])) ∧
        (s.totals.grand.z ≠ 4294967295 → exec .closePeriod s = .next (answered s { s with
          totals := { s.totals with closing := some (s.totals.grand.z + 1) } } (0 :: u4 (s.totals.grand.z + 1))))))

/-! ## Price arithmetic and the price table -/

/-- R63, R64, R66, R69, R70, R77, R118: the pricing outcome of a channel, stage by stage, and the two code strings: twelve decimal
digits, 2 with the PLU number and the price, or 9 with the ticket (00 without one) and the last nine digits of the serial. -/
def Obligations.PricingOutcomeAndCodeStrings : Prop :=
  (∀ c : Channel,
    let final := fun (v : PluVersion) (base : Nat) =>
      let price := stepPrice (base - markdownAmount base v.markdown) v.step
      if 9999999 < price then PriceOutcome.priceOverflow
      else if price = 0 ∧ v.zeroAllowed = false then .zeroPrice else .priced price
    (c.selection = none → c.price = .noSelection) ∧
    (∀ sel, c.selection = some sel →
      (sel.version.mode = .byWeight → c.state ≠ .stable → c.price = .notStable) ∧
      (∀ w r, sel.version.mode = .byWeight → c.state = .stable → c.last = some w → c.cal = some r →
        c.price = if w.net < ((200 * r.e1 : Nat) : Int) then .netLow
          else final sel.version (basePriceByWeight w.weight.toNat sel.version.unitPrice)) ∧
      (sel.version.mode = .byCount → sel.count = none → c.price = .noCount) ∧
      (∀ q, sel.version.mode = .byCount → sel.count = some q → c.price = final sel.version (q * sel.version.unitPrice)) ∧
      (sel.version.mode = .fixed → c.price = final sel.version sel.version.unitPrice))) ∧
  let value := fun (t : Text) => t.foldl (fun n b => 10 * n + (b.toNat - 48)) 0
  (∀ plu price : Nat, plu ≤ 9999 → price ≤ 9999999 → (itemCode plu price).length = 12 ∧
    (∀ b ∈ itemCode plu price, 48 ≤ b.toNat ∧ b.toNat ≤ 57) ∧
    value (itemCode plu price) = 200000000000 + plu * 10000000 + price) ∧
  ∀ (ticket : Option Nat) (serial : Nat), (∀ k, ticket = some k → k ≤ 99) → (summaryCode ticket serial).length = 12 ∧
    (∀ b ∈ summaryCode ticket serial, 48 ≤ b.toNat ∧ b.toNat ≤ 57) ∧
    value (summaryCode ticket serial) = 900000000000 + ticket.getD 0 * 1000000000 + serial % 1000000000

/-- R46 to R49: STAGE_PLU, STAGE_KEY_PAGE and STAGE_DELETE put their change in the place of the change for the same thing or at the
tail, and reply with its position and the length; each is FULL for a new change at 64 changes, STAGE_PLU also beyond 1,024 projected
PLUs; STAGE_DELETE of a number not present at G takes a staged insert back. A field, a page content or a number out of its range (R41,
R43) is BAD_ARGUMENT and changes nothing. The projected count is the PLUs present at G, the staged versions of absent ones more, the
staged deletions of present ones less. The form of STAGE_DELETE's reply, the length and then the
optional position, is the model's reading of R182 (log 22). -/
def Obligations.StagedChangesTakeTheirPlace : Prop :=
  (∀ t : PriceTable,
    (∀ n, t.present n = true ↔ ∃ v ∈ t.versions, v.number = n) ∧
    t.projected = t.versions.length
      + (t.changes.filter fun c => match c with | .plu v => !t.present v.number | .delete _ => false | .page _ _ _ => false).length
      - (t.changes.filter fun c => match c with | .plu _ => false | .delete n => t.present n | .page _ _ _ => false).length) ∧
  (∀ (s : State) (a : PluArgs), a.number < 65536 → a.name.length < 256 → a.mode < 256 → a.unitPrice < 4294967296 →
    a.markdown < 256 → a.step < 256 → a.presetTare < 65536 → a.department < 256 → a.labelFormat < 256 →
    (∀ d, a.shelfLife = some d → d < 65536) → (∀ t, a.extraText = some t → t.length < 256) → a.zeroAllowed < 256 →
    Executing s 0x20 (u2 a.number ++ encText a.name ++ u1 a.mode ++ u4 a.unitPrice ++ u1 a.markdown ++ u1 a.step ++ u2 a.presetTare
      ++ u1 a.department ++ u1 a.labelFormat ++ encOpt u2 a.shelfLife ++ encOpt encText a.extraText ++ u1 a.zeroAllowed) →
    let outside := fun (t : Text) => ∃ b ∈ t, b.toNat < 0x20 ∨ 0xFE < b.toNat
    (a.number = 0 ∨ 9999 < a.number ∨ a.name = [] ∨ 24 < a.name.length ∨ outside a.name ∨ 2 < a.mode ∨ 999999 < a.unitPrice ∨
      90 < a.markdown ∨ a.step ∉ [1, 5, 10] ∨ 9999 < a.presetTare ∨ a.department = 0 ∨ 16 < a.department ∨ 7 < a.labelFormat ∨
      (∃ d, a.shelfLife = some d ∧ 365 < d) ∨ (∃ t, a.extraText = some t ∧ (t = [] ∨ 120 < t.length ∨ outside t)) ∨
      1 < a.zeroAllowed) →
    exec .stagePlu s = .next (answered s s [3])) ∧
  (∀ (s : State) (channel page : Nat) (p : KeyPage), channel < 256 → page < 256 →
    (∀ w, p.window = some w → w.first < 256 ∧ w.count < 256 ∧ w.base < 65536) → p.overrides.length < 256 →
    (∀ o ∈ p.overrides, o.1 < 256 ∧ o.2 < 65536) → Executing s 0x22 (u1 channel ++ u1 page ++ p.bytes) →
    (channel = 0 ∨ 8 < channel ∨ 1 < page ∨
      (∃ w, p.window = some w ∧ (w.first = 0 ∨ 48 < w.first ∨ w.count = 0 ∨ 48 < w.count ∨ 48 < w.first + w.count - 1 ∨
        w.base = 0 ∨ 9999 < w.base)) ∨
      8 < p.overrides.length ∨ (∃ o ∈ p.overrides, o.1 = 0 ∨ 48 < o.1 ∨ o.2 = 0 ∨ 9999 < o.2) ∨
      ¬(p.overrides.map Prod.fst).Nodup) →
    exec .stageKeyPage s = .next (answered s s [3])) ∧
  (∀ (s : State) (n : Nat), n < 65536 → n = 0 ∨ 9999 < n → Executing s 0x21 (u2 n) →
    exec .stageDelete s = .next (answered s s [3])) ∧
  ∀ s : State,
    (∀ (v : PluVersion) (staged : List Change) (position : Nat), v.inRange → Executing s 0x20 v.bytes →
      Staged s.price.changes (.plu { v with generation := 0 }) staged position →
      (({ s.price with changes := staged } : PriceTable).projected ≤ 1024 → exec .stagePlu s =
        .next (answered s { s with price := { s.price with changes := staged } } (0 :: (u1 position ++ u1 staged.length)))) ∧
      (1024 < ({ s.price with changes := staged } : PriceTable).projected → exec .stagePlu s = .next (answered s s [6]))) ∧
    (∀ v : PluVersion, v.inRange → Executing s 0x20 v.bytes → (∀ c ∈ s.price.changes, c.subject ≠ .plu v.number) →
      64 ≤ s.price.changes.length → exec .stagePlu s = .next (answered s s [6])) ∧
    (∀ (st : Station) (name : PageName) (p : KeyPage) (staged : List Change) (position : Nat), p.inRange = true →
      Executing s 0x22 (u1 (st.val + 1) ++ u1 name.code ++ p.bytes) → Staged s.price.changes (.page st name p) staged position →
      exec .stageKeyPage s =
        .next (answered s { s with price := { s.price with changes := staged } } (0 :: (u1 position ++ u1 staged.length)))) ∧
    (∀ (st : Station) (name : PageName) (p : KeyPage), p.inRange = true →
      Executing s 0x22 (u1 (st.val + 1) ++ u1 name.code ++ p.bytes) → (∀ c ∈ s.price.changes, c.subject ≠ .page st name) →
      64 ≤ s.price.changes.length → exec .stageKeyPage s = .next (answered s s [6])) ∧
    (∀ n : Nat, 1 ≤ n → n ≤ 9999 → Executing s 0x21 (u2 n) →
      (∀ (staged : List Change) (position : Nat), s.price.present n = true → Staged s.price.changes (.delete n) staged position →
        exec .stageDelete s = .next (answered s { s with price := { s.price with changes := staged } }
          (0 :: (u1 staged.length ++ 1 :: u1 position)))) ∧
      (s.price.present n = true → (∀ c ∈ s.price.changes, c.subject ≠ .plu n) → 64 ≤ s.price.changes.length →
        exec .stageDelete s = .next (answered s s [6])) ∧
      (∀ before c after, s.price.present n = false → s.price.changes = before ++ c :: after →
        (∀ x ∈ before, x.subject ≠ .plu n) → c.subject = .plu n →
        exec .stageDelete s = .next (answered s { s with price := { s.price with changes := before ++ after } }
          (0 :: (u1 (before ++ after).length ++ [0])))) ∧
      (s.price.present n = false → (∀ c ∈ s.price.changes, c.subject ≠ .plu n) →
        exec .stageDelete s = .next (answered s s [5])))

/-- R50: DISCARD_STAGE empties the change set and replies OK, also when it was empty, and touches nothing else: not the table at G,
the retained set, the adoption record or a channel. The projected count is then the number of PLUs present at G. -/
def Obligations.DiscardStageEmptiesTheChangeSet : Prop :=
  ∀ s : State, Executing s 0x23 [] →
    exec .discardStage s = .next (answered s { s with price := { s.price with changes := [] } } [0]) ∧
    ({ s.price with changes := [] } : PriceTable).projected = s.price.versions.length

/-- R51, R52, R53, R55, R56, R57: PUBLISH is refused in the order of R51 and changes nothing then; accepted, it makes generation G + 1:
unnamed PLUs and key pages stay, the last change for a PLU or a page takes effect, free channels are pinned to it at once, the others are in
the record, and the retained set holds, for each change, the version or page it replaces. FORCE_ADOPTION takes the channels of the record
one after another (`forceChannel`): an ACTIVE run ends with PRICE_FORCED and hands its commit over, or waits in ENDING without room, and a
run in ENDING or DONE_HELD stays as it is; a selection is cleared; PRICE_CHANGED is shown; the channel is pinned to G and leaves the record.
The other stations stay as they were. That its OK carries a count of 0 when no adoption was pending is the model's choice (log 42), and so
is the weighing recomputed at once with the cleared selection (log 39). A channel of the record that is free adopts; when the last one has
left the record the retained set is empty, pending is no, and ADOPTION_COMPLETE rises with G. -/
def Obligations.PublicationAndForcedAdoption : Prop :=
  ∀ s : State,
    (Executing s 0x24 [] →
      (s.price.changes = [] → exec .publish s = .next (answered s s [9])) ∧
      (s.price.changes ≠ [] → s.price.pending = true → exec .publish s = .next (answered s s [10])) ∧
      (s.price.changes ≠ [] → s.price.pending = false → s.price.generation = 4294967295 →
        exec .publish s = .next (answered s s [11])) ∧
      (s.price.changes ≠ [] → s.price.pending = false → s.price.generation ≠ 4294967295 → ∃ t : State,
        exec .publish s = .next (answered s t (0 :: (u4 (s.price.generation + 1) ++ u1 t.price.record.length))) ∧
        t.price.generation = s.price.generation + 1 ∧ t.price.changes = [] ∧
        (∀ n, (∀ c ∈ s.price.changes, c.subject ≠ .plu n) → t.price.find n = s.price.find n) ∧
        (∀ before v after, s.price.changes = before ++ .plu v :: after → (∀ c ∈ after, c.subject ≠ .plu v.number) →
          t.price.find v.number = some { v with generation := s.price.generation + 1 }) ∧
        (∀ before n after, s.price.changes = before ++ .delete n :: after → (∀ c ∈ after, c.subject ≠ .plu n) →
          t.price.find n = none) ∧
        (∀ (st : Station) (name : PageName), (∀ c ∈ s.price.changes, c.subject ≠ .page st name) →
          t.price.pageAt st name = s.price.pageAt st name) ∧
        (∀ before st name p after, s.price.changes = before ++ .page st name p :: after →
          (∀ c ∈ after, c.subject ≠ .page st name) → t.price.pageAt st name = p) ∧
        t.price.record = stations.filter (fun st => !s.free st) ∧
        t.price.pending = !t.price.record.isEmpty ∧
        t.price.retained = (if t.price.record = [] then []
          else s.price.changes.map fun c =>
            match c with
            | .plu v => .plu v.number (s.price.versions.find? fun x => x.number == v.number)
            | .delete n => .plu n (s.price.versions.find? fun x => x.number == n)
            | .page st name _ => .page st name (s.price.pageAt st name)) ∧
        (∀ st : Station, t.channels[st] =
          if s.free st then { s.channels[st] with pinned := s.price.generation + 1 } else s.channels[st]) ∧
        t.link.flags = (if t.price.record = [] then
          raisedFlags s.link.flags [(.adoptionComplete, u4 (s.price.generation + 1))] else s.link.flags) ∧
        t = { s with price := t.price, channels := t.channels, link := { s.link with flags := t.link.flags } })) ∧
    (Executing s 0x25 [] → ∃ t : State,
      exec .forceAdoption s = .next (answered s t (0 :: u1 s.price.record.length)) ∧
      t = s.price.record.foldl State.forceChannel s ∧
      (∀ st ∈ s.price.record, t.channels[st].pinned = s.price.generation ∧ t.channels[st].selection = none ∧
        t.runs[st].state ≠ .active ∧ t.ports[st].image.message = .priceChanged ∧
        (s.runs[st].state = .active → t.runs[st].endReason = some .priceForced ∧ t.runs[st].endedAt = s.link.clock) ∧
        (s.runs[st].state ≠ .active → t.runs[st] = s.runs[st])) ∧
      (∀ st : Station, st ∉ s.price.record → t.channels[st] = s.channels[st] ∧ t.ports[st] = s.ports[st] ∧ t.runs[st] = s.runs[st]) ∧
      t.price.record = [] ∧
      (s.price.record = [] → t = s) ∧
      (s.price.pending = true → s.price.record ≠ [] → t.price.pending = false ∧ t.price.retained = [] ∧
        t.link.flags[Flag.adoptionComplete.entry] =
          (s.link.flags[Flag.adoptionComplete.entry]).raise (u4 s.price.generation)) ∧
      t.price.versions = s.price.versions ∧ t.price.changes = s.price.changes ∧ t.price.generation = s.price.generation ∧
      t = { s with ports := t.ports, channels := t.channels, price := t.price, runs := t.runs, totals := t.totals,
                   link := { s.link with flags := t.link.flags } }) ∧
    ∀ st : Station,
      (st ∈ s.price.record →
        let t := s.forceChannel st
        RunEnded s t st .priceForced ∧ t.runs[st].state ≠ .active ∧
        (s.channels[st].selection = none → t.channels[st] = { s.channels[st] with pinned := s.price.generation }) ∧
        (s.channels[st].selection ≠ none → SelectionCleared s.channels[st] t.channels[st] ∧ t.refresh st = t) ∧
        t.channels[st].pinned = s.price.generation ∧ t.price = s.price.withoutChannel st ∧
        (s.price.pending = true → t.price.pending = false → (t.link.flags[Flag.adoptionComplete.entry]).pending = true) ∧
        t.ports[st] = { s.ports[st] with image := t.ports[st].image } ∧ t.ports[st].image.message = .priceChanged ∧
        (∀ x : Station, x ≠ st → t.channels[x] = s.channels[x] ∧ t.ports[x] = s.ports[x] ∧ t.runs[x] = s.runs[x]) ∧
        t = { s with ports := t.ports, channels := t.channels, price := t.price, runs := t.runs, totals := t.totals,
                     link := { s.link with flags := t.link.flags } }) ∧
      (st ∉ s.price.record ∨ s.free st = false → s.adoptIfFree st = s) ∧
      (st ∈ s.price.record → s.free st = true →
        let record := s.price.record.filter fun x => x != st
        let last := s.price.pending && record.isEmpty
        s.adoptIfFree st = { s with
          channels := modAt s.channels st fun c => { c with pinned := s.price.generation },
          price := if last then { s.price with record := [], pending := false, retained := [] } else { s.price with record := record },
          link := if last then { s.link with
              flags := raisedFlags s.link.flags [(.adoptionComplete, u4 s.price.generation)] } else s.link })

/-- R58, R59, R96, R115, R133, R143, R156, R182: the reading requests reply with what they read, field by field in the order of their rules,
and change nothing; a long list is carried in whole entries from the index asked for, with the index that continues it, or 0, and an index
beyond its end is BAD_ARGUMENT, as an argument out of range is; RETAINED with no adoption pending is STATE. NEXT finds the lowest-numbered
PLU of the view at or above its number. The model's readings of the source in these replies: READ_PLU's field order (log 19), the
continuation index (log 20), the 1,028 bytes of content (log 21), unused slots and the forms of fields (log 22), READ_ADOPTION's eight items
without a count or channel number (log 41), a change-set entry with its kind byte and no form byte beside it (log 74), the LIST reply's line
count (log 49), the job in hand with its phase (log 50) and the two printer ports without a count (log 58), the run record, and in
READ_TOTALS what counts toward the maximum (log 52), the order of its two refusals (log 53), the count before SUMMARY and GRAND (log 54) and
the Z counter of 4 bytes (log 64). -/
def Obligations.ReadingRequestsChangeNothing : Prop :=
  (∀ s : State,
    (∀ (n : Nat) (view : Bool), 1 ≤ n → n ≤ 9999 → (view = true → s.price.pending = true) →
      (Executing s 0x26 (0 :: (u2 n ++ [if view then 1 else 0, 0])) → exec .readPlu s = .next (answered s s
        (match (s.price.view view).find? fun v => v.number == n with
         | none => [5]
         | some v => 0 :: (v.bytes ++ u4 v.generation)))) ∧
      (Executing s 0x26 (0 :: (u2 n ++ [if view then 1 else 0, 1])) → exec .readPlu s = .next (answered s s
        (match s.price.next view n with
         | none => [5]
         | some v => 0 :: (v.bytes ++ u4 v.generation))))) ∧
    (∀ (st : Station) (name : PageName) (view : Bool), (view = true → s.price.pending = true) →
      Executing s 0x26 (1 :: (u1 (st.val + 1) ++ u1 name.code ++ [if view then 1 else 0])) →
      exec .readPlu s = .next (answered s s (0 :: (s.price.viewPage view st name).bytes))) ∧
    (∀ (n : Nat) (view mode : Byte), n < 65536 → Executing s 0x26 (0 :: (u2 n ++ [view, mode])) →
      (n = 0 ∨ 9999 < n ∨ 1 < view.toNat ∨ 1 < mode.toNat → exec .readPlu s = .next (answered s s [3])) ∧
      (1 ≤ n → n ≤ 9999 → view = 1 → mode.toNat ≤ 1 → s.price.pending = false → exec .readPlu s = .next (answered s s [7]))) ∧
    (∀ channel page view : Byte, Executing s 0x26 [1, channel, page, view] →
      (channel = 0 ∨ 8 < channel.toNat ∨ 1 < page.toNat ∨ 1 < view.toNat → exec .readPlu s = .next (answered s s [3])) ∧
      (1 ≤ channel.toNat → channel.toNat ≤ 8 → page.toNat ≤ 1 → view = 1 → s.price.pending = false →
        exec .readPlu s = .next (answered s s [7]))) ∧
    (∀ (form : Byte) (rest : List Byte), 1 < form.toNat → Executing s 0x26 (form :: rest) →
      exec .readPlu s = .next (answered s s [3])) ∧
    (Executing s 0x27 [] → exec .readAdoption s = .next (answered s s (s.readAdoption none))) ∧
    (∀ i : Byte, Executing s 0x27 [i] → exec .readAdoption s = .next (answered s s (s.readAdoption (some i.toNat)))) ∧
    (Executing s 0x34 [] → exec .readQueue s = .next (answered s s (s.readQueue none))) ∧
    (∀ i : Byte, Executing s 0x34 [i] → exec .readQueue s = .next (answered s s (s.readQueue (some i.toNat)))) ∧
    (Executing s 0x38 [2] → exec .readBasket s = .next (answered s s (s.readBasket (.list, none)))) ∧
    (∀ i : Byte, Executing s 0x38 [2, i] → exec .readBasket s = .next (answered s s (s.readBasket (.list, some i.toNat)))) ∧
    (∀ (form : Byte) (rest : List Byte), 2 < form.toNat → Executing s 0x38 (form :: rest) →
      exec .readBasket s = .next (answered s s [3])) ∧
    (∀ (serial : Nat) (i : Byte), serial < 4294967296 → Executing s 0x38 (0 :: (u4 serial ++ [i])) → exec .readBasket s =
      .next (answered s s
        (match s.pool.records.find? fun b => b.serial == some serial with
         | none => [5]
         | some b => b.reply (some i.toNat)))) ∧
    (∀ (slot i : Byte), Executing s 0x38 [1, slot, i] → exec .readBasket s = .next (answered s s
      (match s.pool.records.find? fun b => b.slot == slot.toNat with
       | none => [3]
       | some b => b.reply (some i.toNat)))) ∧
    (∀ (serial : Nat), serial < 4294967296 → Executing s 0x38 (0 :: u4 serial) → exec .readBasket s = .next (answered s s
      (match s.pool.records.find? fun b => b.serial == some serial with
       | none => [5]
       | some b => b.reply none))) ∧
    (∀ (slot : Byte), Executing s 0x38 [1, slot] → exec .readBasket s = .next (answered s s
      (match s.pool.records.find? fun b => b.slot == slot.toNat with
       | none => [3]
       | some b => b.reply none))) ∧
    (Executing s 0x40 [] → exec .readLabelQueue s = .next (answered s s (0 :: s.labelBytes))) ∧
    (∀ st : Station, Executing s 0x4B [BitVec.ofNat 8 (st.val + 1)] →
      exec .readRun s = .next (answered s s (0 :: (s.runs[st]).bytes))) ∧
    (∀ n : Byte, n = 0 ∨ 8 < n.toNat → Executing s 0x4B [n] → exec .readRun s = .next (answered s s [3])) ∧
    (∀ (a : TotalsArgs), a.kind < 256 → a.first < 65536 → a.maximum < 256 →
      Executing s 0x50 (u1 a.kind ++ u2 a.first ++ u1 a.maximum) → exec .readTotals s = .next (answered s s (s.readTotals a)))) ∧
  ((∀ n : Nat, u1 n = [BitVec.ofNat 8 n] ∧ u2 n = [BitVec.ofNat 8 n, BitVec.ofNat 8 (n / 256)] ∧
      u4 n = u2 n ++ u2 (n / 65536) ∧ u8 n = u4 n ++ u4 (n / 4294967296)) ∧ (∀ b, encBool b = [if b then 1 else 0]) ∧
    (∀ (α : Type) (f : α → List Byte), encOpt f none = [0] ∧ (∀ a, encOpt f (some a) = 1 :: f a) ∧
      ∀ xs, encList f xs = u1 xs.length ++ xs.flatMap f) ∧
    ∀ t : Text, encText t = u1 t.length ++ t) ∧
  (∀ (v : PluVersion) (p : KeyPage),
    v.bytes = u2 v.number ++ encText v.name ++ [(match v.mode with | .byWeight => 0 | .byCount => 1 | .fixed => 2 : Byte)]
      ++ u4 v.unitPrice ++ u1 v.markdown ++ u1 v.step ++ u2 v.presetTare ++ u1 v.department ++ u1 v.labelFormat ++ encOpt u2 v.shelfLife
      ++ encOpt encText v.extraText ++ encBool v.zeroAllowed ∧
    p.bytes = encOpt (fun w => u1 w.first ++ u1 w.count ++ u2 w.base) p.window ++ encList (fun o => u1 o.1 ++ u2 o.2) p.overrides) ∧
  (∀ (t : PriceTable) (view : Bool) (n : Nat),
    t.view false = t.versions ∧
    (∀ v, v ∈ t.view true ↔ (v ∈ t.versions ∧ ∀ p, Retained.plu v.number p ∉ t.retained) ∨ ∃ m, Retained.plu m (some v) ∈ t.retained) ∧
    (t.next view n = none ↔ ∀ v ∈ t.view view, v.number < n) ∧
    ∀ v, t.next view n = some v →
      v ∈ t.view view ∧ n ≤ v.number ∧ ∀ x ∈ t.view view, n ≤ x.number → v.number ≤ x.number) ∧
  (∀ (s : State) (start : Option Nat), s.readAdoption start =
    partsReply
      (u4 s.price.generation ++ encBool s.price.pending ++ encList (fun st => u1 (st.val + 1)) s.price.record
        ++ (stations.flatMap fun st => u4 s.channels[st].pinned ++
          u1 (if s.runs[st].holds then 2 else if s.channels[st].selection.isSome then 1 else 0))
        ++ u2 s.price.versions.length ++ u2 s.price.projected)
      (s.price.changes.map fun c =>
        match c with
        | .plu v => 0 :: u2 v.number
        | .delete n => 1 :: u2 n
        | .page st name _ => 2 :: (u1 (st.val + 1) ++ u1 (if name = .a then 0 else 1)))
      (u1 s.price.retained.length) start) ∧
  (∀ (s : State) (start : Option Nat), s.readQueue start =
    partsReply
      (u1 s.service.lastIssued ++ encList u1 s.service.waiting
        ++ encList (fun b => u1 b.number ++ u1 b.clerk ++ u4 b.serial) s.service.boundAscending ++ encList u1 s.service.recallList
        ++ encList (fun x => u1 x.ticket ++ u1 x.clerk ++ u1 (x.channel.val + 1)) s.service.callSigns)
      (s.service.clerks.map fun c => u1 c.number ++ encText c.name ++ encBool c.enabled
        ++ encOpt (fun st : Station => u1 (st.val + 1)) c.channel ++ encOpt u4 c.current ++ encList u4 c.parked)
      ([(match s.queuePort.state with | .off => 0 | .waiting => 0 | .present => 1 | .lost => 2 : Byte)]
        ++ encOpt (fun x : BitVec 32 => u4 x.toNat) s.queuePort.serial ++ encOpt (fun b => [b]) s.queuePort.model
        ++ encBool s.queuePort.rollLow)
      start) ∧
  (∀ v : Service, v.boundAscending.Perm v.bound ∧ v.boundAscending.Pairwise fun x y => x.number ≤ y.number) ∧
  (∀ (s : State) (start : Option Nat), s.readBasket (.list, start) =
    partsReply [] ((s.pool.records.filter fun b => b.state == .opened).map fun b =>
      u1 b.slot ++ u4 (b.serial.getD 0) ++ u1 (b.clerk.getD 0) ++ encOpt u1 b.ticket ++ u1 b.lines.length ++ u4 b.total)
      (u1 s.pool.free.length) start) ∧
  (∀ b : Basket,
    (b.state = .unused → b.reply none = [0, 0] ∧ ∀ i, b.reply (some i) = [3]) ∧
    (b.state ≠ .unused → ∀ start, b.reply start =
      partsReply
        (u1 b.slot ++ [(match b.state with | .unused => 0 | .opened => 1 | .closed => 2 | .cancelled => 3 : Byte)]
          ++ u4 (b.serial.getD 0) ++ u1 (b.clerk.getD 0) ++ encOpt u1 b.ticket ++ u1 (match b.channel with | none => 0 | some st => st.val + 1)
          ++ encOpt encDateTime b.openedAt ++ encOpt encDateTime b.endedAt)
        (b.lines.map fun l => u1 l.number ++ u2 l.plu ++ encText l.name
          ++ [(match l.mode with | .byWeight => 0 | .byCount => 1 | .fixed => 2 : Byte)] ++ u1 l.department ++ u1 l.labelFormat
          ++ encOpt u2 l.shelfLife ++ encOpt encText l.extraText ++ u4 l.generation ++ encOpt i4 l.netWeight ++ encOpt u4 l.tare
          ++ encOpt u2 l.quantity ++ u4 l.unitPrice ++ u1 l.markdown ++ u1 l.step ++ encBool l.markdownShown ++ u4 l.price
          ++ encOpt encDate l.packed ++ encOpt encDate l.useBy ++ u1 (l.channel.val + 1) ++ encBool l.voided
          ++ [(match l.labelState with | .none => 0 | .queued => 1 | .printed => 2 | .failed => 3 : Byte)] ++ encOpt u2 l.latestJob
          ++ u1 l.reprints)
        (u4 b.total) start)) ∧
  (∀ s : State, s.labelBytes =
    encList (fun j => u2 j.number ++ [(match j.cls with | .summary => 0 | .item => 1 | .prepack => 2 : Byte)] ++ u4 j.stamp.toNat
        ++ u1 (j.preferred.val + 1) ++ encBool j.fallback
        ++ (match j.state with | .queued => [0, 0] | .printing p => [1, 1, BitVec.ofNat 8 (p.val + 1)] : List Byte) ++ u1 j.attempts
        ++ (match j.link with
            | .item serial line => 0 :: (u4 serial ++ u1 line)
            | .summary serial => 1 :: u4 serial
            | .prepack serial => 2 :: u4 serial)) s.labels.queue
      ++ (([0, 1] : List Printer).flatMap fun p =>
        [(match s.printers[p].state with | .waiting => 0 | .ready => 1 | .busyPrinting => 2 | .notReady => 3 | .lost => 4 : Byte)]
          ++ encOpt (fun x : BitVec 32 => u4 x.toNat) s.printers[p].serial ++ encOpt (fun b => [b]) s.printers[p].model
          ++ [(match s.printers[p].condition with | .ready => 0 | .paperOut => 1 | .headOpen => 2 | .unknown => 3 : Byte)]
          ++ encOpt (fun n => u2 n ++ [(match s.printers[p].phase with
              | none => 0 | some .starting => 0 | some .sending => 1 | some .awaitingDone => 2 : Byte)]) s.printers[p].inHand)
      ++ u2 s.labels.nextJob) ∧
  (∀ r : Run,
    let state : Byte := match r.state with | .idle => 0 | .active => 1 | .ending => 2 | .doneHeld => 3
    (r.serial = none → r.bytes = [state]) ∧
    ∀ serial, r.serial = some serial → r.bytes =
      state :: 1 :: (u4 serial ++ encOpt (fun v => u2 v.number ++ u4 v.generation) r.version ++ u2 r.ordered ++ u2 r.remaining
        ++ u2 r.issued ++ i4 r.weightSum ++ u8 r.valueSum ++ u2 r.printed ++ u2 r.failed ++ u2 r.cancelled
        ++ encBool r.notify ++ encBool r.waitingRoom
        ++ encOpt (fun e => [(match e with
            | .count => 0 | .aborted => 1 | .headLost => 2 | .priceForced => 3 | .calibration => 4 | .reset => 5 : Byte)]) r.endReason
        ++ encOpt encDateTime r.startedAt ++ encOpt encDateTime r.endedAt)) ∧
  (∀ (s : State) (a : TotalsArgs),
    let images := s.totals.images.getD { accs := [], grand := .zero }
    let entry := fun x : Acc => x.figures.flatMap u8 ++ encBool x.saturated ++ encBool x.damaged
    let numbered := fun (last : Nat) (acc : Nat → AccId) => (List.range' a.first (last + 1 - a.first)).map fun n =>
      ({ index := n, bytes := entry (accOf images.accs (acc n)) } : TotalsEntry)
    let legal := (a.kind = 0 ∧ a.first ≤ 9999) ∨ (a.kind = 1 ∧ 1 ≤ a.first ∧ a.first ≤ 16) ∨
      (a.kind = 2 ∧ 1 ≤ a.first ∧ a.first ≤ 32) ∨ (a.kind = 3 ∧ 1 ≤ a.first ∧ a.first ≤ 8) ∨ a.kind = 4 ∨ a.kind = 5
    (¬legal ∨ a.maximum = 0 ∨ 32 < a.maximum → s.readTotals a = [3]) ∧
    (legal → 1 ≤ a.maximum → a.maximum ≤ 32 →
      (s.store.state ≠ .verified → s.readTotals a = [14]) ∧
      (s.store.state = .verified → ∃ es : List TotalsEntry,
        s.readTotals a = 0 :: totalsPage es a.maximum s.totals.lastCompleted s.totals.grand.z ∧
        (a.kind = 0 → ∃ slots : List TotalsEntry,
          es = (if a.first = 0 then [{ index := 0, bytes := 0 :: 0 :: entry (accOf images.accs (.plu 0)) }] else []) ++ slots ∧
          slots.Pairwise (fun x y => x.index ≤ y.index) ∧
          ∀ e, e ∈ slots ↔ a.first ≤ e.index ∧ ∃ y ∈ images.accs, 1 ≤ y.1 ∧ y.1 ≤ 1024 ∧ y.2.plu = some e.index ∧
            e.bytes = u2 e.index ++ entry y.2) ∧
        (a.kind = 1 → es = numbered 16 .department) ∧
        (a.kind = 2 → es = numbered 32 .clerk) ∧
        (a.kind = 3 → es = numbered 8 fun n => if h : 1 ≤ n ∧ n ≤ 8 then .channel ⟨n - 1, by omega⟩ else .summary) ∧
        (a.kind = 4 → es = [{ index := 1, bytes := entry (accOf images.accs .summary) }]) ∧
        (a.kind = 5 →
          es = [{ index := 1,
                  bytes := u8 images.grand.value ++ u8 images.grand.z ++ encBool images.grand.saturated }])))) ∧
  (∀ (es : List TotalsEntry) (maximum last z : Nat), ∃ n : Nat, n ≤ maximum ∧ n ≤ es.length ∧
    ((es.take n).flatMap (·.bytes)).length ≤ 1016 ∧
    (n = maximum ∨ n = es.length ∨ 1016 < ((es.take (n + 1)).flatMap (·.bytes)).length) ∧
    totalsPage es maximum last z = u1 n ++ (es.take n).flatMap (·.bytes)
      ++ (match es.drop n with | [] => [0] | e :: _ => 1 :: u2 e.index) ++ u4 last ++ u4 z) ∧
  (∀ (before after : List Byte) (entries : List (List Byte)),
    (∀ first, first = 0 ∨ entries.length < first → partsReply before entries after (some first) = [3]) ∧
    ∃ n : Nat, n ≤ entries.length ∧
      partsReply before entries after none = 0 :: (before ++ (u1 n ++ (entries.take n).flatten) ++ after
        ++ u1 (if n < entries.length then n + 1 else 0)) ∧
      (entries.take n).flatten.length ≤ 1028 - (before.length + after.length) - 2 ∧
      (n < entries.length → 1028 - (before.length + after.length) - 2 < (entries.take (n + 1)).flatten.length)) ∧
  ∀ (before after : List Byte) (entries : List (List Byte)) (first : Nat), 1 ≤ first → first ≤ entries.length →
    ∃ n : Nat, partsReply before entries after (some first) = 0 :: (before ++ (u1 n ++ ((entries.drop (first - 1)).take n).flatten)
        ++ after ++ u1 (if n < (entries.drop (first - 1)).length then first + n else 0)) ∧
      (((entries.drop (first - 1)).take n).flatten.length ≤ 1028 - (before.length + after.length) - 2) ∧
      (n < (entries.drop (first - 1)).length →
        1028 - (before.length + after.length) - 2 < ((entries.drop (first - 1)).take (n + 1)).flatten.length)

/-! ## Clerks and the service queue -/

/-- R78 to R82, R33, R55: DEFINE_CLERK defines a clerk or replaces its name and enable (disabled, it is logged off), REMOVE_CLERK removes one
without baskets and logs it off, each refused BAD_ARGUMENT for an argument out of range; CLERK moves an enabled clerk to the channel,
displacing the clerk there, LOGOFF logs the channel's clerk off. A channel that loses its clerk loses its selection, unless a run holds
it: with it go the count, the preset tare and the return-clear mark, the last weighing is recomputed without the preset tare, at once, which
is the model's choice (log 39), the outcome is decided, and the channel, then free, adopts (`ClerkLeft`, R33, R55). On the channel that a
moved clerk leaves, the weighing, armed and all else stay as they were; a channel that had no clerk keeps its selection; the other stations
stay as they were. The display shows the clerk and the ticket of its current basket at the new channel and none at a channel left. -/
def Obligations.ClerksAreDefinedAndMoved : Prop :=
  ∀ s : State,
    (∀ (n : Nat) (name : Text) (enable : Bool), 1 ≤ n → n ≤ 32 → 1 ≤ name.length → name.length ≤ 12 →
      (∀ b ∈ name, 0x20 ≤ b.toNat ∧ b.toNat ≤ 0xFE) → TablesConsistent s →
      Executing s 0x30 (u1 n ++ encText name ++ [if enable then 1 else 0]) → ∃ t : State,
        exec .defineClerk s = .next (answered s t [0]) ∧
        t.service.clerk n = some
          (match s.service.clerk n with
           | none => { number := n, name := name, enabled := enable, channel := none, current := none, parked := [] }
           | some c => { c with name := name, enabled := enable, channel := if enable then c.channel else none }) ∧
        (∀ m : Nat, m ≠ n → t.service.clerk m = s.service.clerk m) ∧
        (∀ c st, s.service.clerk n = some c → c.channel = some st → enable = false →
          (s.runs[st].holds = false → t.channels[st].selection = none) ∧ (s.runs[st].holds = true → t.channels = s.channels) ∧
          ClerkLeft s t st ∧
          (s.ports[st].state = .present → t.ports[st].image.clerk = none ∧ t.ports[st].image.ticket = none)) ∧
        (enable = true ∨ (∀ c, s.service.clerk n = some c → c.channel = none) → t.channels = s.channels ∧ t.ports = s.ports) ∧
        t = { s with ports := t.ports, channels := t.channels, price := t.price,
                     service := { s.service with clerks := t.service.clerks }, link := { s.link with flags := t.link.flags } }) ∧
    (∀ (n enable : Nat) (name : Text), n < 256 → enable < 256 → name.length < 256 →
      Executing s 0x30 (u1 n ++ encText name ++ u1 enable) →
      (n = 0 ∨ 32 < n ∨ name = [] ∨ 12 < name.length ∨ (∃ b ∈ name, b.toNat < 0x20 ∨ 0xFE < b.toNat) ∨ 1 < enable) →
      exec .defineClerk s = .next (answered s s [3])) ∧
    (∀ n : Byte, Executing s 0x31 [n] →
      (n = 0 ∨ 32 < n.toNat → exec .removeClerk s = .next (answered s s [3])) ∧
      (1 ≤ n.toNat → n.toNat ≤ 32 → s.service.clerk n.toNat = none → exec .removeClerk s = .next (answered s s [5])) ∧
      (∀ c, 1 ≤ n.toNat → n.toNat ≤ 32 → s.service.clerk n.toNat = some c → (c.current.isSome = true ∨ c.parked ≠ []) →
        exec .removeClerk s = .next (answered s s [7])) ∧
      (∀ c, 1 ≤ n.toNat → n.toNat ≤ 32 → s.service.clerk n.toNat = some c → c.current = none → c.parked = [] → TablesConsistent s →
        ∃ t : State, exec .removeClerk s = .next (answered s t [0]) ∧ t.service.clerk n.toNat = none ∧
          (∀ m : Nat, m ≠ n.toNat → t.service.clerk m = s.service.clerk m) ∧
          (∀ st, c.channel = some st →
            (s.runs[st].holds = false → t.channels[st].selection = none) ∧ (s.runs[st].holds = true → t.channels = s.channels) ∧
            ClerkLeft s t st ∧
            (s.ports[st].state = .present → t.ports[st].image.clerk = none ∧ t.ports[st].image.ticket = none)) ∧
          (c.channel = none → t.channels = s.channels ∧ t.ports = s.ports) ∧
          t = { s with ports := t.ports, channels := t.channels, price := t.price,
                       service := { s.service with clerks := t.service.clerks }, link := { s.link with flags := t.link.flags } })) ∧
    (∀ (st : Station) (number : BitVec 16) (c : Clerk), KeyTaken s st → 1 ≤ number.toNat → number.toNat ≤ 32 →
      s.service.clerk number.toNat = some c → c.enabled = true →
      (c.channel = some st → exec (.clerk st number) s = .next (State.finish (accepted s st) s)) ∧
      (c.channel ≠ some st → ∃ t : State, exec (.clerk st number) s = .next t ∧
        t.service = { s.service with clerks := s.service.clerks.map fun x =>
          if x.number = number.toNat then { x with channel := some st }
          else if x.channel = (some st) then { x with channel := none } else x } ∧
        (let freed := (if (s.service.clerkAt st).isSome = true ∧ s.runs[st].holds = false then [st] else [])
           ++ c.channel.toList.filter fun old => !s.runs[old].holds
         t.price = (freed.filter fun x => x ∈ s.price.record).foldl PriceTable.withoutChannel s.price ∧
         (∀ x ∈ freed, t.channels[x].pinned = if x ∈ s.price.record then s.price.generation else s.channels[x].pinned) ∧
         (s.price.pending = true → t.price.pending = false → (t.link.flags[Flag.adoptionComplete.entry]).pending = true)) ∧
        ((s.service.clerkAt st).isSome = true → s.runs[st].holds = false →
          t.channels[st].selection = none ∧ SelectionCleared s.channels[st] t.channels[st]) ∧
        (s.service.clerkAt st = none ∨ s.runs[st].holds = true → t.channels[st] = s.channels[st]) ∧
        (∀ x : Station, x ≠ st → c.channel ≠ some x → t.channels[x] = s.channels[x] ∧ t.ports[x] = s.ports[x]) ∧
        (∀ x : Station, x = st ∨ c.channel = some x → t.refresh x = t ∧
          t.ports[x] = { (accepted s st).ports[x] with image := t.ports[x].image } ∧
          t.ports[x].image.message = (accepted s st).ports[x].image.message) ∧
        (∀ old, c.channel = some old →
          (s.runs[old].holds = false → t.channels[old] = { s.channels[old] with
            selection := none, returnClear := false, outcome := .noSelection, pinned := t.channels[old].pinned }) ∧
          (s.runs[old].holds = true → t.channels[old] = s.channels[old]) ∧
          (TablesConsistent s → s.ports[old].state = .present →
            t.ports[old].image.clerk = none ∧ t.ports[old].image.ticket = none)) ∧
        t.ports[st].image.clerk = some number.toNat ∧ t.ports[st].image.ticket = (s.current c).bind (·.ticket) ∧
        t = { s with ports := t.ports, headLines := t.headLines, channels := t.channels, price := t.price,
                     service := t.service, link := t.link })) ∧
    ∀ (st : Station) (c : Clerk), KeyTaken s st → s.service.clerkAt st = some c → ∃ t : State, exec (.logoff st) s = .next t ∧
      t.service = { s.service with clerks := s.service.clerks.map fun x =>
        if x.number = c.number then { x with channel := none } else x } ∧
      (s.runs[st].holds = false → t.channels[st].selection = none) ∧
      (s.runs[st].holds = true → t.channels = s.channels) ∧
      ClerkLeft (accepted s st) t st ∧ (TablesConsistent s → t.ports[st].image.clerk = none ∧ t.ports[st].image.ticket = none) ∧
      t = { s with ports := t.ports, headLines := t.headLines, channels := t.channels, price := t.price,
                   service := t.service, link := t.link }

/-- R85, R94: ISSUE_TICKET and TAKE issue the first number after the last issued one, counting cyclically through 1 to 99, that is
not live; with 99 live the issue is refused and changes neither the last issued number nor the table. A repeated TAKE gets the
last answer again. -/
def Obligations.TicketIsTheNextNumberNotLive : Prop :=
  ∀ s : State, s.service.lastIssued ≤ 99 →
    let number := fun k : Nat => (s.service.lastIssued + k - 1) % 99 + 1
    (∀ k : Nat, 1 ≤ k → k ≤ 99 → number k ∉ s.service.live → (∀ j, 1 ≤ j → j < k → number j ∈ s.service.live) →
      let issued : Service := { s.service with waiting := s.service.waiting ++ [number k], lastIssued := number k }
      (Executing s 0x32 [] → exec .issueTicket s =
        .next (answered s { s with service := issued } [0, BitVec.ofNat 8 (number k)])) ∧
      (∀ press : Byte, s.powered = true → s.queuePort.state = .present → s.queuePort.lastPress ≠ some press →
        exec (.take press) s = .next (State.finish (State.pumpQueue { s with
          service := issued,
          queuePort := { s.queuePort with
            owed := s.queuePort.owed ++ [.issue press (number k)], lastPress := some press,
            lastAnswer := some (.issue press (number k)), frameTimer := true } }) s))) ∧
    ((∀ n : Nat, 1 ≤ n → n ≤ 99 → n ∈ s.service.live) →
      (Executing s 0x32 [] → exec .issueTicket s = .next (answered s s [6])) ∧
      (∀ press : Byte, s.powered = true → s.queuePort.state = .present → s.queuePort.lastPress ≠ some press →
        exec (.take press) s = .next (State.finish (State.pumpQueue { s with
          queuePort := { s.queuePort with
            owed := s.queuePort.owed ++ [.refuse press], lastPress := some press, lastAnswer := some (.refuse press),
            frameTimer := true } }) s))) ∧
    (∀ (press : Byte) (answer : QueueFrame), s.powered = true → s.queuePort.state = .present →
      s.queuePort.lastPress = some press → s.queuePort.lastAnswer = some answer →
      exec (.take press) s = .next (State.finish (State.pumpQueue { s with
        queuePort := { s.queuePort with owed := s.queuePort.owed ++ [answer], frameTimer := true } }) s)) ∧
    ∀ press : Byte, s.queuePort.state ≠ .present → exec (.take press) s = .next s

/-- R95: RESET_NUMBERING is refused STATE while a ticket is live in any of the four states; otherwise the last issued number is 0, the
call sign list is empty, a SIGN of four absent entries is sent, and the next issue is ticket 1. The clerk table, the baskets and
the queue port's record stay. That the SIGN is sent also when the list was empty already is the model's reading (log 35). -/
def Obligations.ResetNumberingStartsFromOne : Prop :=
  ∀ s : State, Executing s 0x33 [] →
    ((s.service.waiting ≠ [] ∨ s.service.bound ≠ [] ∨ s.service.recallList ≠ []) →
      exec .resetNumbering s = .next (answered s s [7])) ∧
    (s.service.waiting = [] → s.service.bound = [] → s.service.recallList = [] → ∃ t : State,
      exec .resetNumbering s = .next (answered s t [0]) ∧
      t.service = { s.service with lastIssued := 0, callSigns := [] } ∧
      (t.service.issue.map Prod.snd = some 1) ∧
      ((s.queuePort.sending = none → s.queuePort.owed = [] →
          t.queuePort = { s.queuePort with sending := some (.sign []), signOwed := false }) ∧
        (s.queuePort.sending.isSome = true → t.queuePort = { s.queuePort with signOwed := true }) ∧
        (∀ f rest, s.queuePort.sending = none → s.queuePort.owed = f :: rest →
          t.queuePort = { s.queuePort with sending := some f, owed := rest, signOwed := true })) ∧
      (QueueFrame.sign []).bytes = [0xA5, 0xB3, 12, 0, 0, 0, 0, 0, 0, 0, 0, 0, 0, 0, 0, 0x41] ∧
      t = { s with service := t.service, queuePort := t.queuePort })

/-- R92, R93, R94: the dispenser's HELLO is accepted, or answered again, or takes the place of another's; STATE in PRESENT writes roll low,
and outside PRESENT it changes nothing; the frame timer's expiry loses the dispenser, its serial kept; the sign is refreshed and the line
freed at a frame's end. A free line begins the owed frames in order, then an owed SIGN with the list as it stands. That owed frames stay
owed when the dispenser is lost is the model's reading (log 25), and that the refresh comes in every powered state, before the first SIGN
too, its choice (log 68). -/
def Obligations.QueuePortActsOnItsEvents : Prop :=
  ∀ s : State, s.powered = true →
    (∀ (serial : BitVec 32) (model : Byte),
      (s.queuePort.state ≠ .present → exec (.dispenserHello serial model) s = .next (State.finish (State.pumpQueue (State.raise { s with
        queuePort := { s.queuePort with
          state := .present, serial := some serial, model := some model, lastPress := none, lastAnswer := none, rollLow := false,
          frameTimer := true, owed := s.queuePort.owed ++ [.accept serial] } } .dispenserFound (encSerial serial))) s)) ∧
      (s.queuePort.state = .present → s.queuePort.serial = some serial →
        exec (.dispenserHello serial model) s = .next (State.finish (State.pumpQueue { s with
          queuePort := { s.queuePort with owed := s.queuePort.owed ++ [.accept serial], frameTimer := true } }) s)) ∧
      (s.queuePort.state = .present → s.queuePort.serial ≠ some serial →
        exec (.dispenserHello serial model) s = .next (State.finish (State.pumpQueue (State.raise (State.raise { s with
          queuePort := { s.queuePort with
            state := .present, serial := some serial, model := some model, lastPress := none, lastAnswer := none, rollLow := false,
            frameTimer := true, owed := s.queuePort.owed ++ [.accept serial] } }
          .dispenserLost (encSerial (s.queuePort.serial.getD 0))) .dispenserFound (encSerial serial))) s))) ∧
    (∀ condition : Byte, s.queuePort.state = .present → exec (.dispenserState condition) s = .next (State.finish { s with
      queuePort := { s.queuePort with rollLow := condition.getLsbD 0, frameTimer := true } } s)) ∧
    (s.queuePort.state ≠ .present → (∀ condition, exec (.dispenserState condition) s = .next s) ∧ exec .dispenserTimeout s = .next s) ∧
    (s.queuePort.state = .present → s.queuePort.frameTimer = true → exec .dispenserTimeout s = .next (State.finish (State.raise
      { s with queuePort := { s.queuePort with
          state := .lost, lastPress := none, lastAnswer := none, rollLow := false, frameTimer := false } }
      .dispenserLost (encSerial (s.queuePort.serial.getD 0))) s)) ∧
    exec .signRefresh s = .next (State.finish (State.pumpQueue { s with queuePort := { s.queuePort with signOwed := true } }) s) ∧
    (s.queuePort.sending.isSome = true → exec .queuePortFrameEnd s = .next (State.finish (State.pumpQueue { s with
      queuePort := { s.queuePort with sending := none } }) s)) ∧
    ∀ t : State, t.pumpQueue = { t with queuePort :=
      if t.queuePort.sending.isSome then t.queuePort
      else
        match t.queuePort.owed with
        | f :: rest => { t.queuePort with sending := some f, owed := rest }
        | [] =>
          if t.queuePort.signOwed then { t.queuePort with sending := some (.sign t.service.callSigns), signOwed := false }
          else t.queuePort }

/-- R83, R86 to R91, R99, R162: NEXT and RECALL_TICKET are refused BASKETS_FULL with three open baskets, STORE_NOT_READY when no serial
can be drawn, BASKETS_FULL with no free record and no empty current basket to free one, and RECALL_TICKET first NOT_FOUND for a ticket
that is not in the recall list. Accepted, they give up the clerk's current basket: an empty one is cancelled without a commit and its
ticket pushed on the recall list, one that has held a line is parked. Then the next serial is drawn, a basket opens for the clerk with
the ticket (the head of the waiting queue, or the ticket taken out of the recall list), the ticket is CALLED and heads the call sign
list; with nobody waiting NEXT opens a walk-up basket and shows QUEUE_EMPTY. A change of the call sign list owes a SIGN, which a free queue
line sends with the list as it then stands (`pumpQueue`, QueuePortActsOnItsEvents); that a push which leaves the list as it was is no change
is the model's choice (log 44). The display shows the clerk and the ticket of the new basket, or no ticket for a walk-up basket, when no
open basket carries the serial drawn already, as SerialsFresh says. A draw takes the next serial, which grows by one, and puts
a raise of the high mark to wait when it leaves 32 or fewer reserved serials, unless one waits or runs. -/
def Obligations.CustomerIsCalledIntoANewBasket : Prop :=
  (∀ m : Store, (m.nextSerial = none → m.draw = m) ∧
    ∀ n, m.nextSerial = some n →
      m.draw = { m with nextSerial := some (n + 1), raiseWaiting := m.draw.raiseWaiting } ∧
      (m.draw.raiseWaiting = true ↔ m.raiseWaiting = true ∨ (m.op ≠ some .raiseMark ∧ m.highMark ≤ n + 32))) ∧
  ∀ (s : State) (st : Station) (c : Clerk), KeyTaken s st → TablesConsistent s → s.service.clerkAt st = some c →
    let refused := fun (i : Instr) (m : Message) => exec i s = .next (State.finish (s.refuseKey st m) s)
    let openCount := (if c.current.isSome then 1 else 0) + c.parked.length
    let drawable := s.store.state = .verified ∧ ∃ n, s.store.nextSerial = some n ∧ n ≤ s.store.highMark
    let emptyCurrent := ∃ b, s.current c = some b ∧ b.lines = []
    (∀ i : Instr, (i = .nextKey st ∨ ∃ number : BitVec 16, 1 ≤ number.toNat ∧ number.toNat ≤ 99 ∧
        number.toNat ∈ s.service.recallList ∧ i = .recallTicket st number) →
      (3 ≤ openCount → refused i .basketsFull) ∧
      (openCount < 3 → ¬drawable → refused i .storeNotReady) ∧
      (openCount < 3 → drawable → s.pool.free = [] → ¬emptyCurrent → refused i .basketsFull)) ∧
    (∀ number : BitVec 16, 1 ≤ number.toNat → number.toNat ≤ 99 → number.toNat ∉ s.service.recallList →
      refused (.recallTicket st number) .notFound) ∧
    ∀ serial : Nat, openCount < 3 → s.store.state = .verified → s.store.nextSerial = some serial → serial ≤ s.store.highMark →
      s.pool.free ≠ [] ∨ emptyCurrent →
      let given := (s.current c).filter fun b => b.lines.isEmpty
      let parked := (s.current c).filter fun b => !b.lines.isEmpty
      let called := fun (t : State) (ticket : Option Nat) (recallList : List Nat) =>
        t.store.nextSerial = some (serial + 1) ∧ ((t.service.clerk c.number).bind (·.current)) = some serial ∧
        t.service.clerks = (s.service.clerks.map fun x =>
          let x := match given with
            | none => x
            | some b => { x with current := if x.current = some (b.serial.getD 0) then none else x.current,
                                 parked := x.parked.filter fun n => n != b.serial.getD 0 }
          if x.number = c.number then
            { x with current := some serial, parked := x.parked ++ (parked.bind (·.serial)).toList } else x) ∧
        t.service.recallList = (match given.bind (·.ticket) with
          | none => recallList
          | some k => (k :: recallList).take 8) ∧
        t.service.bound = (match given with
          | none => s.service.bound
          | some b => if b.ticket.isSome then s.service.bound.filter fun x => some x.serial != b.serial else s.service.bound)
          ++ (ticket.toList.map fun k => { number := k, serving := false, clerk := c.number, serial := serial }) ∧
        t.service.lastIssued = s.service.lastIssued ∧
        t.pool.free = (s.pool.free ++ (given.map (·.slot)).toList).tail ∧
        (∀ b, parked = some b → b.slot ∉ s.pool.free → b ∈ t.pool.records) ∧
        (∀ b, given = some b → b.slot ∉ s.pool.free → s.pool.free ≠ [] →
          { b with state := .cancelled, endedAt := s.link.clock } ∈ t.pool.records) ∧
        (∃ more, t.totals = { s.totals with commits := s.totals.commits ++ more } ∧ ∀ x ∈ more, x.kind = .prepack) ∧
        t.queuePort = (State.pumpQueue { s with
          service := t.service,
          queuePort := if t.service.callSigns = s.service.callSigns then s.queuePort
            else { s.queuePort with signOwed := true } }).queuePort ∧
        t.refresh st = t ∧ t.ports[st].image.clerk = some c.number ∧
        t.ports[st].image.ticket = (t.pool.openBasket serial).bind (·.ticket) ∧
        (SerialsFresh s → t.ports[st].image.ticket = ticket) ∧
        ∃ b ∈ t.pool.records, b.state = .opened ∧ b.serial = some serial ∧ b.clerk = some c.number ∧ b.ticket = ticket ∧
          b.channel = some st ∧ b.openedAt = s.link.clock ∧ b.lines = [] ∧ b.total = 0 ∧
          t = { s with freeCount := t.freeCount, ports := t.ports, headLines := t.headLines, channels := t.channels, price := t.price,
                       service := t.service, queuePort := t.queuePort, pool := t.pool, labels := t.labels, printers := t.printers,
                       runs := t.runs, totals := t.totals, store := s.store.draw, link := t.link }
      let announced := fun (t : State) (ticket : Nat) => t.service.callSigns =
        ({ ticket := ticket, clerk := c.number, channel := st } :: s.service.callSigns.filter fun x => x.ticket != ticket).take 4
      (∀ ticket rest, s.service.waiting = ticket :: rest → ∃ t : State, exec (.nextKey st) s = .next t ∧
        called t (some ticket) s.service.recallList ∧ t.service.waiting = rest ∧ announced t ticket) ∧
      (s.service.waiting = [] → ∃ t : State, exec (.nextKey st) s = .next t ∧ called t none s.service.recallList ∧
        t.service.waiting = [] ∧ t.ports[st].image.message = .queueEmpty ∧ t.service.callSigns = s.service.callSigns) ∧
      ∀ number : BitVec 16, 1 ≤ number.toNat → number.toNat ≤ 99 → number.toNat ∈ s.service.recallList → ∃ t : State,
        exec (.recallTicket st number) s = .next t ∧
        called t (some number.toNat) (s.service.recallList.filter fun k => k != number.toNat) ∧
        t.service.waiting = s.service.waiting ∧ announced t number.toNat

/-! ## Baskets -/

/-- R31, R86, R102 to R108: the accepted basket keys: ADD appends the line and its price, makes the ticket SERVING at the first line, clears
armed and, with tare hold off, the tare; VOID_LAST voids the newest unvoided line and takes its price back, and cancels the line's latest
job while it is QUEUED: the job leaves the queue, the line's label state becomes NONE, and the room is offered to the prepack runs; a
PRINTING one, as one that is gone, stays as it is. PARK and RECALL_BASKET move baskets between the clerk's current basket and its list,
REPRINT counts a reprint and queues a new job. ADD's refusals come in the order of R102; without a current basket ADD, VOID_LAST, PARK and
REPRINT are refused NO_BASKET; REPRINT is refused NOT_FOUND at 9 reprints and LABELS_FULL at a full label queue. The line has the version's
fields, what was weighed or counted, the price and the dates; the item job of ADD and REPRINT (R104, R117) has class ITEM, the bound printer
and the fallback of the channel, and the line's and the basket's content. That the content keeps tare, markdown, step and generation too is
the model's (R76). -/
def Obligations.BasketKeysChangeTheCurrentBasket : Prop :=
  ∀ (s : State) (st : Station) (c : Clerk), KeyTaken s st → s.service.clerkAt st = some c →
    let itemLabel := fun (t : State) (b : Basket) (l : Line) => ∃ j ∈ t.labels.queue, j.number = s.labels.nextJob ∧ j.cls = .item ∧
      j.preferred = s.channels[st].config.boundPrinter ∧ j.fallback = s.channels[st].config.fallback ∧
      j.link = .item (b.serial.getD 0) l.number ∧
      j.content =
        { format := l.labelFormat, channel := l.channel, clerk := b.clerk, ticket := b.ticket, serial := b.serial, plu := some l.plu,
          name := some l.name, generation := some l.generation, netGrams := l.netWeight.map fun n => n / 10, tare := l.tare,
          quantity := l.quantity, unitPrice := some l.unitPrice, markdown := some l.markdown, step := some l.step,
          markdownShown := some l.markdownShown, price := l.price, lineCount := none, packed := l.packed, useBy := l.useBy,
          extraText := l.extraText, code := itemCode l.plu l.price }
    (∀ (h : Nat) (rest : List Nat), c.parked = h :: rest → exec (.recallBasket st) s = .next (State.finish (State.refresh
      { accepted s st with service := { s.service with clerks := s.service.clerks.map fun x =>
          if x.number = c.number then { x with current := some h, parked := rest ++ c.current.toList } else x } } st) s)) ∧
    (c.parked = [] → exec (.recallBasket st) s = .next (State.finish (s.refuseKey st .notFound) s)) ∧
    (s.runs[st].state ≠ .idle → exec (.add st) s = .next (State.finish (s.refuseKey st .runActive) s)) ∧
    (s.current c = none →
      (s.runs[st].state = .idle → exec (.add st) s = .next (State.finish (s.refuseKey st .noBasket) s)) ∧
      exec (.voidLast st) s = .next (State.finish (s.refuseKey st .noBasket) s) ∧
      exec (.park st) s = .next (State.finish (s.refuseKey st .noBasket) s) ∧
      exec (.reprint st) s = .next (State.finish (s.refuseKey st .noBasket) s)) ∧
    ∀ b : Basket, s.current c = some b →
      (c.parked.length < 2 → exec (.park st) s = .next (State.finish (State.refresh
        { accepted s st with service := { s.service with clerks := s.service.clerks.map fun x =>
            if x.number = c.number then { x with current := none, parked := x.parked ++ b.serial.toList } else x } } st) s)) ∧
      (2 ≤ c.parked.length → exec (.park st) s = .next (State.finish (s.refuseKey st .basketsFull) s)) ∧
      (∀ l : Line, b.newest = some l →
        let voided := { accepted s st with
          pool := { s.pool with records := s.pool.records.map fun x => if x.slot = b.slot then { x with
            lines := x.lines.map fun y => if y.number = l.number then { y with voided := true } else y,
            total := x.total - l.price } else x } }
        (∀ n j, l.latestJob = some n → s.labels.job n = some j → j.link = .item (b.serial.getD 0) l.number → j.state = .queued →
          let u := voided.endJob j .cancelled
          exec (.voidLast st) s = .next (State.finish u.examineAll s) ∧
          u.labels = { s.labels with queue := s.labels.queue.filter fun x => x.number != n } ∧
          (∀ x ∈ u.pool.records, x.state = .opened → x.serial = b.serial → ∀ y ∈ x.lines, y.number = l.number →
            y.latestJob = some n → y.labelState = .none) ∧
          ∃ t : State, exec (.voidLast st) s = .next t ∧ ∀ x ∈ t.labels.queue, x.link = j.link → x.number ≠ n) ∧
        ((∀ n j, l.latestJob = some n → s.labels.job n = some j → j.link = .item (b.serial.getD 0) l.number → j.state ≠ .queued) →
          exec (.voidLast st) s = .next (State.finish voided s))) ∧
      (∀ l : Line, b.newest = some l → ∃ t : State, exec (.voidLast st) s = .next t ∧
        ∃ x ∈ t.pool.records, x.slot = b.slot ∧ x.serial = b.serial ∧ x.total = b.total - l.price ∧
          x.lines.length = b.lines.length ∧ (∀ y ∈ x.lines, y.number = l.number → y.voided = true) ∧
          t = { s with freeCount := t.freeCount, ports := t.ports, headLines := t.headLines, channels := t.channels,
                       price := t.price, pool := t.pool, labels := t.labels, printers := t.printers, runs := t.runs,
                       totals := t.totals, link := t.link }) ∧
      (∀ l : Line, b.newest = some l → l.reprints < 9 → s.labels.queue.length < 32 → ∃ t : State, exec (.reprint st) s = .next t ∧
        t.pool = { s.pool with records := s.pool.records.map fun x => if x.slot = b.slot then { x with lines := x.lines.map fun y =>
          if y.number = l.number then { y with reprints := y.reprints + 1, latestJob := some s.labels.nextJob, labelState := .queued }
          else y } else x } ∧
        t.labels.queue.length = s.labels.queue.length + 1 ∧ itemLabel t b l ∧
        t = { s with freeCount := t.freeCount, ports := t.ports, headLines := t.headLines, pool := t.pool, labels := t.labels,
                     printers := t.printers, link := t.link }) ∧
      (b.newest = none → exec (.voidLast st) s = .next (State.finish (s.refuseKey st .notFound) s) ∧
        exec (.reprint st) s = .next (State.finish (s.refuseKey st .notFound) s)) ∧
      (∀ l : Line, b.newest = some l →
        (9 ≤ l.reprints → exec (.reprint st) s = .next (State.finish (s.refuseKey st .notFound) s)) ∧
        (l.reprints < 9 → 32 ≤ s.labels.queue.length →
          exec (.reprint st) s = .next (State.finish (s.refuseKey st .labelsFull) s))) ∧
      (s.runs[st].state = .idle →
        let refused := fun (m : Message) => exec (.add st) s = .next (State.finish (s.refuseKey st m) s)
        let ch := s.channels[st]
        (ch.selection = none → refused .noPlu) ∧
        ∀ sel : Selection, ch.selection = some sel →
          (sel.version.mode = .byWeight → ch.state ≠ .stable → refused .notStable) ∧
          ((sel.version.mode = .byWeight → ch.state = .stable) →
            (ch.armed = false → refused .zeroReturn) ∧
            (ch.armed = true → (∀ p, ch.outcome ≠ .priced p) → refused .notPriceable) ∧
            ∀ price : Nat, ch.armed = true → ch.outcome = .priced price →
              ((sel.version.shelfLife.isSome = true ∧ s.link.clock = none) → refused .clockUnset) ∧
              ((sel.version.shelfLife = none ∨ s.link.clock ≠ none) →
                (40 ≤ b.lines.length → refused .basketFull) ∧
                (b.lines.length < 40 → ch.config.itemLabels = true → 32 ≤ s.labels.queue.length → refused .labelsFull) ∧
                (b.lines.length < 40 → (ch.config.itemLabels = true → s.labels.queue.length < 32) → ∃ (t : State) (l : Line),
                  exec (.add st) s = .next t ∧
                  t.pool = { s.pool with records := s.pool.records.map fun x =>
                    if x.slot = b.slot then { x with lines := x.lines ++ [l], total := x.total + price } else x } ∧
                  (let v := sel.version
                   let shown := (ch.last.map (·.weight)).getD 0
                   let base := match v.mode with
                     | .byWeight => basePriceByWeight shown.toNat v.unitPrice
                     | .byCount => sel.count.getD 0 * v.unitPrice
                     | .fixed => v.unitPrice
                   l = { number := b.lines.length + 1, plu := v.number, name := v.name, mode := v.mode, department := v.department,
                         labelFormat := v.labelFormat, shelfLife := v.shelfLife, extraText := v.extraText, generation := v.generation,
                         netWeight := if v.mode = .byWeight then some (10 * shown) else none,
                         tare := if v.mode = .byWeight then some ch.tareInForce else none,
                         quantity := if v.mode = .byCount then sel.count else none, unitPrice := v.unitPrice,
                         markdown := v.markdown, step := v.step, markdownShown := decide (0 < markdownAmount base v.markdown),
                         price := price, packed := s.link.clock.map DateTime.date,
                         useBy := match v.shelfLife, s.link.clock with
                           | some n, some d => some (d.date.addDays n)
                           | _, _ => none,
                         channel := st, voided := false,
                         labelState := if ch.config.itemLabels then .queued else .none,
                         latestJob := if ch.config.itemLabels then some s.labels.nextJob else none, reprints := 0 }) ∧
                  (ch.config.itemLabels = true → itemLabel t b l) ∧
                  t.channels[st] = (
                    let c1 : Channel := { ch with armed := false, returnClear := true }
                    if ch.config.tareHold then c1 else Channel.reprice (Channel.retare
                      { c1 with keyedTare := none, selection := some { sel with presetTare := 0 } })) ∧
                  t.service = (if b.lines = [] then { s.service with bound := s.service.bound.map fun x =>
                    if x.serial = (b.serial.getD 0) then { x with serving := true } else x } else s.service) ∧
                  (∀ x : Station, x ≠ st → t.channels[x] = s.channels[x]) ∧
                  t.labels.queue.length = s.labels.queue.length + (if ch.config.itemLabels then 1 else 0) ∧
                  t = { s with freeCount := t.freeCount, ports := t.ports, headLines := t.headLines, channels := t.channels,
                               service := t.service, pool := t.pool, labels := t.labels, printers := t.printers,
                               link := t.link }))))

/-- R83, R86, R87, R109 to R113: TOTAL without a current basket is refused NO_BASKET; it closes a basket with an unvoided line: a summary
job is queued, with the content of R117, format 0 and the code of R118, its commit joins the commit queue's tail, its record is CLOSED and
free; it cancels one without. CANCEL_BASKET cancels an OPEN basket. A cancelled basket that held lines hands over a CANCEL commit, one that
held none does not; the commits that may follow are those of prepack runs that found room. Its item jobs that are still QUEUED leave the
queue, and a line whose latest job was among them has label state NONE; a PRINTING one and every other job stay (with the job numbers of the
queue distinct, which StepKeepsBoundsAndTables says every step keeps). A closed basket keeps its lines as they are and its jobs. The basket
leaves its clerk's lists. Its ticket is no longer bound: a cancelled basket that held no lines sends it to the head of the recall list,
where a ninth falls off, otherwise its number is free. -/
def Obligations.BasketsEndWithTheirCommit : Prop :=
  ∀ (s : State) (b : Basket),
    let commit := fun (kind : CommitKind) (st : Station) =>
      ({ kind := kind, serial := b.serial.getD 0, clerk := b.clerk, channel := st, endedAt := s.link.clock,
         content := .lines (b.lines.map Line.commitLine), applyNumber := none } : Commit)
    let ended := fun (t : State) (state : BasketState) =>
      t.service = { s.service with
        clerks := s.service.clerks.map fun x =>
          { x with current := if x.current = some (b.serial.getD 0) then none else x.current,
                   parked := x.parked.filter fun n => n != b.serial.getD 0 },
        bound := if b.ticket.isSome then s.service.bound.filter fun x => some x.serial != b.serial else s.service.bound,
        recallList := match b.ticket with
          | none => s.service.recallList
          | some k => if (state = .cancelled ∧ b.lines = []) then (k :: s.service.recallList).take 8 else s.service.recallList } ∧
      t.pool.free = s.pool.free ++ [b.slot] ∧ ∃ x ∈ t.pool.records, x.slot = b.slot ∧ x.state = state ∧ x.serial = b.serial ∧
        x.endedAt = s.link.clock ∧ x.total = b.total ∧
        x.lines = (if state = .cancelled then b.lines.map fun l =>
            if ∃ j ∈ s.labels.queue, j.state = .queued ∧ j.link = .item (b.serial.getD 0) l.number ∧ l.latestJob = (some j.number) then
              { l with labelState := .none } else l
          else b.lines) ∧
        (JobNumbersDistinct s → ∀ j ∈ s.labels.queue,
          (state = .cancelled → j.state = .queued → (∃ n, j.link = .item (b.serial.getD 0) n) →
            ∀ y ∈ t.labels.queue, y.link = j.link → y.number ≠ j.number) ∧
          (state = .closed ∨ j.state ≠ .queued ∨ (∀ n, j.link ≠ .item (b.serial.getD 0) n) →
            ∃ y ∈ t.labels.queue, y.number = j.number ∧ y.link = j.link ∧ (j.state ≠ .queued → y.state ≠ .queued))) ∧
        (state = .cancelled → ∀ y ∈ t.labels.queue, y.state = .queued → ∀ n, y.link ≠ .item (b.serial.getD 0) n) ∧
        t = { s with freeCount := t.freeCount, ports := t.ports, headLines := t.headLines, channels := t.channels, price := t.price,
                     service := t.service, pool := t.pool, labels := t.labels, printers := t.printers, runs := t.runs,
                     totals := t.totals, link := t.link }
    let handedOver := fun (t : State) (first : List Commit) =>
      ∃ more, t.totals = { s.totals with commits := s.totals.commits ++ first ++ more } ∧ ∀ x ∈ more, x.kind = .prepack
    (∀ (st : Station) (c : Clerk), KeyTaken s st → s.service.clerkAt st = some c → s.current c = none →
      exec (.total st) s = .next (State.finish (s.refuseKey st .noBasket) s)) ∧
    (∀ (st : Station) (c : Clerk), KeyTaken s st → s.service.clerkAt st = some c → s.current c = some b →
      (b.lines = [] → ∃ t : State, exec (.total st) s = .next t ∧ ended t .cancelled ∧ handedOver t []) ∧
      (b.lines ≠ [] → s.store.state ≠ .verified → exec (.total st) s = .next (State.finish (s.refuseKey st .storeNotReady) s)) ∧
      (b.lines ≠ [] → s.store.state = .verified → (8 ≤ s.totals.commits.length ∨ s.totals.closing.isSome = true) →
        exec (.total st) s = .next (State.finish (s.refuseKey st .totalsBusy) s)) ∧
      (b.lines ≠ [] → s.store.state = .verified → s.totals.commits.length < 8 → s.totals.closing = none →
        ((∀ l ∈ b.lines, l.voided = true) → ∃ t : State, exec (.total st) s = .next t ∧ ended t .cancelled ∧
          handedOver t [commit .cancel st]) ∧
        ((∃ l ∈ b.lines, l.voided = false) → 32 ≤ s.labels.queue.length →
          exec (.total st) s = .next (State.finish (s.refuseKey st .labelsFull) s)) ∧
        ((∃ l ∈ b.lines, l.voided = false) → s.labels.queue.length < 32 → ∃ t : State, exec (.total st) s = .next t ∧
          ended t .closed ∧ t.totals = { s.totals with commits := s.totals.commits ++ [commit .basket st] } ∧
          t.labels.queue.length = s.labels.queue.length + 1 ∧
          (∃ j ∈ t.labels.queue, j.number = s.labels.nextJob ∧ j.cls = .summary ∧ j.link = .summary (b.serial.getD 0) ∧
            j.preferred = s.channels[st].config.boundPrinter ∧ j.fallback = s.channels[st].config.fallback ∧
            j.content =
              { format := 0, channel := st, clerk := b.clerk, ticket := b.ticket, serial := b.serial, plu := none, name := none,
                generation := none, netGrams := none, tare := none, quantity := none, unitPrice := none, markdown := none,
                step := none, markdownShown := none, price := b.total, lineCount := some (b.lines.filter fun l => !l.voided).length,
                packed := s.link.clock.map DateTime.date, useBy := none, extraText := none,
                code := summaryCode b.ticket (b.serial.getD 0) }) ∧
          t.channels = s.channels ∧ t.runs = s.runs ∧ t.price = s.price))) ∧
    ∀ serial : Nat, serial < 4294967296 → Executing s 0x39 (u4 serial) →
      (s.pool.openBasket serial = none → exec .cancelBasket s = .next (answered s s [5])) ∧
      (∀ st : Station, s.pool.openBasket serial = some b → b.channel = some st →
        (b.lines ≠ [] → s.store.state ≠ .verified → exec .cancelBasket s = .next (answered s s [14])) ∧
        (b.lines ≠ [] → s.store.state = .verified → (8 ≤ s.totals.commits.length ∨ s.totals.closing.isSome = true) →
          exec .cancelBasket s = .next (answered s s [4])) ∧
        (b.lines = [] ∨ (s.store.state = .verified ∧ s.totals.commits.length < 8 ∧ s.totals.closing = none) → ∃ t : State,
          exec .cancelBasket s = .next (answered s t
            (0 :: (u4 serial ++ u4 b.total ++ u1 (b.lines.filter fun l => !l.voided).length))) ∧
          ended t .cancelled ∧ handedOver t (if b.lines = [] then [] else [commit .cancel st])))

/-! ## Labels and printers -/

/-- R116, R119, R121, R127, R132: a job taken in carries the next job number and keeps the queue in its order, and the number after it
is one no queued job carries. An arbiter's printer takes the first QUEUED job in queue order that prefers it, or that falls back to it
while its preferred printer is not READY: the job is PRINTING with one attempt more, the port is BUSY_PRINTING with the job in hand in
phase STARTING, and LABEL_BEGIN goes first. With two READY printers that have a job to take, either may be first (log 13), and the other
chooses among the rest; the arbiters leave no READY printer with a job to take. A free printer line sends the frames of the job in their
order; that it sends an owed ACCEPT before them is the model's choice (log 67). CANCEL_JOB cancels a QUEUED job;
RESET_PRINTER_PORT takes the port to WAITING, its job in hand QUEUED again with its attempt not counted, or at once taken by the other
printer. What an examination of every run (`examineAll`) does is stated in PrepackRunsStartTriggerAndEnd. -/
def Obligations.LabelJobsAreQueuedAndTaken : Prop :=
  (∀ (l : LabelUnit) (j : Job), l.queue.length < 32 → l.stamp.toNat < 4294967295 → l.nextJob < 65536 →
    (∀ x ∈ l.queue, x.stamp.toNat ≤ l.stamp.toNat) →
    l.queue.Pairwise (fun x y => x.key ≤ y.key) →
    { j with number := l.nextJob, stamp := l.stamp + 1, state := .queued, attempts := 0 } ∈ (l.takeIn j).queue ∧
    (l.takeIn j).queue.length = l.queue.length + 1 ∧ (∀ x ∈ l.queue, x ∈ (l.takeIn j).queue) ∧
    (l.takeIn j).queue.Pairwise (fun x y => x.key ≤ y.key) ∧ (l.takeIn j).stamp = l.stamp + 1 ∧
    (l.takeIn j).nextJob < 65536 ∧ ∀ x ∈ (l.takeIn j).queue, x.number ≠ (l.takeIn j).nextJob) ∧
  (∀ (s : State) (p : Printer),
    let takes := fun j : Job => j.state = .queued ∧
      (j.preferred = p ∨ (j.fallback = true ∧ s.printers[j.preferred].state ≠ .ready))
    ((∀ j ∈ s.labels.queue, ¬takes j) → s.nextJobFor p = none) ∧
    (∀ before j after, s.labels.queue = before ++ j :: after → (∀ x ∈ before, ¬takes x) → takes j → s.nextJobFor p = some j) ∧
    (∀ j : Job, s.startJob p j = { s with
      labels := { s.labels with queue := s.labels.queue.map fun x =>
        if x.number = j.number then { x with state := .printing p, attempts := x.attempts + 1 } else x },
      printers := modAt s.printers p fun q => PrinterPort.pump p
        { q with state := .busyPrinting, inHand := some j.number, phase := some .starting,
                 toSend := .labelBegin j.number j.content.format j.cls :: j.content.fields ++ [.labelEnd j.number] } })) ∧
  (∀ s : State,
    let chooses := fun (u : State) (p : Printer) (j : Job) => u.printers[p].state = .ready ∧ u.nextJobFor p = some j
    let follows := fun (u : State) (p : Printer) (t : State) =>
      (∀ j, chooses u p j → t = u.startJob p j) ∧ ((∀ j, ¬chooses u p j) → t = u)
    let drawn := { s with freeCount := s.freeCount + 1 }
    ((∀ p j, ¬chooses s p j) → s.arbitrate = s) ∧
    (∀ p j, chooses s p j → (∀ k, ¬chooses s (otherPrinter p) k) → follows (s.startJob p j) (otherPrinter p) s.arbitrate) ∧
    (∀ j k, chooses s 0 j → chooses s 1 k →
      follows (drawn.startJob 0 j) 1 s.arbitrate ∨ follows (drawn.startJob 1 k) 0 s.arbitrate)) ∧
  (∀ (p : Printer) (q : PrinterPort) (f : PrinterFrame) (rest : List PrinterFrame), PrinterPort.pump p q =
    if q.sending.isSome then q
    else
      match q.owedAccepts, q.toSend with
      | serial :: more, _ => { q with sending := some (.accept serial p), owedAccepts := more }
      | [], [] => q
      | [], f :: rest => { q with
          sending := some f, toSend := rest,
          phase := match f, q.phase with
            | .field _ _, some .starting => some .sending
            | _, phase => phase }) ∧
  (∀ (s : State) (p : Printer), s.arbitrate.printers[p].state = .ready →
    ∀ j ∈ s.arbitrate.labels.queue, j.state = .queued → j.preferred ≠ p ∧
      (j.fallback = true → s.arbitrate.printers[j.preferred].state = .ready)) ∧
  (∀ (s : State) (n : Nat), n < 65536 → Executing s 0x41 (u2 n) →
    (s.labels.job n = none → exec .cancelJob s = .next (answered s s [5])) ∧
    (∀ j, s.labels.job n = some j → j.state ≠ .queued → exec .cancelJob s = .next (answered s s [7])) ∧
    (∀ j, s.labels.job n = some j → j.state = .queued → exec .cancelJob s = .next (answered s
      (s.endJob j .cancelled).examineAll (0 :: (u1 j.cls.code ++ j.link.bytes))))) ∧
  (∀ (s : State) (j : Job) (o : JobOutcome),
    (s.endJob j o).labels = { s.labels with queue := s.labels.queue.filter fun x => x.number != j.number } ∧
    (∀ serial, j.link = .prepack serial → ∀ st : Station, s.runs[st].serial = some serial →
      (s.endJob j o).runs[st] =
        match o with
        | .done => { s.runs[st] with printed := s.runs[st].printed + 1 }
        | .failed => { s.runs[st] with failed := s.runs[st].failed + 1 }
        | .cancelled => { s.runs[st] with cancelled := s.runs[st].cancelled + 1 }) ∧
    (∀ serial line, j.link = .item serial line → (s.endJob j o).pool.records = s.pool.records.map fun b =>
      if b.state = .opened ∧ b.serial = (some serial) then { b with lines := b.lines.map fun l =>
        if l.number = line ∧ l.latestJob = (some j.number) then
          { l with labelState := match o with | .done => .printed | .failed => .failed | .cancelled => .none }
        else l } else b)) ∧
  ∀ (s : State) (n : Byte), Executing s 0x42 [n] →
    (n = 0 ∨ 2 < n.toNat → exec .resetPrinterPort s = .next (answered s s [3])) ∧
    (∀ p : Printer, n.toNat = p.val + 1 → ∃ t : State, exec .resetPrinterPort s = .next (answered s t [0]) ∧
      t.printers[p].state = .waiting ∧ t.printers[p].inHand = none ∧ t.printers[p].condition = .unknown ∧
      t.printers[p].frameTimer = false ∧ t.printers[p].doneTimer = false ∧ t.printers[p].serial = s.printers[p].serial ∧
      t.labels.queue.map Job.number = s.labels.queue.map Job.number ∧
      (∀ j number, s.printers[p].inHand = some number → s.labels.job number = some j → ∃ x ∈ t.labels.queue, x.number = number ∧
        ((x.state = .queued ∧ x.attempts = j.attempts - 1) ∨
         (x.state = .printing (otherPrinter p) ∧ x.attempts = j.attempts - 1 + 1 ∧ s.printers[otherPrinter p].state = .ready))) ∧
      (s.printers[otherPrinter p].state ≠ .ready → t.labels = { s.labels with queue := s.labels.queue.map fun x =>
        if s.printers[p].inHand = (some x.number) then { x with state := .queued, attempts := x.attempts - 1 } else x }) ∧
      t = { s with freeCount := t.freeCount, labels := t.labels, printers := t.printers })

/-- R123 to R131: the printer events: a HELLO accepts the printer, in NOT_READY, and owes an ACCEPT; one of another printer loses the first,
with PRINTER_LOST and PRINTER_FOUND; STATE gives the condition and READY or NOT_READY; in BUSY_PRINTING a STATE ready leaves the port there
with its job in hand and its phase, and another interrupts the job; DONE and FAULT of the job in hand end or interrupt it, of another job
they only restart the frame timer; a port with no printer accepted discards them; the timers lose the printer or interrupt the job; a
frame's end begins the next, and LABEL_END's begins AWAITING_DONE. Whatever interrupts the job in hand, the phase decides: in STARTING the
attempt is not counted and the job is QUEUED with one attempt less, otherwise it counts, and the job is QUEUED below three attempts and
FAILED at three. The frames of a job are LABEL_BEGIN, a FIELD for each field its content carries in ascending order of identifier, the extra
text in segments of 59 characters, and LABEL_END. After an event the arbiters choose (LabelJobsAreQueuedAndTaken) and, when a job has left
the queue, every run is examined (PrepackRunsStartTriggerAndEnd); that order (log 23), the frames kept owed in LOST (log 25), the class byte
of JOB_FAILED, whose body has the job number, the class, the serial of the link and the line number, or 0 (log 45), and the form of the
optional job number in PAPER_OUT and HEAD_OPEN (log 46) are the model's choices. -/
def Obligations.PrinterEventsMoveThePort : Prop :=
  ∀ (s : State) (p : Printer), s.powered = true →
    let q := s.printers[p]
    let kept := fun (t : State) => t = { s with
      freeCount := t.freeCount, ports := t.ports, headLines := t.headLines, channels := t.channels, price := t.price,
      pool := t.pool, labels := t.labels, printers := t.printers, runs := t.runs, totals := t.totals, link := t.link }
    let present := q.state = .ready ∨ q.state = .busyPrinting ∨ q.state = .notReady
    let owesAccept := fun (t : State) (serial : BitVec 32) =>
      (q.sending.isSome = true → t.printers[p].sending = q.sending ∧ t.printers[p].owedAccepts = q.owedAccepts ++ [serial]) ∧
      (q.sending = none → t.printers[p].sending = ((q.owedAccepts ++ [serial]).head?.map fun k => .accept k p) ∧
        t.printers[p].owedAccepts = (q.owedAccepts ++ [serial]).tail)
    let after := fun (u : State) =>
      let t := u.arbitrate
      State.finish (if t.labels.queue.length < s.labels.queue.length then t.examineAll else t) s
    let dropped := fun (state : PrinterState) (u : State) =>
      let t := { u with printers := modAt u.printers p fun q =>
        { q with state := state, inHand := none, phase := none, doneTimer := false, toSend := [] } }
      match q.inHand.bind s.labels.job with
      | none => t
      | some j => t.returnJob p j (q.phase != some .starting)
    let taken := { s with printers := modAt s.printers p fun q => { q with frameTimer := true } }
    let conditioned := fun (c : Condition) (job : Option Nat) (u : State) =>
      let t := { u with printers := modAt u.printers p fun q => { q with condition := c } }
      match c with
      | .paperOut => if q.condition = .paperOut then t else t.raise (.paperOut p) (encOpt u2 job)
      | .headOpen => if q.condition = .headOpen then t else t.raise (.headOpen p) (encOpt u2 job)
      | .ready => t
      | .unknown => t
    let lost := State.raise
      (let t := dropped .lost s
       { t with printers := modAt t.printers p fun q => { q with condition := .unknown, frameTimer := false, doneTimer := false } })
      (.printerLost p) (encSerial (q.serial.getD 0))
    (q.state = .busyPrinting →
      (∀ (condition : Byte) (c : Condition), (condition, c) ∈ [(1, .paperOut), (2, .headOpen)] →
        exec (.printerState p condition) s = .next (after (conditioned c q.inHand (dropped .notReady taken)))) ∧
      (∀ (job : BitVec 16) (cause : Byte) (c : Condition), q.inHand = some job.toNat →
        (cause, c) ∈ [(1, .paperOut), (2, .headOpen), (3, .unknown), (4, .unknown)] →
        exec (.printerFault p job cause) s = .next (after (conditioned c q.inHand (dropped .notReady taken)))) ∧
      (∀ (serial : BitVec 32) (model : Byte),
        (q.serial = some serial → exec (.printerHello p serial model) s = .next (after
          (let t := dropped .notReady s
           let hello := fun q : PrinterPort =>
             { q with condition := .unknown, frameTimer := true, owedAccepts := q.owedAccepts ++ [serial] }
           { t with printers := modAt t.printers p fun q => PrinterPort.pump p (hello q) }))) ∧
        (q.serial ≠ some serial → exec (.printerHello p serial model) s = .next (after
          (let t := State.raise { lost with printers := modAt lost.printers p fun q =>
              { q with state := .notReady, serial := some serial, model := some model, condition := .unknown, frameTimer := true,
                       owedAccepts := q.owedAccepts ++ [serial] } } (.printerFound p) (encSerial serial)
           { t with printers := modAt t.printers p (PrinterPort.pump p) })))) ∧
      (q.frameTimer = true → exec (.printerFrameTimeout p) s = .next (after lost)) ∧
      (q.phase = some .awaitingDone → q.doneTimer = true → exec (.doneTimeout p) s = .next (after
        (let t := dropped .notReady s
         { t with printers := modAt t.printers p fun q => { q with condition := .unknown } })))) ∧
    (∀ j : Job, j.frames = .labelBegin j.number j.content.format j.cls :: j.content.fields ++ [.labelEnd j.number]) ∧
    (∀ c : LabelContent,
      let field := fun (ident : Nat) (value : Option Text) => value.toList.map fun v => PrinterFrame.field ident v
      let number := fun (ident : Nat) (value : Option Nat) => field ident (value.map decimal)
      c.fields = number 0x01 (some (c.channel.val + 1)) ++ number 0x02 c.clerk ++ number 0x03 c.ticket ++ number 0x04 c.serial
        ++ number 0x05 c.plu ++ field 0x06 c.name ++ field 0x07 (c.netGrams.map decimalInt) ++ number 0x08 c.quantity
        ++ number 0x09 c.unitPrice ++ field 0x0A (c.markdownShown.map fun b => [if b then 0x31 else 0x30])
        ++ number 0x0B (some c.price) ++ number 0x0C c.lineCount ++ field 0x0D (c.packed.map dateText)
        ++ field 0x0E (c.useBy.map dateText)
        ++ (match c.extraText with
            | none => []
            | some t => [.field 0x20 (t.take 59)] ++ (if 59 < t.length then [.field 0x21 ((t.drop 59).take 59)] else [])
                ++ (if 118 < t.length then [.field 0x22 ((t.drop 118).take 59)] else []))
        ++ field 0x30 (some c.code) ∧
      c.fields.Pairwise fun f g => ∃ i v k w, f = .field i v ∧ g = .field k w ∧ i < k) ∧
    (¬present → (∀ job, exec (.printerDone p job) s = .next s) ∧ (∀ job cause, exec (.printerFault p job cause) s = .next s) ∧
      exec (.printerFrameTimeout p) s = .next s ∧
      (¬(q.state = .waiting ∧ q.serial.isSome = true) → ∀ condition, exec (.printerState p condition) s = .next s)) ∧
    (∀ (serial : BitVec 32) (model : Byte), q.state = .waiting ∨ q.state = .lost → ∃ t : State,
      exec (.printerHello p serial model) s = .next t ∧ kept t ∧ t.printers[p].state = .notReady ∧ t.printers[p].serial = some serial ∧
      t.printers[p].model = some model ∧ t.printers[p].condition = .unknown ∧ t.printers[p].frameTimer = true ∧ owesAccept t serial ∧
      (t.link.flags[(Flag.printerFound p).entry]).pending = true) ∧
    (∀ (serial : BitVec 32) (model : Byte), present → ∃ t : State,
      exec (.printerHello p serial model) s = .next t ∧ kept t ∧ t.printers[p].state = .notReady ∧ t.printers[p].inHand =
        (if q.serial = some serial ∧ q.state ≠ .busyPrinting then q.inHand else none) ∧
      t.printers[p].serial = some serial ∧ t.printers[p].condition = .unknown ∧ t.printers[p].frameTimer = true ∧ owesAccept t serial ∧
      t.printers[p].model = (if q.serial = some serial then q.model else some model) ∧
      (q.serial ≠ some serial → (t.link.flags[(Flag.printerLost p).entry]).pending = true ∧
        (t.link.flags[(Flag.printerFound p).entry]).pending = true)) ∧
    (∀ (condition : Byte) (c : Condition), (condition, c) ∈ [(0, .ready), (1, .paperOut), (2, .headOpen)] →
      present ∨ (q.state = .waiting ∧ q.serial.isSome = true) → ∃ t : State, exec (.printerState p condition) s = .next t ∧ kept t ∧
        t.printers[p].condition = c ∧ t.printers[p].frameTimer = true ∧
        (c ≠ .ready → t.printers[p].state = .notReady) ∧
        (c = .ready → q.state = .busyPrinting → t.printers[p] = { q with condition := .ready, frameTimer := true }) ∧
        (c = .ready → q.state ≠ .busyPrinting →
          (t.printers[p].state = .ready ∧ t.printers[p].inHand = q.inHand) ∨
          (t.printers[p].state = .busyPrinting ∧ t.printers[p].phase = some .starting ∧
            ∃ j ∈ s.labels.queue, j.state = .queued ∧ t.printers[p].inHand = some j.number)) ∧
        (c = .paperOut → q.condition ≠ .paperOut → (t.link.flags[(Flag.paperOut p).entry]).pending = true) ∧
        (c = .headOpen → q.condition ≠ .headOpen → (t.link.flags[(Flag.headOpen p).entry]).pending = true)) ∧
    (q.state = .busyPrinting → exec (.printerState p 0) s = .next (after (conditioned .ready none taken))) ∧
    (∀ (condition : Byte) (c : Condition), (condition, c) ∈ [(0, .ready), (1, .paperOut), (2, .headOpen)] →
      q.state = .ready ∨ q.state = .notReady ∨ (q.state = .waiting ∧ q.serial.isSome = true) →
      exec (.printerState p condition) s = .next (after (conditioned c none { taken with
        printers := modAt taken.printers p fun q => { q with state := if c = .ready then .ready else .notReady } }))) ∧
    (∀ (job : BitVec 16) (j : Job), present → q.inHand = some job.toNat → q.phase = some .awaitingDone →
      s.labels.job job.toNat = some j →
      exec (.printerDone p job) s = .next (after (State.endJob { s with
        printers := modAt s.printers p fun q =>
          { q with frameTimer := true, state := if q.condition = .ready then .ready else .notReady, inHand := none, phase := none,
                   doneTimer := false, toSend := [] } } j .done))) ∧
    (∀ (job : BitVec 16), present → ¬(q.inHand = some job.toNat ∧ q.phase = some .awaitingDone) →
      exec (.printerDone p job) s = .next (after taken)) ∧
    (∀ (job : BitVec 16) (cause : Byte), 1 ≤ cause.toNat → cause.toNat ≤ 4 → q.state = .busyPrinting → q.inHand = some job.toNat →
      ∃ t : State, exec (.printerFault p job cause) s = .next t ∧ kept t ∧ t.printers[p].state = .notReady ∧ t.printers[p].inHand = none ∧
        t.printers[p].phase = none ∧ t.printers[p].doneTimer = false ∧ t.printers[p].frameTimer = true ∧
        t.printers[p].condition = (if cause = 1 then .paperOut else if cause = 2 then .headOpen else .unknown)) ∧
    (∀ (job : BitVec 16) (cause : Byte), 1 ≤ cause.toNat → cause.toNat ≤ 4 → present →
      ¬(q.state = .busyPrinting ∧ q.inHand = some job.toNat) →
      exec (.printerFault p job cause) s = .next (after taken)) ∧
    (present → q.frameTimer = true → ∃ t : State, exec (.printerFrameTimeout p) s = .next t ∧ kept t ∧ t.printers[p].state = .lost ∧
      t.printers[p].inHand = none ∧ t.printers[p].serial = q.serial ∧ t.printers[p].condition = .unknown ∧
      t.printers[p].frameTimer = false ∧ (t.link.flags[(Flag.printerLost p).entry]).pending = true) ∧
    (q.phase = some .awaitingDone → q.doneTimer = true → ∃ t : State, exec (.doneTimeout p) s = .next t ∧ kept t ∧
      t.printers[p].state = .notReady ∧ t.printers[p].inHand = none ∧ t.printers[p].phase = none ∧
      t.printers[p].condition = .unknown) ∧
    (∀ f : PrinterFrame, q.sending = some f → exec (.printerFrameEnd p) s = .next (State.finish { s with
      printers := modAt s.printers p fun q => PrinterPort.pump p
        (if q.phase = some .sending ∧ q.toSend = [] ∧ (∃ n, q.inHand = some n ∧ f = .labelEnd n)
          then { q with sending := none, phase := some .awaitingDone, doneTimer := true } else { q with sending := none }) } s)) ∧
    (∀ j : Job, j.failedBody = u2 j.number ++ u1 (match j.cls with | .summary => 0 | .item => 1 | .prepack => 2) ++
      (match j.link with
       | .item serial line => u4 serial ++ u1 line
       | .summary serial => u4 serial ++ u1 0
       | .prepack serial => u4 serial ++ u1 0)) ∧
    ∀ (j : Job) (counted : Bool),
      s.returnJob p j counted =
        (if counted ∧ 3 ≤ j.attempts then (s.endJob j .failed).raise (.jobFailed p) j.failedBody
         else { s with labels := { s.labels with queue := s.labels.queue.map fun x =>
           if x.number = j.number then { x with state := .queued, attempts := if counted then x.attempts else x.attempts - 1 }
           else x } })

/-! ## Prepack runs -/

/-- R135 to R142: START_RUN is refused by its seven checks in their order, or starts a run in its record and selects its version; ABORT_RUN
ends an ACTIVE run, CLEAR_RUN and CLEAR release one in DONE_HELD. A run triggers when it is ACTIVE with a STABLE load of 20 lower divisions,
armed, priceable, and with a clock when its version has a shelf life: room in the label queue gives a label with the content of R117 (its
tare, markdown, step and generation are the model's record of R76), none shows LABELS_FULL, and when one of these fails nothing is labelled.
The job takes the next job number, which the run records at the end of its list (R119; the list is the model's, log 59). The last label ends
the run with COUNT in the same step. A run that ends hands its commit over when it issued labels, and waits in ENDING without room, until an
offer finds room. An examination of every run (at SET_CLOCK and when a job has left the label queue) takes the runs one after another, those
whose conditions hold first: each of them triggers or waits for room, no other waits; the offer to every run in ENDING goes on while the
commit queue has room. The order among them is open (log 13). A channel number outside 1 to 8 is BAD_ARGUMENT to ABORT_RUN and CLEAR_RUN.
The model's choices: the examination in the step of START_RUN (log 24), the new tare in the last weighing at once (log 48), and LABELS_FULL
shown at every examination without room (log 26). -/
def Obligations.PrepackRunsStartTriggerAndEnd : Prop :=
  (∀ (s : State) (st : Station) (plu count serial : Nat) (notify : Bool) (v : PluVersion), 1 ≤ plu → plu ≤ 9999 → 1 ≤ count →
    count ≤ 999 → s.runs[st].state = .idle → s.ports[st].state = .present → s.clerkBusy st = false →
    s.price.lookup s.channels[st].pinned plu = some v → v.mode ≠ .byCount → s.store.state = .verified →
    s.store.nextSerial = some serial → serial ≤ s.store.highMark →
    Executing s 0x48 (u1 (st.val + 1) ++ u2 plu ++ u2 count ++ [if notify then 1 else 0]) →
    exec .startRun s = .next (answered s (State.decided { s with
      store := s.store.draw,
      runs := modAt s.runs st fun _ =>
        { state := .active, serial := some serial, version := some v, ordered := count, remaining := count, issued := 0,
          weightSum := 0, valueSum := 0, printed := 0, failed := 0, cancelled := 0, notify := notify, waitingRoom := false,
          endReason := none, startedAt := s.link.clock, endedAt := none, jobs := [] },
      channels := modAt s.channels st fun c => Channel.reprice (Channel.retare
        { c with selection := some { version := v, presetTare := v.presetTare, count := none }, returnClear := false }) } st)
      (0 :: u4 serial))) ∧
  (∀ (s : State) (channel plu count notify : Nat), channel < 256 → plu < 65536 → count < 65536 → notify < 256 →
    Executing s 0x48 (u1 channel ++ u2 plu ++ u2 count ++ u1 notify) →
    let refused := fun status : Byte => exec .startRun s = .next (answered s s [status])
    ((channel < 1 ∨ 8 < channel ∨ plu < 1 ∨ 9999 < plu ∨ count < 1 ∨ 999 < count ∨ 1 < notify) → refused 3) ∧
    ∀ st : Station, channel = st.val + 1 → 1 ≤ plu → plu ≤ 9999 → 1 ≤ count → count ≤ 999 → notify ≤ 1 →
      let serving := ∃ c b, s.service.clerkAt st = some c ∧ s.current c = some b ∧ b.lines ≠ []
      (s.runs[st].state ≠ .idle → refused 7) ∧
      (s.runs[st].state = .idle →
        (s.ports[st].state ≠ .present → refused 7) ∧
        (s.ports[st].state = .present →
          (serving → refused 7) ∧
          (¬serving →
            (s.price.lookup s.channels[st].pinned plu = none → refused 5) ∧
            ∀ v, s.price.lookup s.channels[st].pinned plu = some v →
              (v.mode = .byCount → refused 3) ∧
              (v.mode ≠ .byCount → (s.store.state ≠ .verified ∨ ∀ n, s.store.nextSerial = some n → s.store.highMark < n) →
                refused 14))))) ∧
  (∀ (s : State) (st : Station), Executing s 0x49 [BitVec.ofNat 8 (st.val + 1)] →
    (s.runs[st].state = .active →
      exec .abortRun s = .next (answered s (s.endRun st .aborted) (0 :: u2 s.runs[st].issued))) ∧
    (s.runs[st].state ≠ .active → exec .abortRun s = .next (answered s s [7]))) ∧
  (∀ (s : State) (n : Byte), n = 0 ∨ 8 < n.toNat →
    (Executing s 0x49 [n] → exec .abortRun s = .next (answered s s [3])) ∧
    (Executing s 0x4A [n] → exec .clearRun s = .next (answered s s [3]))) ∧
  (∀ (s : State) (st : Station), Executing s 0x4A [BitVec.ofNat 8 (st.val + 1)] →
    (s.runs[st].state = .doneHeld → exec .clearRun s = .next (answered s { s with
      runs := modAt s.runs st fun r => { r with state := .idle } } [0])) ∧
    (s.runs[st].state ≠ .doneHeld → exec .clearRun s = .next (answered s s [7]))) ∧
  (∀ (s : State) (st : Station), KeyTaken s st → s.runs[st].state = .doneHeld → ∃ t : State, exec (.clear st) s = .next t ∧
    t.runs = modAt s.runs st (fun r => { r with state := .idle }) ∧ t.channels[st].selection = none ∧ t.totals = s.totals) ∧
  (∀ (s : State) (st : Station) (v : PluVersion) (w : Weighing) (price : Nat), s.runs[st].state = .active →
    s.runs[st].version = some v → s.channels[st].outcome = .priced price → s.channels[st].state = .stable →
    s.channels[st].last = some w → ((200 * s.channels[st].e1 : Nat) : Int) ≤ w.net → s.channels[st].armed = true →
    (v.shelfLife = none ∨ s.link.clock ≠ none) →
    (s.labels.queue.length < 32 → ∃ j ∈ (s.examine st).labels.queue, j.number = s.labels.nextJob ∧ j.cls = .prepack ∧
      j.preferred = s.channels[st].config.boundPrinter ∧ j.fallback = s.channels[st].config.fallback ∧
      j.link = .prepack (s.runs[st].serial.getD 0) ∧
      (let base := match v.mode with
        | .byWeight => basePriceByWeight w.weight.toNat v.unitPrice
        | .byCount => 0
        | .fixed => v.unitPrice
       j.content =
        { format := v.labelFormat, channel := st, clerk := (s.service.clerkAt st).map (·.number), ticket := none, serial := none,
          plu := some v.number, name := some v.name, generation := some v.generation,
          netGrams := if v.mode = .byWeight then some w.weight else none,
          tare := if v.mode = .byWeight then some s.channels[st].tareInForce else none, quantity := none,
          unitPrice := some v.unitPrice, markdown := some v.markdown, step := some v.step,
          markdownShown := some (decide (0 < markdownAmount base v.markdown)), price := price, lineCount := none,
          packed := s.link.clock.map DateTime.date,
          useBy := match v.shelfLife, s.link.clock with | some n, some d => some (d.date.addDays n) | _, _ => none,
          extraText := v.extraText, code := itemCode v.number price })) ∧
    (32 ≤ s.labels.queue.length → (s.examine st).runs[st] = { s.runs[st] with waitingRoom := true } ∧
      (s.examine st).ports[st].image.message = .labelsFull ∧ (s.examine st).labels = s.labels ∧
      (s.examine st).channels = s.channels) ∧
    (s.labels.queue.length < 32 → 1 < s.runs[st].remaining →
      (s.examine st).runs[st] = { s.runs[st] with
        remaining := s.runs[st].remaining - 1, issued := s.runs[st].issued + 1, valueSum := s.runs[st].valueSum + price,
        weightSum := if v.mode = .byWeight then s.runs[st].weightSum + 10 * w.weight else s.runs[st].weightSum,
        waitingRoom := false, jobs := s.runs[st].jobs ++ [s.labels.nextJob] } ∧
      (s.examine st).channels[st] = { s.channels[st] with armed := false } ∧
      (s.examine st).labels.queue.length = s.labels.queue.length + 1) ∧
    (s.labels.queue.length < 32 → s.runs[st].remaining = 1 →
      let t := s.examine st
      let run : Run := { s.runs[st] with
        remaining := 0, issued := s.runs[st].issued + 1, valueSum := s.runs[st].valueSum + price,
        weightSum := if v.mode = .byWeight then s.runs[st].weightSum + 10 * w.weight else s.runs[st].weightSum,
        waitingRoom := false, jobs := s.runs[st].jobs ++ [s.labels.nextJob], endReason := some .count,
        endedAt := s.link.clock }
      t.labels.queue.length = s.labels.queue.length + 1 ∧
      (s.totals.commits.length < 8 → s.totals.closing = none →
        t.runs[st] = { run with state := if run.notify then .doneHeld else .idle } ∧
        t.channels[st].selection = none ∧ t.channels[st].armed = false ∧
        (run.notify = false → (t.link.flags[(Flag.prepackDone st).entry]) = s.link.flags[(Flag.prepackDone st).entry]) ∧
        (run.notify = true → (t.link.flags[(Flag.prepackDone st).entry]).pending = true) ∧
        t.totals = { s.totals with commits := s.totals.commits ++
          [{ kind := .prepack, serial := run.serial.getD 0, clerk := none, channel := st, endedAt := s.link.clock,
             content := .pack v.number v.department v.mode run.issued run.weightSum run.valueSum, applyNumber := none }] }) ∧
      ((8 ≤ s.totals.commits.length ∨ s.totals.closing.isSome = true) →
        t.runs[st] = { run with state := .ending } ∧ t.channels[st] = { s.channels[st] with armed := false } ∧
        t.totals = s.totals))) ∧
  (∀ (s : State) (st : Station) (v : PluVersion), s.runs[st].state = .active → s.runs[st].version = some v →
    ((∀ price, s.channels[st].outcome ≠ .priced price) ∨ s.channels[st].state ≠ .stable ∨
      (∀ w, s.channels[st].last = some w → w.net < ((200 * s.channels[st].e1 : Nat) : Int)) ∨ s.channels[st].armed = false ∨
      (v.shelfLife.isSome = true ∧ s.link.clock = none)) →
    (s.examine st).runs[st] = { s.runs[st] with waitingRoom := false } ∧
    s.examine st = { s with ports := (s.examine st).ports, runs := (s.examine st).runs } ∧
    ∀ x : Station, x ≠ st → (s.examine st).ports[x] = s.ports[x] ∧ (s.examine st).runs[x] = s.runs[x]) ∧
  (∀ (s : State) (st : Station), s.runs[st].state ≠ .active → s.examine st = s) ∧
  (∀ (s : State) (st : Station), s.decided st = (s.refresh st).examine st) ∧
  (∀ s : State,
    let wants := fun st : Station => s.runs[st].state = .active ∧ s.channels[st].state = .stable ∧ s.channels[st].armed = true ∧
      (∃ w, s.channels[st].last = some w ∧ ((200 * s.channels[st].e1 : Nat) : Int) ≤ w.net) ∧
      (∃ price, s.channels[st].outcome = .priced price) ∧
      ∃ v, s.runs[st].version = some v ∧ (v.shelfLife = none ∨ s.link.clock ≠ none)
    let t := s.examineAll
    (∃ (order : List Station) (drawn : Nat), order.Perm stations ∧ order.Pairwise (fun x y => wants y → wants x) ∧ drawn ≤ 1 ∧
      t = order.foldl State.examine { s with freeCount := s.freeCount + drawn }) ∧
    ∀ st : Station,
      (s.runs[st].state ≠ .active → t.runs[st] = s.runs[st] ∧ t.channels[st] = s.channels[st]) ∧
      (s.runs[st].state = .active → ¬wants st →
        t.runs[st] = { s.runs[st] with waitingRoom := false } ∧ t.channels[st] = s.channels[st]) ∧
      (wants st →
        (t.runs[st].issued = s.runs[st].issued + 1 ∧ t.channels[st].armed = false) ∨
        (t.runs[st] = { s.runs[st] with waitingRoom := true } ∧ t.channels[st] = s.channels[st] ∧
          t.ports[st].image.message = .labelsFull ∧ 32 ≤ t.labels.queue.length))) ∧
  (∀ s old : State, s.afterDepartures old = if s.labels.queue.length < old.labels.queue.length then s.examineAll else s) ∧
  (∀ s : State,
    let t := s.offerAll
    (∃ (order : List Station) (drawn : Nat), order.Perm (stations.filter fun st => s.runs[st].state == .ending) ∧ drawn ≤ 1 ∧
      t = order.foldl State.offer { s with freeCount := s.freeCount + drawn }) ∧
    ∀ st : Station,
      (s.runs[st].state ≠ .ending → t.runs[st] = s.runs[st]) ∧
      (s.runs[st].state = .ending →
        t.runs[st] = { s.runs[st] with state := if s.runs[st].notify then .doneHeld else .idle } ∨
        (t.runs[st] = s.runs[st] ∧ (8 ≤ t.totals.commits.length ∨ t.totals.closing.isSome = true)))) ∧
  (∀ (s : State) (st : Station) (v : PluVersion), s.runs[st].state = .ending → s.runs[st].version = some v →
    let r := s.runs[st]
    let t := s.offer st
    ((8 ≤ s.totals.commits.length ∨ s.totals.closing.isSome = true) → t = s) ∧
    (s.totals.commits.length < 8 → s.totals.closing = none →
      t.runs[st] = { r with state := if r.notify then .doneHeld else .idle } ∧ t.channels[st].selection = none ∧
      ((r.endReason = some .count ∧ r.notify = false) ∨ (t.link.flags[(Flag.prepackDone st).entry]).pending = true) ∧
      t.totals = { s.totals with commits := s.totals.commits ++
        [{ kind := .prepack, serial := r.serial.getD 0, clerk := none, channel := st, endedAt := r.endedAt,
           content := .pack v.number v.department v.mode r.issued r.weightSum r.valueSum, applyNumber := none }] })) ∧
  ∀ (s : State) (st : Station) (reason : EndReason), s.runs[st].state = .active →
    let r := s.runs[st]
    let t := s.endRun st reason
    let commit : Commit :=
      { kind := .prepack, serial := r.serial.getD 0, clerk := none, channel := st, endedAt := s.link.clock,
        content :=
          match r.version with
          | some v => .pack v.number v.department v.mode r.issued r.weightSum r.valueSum
          | none => .pack 0 0 .byWeight r.issued r.weightSum r.valueSum,
        applyNumber := none }
    let complete := t.runs[st] = { r with
        state := if r.notify then .doneHeld else .idle, endReason := some reason, endedAt := s.link.clock, waitingRoom := false } ∧
      t.channels[st].selection = none ∧
      ((reason = .count ∧ r.notify = false → (t.link.flags[(Flag.prepackDone st).entry]) = s.link.flags[(Flag.prepackDone st).entry]) ∧
       (¬(reason = .count ∧ r.notify = false) → (t.link.flags[(Flag.prepackDone st).entry]).pending = true))
    (r.issued = 0 → complete ∧ t.totals = s.totals) ∧
    (r.issued ≠ 0 → s.totals.commits.length < 8 → s.totals.closing = none →
      complete ∧ t.totals = { s.totals with commits := s.totals.commits ++ [commit] }) ∧
    (r.issued ≠ 0 → (8 ≤ s.totals.commits.length ∨ s.totals.closing.isSome = true) →
      t.runs[st] = { r with state := .ending, endReason := some reason, endedAt := s.link.clock, waitingRoom := false } ∧
      t.totals = s.totals ∧ t.channels[st] = s.channels[st])

/-! ## The counter store and the totals -/

/-- R159 to R163, R150, R153, R155, R165 to R169. The start-up verify, stage by stage: a FRAM that does not answer, or a stage that finds
both copies of a value uncorrectable, puts the store in STORE_FAULT; otherwise the FRAM, the log image and the flags are as the stage's pass
left them and the next stage begins; stage 3 hands the calibration records over, the replay acts on the journal by its kind, and after the
last stage the store is VERIFIED. Then, with the port free, the operation of the highest rank begins: a raise, a calibration write, a read
or log write, the head commit with its apply number, deltas and slots, the accepted close with the summary read, or the accepted clear.
With an operation in flight, in STORE_FAULT, with an operation of a
higher rank waiting, or with none of its own, the beginning of an operation does not happen and the state stays as it is (log 3).
READ_LAST_PERIOD of a VERIFIED store waits for its read. The model's choices in it: a commit, a close and a clear in this order, should
they wait together, which R159 says they never do; what one command ends (log 32), the answering pin (log
10), the order and reading of journal words, with every later word of the journal read once one is uncorrectable (log 14, log 15), headers
and records with a byte out of its range (log 69, log 70), a log record that cannot be read (log 18), two grand total copies that differ in
the saturated flag alone (log 62), the last completed commit's number after a replay (log 60), the volatile counters (log 33), STORE_READY's
body (log 30), NOT_FOUND after the read (log 29), dropped accesses (log 36), apply numbers past 32 bits (log 12), the order of write-backs,
log writes and rewrites: a record's write-backs, then its log writes, and the rewrite of a copy after both copies' reads, the log record
loaded or rewritten before its own errors are captured (log 73), and the outcome decided at once when a missing or damaged record takes a
channel into CAL_FAULT (log 57). -/
def Obligations.StoreVerifiesThenBeginsInRankOrder : Prop :=
  (∀ (s : State) (stage : VerifyStage) (d : VerifyData), s.powered = true → s.store.op = some (.verify stage d) →
    let x := verifyPass stage d s.pass
    let t := afterPass s x.1
    let done := fun (u : State) => exec .verifyStageComplete s = .next (State.finish u s)
    let goOn := fun (u : State) (next : VerifyStage) => done (onPortOf u (some (.verify next x.2)))
    s.opPass = x.1 ∧
    (stage = .presence → (s.store.framAnswers = false → done s.storeFault) ∧
      (s.store.framAnswers = true → done (onPortOf s (some (.verify .log d))))) ∧
    (stage ≠ .presence → x.1.failed = true → done t.storeFault) ∧
    (x.1.failed = false →
      (stage = .log → x = (s.pass.loadLog, d) ∧ goOn t .legal) ∧
      (stage = .legal →
        x = (s.pass.readLegal.1,
          { d with highMark := s.pass.readLegal.2.mark.getD 0, grand := s.pass.readLegal.2.grand.getD .zero }) ∧
        goOn (t.takeLegal s.pass.readLegal.2) .accumulators) ∧
      (stage = .accumulators →
        let y := s.pass.readAccs [] 0 (List.range 1082)
        x = (y.1, { d with accs := y.2.1, highest := y.2.2 }) ∧ goOn t .journal) ∧
      (stage = .journal →
        let y := s.pass.readJournal .startupScan
        x = ((y.1.readLastPeriod .startupScan).1, { d with journal := y.2 }) ∧ goOn t .replay) ∧
      (stage = .replay → x = replay s.pass d ∧ goOn t .serials) ∧
      (stage = .serials →
        let mark := min (d.highMark + 64) 4294967295
        let u := State.raise { t with
          totals := { s.totals with
            images := some { accs := d.accs, grand := d.grand }, journalApply := d.applyNumber, lastCompleted := d.applyNumber },
          store := { t.store with
            state := .verified, op := none, nextSerial := some (d.highMark + 1), highMark := mark } } .storeReady (u1 d.replayed)
        x = ((s.pass.write 40 1 (u4 mark)).write 41 1 (u4 mark), d) ∧
        done (match d.closedZ with | none => u | some z => u.raise .periodClosed (u4 z))))) ∧
  (∀ (p : Pass),
    (let one := p.readWords 10824 2
     (recordBytes one.2.words = none → p.loadLog =
       one.2.errors.foldl (Pass.capture .startupScan) (Pass.write { one.1 with log := .reset } 10824 2 MemLog.reset.bytes)) ∧
     (∀ bs, recordBytes one.2.words = some bs →
       p.loadLog = one.2.errors.foldl (Pass.capture .startupScan) { one.1 with log := parseLog bs })) ∧
    (∀ (r : Requester) (a : AccId) (plu : Option Nat),
      let one := p.read r a.word (a.bodyWords + 1)
      (one.2 = none → p.readAcc r a plu =
        (one.1.writeAcc a { a.zero with damaged := true, plu := plu }, { a.zero with damaged := true, plu := plu })) ∧
      ∀ bs, one.2 = some bs → p.readAcc r a plu = (one.1, parseAcc a bs)) ∧
    (∀ (accs : List (Nat × Acc)) (n i : Nat) (rest : List Nat), p.readAccs accs n [] = (p, accs, n) ∧
      let one := p.readAcc .startupScan (accAt i) none
      p.readAccs accs n (i :: rest) = one.1.readAccs (setAcc accs (accAt i) one.2) (max n one.2.lastApplied) rest) ∧
    (∀ (α : Type) [DecidableEq α] (r : Requester) (w n : Nat) (parse : List Byte → α) (bytes : α → List Byte) (larger : α → α → α),
      let one := p.read r w n
      let two := one.1.read r (w + n) n
      let pair := p.readPair r w n parse bytes larger
      (one.2 = none → two.2 = none → pair = ({ two.1 with failed := true }, none)) ∧
      (∀ bs, one.2 = some bs → two.2 = none → pair = (two.1.write (w + n) n (bytes (parse bs)), some (parse bs))) ∧
      (∀ bs, one.2 = none → two.2 = some bs → pair = (two.1.write w n (bytes (parse bs)), some (parse bs))) ∧
      ∀ as bs, one.2 = some as → two.2 = some bs →
        let v := larger (parse as) (parse bs)
        let p1 := if parse as = v then two.1 else two.1.write w n (bytes v)
        pair = (if parse bs = v then p1 else p1.write (w + n) n (bytes v), some v)) ∧
    (∀ (fuel w : Nat) (bs : List Byte),
      let next := fun (q : Pass) (w : Nat) => q.read .startupScan w 1
      let entry := Pass.readEntry next (fuel + 1) p w bs
      (journalNeed bs ≤ bs.length → entry = (p, some bs)) ∧
      (bs.length < journalNeed bs →
        ((next p w).2 = none → entry = ((List.range fuel).foldl (fun q i => (next q (w + 1 + i)).1) (next p w).1, none)) ∧
        ∀ more, (next p w).2 = some more → entry = Pass.readEntry next fuel (next p w).1 (w + 1) (bs ++ more))) ∧
    (let entry := Pass.readEntry (fun q w => q.read .startupScan w 1) 1024 p 256 []
     p.readJournal .startupScan = (entry.1, (entry.2.map parseJournal).getD .uncorrectable)) ∧
    (∀ (r : Requester) (st : Station),
      let one := p.read r (3 * st.val) 3
      (one.2 = none → p.readCal r st = (one.1, .damaged)) ∧
      (∀ c rest, one.2 = some (c.stored ++ rest) → c.valid = true → p.readCal r st = (one.1, .valid c)) ∧
      ∀ bs, one.2 = some bs → (∀ c : CalRecord, c.valid = true → c.stored ≠ bs.take 17) → p.readCal r st = (one.1, .missing)) ∧
    (∀ (st : Station) (rest : List Station),
      let cal := p.readCal .startupScan st
      let counter := p.readPair .startupScan (24 + 2 * st.val) 1 parseCount u4 max
      p.readCals [] = (p, []) ∧ p.readCounters [] = (p, []) ∧
      p.readCals (st :: rest) = ((cal.1.readCals rest).1, cal.2 :: (cal.1.readCals rest).2) ∧
      p.readCounters (st :: rest) = (if counter.1.failed then (counter.1, [counter.2])
        else ((counter.1.readCounters rest).1, counter.2 :: (counter.1.readCounters rest).2))) ∧
    let cals := p.readCals stations
    let counters := cals.1.readCounters stations
    let mark := counters.1.readPair .startupScan 40 1 parseCount u4 max
    let grand := mark.1.readPair .startupScan 42 2 parseGrand Grand.bytes largerGrand
    p.readLegal =
      if counters.1.failed then (counters.1, { cals := cals.2, counters := counters.2, mark := none, grand := none })
      else if mark.1.failed then (mark.1, { cals := cals.2, counters := counters.2, mark := mark.2, grand := none })
      else (grand.1, { cals := cals.2, counters := counters.2, mark := mark.2, grand := grand.2 })) ∧
  (∀ a b : Grand, largerGrand a b = if a.z < b.z ∨ (a.z = b.z ∧ a.value < b.value) then b else a) ∧
  (∀ (u : State) (l : Legal), l.cals.length = 8 →
    let t := u.takeLegal l
    t.store = { u.store with eventCounters := t.store.eventCounters } ∧ CounterKept u t ∧
    ∀ st : Station, t.store.eventCounters[st] = (l.counters.getD st.val none).getD 0 ∧
      (∀ r, l.cals[st.val]? = some (.valid r) →
        t.channels[st] = { u.channels[st] with calStatus := .valid, cal := some r }) ∧
      (l.cals[st.val]? = some .missing ∨ l.cals[st.val]? = some .damaged →
        CalFaultEntered u t st)) ∧
  (∀ (p : Pass) (d : VerifyData),
    (d.journal = .nothing → replay p d = (p, { d with applyNumber := 0 })) ∧
    (∀ n, d.journal = .done n → replay p d = (p, { d with applyNumber := n })) ∧
    (∀ j, d.journal = .commit j →
      let x := j.entries.foldl (replayEntry j.applyNumber) (p, d.accs)
      replay p d = (x.1.doneJournal j.kind.journal j.applyNumber j.content,
        { d with accs := x.2, replayed := j.kind.journal, applyNumber := j.applyNumber })) ∧
    (∀ (n : Nat) (accs : List (Nat × Acc)) (e : DeltaEntry),
      let image := accOf accs e.acc
      let new := Acc.addDelta e.acc { image with figures := e.before } e.plu e.delta n
      (n ≤ image.lastApplied → replayEntry n (p, accs) e = (p, accs)) ∧
      (image.lastApplied < n → replayEntry n (p, accs) e = (p.writeAcc e.acc new, setAcc accs e.acc new))) ∧
    (∀ j, d.journal = .close j →
      let sum := j.beforeValue + j.period.figures.getD 2 0
      let grand : Grand := if d.grand.z < j.period.z then
        { value := min sum 281474976710655, z := j.period.z, saturated := d.grand.saturated || decide (281474976710655 < sum) }
        else d.grand
      let p1 := p.write 10816 8 j.period.bytes
      let p2 := if d.grand.z < j.period.z then (p1.write 42 2 grand.bytes).write 44 2 grand.bytes else p1
      replay p d = (p2.zeroAll.doneJournal 4 j.applyNumber j.content,
        { d with accs := [], grand := grand, replayed := 4, closedZ := some j.period.z, applyNumber := j.applyNumber })) ∧
    (d.journal = .clear → replay p d = (p.clearRest, { d with accs := [], replayed := 5, applyNumber := 0 })) ∧
    (d.journal = .uncorrectable →
      replay p d = (p.doneJournal 6 d.highest [], { d with replayed := 6, applyNumber := d.highest }))) ∧
  ∀ s : State, s.powered = true →
    (Executing s 0x51 [] →
      (s.store.state ≠ .verified → exec .readLastPeriod s = .next (answered s s [14])) ∧
      (s.store.state = .verified → exec .readLastPeriod s = .next (State.finish { s with
        store := { s.store with waiting := s.store.waiting ++ [.readLastPeriod] },
        link := { s.link with executing := some { kind := 0x51, payload := [], waiting := true } } } s))) ∧
    (s.store.op ≠ none ∨ s.store.state = .storeFault → ∀ c ∈ [Instr.highMarkRaiseBegin, .calibrationWriteBegin,
        .calibrationReadBegin, .lastPeriodReadBegin, .memoryLogWriteBegin, .commitApplyBegin, .periodCloseBegin, .clearOperationBegin],
      exec c s = .next s) ∧
    (let second := s.store.raiseWaiting = true
     let third := second ∨ s.store.calWrites ≠ []
     let fourth := third ∨ s.store.waiting ≠ []
     (s.store.raiseWaiting = false → exec .highMarkRaiseBegin s = .next s) ∧
     (second ∨ s.store.calWrites = [] → exec .calibrationWriteBegin s = .next s) ∧
     (third ∨ (∀ st, s.store.waiting.head? ≠ some (.readCalibration st)) → exec .calibrationReadBegin s = .next s) ∧
     (third ∨ s.store.waiting.head? ≠ some .readLastPeriod → exec .lastPeriodReadBegin s = .next s) ∧
     (third ∨ s.store.waiting.head? ≠ some .writeLog → exec .memoryLogWriteBegin s = .next s) ∧
     (fourth ∨ s.totals.commits = [] → exec .commitApplyBegin s = .next s) ∧
     (fourth ∨ s.totals.commits ≠ [] ∨ s.totals.closing = none → exec .periodCloseBegin s = .next s) ∧
     (fourth ∨ s.totals.commits ≠ [] ∨ s.totals.closing ≠ none ∨ s.store.clearAccepted = false →
       exec .clearOperationBegin s = .next s)) ∧
    (s.store.op = none → s.store.state ≠ .storeFault →
      let begun := fun (t : State) => State.finish (if s.store.framAnswers then t else s.storeFault) s
      (s.store.raiseWaiting = true → exec .highMarkRaiseBegin s = .next (begun { s with
        store := { s.store with raiseWaiting := false, op := some .raiseMark } })) ∧
      (s.store.raiseWaiting = false →
        (∀ w ws, s.store.calWrites = w :: ws → exec .calibrationWriteBegin s = .next (begun { s with
          store := { s.store with calWrites := ws, op := some (.calWrite w) } })) ∧
        (s.store.calWrites = [] →
          (∀ st rest, s.store.waiting = .readCalibration st :: rest → exec .calibrationReadBegin s = .next (begun { s with
            store := { s.store with waiting := rest, op := some (.readCalibration st) } })) ∧
          (∀ rest, s.store.waiting = .readLastPeriod :: rest → exec .lastPeriodReadBegin s = .next (begun { s with
            store := { s.store with waiting := rest, op := some .readLastPeriod } })) ∧
          (∀ rest, s.store.waiting = .writeLog :: rest → exec .memoryLogWriteBegin s = .next (begun { s with
            store := { s.store with waiting := rest, op := some .writeLog } })) ∧
          (s.store.waiting = [] →
            (∀ c cs, s.totals.commits = c :: cs →
              let formed := c.form s.totals.accs
              ∃ n : Nat, (s.totals.journalApply < 4294967295 → n = s.totals.journalApply + 1) ∧
              exec .commitApplyBegin s = .next (begun { s with
                totals := { s.totals with commits := { c with applyNumber := some n } :: cs },
                store := { s.store with op := some (.commit
                  { kind := c.kind, applyNumber := n, serial := c.serial, entries := formed.entries } .journal []) },
                link := { s.link with
                  flags := raisedFlags s.link.flags (formed.others.map fun plu => (Flag.otherUsed, u2 plu)) } })) ∧
            (s.totals.commits = [] →
              (∀ z, s.totals.closing = some z →
                let x := s.pass.readAcc .periodClose .summary none
                exec .periodCloseBegin s = .next (begun (onPortOf (afterPass s x.1) (some (.close
                  { applyNumber := s.totals.journalApply,
                    period := { z := z, closedAt := s.link.clock, figures := x.2.figures, saturated := x.2.saturated,
                                damaged := x.2.damaged },
                    beforeValue := s.totals.grand.value, beforeZ := s.totals.grand.z } .journal s.totals.grand))))) ∧
              (s.totals.closing = none → s.store.clearAccepted = true → exec .clearOperationBegin s = .next (begun { s with
                store := { s.store with op := some .clear } })))))))

/-- R150, R153, R155, R158, R162 to R169: the write or read in progress completes: what it wrote is said, the FRAM, the log image and the
flags are as its pass left them, and what the operation was for takes effect: a commit goes on with the next touched accumulator, its images
change and it leaves the queue at the end; a close writes the last-period record, the grand total, the zeroes and the DONE mark; a clear
makes the store VERIFIED; a read is answered. When the FRAM does not answer with an operation in flight, the operation is abandoned, its
write in progress cut short at a word the model leaves free with every byte outside its words kept, every word but the one cut whole, as
before or as written, and of a calibration write the old record (log 56), the store is in STORE_FAULT and every calibration status is FAULT,
in CAL_FAULT where a head is PRESENT (`CalFaultEntered` says what R19 takes and keeps); a request that waited for a read is answered
STORE_NOT_READY; the commits that wait stay. With none in flight only later status reads go unanswered. The model's choices in it: what one
command completes (log 32), the answering pin (log 10), the order of a journal entry's words (log 14, log 15), the forms of the two replies
(log 22, log 29), STORE_READY's body (log 30), the volatile counters (log 33), the last completed commit after a clear (log 55), the apply
number of a CLEAR entry (log 61), grand total copies that differ in the saturated flag alone (log 62), the outcome decided at once when a
fault enters CAL_FAULT (log 57), dropped accesses (log 36), the order of write-backs, log writes and rewrites inside one operation (log 73),
the order in which runs in ENDING are offered room (log 13). -/
def Obligations.StoreOperationsCompleteOrFault : Prop :=
  (∀ s : State, s.powered = true →
    let t := afterPass s s.opPass
    let done := fun (c : Instr) (u : State) => exec c s = .next (State.finish u s)
    (s.store.op = some .raiseMark →
      let mark := min (s.store.highMark + 64) 4294967295
      s.opPass = (s.pass.write 40 1 (u4 mark)).write 41 1 (u4 mark) ∧
      done .highMarkRaiseComplete { t with store := { t.store with op := none, highMark := mark } }) ∧
    (∀ w, s.store.op = some (.calWrite w) →
      s.opPass = ((s.pass.write (24 + 2 * w.channel.val) 1 (u4 w.counter)).write (25 + 2 * w.channel.val) 1 (u4 w.counter)).write
        (3 * w.channel.val) 3 w.record.stored ∧
      done .calibrationWriteComplete { t with store := { t.store with
        op := none, eventCounters := modAt s.store.eventCounters w.channel fun _ => w.counter } }) ∧
    (∀ st, s.store.op = some (.readCalibration st) →
      let x := readCalPass s.pass st
      s.opPass = x.1 ∧
      (x.1.failed = true → done .calibrationReadComplete (onPortOf t none).storeFault) ∧
      (x.1.failed = false →
        (∀ r, x.2.1 = .valid r → exec .calibrationReadComplete s = .next (answered s (onPortOf t none)
          (0 :: (0 :: r.stored ++ u4 x.2.2)))) ∧
        (x.2.1 = .missing → exec .calibrationReadComplete s = .next (answered s (onPortOf t none) (0 :: (1 :: u4 x.2.2)))) ∧
        (x.2.1 = .damaged → exec .calibrationReadComplete s =
          .next (answered s ((onPortOf t none).calFault st) (0 :: (2 :: u4 x.2.2)))))) ∧
    (s.store.op = some .readLastPeriod →
      let x := s.pass.readLastPeriod .totalsRead
      s.opPass = x.1 ∧
      exec .lastPeriodReadComplete s = .next (answered s (onPortOf t none) (if x.2.z = 0 then [5] else 0 :: x.2.bytes))) ∧
    (∀ j written, s.store.op = some (.commit j .journal written) →
      s.opPass = s.pass.writeJournal j.kind.journal j.applyNumber j.content ∧
      done .commitWriteComplete { t with
        totals := { s.totals with journalApply := j.applyNumber },
        store := { t.store with op := some (.commit j (if j.entries = [] then .done else .apply j.entries) written) } }) ∧
    (∀ j e rest written, s.store.op = some (.commit j (.apply (e :: rest)) written) →
      let x := s.pass.readAcc .commit e.acc e.plu
      let new := Acc.addDelta e.acc x.2 e.plu e.delta j.applyNumber
      let y := if x.2.lastApplied < j.applyNumber then (x.1.writeAcc e.acc new, new) else x
      s.opPass = y.1 ∧
      done .commitWriteComplete (onPortOf t
        (some (.commit j (if rest = [] then .done else .apply rest) (written ++ [(e.acc.index, y.2)]))))) ∧
    (∀ j phase written, s.store.op = some (.commit j phase written) → phase = .done ∨ phase = .apply [] →
      s.opPass = s.pass.doneJournal j.kind.journal j.applyNumber j.content ∧
      done .commitWriteComplete (State.offerAll { t with
        totals := { s.totals with
          images := s.totals.images.map fun i =>
            { i with accs := written.foldl (fun xs w => setAcc xs (accAt w.1) w.2) i.accs },
          commits := s.totals.commits.tail, lastCompleted := j.applyNumber },
        store := { t.store with op := none } })) ∧
    (∀ j phase grand, s.store.op = some (.close j phase grand) →
      let goOn := fun (next : ClosePhase) (g : Grand) => done .periodCloseWriteComplete (onPortOf t (some (.close j next g)))
      (phase = .journal → s.opPass = s.pass.writeJournal 4 j.applyNumber j.content ∧ goOn .lastPeriod grand) ∧
      (phase = .lastPeriod → s.opPass = s.pass.write 10816 8 j.period.bytes ∧ goOn .grand grand) ∧
      (phase = .grand →
        let x := s.pass.readPair .periodClose 42 2 parseGrand Grand.bytes largerGrand
        let sum := fun (g : Grand) => g.value + j.period.figures.getD 2 0
        (x.2 = none → s.opPass = x.1 ∧ done .periodCloseWriteComplete t.storeFault) ∧
        (∀ g, x.2 = some g → j.period.z ≤ g.z → s.opPass = x.1 ∧ goOn .zeroing g) ∧
        (∀ g, x.2 = some g → g.z < j.period.z →
          let new : Grand := { value := min (sum g) 281474976710655, z := j.period.z,
                               saturated := g.saturated || decide (281474976710655 < sum g) }
          s.opPass = (x.1.write 42 2 new.bytes).write 44 2 new.bytes ∧ goOn .zeroing new)) ∧
      (phase = .zeroing → s.opPass = s.pass.zeroAll ∧ goOn .done grand) ∧
      (phase = .done → s.opPass = s.pass.doneJournal 4 j.applyNumber j.content ∧
        done .periodCloseWriteComplete (State.offerAll (State.raise { t with
          totals := { s.totals with images := some { accs := [], grand := grand }, closing := none },
          store := { t.store with op := none } } .periodClosed (u4 j.period.z))))) ∧
    (s.store.op = some .clear →
      s.opPass = (s.pass.writeJournal 5 s.totals.journalApply []).clearRest ∧
      done .clearComplete (State.raise { t with
        totals := { s.totals with
          images := s.totals.images.map fun i => { i with accs := [] }, journalApply := 0, lastCompleted := 0 },
        store := { t.store with op := none, state := .verified, clearAccepted := false } } .storeReady [0]))) ∧
  (∀ (u : State) (st : Station), CalFaultEntered u (u.calFault st) st ∧ CounterKept u (u.calFault st) ∧
    (u.calFault st).store = u.store ∧
    ∀ x : Station, x ≠ st → (u.calFault st).channels[x] = u.channels[x] ∧ (u.calFault st).ports[x] = u.ports[x] ∧
      (u.calFault st).runs[x] = u.runs[x]) ∧
  (∀ u : State, CounterKept u u.storeFault ∧ (∀ st : Station, CalFaultEntered u u.storeFault st) ∧
    u.storeFault.store = { u.store with state := .storeFault, op := none, waiting := [] } ∧
    ∀ r, u.link.executing = some r → r.waiting = true → u.storeFault.link.replies = fillAnswer [14] false u.link.replies) ∧
  ∀ (s : State) (after : Bool), s.powered = true →
    (s.store.op = none → exec (.framNotAnswering after) s = .next (State.finish { s with
      store := { s.store with framAnswers := after } } s)) ∧
    (s.store.op.isSome = true → ∃ t : State, exec (.framNotAnswering after) s = .next t ∧ CounterKept s t ∧ t.store.state = .storeFault ∧
      t.store = { s.store with fram := t.store.fram, framAnswers := after, state := .storeFault, op := none, waiting := [] } ∧
      (Memory.wf s.store.fram → ∀ a : Nat, (∀ w v, (w, v) ∈ s.opPass.trace → a < 9 * w ∨ 9 * w + 9 ≤ a) →
        Memory.byte t.store.fram a = Memory.byte s.store.fram a) ∧
      (Memory.wf s.store.fram → ∀ w, s.store.op = some (.calWrite w) → ∀ a : Nat,
        a < 9 * (24 + 2 * w.channel.val) ∨ 9 * (26 + 2 * w.channel.val) ≤ a →
        Memory.byte t.store.fram a = Memory.byte s.store.fram a) ∧
      (Memory.wf s.store.fram → ∃ cut : Nat, ∀ w : Nat, w < 14563 → w ≠ cut →
        Memory.word t.store.fram w = Memory.word s.store.fram w ∨ (w, Memory.word t.store.fram w) ∈ s.opPass.trace) ∧
      t.totals.commits.take s.totals.commits.length = s.totals.commits ∧
      (∀ st : Station, CalFaultEntered s t st) ∧
      (∀ r, s.link.executing = some r → r.waiting = true → t.link.replies = fillAnswer [14] false s.link.replies))

/-- R144, R145: the limits of the figures, 32 bits for a count and for a quantity of pieces, 48 bits for a value and a weight; a delta
that would carry a figure past its limit leaves it at the limit and sets the saturated flag; the other figures take
their deltas in full; the figures of an accumulator stay as many as they are. R148, R149: what a commit adds, all its deltas together:
a basket's to the PLUs, departments and channels of its unvoided lines, to its clerk and to the summary; a cancelled basket's to its
clerk and the summary; a run's to its PLU, department and channel and the summary, in the order of R144's figures. R146: a PLU goes to
its slot, to the slot this commit took for it, or to the lowest-numbered unassigned slot; with none left to slot 0, "other", and its
number is among those OTHER_USED names. A commit's entries hold the image's figures and the delta, one for an accumulator, in the order
of the region (the model's choice: log 31). An image reads as it was last set. -/
def Obligations.FiguresSaturateAtTheirLimits : Prop :=
  (let small : Nat := 4294967295
   let large : Nat := 281474976710655
   (∀ n, (AccId.plu n).limits = [small, large, small, large, small, large, large]) ∧
   (∀ n, (AccId.department n).limits = [small, large]) ∧
   (∀ n, (AccId.clerk n).limits = [small, large, small, large, small, large]) ∧
   (∀ st, (AccId.channel st).limits = [small, large, small]) ∧
   AccId.summary.limits = [small, small, large, large, large, large]) ∧
  (∀ (a : AccId) (x : Acc) (plu : Option Nat) (delta : List Nat) (number : Nat), x.figures.length = a.limits.length →
    delta.length = a.limits.length →
    let y := Acc.addDelta a x plu delta number
    y.figures.length = a.limits.length ∧ y.lastApplied = number ∧ y.plu = plu ∧ y.damaged = x.damaged ∧
    (∀ i : Nat, i < a.limits.length →
      y.figures.getD i 0 = min (a.limits.getD i 0) (x.figures.getD i 0 + delta.getD i 0)) ∧
    (y.saturated = true ↔ x.saturated = true ∨ ∃ i : Nat, i < a.limits.length ∧
      a.limits.getD i 0 < x.figures.getD i 0 + delta.getD i 0)) ∧
  (∀ (c : Commit) (ls : List CommitLine), c.content = .lines ls →
    let sold := ls.filter fun l => !l.voided
    let void := ls.filter fun l => l.voided
    let value := fun xs : List CommitLine => (xs.map (·.price)).sum
    let weight := fun l : CommitLine => if l.mode = .byWeight then (l.netWeight.getD 0).toNat else 0
    let quantity := fun l : CommitLine => if l.mode = .byCount then l.quantity.getD 0 else 0
    (c.kind = .basket →
      (∀ n, let xs := sold.filter fun l => l.plu = n
        credited c.deltas (.plu n) 7 = [xs.length, (xs.map weight).sum, (xs.map quantity).sum, value xs, 0, 0, 0]) ∧
      (∀ d, let xs := sold.filter fun l => l.department = d
        credited c.deltas (.acc (.department d)) 2 = [xs.length, value xs]) ∧
      (∀ st, let xs := sold.filter fun l => l.channel = st
        credited c.deltas (.acc (.channel st)) 3 = [xs.length, value xs, 0]) ∧
      (∀ k, credited c.deltas (.acc (.clerk k)) 6 =
        if c.clerk = some k then [sold.length, value sold, void.length, value void, 0, 0] else [0, 0, 0, 0, 0, 0]) ∧
      credited c.deltas (.acc .summary) 6 = [1, sold.length, value sold, 0, value void, 0]) ∧
    (c.kind = .cancel →
      (∀ n, credited c.deltas (.plu n) 7 = [0, 0, 0, 0, 0, 0, 0]) ∧
      (∀ d, credited c.deltas (.acc (.department d)) 2 = [0, 0]) ∧
      (∀ st, credited c.deltas (.acc (.channel st)) 3 = [0, 0, 0]) ∧
      (∀ k, credited c.deltas (.acc (.clerk k)) 6 =
        if c.clerk = some k then [0, 0, void.length, value void, 1, value sold] else [0, 0, 0, 0, 0, 0]) ∧
      credited c.deltas (.acc .summary) 6 = [0, 0, 0, 0, value void, value sold])) ∧
  (∀ (c : Commit) (plu department : Nat) (mode : PluMode) (labels : Nat) (weight : Int) (value : Nat),
    c.content = .pack plu department mode labels weight value →
    (∀ n, credited c.deltas (.plu n) 7 = if n = plu then [0, 0, 0, 0, labels, weight.toNat, value] else [0, 0, 0, 0, 0, 0, 0]) ∧
    (∀ d, credited c.deltas (.acc (.department d)) 2 = if d = department then [labels, value] else [0, 0]) ∧
    (∀ st, credited c.deltas (.acc (.channel st)) 3 = if st = c.channel then [0, value, labels] else [0, 0, 0]) ∧
    (∀ k, credited c.deltas (.acc (.clerk k)) 6 = [0, 0, 0, 0, 0, 0]) ∧
    credited c.deltas (.acc .summary) 6 = [0, 0, value, value, 0, 0]) ∧
  (∀ (accs : List (Nat × Acc)) (f : Forming) (plu : Nat),
    let assigned := fun s : Nat => 1 ≤ s ∧ s ≤ 1024 ∧ ∃ x : Acc, (s, x) ∈ accs ∧ x.plu = some plu
    let free := fun s : Nat => 1 ≤ s ∧ s ≤ 1024 ∧ (accOf accs (.plu s)).plu = none ∧ ∀ x ∈ f.new, x.2 ≠ s
    (∀ s, assigned s → (∀ k, assigned k → k = s) → f.slot accs plu = (f, s)) ∧
    ((∀ s, ¬assigned s) →
      (∀ s, (plu, s) ∈ f.new → (∀ k, (plu, k) ∈ f.new → k = s) → f.slot accs plu = (f, s)) ∧
      ((∀ s, (plu, s) ∉ f.new) →
        (∀ s, free s → (∀ k, free k → s ≤ k) → f.slot accs plu = ({ f with new := f.new ++ [(plu, s)] }, s)) ∧
        ((∀ s, ¬free s) →
          f.slot accs plu = ({ f with others := if plu ∈ f.others then f.others else f.others ++ [plu] }, 0))))) ∧
  (∀ (accs : List (Nat × Acc)) (c : Commit) (f : Forming) (delta : List Nat),
    c.form accs = c.deltas.foldl (Forming.place accs) { new := [], others := [], entries := [] } ∧
    (∀ a, f.place accs (.acc a, delta) = { f with entries := addEntry accs a none delta f.entries }) ∧
    ∀ n, let g := f.slot accs n
      f.place accs (.plu n, delta) =
        { g.1 with entries := addEntry accs (.plu g.2) (if g.2 = 0 then none else some n) delta g.1.entries }) ∧
  (∀ (accs : List (Nat × Acc)) (a : AccId) (plu : Option Nat) (delta : List Nat) (es : List DeltaEntry),
    es.Pairwise (fun d e => d.acc.index ≤ e.acc.index ∧ d.acc ≠ e.acc) →
    let new := addEntry accs a plu delta es
    new.Pairwise (fun d e => d.acc.index ≤ e.acc.index ∧ d.acc ≠ e.acc) ∧
    (∀ e : DeltaEntry, e.acc ≠ a → (e ∈ new ↔ e ∈ es)) ∧
    ((∀ e ∈ es, e.acc ≠ a) → { acc := a, plu := plu, before := (accOf accs a).figures, delta := delta } ∈ new) ∧
    ∀ e ∈ es, e.acc = a → e.delta.length = delta.length → { e with delta := List.zipWith (· + ·) e.delta delta } ∈ new) ∧
  ∀ (accs : List (Nat × Acc)) (a b : AccId) (x : Acc), accOf (setAcc accs a x) a = x ∧
    (a.index ≠ b.index → accOf (setAcc accs a x) b = accOf accs b)

/-- R158: a stored word is read back as its data; one wrong bit of the 72 is corrected to the data, and two wrong bits are found
uncorrectable. R158, R161, R155, R164, R167, R162: words just written are read back with no error, and so is every record of the store whose
fields fit their bytes: an accumulator, the grand total, a count in two copies, a calibration record, the memory error log, the last-period
record, and the journal entry, a PENDING one of each kind with content as itself, a DONE one as its apply number. R168: a calibration record
is stored field by field, low bytes first, and with its record check, the sum of its bytes plus 0xA5A5, modulo 65,536; bytes of no valid
record with its check, a blank record's among them, are no record. The places of the bytes are the model's (logs 14 to 18, log 72). -/
def Obligations.CheckCodeCorrectsOneBitAndFindsTwo : Prop :=
  (∀ data : BitVec 64, judge (storedWord data) = .good data ∧
    (∀ i : Nat, i < 72 → ∃ syn, judge (storedWord data ^^^ BitVec.ofNat 72 (2 ^ i)) = .corrected data syn) ∧
    ∀ i j : Nat, i < j → j < 72 → ∃ syn,
      judge (storedWord data ^^^ BitVec.ofNat 72 (2 ^ i) ^^^ BitVec.ofNat 72 (2 ^ j)) = .uncorrectable syn) ∧
  (∀ c : CalRecord,
    let low := fun (n : Nat) (k : Nat) => BitVec.ofNat 8 (n / 256 ^ k)
    let zc := (c.zc % 4294967296).toNat
    let fields := [low zc 0, low zc 1, low zc 2, low zc 3, low c.span 0, low c.span 1, low c.span 2, low c.span 3, low c.max 0, low c.max 1,
      low c.rangeMode 0, low c.e1 0, low c.e2 0, low c.max1 0, low c.max1 1]
    let check := ((fields.map BitVec.toNat).sum + 0xA5A5) % 65536
    c.bytes = fields ∧ c.stored = fields ++ [low check 0, low check 1]) ∧
  (∀ (bs : List Byte) (c : CalRecord), 17 ≤ bs.length →
    (parseCal bs = some c ↔ c.valid = true ∧ ∃ rest, bs = c.stored ++ rest)) ∧
  parseCal (List.replicate 24 0) = none ∧
  ∀ (p : Pass) (r : Requester), Memory.wf p.fram →
    let figures := fun (a : AccId) (fs : List Nat) => fs.length = a.limits.length ∧ ∀ f ∈ fs, f < 2 ^ 64
    let fits := fun (l : LastPeriod) => l.z < 2 ^ 32 ∧ l.figures.length = 6 ∧ (∀ f ∈ l.figures, f < 2 ^ 64) ∧
      ∀ d, l.closedAt = some d → d.year < 65536 ∧ d.month < 256 ∧ d.day < 256 ∧ d.hour < 256 ∧ d.minute < 256 ∧ d.second < 256
    let entryFits := fun (kind number : Nat) (content : List Byte) =>
      number < 2 ^ 32 ∧ (journalHeader kind number false ++ content).length ≤ 8192
    let readBack := fun (q : Pass) (x : JournalRead) => q.readJournal r = (q, x)
    (∀ (w n : Nat) (bs : List Byte), w + n ≤ 14563 →
      (p.write w n bs).read r w n = (p.write w n bs, some ((bs ++ List.replicate (8 * n) 0).take (8 * n)))) ∧
    (∀ (a : AccId) (x : Acc) (plu : Option Nat), a ∈ (List.range 1082).map accAt → figures a x.figures → x.lastApplied < 2 ^ 32 →
      (∀ n, x.plu = some n → n < 65536 ∧ ∃ slot, a = .plu slot) →
      (p.writeAcc a x).readAcc r a plu = (p.writeAcc a x, x)) ∧
    (∀ g : Grand, g.value < 2 ^ 64 → g.z < 2 ^ 32 →
      let q := (p.write 42 2 g.bytes).write 44 2 g.bytes
      q.readPair r 42 2 parseGrand Grand.bytes largerGrand = (q, some g)) ∧
    (∀ w n : Nat, w + 2 ≤ 14563 → n < 2 ^ 32 →
      let q := (p.write w 1 (u4 n)).write (w + 1) 1 (u4 n)
      q.readPair r w 1 parseCount u4 max = (q, some n)) ∧
    (∀ (st : Station) (c : CalRecord), c.valid = true →
      (p.write (3 * st.val) 3 c.stored).readCal r st = (p.write (3 * st.val) 3 c.stored, .valid c)) ∧
    (∀ l : MemLog, (∀ n, l.address = some n → n < 65536) → (∀ n, l.lastAddress = some n → n < 65536) →
      (p.write 10824 2 l.bytes).loadLog = { p.write 10824 2 l.bytes with log := l }) ∧
    (∀ l : LastPeriod, fits l → (p.write 10816 8 l.bytes).readLastPeriod r = (p.write 10816 8 l.bytes, l)) ∧
    (∀ j : CommitJournal, entryFits j.kind.journal j.applyNumber j.content → j.serial < 2 ^ 32 → j.entries.length < 256 →
      (∀ e ∈ j.entries, e.acc ∈ (List.range 1082).map accAt ∧ (∀ n, e.plu = some n → n < 65536) ∧ figures e.acc e.before ∧
        figures e.acc e.delta) →
      let q := p.writeJournal j.kind.journal j.applyNumber j.content
      readBack q (.commit j) ∧ readBack (q.doneJournal j.kind.journal j.applyNumber j.content) (.done j.applyNumber)) ∧
    (∀ j : CloseJournal, entryFits 4 j.applyNumber j.content → fits j.period → j.beforeValue < 2 ^ 64 → j.beforeZ < 2 ^ 32 →
      let q := p.writeJournal 4 j.applyNumber j.content
      readBack q (.close j) ∧ readBack (q.doneJournal 4 j.applyNumber j.content) (.done j.applyNumber)) ∧
    (∀ n : Nat, n < 2 ^ 32 → readBack (p.writeJournal 5 n []) .clear ∧ readBack (p.doneJournal 6 n []) (.done n)) ∧
    readBack (p.write 256 1 (journalHeader 0 0 false)) .nothing

/-- R158, R159: only the completion of a store operation, the beginning of a period close, the end of the RESTART reply, power loss and a
FRAM that stops answering (log 56) change the FRAM, and each of them only bytes of the words its operation transfers: those of the operation
in flight, and for the beginning of a period close those of the summary's reading. -/
def Obligations.OnlyStoreOperationsTouchTheFram : Prop :=
  (∀ (c : Instr) (s t : State), exec c s = .next t →
    c ∉ [.verifyStageComplete, .commitWriteComplete, .periodCloseBegin, .periodCloseWriteComplete, .clearComplete,
      .calibrationWriteComplete, .highMarkRaiseComplete, .calibrationReadComplete, .lastPeriodReadComplete,
      .memoryLogWriteComplete, .hostFrameSent, .powerLoss, .framNotAnswering true, .framNotAnswering false] →
      t.store.fram = s.store.fram) ∧
  (∀ s : State, Memory.wf s.store.fram → ∀ a : Nat, (∀ w v, (w, v) ∈ s.opPass.trace → a < 9 * w ∨ 9 * w + 9 ≤ a) →
    Memory.byte s.opPass.fram a = Memory.byte s.store.fram a) ∧
  ∀ (c : Instr) (s t : State), exec c s = .next t → Memory.wf s.store.fram →
    ∀ a : Nat, (∀ w v, (w, v) ∈ s.opPass.trace → a < 9 * w ∨ 9 * w + 9 ≤ a) →
      (c = .periodCloseBegin → ∀ w v, (w, v) ∈ (s.pass.readAcc .periodClose .summary none).1.trace → a < 9 * w ∨ 9 * w + 9 ≤ a) →
      Memory.byte t.store.fram a = Memory.byte s.store.fram a

/-! ## Invariants -/

/-- The invariants hold at reset. -/
def Obligations.ResetMeetsTheInvariants : Prop :=
  FramCanonical State.reset ∧ Bounded State.reset ∧ TablesConsistent State.reset ∧ JobNumbersDistinct State.reset ∧
  SerialsFresh State.reset

/-- R158: every step keeps the FRAM in canonical form. -/
def Obligations.StepKeepsTheFramCanonical : Prop :=
  ∀ s t : State, FramCanonical s → step s = .next t → FramCanonical t

/-- R49, R78, R81, R84, R87, R91, R97, R98, R119, R147, R162, R171 to R173: every step keeps the lists and counts within their bounds, and the
clerk table and the basket pool consistent; with the label queue within its bound it keeps the job numbers distinct; and it
keeps the serials of the basket records below the next one. -/
def Obligations.StepKeepsBoundsAndTables : Prop :=
  ∀ s t : State, step s = .next t → (Bounded s → Bounded t) ∧ (TablesConsistent s → TablesConsistent t) ∧
    (Bounded s → JobNumbersDistinct s → JobNumbersDistinct t) ∧ (SerialsFresh s → SerialsFresh t)
end

