-- ==== Sys2Proof/Laws/State.lean ====
section
/-! SUPPORT. Laws/State: what each update of one part of State does to every field. -/

namespace Sys2Proof.Machine

@[simp] theorem modAt_same {α : Type} {n : Nat} (v : Vector α n) (i : Fin n) (f : α → α) : (modAt v i f)[i] = f v[i] := by
  simp [modAt]

@[simp] theorem modAt_other {α : Type} {n : Nat} (v : Vector α n) (i j : Fin n) (f : α → α) (h : j ≠ i) :
    (modAt v i f)[j] = v[j] := by
  have : i.val ≠ j.val := fun e => h (Fin.ext e.symm)
  simp [modAt, this]

/-- The entry that `f` changes, as simp writes it. -/
@[simp] theorem modAt_same_val {α : Type} {n : Nat} (v : Vector α n) (i : Fin n) (f : α → α) :
    (modAt v i f)[i.val] = f v[i.val] := modAt_same v i f

/-- Every other entry, as simp writes it. -/
@[simp] theorem modAt_other_val {α : Type} {n : Nat} (v : Vector α n) (i j : Fin n) (f : α → α) (h : j ≠ i) :
    (modAt v i f)[j.val] = v[j.val] := modAt_other v i j f h

/-- A change that changes nothing. -/
theorem modAt_unchanged {α : Type} {n : Nat} (v : Vector α n) (i : Fin n) (f : α → α) (h : f v[i] = v[i]) : modAt v i f = v := by
  unfold modAt
  rw [h]
  simp

@[simp] theorem State.onPort_fields (s : State) (st : Station) (f : Port → Port) :
    (s.onPort st f).pending = s.pending ∧ (s.onPort st f).powered = s.powered ∧
      (s.onPort st f).freeCount = s.freeCount ∧ (s.onPort st f).ports = modAt s.ports st f ∧
      (s.onPort st f).headLines = s.headLines ∧ (s.onPort st f).channels = s.channels ∧
      (s.onPort st f).price = s.price ∧ (s.onPort st f).service = s.service ∧
      (s.onPort st f).queuePort = s.queuePort ∧ (s.onPort st f).pool = s.pool ∧ (s.onPort st f).labels = s.labels ∧
      (s.onPort st f).printers = s.printers ∧ (s.onPort st f).runs = s.runs ∧ (s.onPort st f).totals = s.totals ∧
      (s.onPort st f).store = s.store ∧ (s.onPort st f).link = s.link :=
  ⟨rfl, rfl, rfl, rfl, rfl, rfl, rfl, rfl, rfl, rfl, rfl, rfl, rfl, rfl, rfl, rfl⟩

@[simp] theorem State.onHeadLine_fields (s : State) (st : Station) (f : HeadLine → HeadLine) :
    (s.onHeadLine st f).pending = s.pending ∧ (s.onHeadLine st f).powered = s.powered ∧
      (s.onHeadLine st f).freeCount = s.freeCount ∧ (s.onHeadLine st f).ports = s.ports ∧
      (s.onHeadLine st f).headLines = modAt s.headLines st f ∧ (s.onHeadLine st f).channels = s.channels ∧
      (s.onHeadLine st f).price = s.price ∧ (s.onHeadLine st f).service = s.service ∧
      (s.onHeadLine st f).queuePort = s.queuePort ∧ (s.onHeadLine st f).pool = s.pool ∧
      (s.onHeadLine st f).labels = s.labels ∧ (s.onHeadLine st f).printers = s.printers ∧
      (s.onHeadLine st f).runs = s.runs ∧ (s.onHeadLine st f).totals = s.totals ∧
      (s.onHeadLine st f).store = s.store ∧ (s.onHeadLine st f).link = s.link :=
  ⟨rfl, rfl, rfl, rfl, rfl, rfl, rfl, rfl, rfl, rfl, rfl, rfl, rfl, rfl, rfl, rfl⟩

@[simp] theorem State.onChannel_fields (s : State) (st : Station) (f : Channel → Channel) :
    (s.onChannel st f).pending = s.pending ∧ (s.onChannel st f).powered = s.powered ∧
      (s.onChannel st f).freeCount = s.freeCount ∧ (s.onChannel st f).ports = s.ports ∧
      (s.onChannel st f).headLines = s.headLines ∧ (s.onChannel st f).channels = modAt s.channels st f ∧
      (s.onChannel st f).price = s.price ∧ (s.onChannel st f).service = s.service ∧
      (s.onChannel st f).queuePort = s.queuePort ∧ (s.onChannel st f).pool = s.pool ∧
      (s.onChannel st f).labels = s.labels ∧ (s.onChannel st f).printers = s.printers ∧
      (s.onChannel st f).runs = s.runs ∧ (s.onChannel st f).totals = s.totals ∧ (s.onChannel st f).store = s.store ∧
      (s.onChannel st f).link = s.link :=
  ⟨rfl, rfl, rfl, rfl, rfl, rfl, rfl, rfl, rfl, rfl, rfl, rfl, rfl, rfl, rfl, rfl⟩

@[simp] theorem State.onRun_fields (s : State) (st : Station) (f : Run → Run) :
    (s.onRun st f).pending = s.pending ∧ (s.onRun st f).powered = s.powered ∧
      (s.onRun st f).freeCount = s.freeCount ∧ (s.onRun st f).ports = s.ports ∧
      (s.onRun st f).headLines = s.headLines ∧ (s.onRun st f).channels = s.channels ∧
      (s.onRun st f).price = s.price ∧ (s.onRun st f).service = s.service ∧ (s.onRun st f).queuePort = s.queuePort ∧
      (s.onRun st f).pool = s.pool ∧ (s.onRun st f).labels = s.labels ∧ (s.onRun st f).printers = s.printers ∧
      (s.onRun st f).runs = modAt s.runs st f ∧ (s.onRun st f).totals = s.totals ∧ (s.onRun st f).store = s.store ∧
      (s.onRun st f).link = s.link :=
  ⟨rfl, rfl, rfl, rfl, rfl, rfl, rfl, rfl, rfl, rfl, rfl, rfl, rfl, rfl, rfl, rfl⟩

@[simp] theorem State.onPrinter_fields (s : State) (p : Printer) (f : PrinterPort → PrinterPort) :
    (s.onPrinter p f).pending = s.pending ∧ (s.onPrinter p f).powered = s.powered ∧
      (s.onPrinter p f).freeCount = s.freeCount ∧ (s.onPrinter p f).ports = s.ports ∧
      (s.onPrinter p f).headLines = s.headLines ∧ (s.onPrinter p f).channels = s.channels ∧
      (s.onPrinter p f).price = s.price ∧ (s.onPrinter p f).service = s.service ∧
      (s.onPrinter p f).queuePort = s.queuePort ∧ (s.onPrinter p f).pool = s.pool ∧
      (s.onPrinter p f).labels = s.labels ∧ (s.onPrinter p f).printers = modAt s.printers p f ∧
      (s.onPrinter p f).runs = s.runs ∧ (s.onPrinter p f).totals = s.totals ∧ (s.onPrinter p f).store = s.store ∧
      (s.onPrinter p f).link = s.link :=
  ⟨rfl, rfl, rfl, rfl, rfl, rfl, rfl, rfl, rfl, rfl, rfl, rfl, rfl, rfl, rfl, rfl⟩

@[simp] theorem State.onPrice_fields (s : State) (f : PriceTable → PriceTable) :
    (s.onPrice f).pending = s.pending ∧ (s.onPrice f).powered = s.powered ∧ (s.onPrice f).freeCount = s.freeCount ∧
      (s.onPrice f).ports = s.ports ∧ (s.onPrice f).headLines = s.headLines ∧ (s.onPrice f).channels = s.channels ∧
      (s.onPrice f).price = f s.price ∧ (s.onPrice f).service = s.service ∧ (s.onPrice f).queuePort = s.queuePort ∧
      (s.onPrice f).pool = s.pool ∧ (s.onPrice f).labels = s.labels ∧ (s.onPrice f).printers = s.printers ∧
      (s.onPrice f).runs = s.runs ∧ (s.onPrice f).totals = s.totals ∧ (s.onPrice f).store = s.store ∧
      (s.onPrice f).link = s.link :=
  ⟨rfl, rfl, rfl, rfl, rfl, rfl, rfl, rfl, rfl, rfl, rfl, rfl, rfl, rfl, rfl, rfl⟩

@[simp] theorem State.onService_fields (s : State) (f : Service → Service) :
    (s.onService f).pending = s.pending ∧ (s.onService f).powered = s.powered ∧
      (s.onService f).freeCount = s.freeCount ∧ (s.onService f).ports = s.ports ∧
      (s.onService f).headLines = s.headLines ∧ (s.onService f).channels = s.channels ∧
      (s.onService f).price = s.price ∧ (s.onService f).service = f s.service ∧
      (s.onService f).queuePort = s.queuePort ∧ (s.onService f).pool = s.pool ∧ (s.onService f).labels = s.labels ∧
      (s.onService f).printers = s.printers ∧ (s.onService f).runs = s.runs ∧ (s.onService f).totals = s.totals ∧
      (s.onService f).store = s.store ∧ (s.onService f).link = s.link :=
  ⟨rfl, rfl, rfl, rfl, rfl, rfl, rfl, rfl, rfl, rfl, rfl, rfl, rfl, rfl, rfl, rfl⟩

@[simp] theorem State.onQueuePort_fields (s : State) (f : QueuePort → QueuePort) :
    (s.onQueuePort f).pending = s.pending ∧ (s.onQueuePort f).powered = s.powered ∧
      (s.onQueuePort f).freeCount = s.freeCount ∧ (s.onQueuePort f).ports = s.ports ∧
      (s.onQueuePort f).headLines = s.headLines ∧ (s.onQueuePort f).channels = s.channels ∧
      (s.onQueuePort f).price = s.price ∧ (s.onQueuePort f).service = s.service ∧
      (s.onQueuePort f).queuePort = f s.queuePort ∧ (s.onQueuePort f).pool = s.pool ∧
      (s.onQueuePort f).labels = s.labels ∧ (s.onQueuePort f).printers = s.printers ∧
      (s.onQueuePort f).runs = s.runs ∧ (s.onQueuePort f).totals = s.totals ∧ (s.onQueuePort f).store = s.store ∧
      (s.onQueuePort f).link = s.link :=
  ⟨rfl, rfl, rfl, rfl, rfl, rfl, rfl, rfl, rfl, rfl, rfl, rfl, rfl, rfl, rfl, rfl⟩

@[simp] theorem State.onPool_fields (s : State) (f : Pool → Pool) :
    (s.onPool f).pending = s.pending ∧ (s.onPool f).powered = s.powered ∧ (s.onPool f).freeCount = s.freeCount ∧
      (s.onPool f).ports = s.ports ∧ (s.onPool f).headLines = s.headLines ∧ (s.onPool f).channels = s.channels ∧
      (s.onPool f).price = s.price ∧ (s.onPool f).service = s.service ∧ (s.onPool f).queuePort = s.queuePort ∧
      (s.onPool f).pool = f s.pool ∧ (s.onPool f).labels = s.labels ∧ (s.onPool f).printers = s.printers ∧
      (s.onPool f).runs = s.runs ∧ (s.onPool f).totals = s.totals ∧ (s.onPool f).store = s.store ∧
      (s.onPool f).link = s.link :=
  ⟨rfl, rfl, rfl, rfl, rfl, rfl, rfl, rfl, rfl, rfl, rfl, rfl, rfl, rfl, rfl, rfl⟩

@[simp] theorem State.onLabels_fields (s : State) (f : LabelUnit → LabelUnit) :
    (s.onLabels f).pending = s.pending ∧ (s.onLabels f).powered = s.powered ∧
      (s.onLabels f).freeCount = s.freeCount ∧ (s.onLabels f).ports = s.ports ∧
      (s.onLabels f).headLines = s.headLines ∧ (s.onLabels f).channels = s.channels ∧
      (s.onLabels f).price = s.price ∧ (s.onLabels f).service = s.service ∧ (s.onLabels f).queuePort = s.queuePort ∧
      (s.onLabels f).pool = s.pool ∧ (s.onLabels f).labels = f s.labels ∧ (s.onLabels f).printers = s.printers ∧
      (s.onLabels f).runs = s.runs ∧ (s.onLabels f).totals = s.totals ∧ (s.onLabels f).store = s.store ∧
      (s.onLabels f).link = s.link :=
  ⟨rfl, rfl, rfl, rfl, rfl, rfl, rfl, rfl, rfl, rfl, rfl, rfl, rfl, rfl, rfl, rfl⟩

@[simp] theorem State.onTotals_fields (s : State) (f : Totals → Totals) :
    (s.onTotals f).pending = s.pending ∧ (s.onTotals f).powered = s.powered ∧
      (s.onTotals f).freeCount = s.freeCount ∧ (s.onTotals f).ports = s.ports ∧
      (s.onTotals f).headLines = s.headLines ∧ (s.onTotals f).channels = s.channels ∧
      (s.onTotals f).price = s.price ∧ (s.onTotals f).service = s.service ∧ (s.onTotals f).queuePort = s.queuePort ∧
      (s.onTotals f).pool = s.pool ∧ (s.onTotals f).labels = s.labels ∧ (s.onTotals f).printers = s.printers ∧
      (s.onTotals f).runs = s.runs ∧ (s.onTotals f).totals = f s.totals ∧ (s.onTotals f).store = s.store ∧
      (s.onTotals f).link = s.link :=
  ⟨rfl, rfl, rfl, rfl, rfl, rfl, rfl, rfl, rfl, rfl, rfl, rfl, rfl, rfl, rfl, rfl⟩

@[simp] theorem State.onStore_fields (s : State) (f : Store → Store) :
    (s.onStore f).pending = s.pending ∧ (s.onStore f).powered = s.powered ∧ (s.onStore f).freeCount = s.freeCount ∧
      (s.onStore f).ports = s.ports ∧ (s.onStore f).headLines = s.headLines ∧ (s.onStore f).channels = s.channels ∧
      (s.onStore f).price = s.price ∧ (s.onStore f).service = s.service ∧ (s.onStore f).queuePort = s.queuePort ∧
      (s.onStore f).pool = s.pool ∧ (s.onStore f).labels = s.labels ∧ (s.onStore f).printers = s.printers ∧
      (s.onStore f).runs = s.runs ∧ (s.onStore f).totals = s.totals ∧ (s.onStore f).store = f s.store ∧
      (s.onStore f).link = s.link :=
  ⟨rfl, rfl, rfl, rfl, rfl, rfl, rfl, rfl, rfl, rfl, rfl, rfl, rfl, rfl, rfl, rfl⟩

@[simp] theorem State.onLink_fields (s : State) (f : HostLink → HostLink) :
    (s.onLink f).pending = s.pending ∧ (s.onLink f).powered = s.powered ∧ (s.onLink f).freeCount = s.freeCount ∧
      (s.onLink f).ports = s.ports ∧ (s.onLink f).headLines = s.headLines ∧ (s.onLink f).channels = s.channels ∧
      (s.onLink f).price = s.price ∧ (s.onLink f).service = s.service ∧ (s.onLink f).queuePort = s.queuePort ∧
      (s.onLink f).pool = s.pool ∧ (s.onLink f).labels = s.labels ∧ (s.onLink f).printers = s.printers ∧
      (s.onLink f).runs = s.runs ∧ (s.onLink f).totals = s.totals ∧ (s.onLink f).store = s.store ∧
      (s.onLink f).link = f s.link :=
  ⟨rfl, rfl, rfl, rfl, rfl, rfl, rfl, rfl, rfl, rfl, rfl, rfl, rfl, rfl, rfl, rfl⟩

end Sys2Proof.Machine
end

