-- ==== Sys2Proof/Laws/Calm.lean ====
section
/-! SUPPORT. Laws/Calm: the parts of State that only the store's own operations and the host link's own steps change. Every other
operation leaves them, and each lemma below says so of one operation. -/

namespace Sys2Proof.Machine

/-- What is left alone: the queue, the power, the FRAM, and the host link's requests, replies and error count. -/
structure Calm where
  pending : List Instr
  powered : Bool
  fram : List Host.Cell
  executing : Option Request
  holding : List Request
  replies : List ReplySlot
  restarting : Bool
  errors : Nat

def calm (s : State) : Calm :=
  { pending := s.pending, powered := s.powered, fram := s.store.fram, executing := s.link.executing, holding := s.link.holding,
    replies := s.link.replies, restarting := s.link.restarting, errors := s.link.errors }

/-! ## Updates of one part -/

@[simp] theorem calm_onPort (s : State) (st : Station) (f : Port → Port) : calm (s.onPort st f) = calm s := rfl
@[simp] theorem calm_onHeadLine (s : State) (st : Station) (f : HeadLine → HeadLine) : calm (s.onHeadLine st f) = calm s := rfl
@[simp] theorem calm_onChannel (s : State) (st : Station) (f : Channel → Channel) : calm (s.onChannel st f) = calm s := rfl
@[simp] theorem calm_onRun (s : State) (st : Station) (f : Run → Run) : calm (s.onRun st f) = calm s := rfl
@[simp] theorem calm_onPrinter (s : State) (p : Printer) (f : PrinterPort → PrinterPort) : calm (s.onPrinter p f) = calm s := rfl
@[simp] theorem calm_onPrice (s : State) (f : PriceTable → PriceTable) : calm (s.onPrice f) = calm s := rfl
@[simp] theorem calm_onService (s : State) (f : Service → Service) : calm (s.onService f) = calm s := rfl
@[simp] theorem calm_onQueuePort (s : State) (f : QueuePort → QueuePort) : calm (s.onQueuePort f) = calm s := rfl
@[simp] theorem calm_onPool (s : State) (f : Pool → Pool) : calm (s.onPool f) = calm s := rfl
@[simp] theorem calm_onLabels (s : State) (f : LabelUnit → LabelUnit) : calm (s.onLabels f) = calm s := rfl
@[simp] theorem calm_onTotals (s : State) (f : Totals → Totals) : calm (s.onTotals f) = calm s := rfl
@[simp] theorem calm_runs (s : State) (r : Vector Run 8) : calm { s with runs := r } = calm s := rfl
@[simp] theorem calm_headLines (s : State) (l : Vector HeadLine 8) : calm { s with headLines := l } = calm s := rfl
@[simp] theorem calm_freeCount (s : State) (n : Nat) : calm { s with freeCount := n } = calm s := rfl

theorem calm_onStore {s : State} {f : Store → Store} (h : (f s.store).fram = s.store.fram) : calm (s.onStore f) = calm s := by
  simp [calm, h]

theorem calm_fold {α : Type} {f : State → α → State} (h : ∀ s a, calm (f s a) = calm s) :
    ∀ (xs : List α) (s : State), calm (xs.foldl f s) = calm s
  | [], _ => rfl
  | x :: xs, s => by rw [List.foldl_cons, calm_fold h xs, h]

theorem calm_inOpenOrder {α : Type} (s : State) (number : α → Nat) (xs : List α) :
    calm (s.inOpenOrder number xs).1 = calm s := by
  unfold State.inOpenOrder; split <;> rfl

/-! ## Ops, flags and stations -/

@[simp] theorem calm_setImage (s : State) (st : Station) (i : DisplayImage) : calm (s.setImage st i) = calm s := rfl
@[simp] theorem calm_setMessage (s : State) (st : Station) (m : Message) : calm (s.setMessage st m) = calm s := rfl
@[simp] theorem calm_refuseKey (s : State) (st : Station) (m : Message) : calm (s.refuseKey st m) = calm s := rfl
@[simp] theorem calm_withdraw (s : State) (st : Station) (m : Message) : calm (s.withdraw st m) = calm s := by
  unfold State.withdraw; split <;> simp
@[simp] theorem calm_raise (s : State) (f : Flag) (b : List Byte) : calm (s.raise f b) = calm s := rfl
@[simp] theorem calm_refresh (s : State) (st : Station) : calm (s.refresh st) = calm s := by
  unfold State.refresh; split <;> simp
@[simp] theorem calm_completeAdoption (s : State) : calm s.completeAdoption = calm s := by
  unfold State.completeAdoption; split <;> simp
@[simp] theorem calm_adopt (s : State) (st : Station) : calm (s.adopt st) = calm s := by simp [State.adopt]
@[simp] theorem calm_adoptIfFree (s : State) (st : Station) : calm (s.adoptIfFree st) = calm s := by
  unfold State.adoptIfFree; split <;> simp
@[simp] theorem calm_clearSelection (s : State) (st : Station) : calm (s.clearSelection st) = calm s := by
  simp [State.clearSelection]
@[simp] theorem calm_dropSelection (s : State) (st : Station) : calm (s.dropSelection st) = calm s := by
  simp [State.dropSelection]
@[simp] theorem calm_pushCommit (s : State) (c : Commit) : calm (s.pushCommit c) = calm s := rfl
theorem Store.draw_fram (m : Store) : m.draw.fram = m.fram := by unfold Store.draw; split <;> rfl
@[simp] theorem calm_draw (s : State) : calm (s.onStore Store.draw) = calm s := calm_onStore (Store.draw_fram _)

/-! ## Labels -/

@[simp] theorem calm_startJob (s : State) (p : Printer) (j : Job) : calm (s.startJob p j) = calm s := rfl
@[simp] theorem calm_chooseOnce (s : State) : calm s.chooseOnce = calm s := by
  have h := calm_inOpenOrder s printerNumber s.choosers
  unfold State.chooseOnce
  generalize s.inOpenOrder printerNumber s.choosers = x at h ⊢
  obtain ⟨t, _ | ⟨p, ps⟩⟩ := x
  · exact h
  · dsimp only at h ⊢; split
    · exact h
    · rw [calm_startJob]; exact h
@[simp] theorem calm_arbitrate (s : State) : calm s.arbitrate = calm s := by simp [State.arbitrate]
@[simp] theorem calm_takeJob (s : State) (j : Job) : calm (s.takeJob j) = calm s := by simp [State.takeJob]
@[simp] theorem calm_endJob (s : State) (j : Job) (o : JobOutcome) : calm (s.endJob j o) = calm s := by
  unfold State.endJob; dsimp only; split <;> rfl
@[simp] theorem calm_returnJob (s : State) (p : Printer) (j : Job) (c : Bool) : calm (s.returnJob p j c) = calm s := by
  unfold State.returnJob; repeat' split
  all_goals simp
@[simp] theorem calm_interrupt (s : State) (p : Printer) (st : PrinterState) : calm (s.interrupt p st) = calm s := by
  unfold State.interrupt; dsimp only; split <;> simp
@[simp] theorem calm_cancelItemJobs (s : State) (n : Nat) : calm (s.cancelItemJobs n) = calm s :=
  calm_fold (fun t j => calm_endJob t j _) _ _

/-! ## Prepack runs -/

@[simp] theorem calm_stopWaiting (s : State) (st : Station) : calm (s.stopWaiting st) = calm s := by
  unfold State.stopWaiting; split <;> simp
@[simp] theorem calm_completeEnd (s : State) (st : Station) : calm (s.completeEnd st) = calm s := by
  unfold State.completeEnd; dsimp only; repeat' split
  all_goals simp
@[simp] theorem calm_endRun (s : State) (st : Station) (r : EndReason) : calm (s.endRun st r) = calm s := by
  unfold State.endRun; dsimp only; repeat' split
  all_goals simp
@[simp] theorem calm_trigger (s : State) (st : Station) (v : PluVersion) (p : Nat) : calm (s.trigger st v p) = calm s := by
  unfold State.trigger; dsimp only; split <;> simp
@[simp] theorem calm_examine (s : State) (st : Station) : calm (s.examine st) = calm s := by
  unfold State.examine; repeat' split
  all_goals simp
@[simp] theorem calm_examineAll (s : State) : calm s.examineAll = calm s := by
  unfold State.examineAll
  dsimp only
  rw [calm_fold calm_examine]; exact calm_inOpenOrder s _ _
@[simp] theorem calm_afterDepartures (s old : State) : calm (s.afterDepartures old) = calm s := by
  unfold State.afterDepartures; split <;> simp
@[simp] theorem calm_offer (s : State) (st : Station) : calm (s.offer st) = calm s := by
  unfold State.offer; split <;> simp
@[simp] theorem calm_offerAll (s : State) : calm s.offerAll = calm s := by
  unfold State.offerAll
  dsimp only
  rw [calm_fold calm_offer]; exact calm_inOpenOrder s _ _
@[simp] theorem calm_decided (s : State) (st : Station) : calm (s.decided st) = calm s := by simp [State.decided]

/-! ## Clerks, tickets, baskets -/

@[simp] theorem calm_clerkLost (s : State) (st : Station) : calm (s.clerkLost st) = calm s := by
  unfold State.clerkLost; split <;> simp
@[simp] theorem calm_clerkMoved (s : State) (st : Station) : calm (s.clerkMoved st) = calm s := by
  unfold State.clerkMoved; split <;> simp
@[simp] theorem calm_logOffAt (s : State) (st : Station) : calm (s.logOffAt st) = calm s := by
  unfold State.logOffAt; split <;> simp
@[simp] theorem calm_logOffClerk (s : State) (n : Nat) : calm (s.logOffClerk n) = calm s := by
  unfold State.logOffClerk; split <;> simp
@[simp] theorem calm_logOn (s : State) (st : Station) (n : Nat) (old : Option Station) : calm (s.logOn st n old) = calm s := by
  unfold State.logOn; dsimp only; cases old <;> simp only [calm_refresh] <;> repeat' split
  all_goals simp
@[simp] theorem calm_setSigns (s : State) (x : List CallSign) : calm (s.setSigns x) = calm s := by
  unfold State.setSigns; split <;> simp
@[simp] theorem calm_pushSign (s : State) (e : CallSign) : calm (s.pushSign e) = calm s := by simp [State.pushSign]
@[simp] theorem calm_pumpQueue (s : State) : calm s.pumpQueue = calm s := rfl
@[simp] theorem calm_onBasket (s : State) (b : Basket) (f : Basket → Basket) : calm (s.onBasket b f) = calm s := rfl
@[simp] theorem calm_freeRecord (s : State) (b : Basket) (x : BasketState) : calm (s.freeRecord b x) = calm s := rfl
@[simp] theorem calm_openBasket (s : State) (st : Station) (n : Nat) (t : Option Nat) : calm (s.openBasket st n t) = calm s := by
  unfold State.openBasket; split <;> simp
@[simp] theorem calm_refreshClerk (s : State) (b : Basket) : calm (s.refreshClerk b) = calm s := by
  unfold State.refreshClerk; split <;> simp
@[simp] theorem calm_cancelOpen (s : State) (b : Basket) (st : Station) : calm (s.cancelOpen b st) = calm s := by
  unfold State.cancelOpen
  simp only [calm_afterDepartures, calm_refreshClerk, calm_onService, calm_freeRecord, calm_cancelItemJobs]
  split <;> simp
@[simp] theorem calm_addLine (s : State) (st : Station) (b : Basket) (x : Selection) (p : Nat) :
    calm (s.addLine st b x p) = calm s := by
  unfold State.addLine; dsimp only; rw [calm_decided, calm_onChannel]; repeat' split
  all_goals simp
@[simp] theorem calm_cancelLineJob (s : State) (n : Nat) (l : Line) : calm (s.cancelLineJob n l) = calm s := by
  unfold State.cancelLineJob; repeat' split
  all_goals simp
@[simp] theorem calm_closeBasket (s : State) (st : Station) (b : Basket) : calm (s.closeBasket st b) = calm s := by
  simp [State.closeBasket]
@[simp] theorem calm_giveUp (s : State) (st : Station) (c : Clerk) : calm (s.giveUp st c) = calm s := by
  unfold State.giveUp; repeat' split
  all_goals simp
@[simp] theorem calm_callTicket (s : State) (st : Station) (n t : Nat) : calm (s.callTicket st n t) = calm s := by
  simp [State.callTicket]
@[simp] theorem calm_callNext (s : State) (st : Station) (c : Clerk) : calm (s.callNext st c) = calm s := by
  unfold State.callNext; dsimp only; split <;> simp

/-! ## Scale ports -/

@[simp] theorem calm_acceptHead (s : State) (st : Station) (n : BitVec 32) (m : Byte) : calm (s.acceptHead st n m) = calm s := by
  simp [State.acceptHead]
@[simp] theorem calm_leavePresent (s : State) (st : Station) (p : PortState) : calm (s.leavePresent st p) = calm s := by
  simp [State.leavePresent]
@[simp] theorem calm_enablePort (s : State) (st : Station) (b : Bool) : calm (s.enablePort st b) = calm s := by
  unfold State.enablePort; split <;> simp
@[simp] theorem calm_emptyWindows (s : State) (st : Station) : calm (s.emptyWindows st) = calm s := by simp [State.emptyWindows]
@[simp] theorem calm_handCount (s : State) (st : Station) (x : Int) : calm (s.handCount st x) = calm s := by
  simp [State.handCount]

/-! ## Queue port and printers -/

@[simp] theorem calm_acceptDispenser (s : State) (n : BitVec 32) (m : Byte) : calm (s.acceptDispenser n m) = calm s := rfl
@[simp] theorem calm_loseDispenser (s : State) : calm s.loseDispenser = calm s := rfl
@[simp] theorem calm_dispenserSpeaks (n : BitVec 32) (m : Byte) (s : State) : calm (State.dispenserSpeaks n m s) = calm s := by
  unfold State.dispenserSpeaks; repeat' split
  all_goals simp
@[simp] theorem calm_takeTicket (p : Byte) (s : State) : calm (State.takeTicket p s) = calm s := by
  unfold State.takeTicket; repeat' split
  all_goals simp
@[simp] theorem calm_setCondition (s : State) (p : Printer) (c : Condition) (j : Option Nat) :
    calm (s.setCondition p c j) = calm s := by
  unfold State.setCondition; dsimp only; split <;> simp
@[simp] theorem calm_restartFrameTimer (s : State) (p : Printer) : calm (s.restartFrameTimer p) = calm s := rfl
@[simp] theorem calm_afterPrinter (s old : State) : calm (s.afterPrinter old) = calm s := by simp [State.afterPrinter]
@[simp] theorem calm_acceptPrinter (s : State) (p : Printer) (n : BitVec 32) (m : Byte) :
    calm (s.acceptPrinter p n m) = calm s := rfl
@[simp] theorem calm_losePrinter (s : State) (p : Printer) : calm (s.losePrinter p) = calm s := by simp [State.losePrinter]
@[simp] theorem calm_printerRestarted (s : State) (p : Printer) (n : BitVec 32) : calm (s.printerRestarted p n) = calm s := by
  unfold State.printerRestarted; dsimp only; split <;> simp
@[simp] theorem calm_printerSpeaks (s : State) (p : Printer) (n : BitVec 32) (m : Byte) :
    calm (s.printerSpeaks p n m) = calm s := by
  unfold State.printerSpeaks; repeat' split
  all_goals simp
@[simp] theorem calm_pumpPrinter (s : State) (p : Printer) : calm (s.pumpPrinter p) = calm s := rfl
@[simp] theorem calm_takePrinterState (s : State) (p : Printer) (c : Condition) : calm (s.takePrinterState p c) = calm s := by
  unfold State.takePrinterState; dsimp only; repeat' split
  all_goals simp
@[simp] theorem calm_jobDone (s : State) (p : Printer) (j : Job) : calm (s.jobDone p j) = calm s := by simp [State.jobDone]
@[simp] theorem calm_takeDone (s : State) (p : Printer) (n : Nat) : calm (s.takeDone p n) = calm s := by
  unfold State.takeDone; dsimp only; repeat' split
  all_goals simp
@[simp] theorem calm_takeFault (s : State) (p : Printer) (n : Nat) (c : Condition) : calm (s.takeFault p n c) = calm s := by
  unfold State.takeFault; dsimp only; split <;> simp
@[simp] theorem calm_resetPort (s : State) (p : Printer) : calm (s.resetPort p) = calm s := by
  unfold State.resetPort; dsimp only; rw [calm_arbitrate]; split <;> simp

/-! ## Requests -/

@[simp] theorem calm_writeConfig (s : State) (st : Station) (c : ChannelConfig) : calm (s.writeConfig st c) = calm s := by
  unfold State.writeConfig; dsimp only; split <;> simp
@[simp] theorem calm_restartChannel (s : State) (st : Station) : calm (s.restartChannel st) = calm s := by
  simp [State.restartChannel]
@[simp] theorem calm_takeCalibration (s : State) (st : Station) (r : CalRecord) : calm (s.takeCalibration st r) = calm s := by
  simp [State.takeCalibration]
@[simp] theorem calm_calFault (s : State) (st : Station) : calm (s.calFault st) = calm s := by simp [State.calFault]
@[simp] theorem calm_publishNow (s : State) : calm s.publishNow = calm s := by
  unfold State.publishNow; rw [calm_fold calm_adoptIfFree, calm_onPrice]
@[simp] theorem calm_forceChannel (s : State) (st : Station) : calm (s.forceChannel st) = calm s := by
  unfold State.forceChannel; dsimp only; split <;> simp
@[simp] theorem calm_startRunNow (s : State) (st : Station) (v : PluVersion) (n : Nat) (b : Bool) :
    calm (s.startRunNow st v n b) = calm s := by
  simp [State.startRunNow]

/-! ## What follows every event -/

/-- Beginning the next frames leaves everything but what is being sent. -/
@[simp] theorem calm_finish (s old : State) : calm (s.finish old) = calm s := by
  have h : ∀ l : HostLink, (l.pump.executing, l.pump.holding, l.pump.replies, l.pump.restarting, l.pump.errors)
      = (l.executing, l.holding, l.replies, l.restarting, l.errors) := by
    intro l
    unfold HostLink.pump HostLink.pumpReport
    repeat' split
    all_goals rfl
  have := h s.link
  simp only [Prod.mk.injEq] at this
  obtain ⟨h1, h2, h3, h4, h5⟩ := this
  unfold State.finish State.pumpDisplays
  simp [calm, h1, h2, h3, h4, h5]

/-- A key, taken or discarded, leaves what its action leaves. -/
theorem calm_takeKey {s t : State} {st : Station} {f : State → Except Message State}
    (h : ∀ u v, f u = .ok v → calm v = calm u) (ht : s.takeKey st f = some t) : calm t = calm s := by
  unfold State.takeKey at ht
  split at ht
  · split at ht
    · next u e => rw [← Option.some.inj ht, h _ _ e, calm_setMessage]
    · rw [← Option.some.inj ht, calm_refuseKey]
  · cases ht

end Sys2Proof.Machine
end

