-- ==== Sys2Proof/Laws/Station.lean ====
section
/-! SUPPORT. Laws/Station: what the operations at one station leave (display, selection, adoption, the end of a run, a logoff, a head's
departure, a weighing made afresh): one relation they all keep, and for each of them the parts it writes. -/

namespace Sys2Proof.Machine

/-- The channel has adopted, or its pinned generation and the table are as before. -/
def Adopts (s t : State) (st : Station) : Prop :=
  (t.price = s.price ∧ t.channels[st].pinned = s.channels[st].pinned) ∨
  (st ∈ s.price.record ∧ t.price = s.price.withoutChannel st ∧ t.channels[st].pinned = s.price.generation ∧
    t.runs[st].holds = false ∧
    (s.price.pending = true → (s.price.withoutChannel st).pending = false →
      (t.link.flags[Flag.adoptionComplete.entry]).pending = true))

/-- What an operation that acts at one station leaves: the other stations, the port but for its image, every block but the price table,
the clerks, the totals and the flags; a pending flag stays pending, and a run that does not hold its channel does not come to hold it. -/
structure StationStep (s t : State) (st : Station) : Prop where
  others : ∀ x : Station, x ≠ st → t.channels[x] = s.channels[x] ∧ t.ports[x] = s.ports[x] ∧ t.runs[x] = s.runs[x]
  port : t.ports[st] = { s.ports[st] with image := t.ports[st].image }
  parts : t = { s with ports := t.ports, channels := t.channels, price := t.price, service := t.service, runs := t.runs,
                       totals := t.totals, link := { s.link with flags := t.link.flags } }
  flags : ∀ n : Fin 50, (s.link.flags[n]).pending = true → t.link.flags[n] = s.link.flags[n]
  unheld : s.runs[st].holds = false → t.runs[st].holds = false
  adopts : Adopts s t st

/-- Nothing happened. -/
theorem StationStep.same (s : State) (st : Station) : StationStep s s st :=
  ⟨fun _ _ => ⟨rfl, rfl, rfl⟩, rfl, rfl, fun _ _ => rfl, id, .inl ⟨rfl, rfl⟩⟩

/-- R55: the record and the generation after a channel adopted. -/
theorem PriceTable.record_withoutChannel (t : PriceTable) (st : Station) :
    (t.withoutChannel st).record = t.record.filter (fun x => x != st) ∧ (t.withoutChannel st).generation = t.generation := by
  unfold PriceTable.withoutChannel
  dsimp only
  split
  · next h => exact ⟨h.2.symm, rfl⟩
  · exact ⟨rfl, rfl⟩

/-- A pending flag stays pending. -/
theorem StationStep.pending {s t : State} {st : Station} (h : StationStep s t st) {n : Fin 50}
    (hn : (s.link.flags[n]).pending = true) : (t.link.flags[n]).pending = true := by rw [h.flags n hn]; exact hn

/-- One operation at the station after another: at most one of them adopts, since the channel leaves the record. -/
theorem StationStep.trans {s t u : State} {st : Station} (h : StationStep s t st) (g : StationStep t u st) : StationStep s u st := by
  refine ⟨fun x hx => ?_, ?_, ?_, fun n hn => (g.flags n (h.pending hn)).trans (h.flags n hn), fun hr => g.unheld (h.unheld hr), ?_⟩
  · obtain ⟨a, b, c⟩ := h.others x hx
    obtain ⟨d, e, f⟩ := g.others x hx
    exact ⟨d.trans a, e.trans b, f.trans c⟩
  · rw [g.port, h.port]
  · rw [g.parts, h.parts]
  · rcases h.adopts with ⟨p, q⟩ | ⟨p, q, r, i, f⟩
    · rcases g.adopts with ⟨p', q'⟩ | ⟨p', q', r', i', f'⟩
      · exact .inl ⟨p'.trans p, q'.trans q⟩
      · rw [p] at p' q' r' f'
        exact .inr ⟨p', q', r', i', f'⟩
    · rcases g.adopts with ⟨p', q'⟩ | ⟨p', _⟩
      · exact .inr ⟨p, p'.trans q, q'.trans r, g.unheld i, fun a b => g.pending (f a b)⟩
      · rw [q, (PriceTable.record_withoutChannel _ _).1] at p'
        simp at p'

/-- An operation that adopts nothing and changes the station's image, channel, run, and the totals alone. -/
theorem StationStep.mk' {s t : State} {st : Station}
    (others : ∀ x : Station, x ≠ st → t.channels[x] = s.channels[x] ∧ t.ports[x] = s.ports[x] ∧ t.runs[x] = s.runs[x])
    (port : t.ports[st] = { s.ports[st] with image := t.ports[st].image })
    (parts : t = { s with ports := t.ports, channels := t.channels, service := t.service, runs := t.runs, totals := t.totals })
    (unheld : s.runs[st].holds = false → t.runs[st].holds = false) (pinned : t.channels[st].pinned = s.channels[st].pinned) :
    StationStep s t st := by
  have hl : t.link = s.link := by rw [parts]
  have hp : t.price = s.price := by rw [parts]
  refine ⟨others, port, ?_, fun n _ => by rw [hl], unheld, .inl ⟨hp, pinned⟩⟩
  rw [hp, hl]; exact parts

/-- A change of the channel that keeps its pinned generation. -/
theorem StationStep.onChannel (s : State) (st : Station) (f : Channel → Channel) (h : (f s.channels[st]).pinned = s.channels[st].pinned) :
    StationStep s (s.onChannel st f) st :=
  .mk' (fun x hx => ⟨modAt_other _ _ _ _ hx, rfl, rfl⟩) rfl rfl id (by rw [State.onChannel, modAt_same]; exact h)

/-- A change of the run that does not make it hold the channel. -/
theorem StationStep.onRun (s : State) (st : Station) (f : Run → Run) (h : s.runs[st].holds = false → (f s.runs[st]).holds = false) :
    StationStep s (s.onRun st f) st :=
  .mk' (fun x hx => ⟨rfl, rfl, modAt_other _ _ _ _ hx⟩) rfl rfl (fun g => by rw [State.onRun, modAt_same]; exact h g) rfl

/-- A change of the clerks or tickets. -/
theorem StationStep.onService (s : State) (st : Station) (f : Service → Service) : StationStep s (s.onService f) st :=
  .mk' (fun _ _ => ⟨rfl, rfl, rfl⟩) rfl rfl id rfl

/-- R147: a commit taken in. -/
theorem StationStep.pushCommit (s : State) (st : Station) (c : Commit) : StationStep s (s.pushCommit c) st :=
  .mk' (fun _ _ => ⟨rfl, rfl, rfl⟩) rfl rfl id rfl

/-- R15: a new display image. -/
theorem StationStep.setImage (s : State) (st : Station) (i : DisplayImage) : StationStep s (s.setImage st i) st :=
  .mk' (fun x hx => ⟨rfl, modAt_other _ _ _ _ hx, rfl⟩) (by simp [State.setImage]) rfl id rfl

/-- R176: a raised flag is pending, and an entry that was pending is as it was. -/
theorem State.raise_pending (s : State) (f : Flag) (b : List Byte) :
    ((s.raise f b).link.flags[f.entry]).pending = true ∧
    ∀ n : Fin 50, (s.link.flags[n]).pending = true → (s.raise f b).link.flags[n] = s.link.flags[n] := by
  have h0 : ((s.raise f b).link.flags[f.entry]).pending = true := by
    simp only [State.raise, State.onLink, modAt_same, FlagEntry.raise]
    split <;> simp_all
  refine ⟨h0, fun n hn => ?_⟩
  by_cases e : n = f.entry
  · rw [e] at hn ⊢
    simp only [State.raise, State.onLink, modAt_same, FlagEntry.raise]
    rw [if_pos hn]
  · simp only [State.raise, State.onLink]; rw [modAt_other _ _ _ _ e]

/-- R176: a flag raised. -/
theorem StationStep.raise (s : State) (st : Station) (f : Flag) (b : List Byte) : StationStep s (s.raise f b) st :=
  ⟨fun _ _ => ⟨rfl, rfl, rfl⟩, rfl, rfl, (State.raise_pending s f b).2, id, .inl ⟨rfl, rfl⟩⟩

/-- R36: the display fields written. -/
theorem StationStep.refresh (s : State) (st : Station) : StationStep s (s.refresh st) st := by
  unfold State.refresh
  split
  · exact .setImage ..
  · exact .same ..

/-- R15: an information message withdrawn. -/
theorem StationStep.withdraw (s : State) (st : Station) (m : Message) : StationStep s (s.withdraw st m) st := by
  unfold State.withdraw
  split
  · exact .setImage ..
  · exact .same ..

/-- R18: a channel is free without a selection and without a run that holds it. -/
theorem State.free_iff (s : State) (st : Station) : s.free st = true ↔
    s.channels[st].selection = none ∧ s.runs[st].holds = false := by
  unfold State.free
  simp

/-- R55: a second adoption of a channel finds nothing in the record. -/
theorem PriceTable.withoutChannel_twice (t : PriceTable) (st : Station) :
    (t.withoutChannel st).withoutChannel st = t.withoutChannel st := by
  unfold PriceTable.withoutChannel
  dsimp only
  by_cases h : t.pending = true ∧ (t.record.filter fun x => x != st) = []
  · rw [if_pos h]; simp
  · simp only [if_neg h, List.filter_filter, Bool.and_self]

/-- R55, R56: what an adoption leaves. -/
theorem State.adopt_spec (s : State) (st : Station) :
    s.adopt st = { s with
      channels := modAt s.channels st fun c => { c with pinned := s.price.generation },
      price := s.price.withoutChannel st,
      link := { s.link with flags := (s.adopt st).link.flags } } ∧
    (∀ n : Fin 50, (s.link.flags[n]).pending = true → (s.adopt st).link.flags[n] = s.link.flags[n]) ∧
    (s.price.pending = true → (s.price.withoutChannel st).pending = false →
      ((s.adopt st).link.flags[Flag.adoptionComplete.entry]).pending = true) := by
  unfold State.adopt State.completeAdoption PriceTable.withoutChannel
  simp only [State.onPrice_fields, State.onChannel_fields]
  split
  · next h =>
    refine ⟨?_, fun n hn => (State.raise_pending _ _ _).2 n hn, fun _ _ => (State.raise_pending _ _ _).1⟩
    simp only [State.raise, State.onLink, State.onPrice, State.onChannel, h.2]
  · refine ⟨?_, fun n hn => rfl, fun h1 h2 => ?_⟩
    · simp_all [State.onPrice, State.onChannel]
    · simp_all

/-- R55: a channel in the record adopts when it is free; afterwards a free channel is in no record. -/
theorem State.adoptIfFree_spec (s : State) (st : Station) :
    StationStep s (s.adoptIfFree st) st ∧
    (s.adoptIfFree st).channels[st] = { s.channels[st] with pinned := (s.adoptIfFree st).channels[st].pinned } ∧
    (s.adoptIfFree st).runs = s.runs ∧ (s.adoptIfFree st).totals = s.totals ∧ (s.adoptIfFree st).ports = s.ports ∧
    (s.adoptIfFree st).service = s.service ∧
    (s.free st = true → st ∉ (s.adoptIfFree st).price.record) := by
  by_cases hc : st ∈ s.price.record ∧ s.free st = true
  · have hp : s.adoptIfFree st = s.adopt st := by unfold State.adoptIfFree; rw [if_pos hc]
    have hr := ((State.free_iff s st).1 hc.2).2
    rw [hp]
    obtain ⟨e, f, g⟩ := s.adopt_spec st
    generalize s.adopt st = t at *
    have tc : t.channels[st] = { s.channels[st] with pinned := s.price.generation } := by rw [e]; simp
    have tp : t.price = s.price.withoutChannel st := by rw [e]
    have tr : t.runs = s.runs := by rw [e]
    refine ⟨⟨fun x hx => ?_, by rw [e], ?_, f, fun h => by rw [tr]; exact h, .inr ⟨hc.1, tp, by rw [tc], by rw [tr]; exact hr, g⟩⟩,
      ?_, tr, by rw [e], by rw [e], by rw [e], fun _ => ?_⟩
    · rw [e]; exact ⟨modAt_other _ _ _ _ hx, rfl, rfl⟩
    · have h1 : t.channels = modAt s.channels st fun c => { c with pinned := s.price.generation } := by rw [e]
      have h2 : t.ports = s.ports := by rw [e]
      have h3 : t.totals = s.totals := by rw [e]
      have h4 : t.service = s.service := by rw [e]
      rw [h1, h2, h3, h4, tp, tr]; exact e
    · rw [tc]
    · rw [tp, (PriceTable.record_withoutChannel _ _).1]; simp
  · have e : s.adoptIfFree st = s := by unfold State.adoptIfFree; rw [if_neg hc]
    rw [e]
    exact ⟨.same .., rfl, rfl, rfl, rfl, rfl, fun h g => hc ⟨g, h⟩⟩

/-- R33, R55: what an event leaves that has adopted a channel it left without a selection. -/
theorem StationStep.adoptedIfFree {s t : State} {st : Station} (h : StationStep s t st) (hs : t.channels[st].selection = none)
    (hf : t.free st = true → st ∉ t.price.record) : AdoptedIfFree s t st := by
  unfold AdoptedIfFree
  rcases h.adopts with ⟨p, q⟩ | ⟨p, q, r, i, f⟩
  · rw [if_neg]
    · exact ⟨q, p⟩
    · rintro ⟨a, b, c⟩
      refine hf ((State.free_iff _ _).2 ⟨hs, ?_⟩) (p ▸ a)
      unfold Run.holds
      simp only [Bool.or_eq_false_iff, beq_eq_false_iff_ne]
      exact ⟨b, c⟩
  · rw [if_pos]
    · exact ⟨r, q, f⟩
    · refine ⟨p, ?_⟩
      simpa [Run.holds] using i

/-- R33, log 39: the channel after its selection was cleared. -/
theorem Channel.clearSelection_eq (c : Channel) : c.clearSelection =
    { c with selection := none, returnClear := false, last := c.clearSelection.last, outcome := .noSelection } ∧
    (∀ w r, c.last = some w → c.cal = some r → c.clearSelection.last = some (weighing r w.gross (c.keyedTare.getD 0))) ∧
    (c.last = none ∨ c.cal = none → c.clearSelection.last = c.last) := by
  unfold Channel.clearSelection Channel.reprice Channel.retare
  refine ⟨?_, ?_, ?_⟩
  · split <;> simp_all [Channel.price]
  · intro w r h g
    simp only [h, g]
    unfold Channel.tareInForce
    cases c.keyedTare <;> simp
  · intro h
    rcases h with h | h
    · simp [h]
    · simp only [h]; split <;> simp_all

/-- R11, R36: what writing the display fields leaves. -/
theorem State.refresh_spec (s : State) (st : Station) :
    s.refresh st = { s with ports := (s.refresh st).ports } ∧
    (s.ports[st].state ≠ .present → s.refresh st = s) ∧
    (s.ports[st].state = .present → (s.refresh st).ports[st].image = s.imageOf st) ∧
    (s.refresh st).ports[st].image.message = s.ports[st].image.message := by
  unfold State.refresh
  split
  · next h => exact ⟨rfl, fun g => absurd h g, fun _ => by simp [State.setImage], by simp [State.setImage, State.imageOf]⟩
  · next h => exact ⟨rfl, fun _ => rfl, fun g => absurd g h, rfl⟩

/-- R33: a cleared selection, the weighing without its preset tare, and the adoption of a channel then free. -/
theorem State.clearSelection_spec (s : State) (st : Station) :
    StationStep s (s.clearSelection st) st ∧
    (s.clearSelection st).channels[st] = { s.channels[st].clearSelection with pinned := (s.clearSelection st).channels[st].pinned } ∧
    (s.clearSelection st).runs = s.runs ∧ (s.clearSelection st).totals = s.totals ∧ (s.clearSelection st).service = s.service ∧
    ((s.clearSelection st).free st = true → st ∉ (s.clearSelection st).price.record) ∧
    (s.ports[st].state ≠ .present → (s.clearSelection st).ports = s.ports) := by
  obtain ⟨u, hu⟩ : ∃ u, u = s.onChannel st (·.clearSelection) := ⟨_, rfl⟩
  obtain ⟨v, hv⟩ : ∃ v, v = u.adoptIfFree st := ⟨_, rfl⟩
  obtain ⟨w, hw⟩ : ∃ w, w = v.refresh st := ⟨_, rfl⟩
  have h : s.clearSelection st = w := by rw [hw, hv, hu]; rfl
  obtain ⟨a, a1, a2, a3, a4, a5, a6⟩ := u.adoptIfFree_spec st
  obtain ⟨r, r1, _, _⟩ := v.refresh_spec st
  rw [← hv] at a a1 a2 a3 a4 a5 a6
  rw [← hw] at r r1
  have hsp : StationStep s u st := by rw [hu]; exact .onChannel _ _ _ (by rw [(Channel.clearSelection_eq _).1])
  have uc : u.channels[st] = s.channels[st].clearSelection := by rw [hu]; exact modAt_same _ _ _
  have us : u.channels[st].selection = none := by rw [uc, (Channel.clearSelection_eq _).1]
  have wc : w.channels = v.channels := by rw [r]
  have wp : w.price = v.price := by rw [r]
  have wr : w.runs = v.runs := by rw [r]
  have wt : w.totals = v.totals := by rw [r]
  have ws : w.service = v.service := by rw [r]
  rw [h]
  refine ⟨(hsp.trans a).trans (hw ▸ .refresh ..), ?_, ?_, ?_, ?_, ?_, ?_⟩
  · rw [wc, ← uc]; exact a1
  · rw [wr, a2, hu]; rfl
  · rw [wt, a3, hu]; rfl
  · rw [ws, a5, hu]; rfl
  · intro g
    rw [wp]
    apply a6
    rw [State.free_iff] at g ⊢
    rw [← a2, ← wr]
    exact ⟨us, g.2⟩
  · intro g
    have : v.ports = s.ports := by rw [a4, hu]; rfl
    rw [r1 (by rw [this]; exact g), this]

/-- R138: waiting for room ends, with its message when the field still holds it. -/
theorem State.stopWaiting_spec (s : State) (st : Station) :
    StationStep s (s.stopWaiting st) st ∧ (s.stopWaiting st).runs[st] = { s.runs[st] with waitingRoom := false } ∧
    (s.stopWaiting st).channels = s.channels ∧ (s.stopWaiting st).totals = s.totals ∧ (s.stopWaiting st).link = s.link ∧
    (s.stopWaiting st).service = s.service ∧
    (s.ports[st].image.message ≠ .labelsFull → (s.stopWaiting st).ports = s.ports) := by
  unfold State.stopWaiting
  split
  · refine ⟨(StationStep.onRun _ _ _ id).trans (.withdraw ..), ?_, ?_, ?_, ?_, ?_, fun g => ?_⟩
    all_goals unfold State.withdraw
    iterate 5 split <;> simp [State.setMessage, State.setImage]
    split
    · next h => exact absurd h g
    · rfl
  · next h =>
    refine ⟨.same .., ?_, rfl, rfl, rfl, rfl, fun _ => rfl⟩
    have : s.runs[st].waitingRoom = false := by simpa using h
    rw [← this]

/-- What the clearing of a selection at the end of a run may change in the channel. -/
def Channel.ofRunEnd (c d : Channel) : Prop :=
  d = { c with selection := d.selection, returnClear := d.returnClear, last := d.last, outcome := d.outcome, pinned := d.pinned }

/-- R140: the end of a run completes. -/
theorem State.completeEnd_spec (s : State) (st : Station) :
    StationStep s (s.completeEnd st) st ∧
    (s.completeEnd st).runs[st] = { s.runs[st] with state := if s.runs[st].notify then .doneHeld else .idle } ∧
    (s.completeEnd st).totals = s.totals ∧ (s.completeEnd st).service = s.service ∧
    Channel.ofRunEnd s.channels[st] (s.completeEnd st).channels[st] ∧
    (s.channels[st].selection = none → (s.completeEnd st).ports = s.ports ∧
      (s.completeEnd st).channels[st] = { s.channels[st] with pinned := (s.completeEnd st).channels[st].pinned }) ∧
    (s.runs[st].silent = false → ((s.completeEnd st).link.flags[(Flag.prepackDone st).entry]).pending = true) := by
  obtain ⟨u, hu⟩ : ∃ u, u = s.onRun st (fun r => { r with state := if r.notify then .doneHeld else .idle }) := ⟨_, rfl⟩
  obtain ⟨v, hv⟩ : ∃ v, v = if s.runs[st].silent then u else u.raise (.prepackDone st) s.runs[st].doneBody := ⟨_, rfl⟩
  have e : s.completeEnd st = if v.channels[st].selection.isSome then v.clearSelection st else v.adoptIfFree st := by
    rw [hv, hu]; rfl
  have us : StationStep s u st := by
    rw [hu]; refine .onRun _ _ _ fun _ => ?_
    cases s.runs[st].notify <;> rfl
  have ur : u.runs[st] = { s.runs[st] with state := if s.runs[st].notify then .doneHeld else .idle } := by
    rw [hu]; exact modAt_same _ _ _
  have hvv : StationStep u v st ∧ v.runs = u.runs ∧ v.channels = u.channels ∧ v.ports = u.ports ∧ v.totals = u.totals ∧
      v.service = u.service ∧
      (s.runs[st].silent = false → (v.link.flags[(Flag.prepackDone st).entry]).pending = true) := by
    rw [hv]; split
    · next h => exact ⟨.same .., rfl, rfl, rfl, rfl, rfl, fun g => by rw [g] at h; cases h⟩
    · exact ⟨.raise .., rfl, rfl, rfl, rfl, rfl, fun _ => (State.raise_pending _ _ _).1⟩
  obtain ⟨vs, vr, vc, vp, vt, vsv, vf⟩ := hvv
  have uc : u.channels = s.channels := by rw [hu]; rfl
  have up : u.ports = s.ports := by rw [hu]; rfl
  have ut : u.totals = s.totals := by rw [hu]; rfl
  have usv : u.service = s.service := by rw [hu]; rfl
  by_cases h : v.channels[st].selection.isSome = true
  · rw [if_pos h] at e
    rw [e]
    obtain ⟨c, c1, c2, c3, c4, _, _⟩ := v.clearSelection_spec st
    refine ⟨(us.trans vs).trans c, by rw [c2, vr, ur], by rw [c3, vt, ut], by rw [c4, vsv, usv], ?_, ?_, fun g => c.pending (vf g)⟩
    · unfold Channel.ofRunEnd
      rw [c1, vc, uc]
      conv_lhs => rw [(Channel.clearSelection_eq s.channels[st]).1]
      rw [(Channel.clearSelection_eq s.channels[st]).1]
    · intro g; rw [vc, uc, g] at h; cases h
  · rw [if_neg h] at e
    rw [e]
    obtain ⟨c, c1, c2, c3, c4, c5, _⟩ := v.adoptIfFree_spec st
    refine ⟨(us.trans vs).trans c, by rw [c2, vr, ur], by rw [c3, vt, ut], by rw [c5, vsv, usv], ?_, ?_, fun g => c.pending (vf g)⟩
    · unfold Channel.ofRunEnd
      rw [c1, vc, uc]
    · intro _; exact ⟨by rw [c4, vp, up], by rw [c1, vc, uc]⟩

/-- R140: a run that is asked to end: an ACTIVE one has ended, and the channel may have lost its selection and adopted. -/
theorem State.endRun_spec (s : State) (st : Station) (reason : EndReason) :
    StationStep s (s.endRun st reason) st ∧ RunEnded s (s.endRun st reason) st reason ∧
    (s.endRun st reason).runs[st].state ≠ .active ∧ (s.endRun st reason).service = s.service ∧
    Channel.ofRunEnd s.channels[st] (s.endRun st reason).channels[st] ∧
    (s.channels[st].selection = none →
      (s.endRun st reason).channels[st] = { s.channels[st] with pinned := (s.endRun st reason).channels[st].pinned } ∧
      (s.ports[st].image.message ≠ .labelsFull → (s.endRun st reason).ports = s.ports)) := by
  unfold State.endRun
  split
  next h0 =>
    obtain ⟨w, w1, w2, w3, w4, w5, w6⟩ := s.stopWaiting_spec st
    dsimp only
    generalize hu : (s.stopWaiting st).onRun st (fun r => { r with endReason := some reason, endedAt := s.clock }) = u
    have us : StationStep s u st := w.trans (by rw [← hu]; exact .onRun _ _ _ id)
    have ur : u.runs[st] = { s.runs[st] with waitingRoom := false, endReason := some reason, endedAt := s.link.clock } := by
      rw [← hu]; simp only [State.onRun, modAt_same]; rw [w1]; rfl
    have ut : u.totals = s.totals := by rw [← hu]; exact w3
    have uc : u.channels = s.channels := by rw [← hu]; exact w2
    have uv : u.service = s.service := by rw [← hu]; exact w5
    have up : s.ports[st].image.message ≠ .labelsFull → u.ports = s.ports := by rw [← hu]; exact w6
    have room : u.commitRoom = true ↔ s.totals.commits.length < 8 ∧ s.totals.closing = none := by
      unfold State.commitRoom; rw [ut]; simp [Config.commitQueueMax]
      exact fun _ => decide_eq_true_iff
    have silent : u.runs[st].silent = true ↔ reason = .count ∧ s.runs[st].notify = false := by
      rw [ur]; simp [Run.silent]
    have issued : u.runs[st].issued = s.runs[st].issued := by rw [ur]
    split
    next h1 =>
      rw [issued] at h1
      obtain ⟨c, c1, c2, c3, c4, c5, c6⟩ := u.completeEnd_spec st
      refine ⟨us.trans c, ⟨fun g => absurd h0 g, fun _ => ⟨?_, ?_, fun _ g => c6 ?_⟩⟩, ?_, c3.trans uv, ?_, fun g => ?_⟩
      · rw [c1, ur, if_pos (Or.inl h1)]
      · rw [c2, ut, if_neg (fun g => g.1 h1)]
      · rw [← Bool.not_eq_true, silent]; exact g
      · rw [c1]; dsimp only; split <;> simp
      · rw [uc] at c4; exact c4
      · rw [uc] at c5; exact ⟨(c5 g).2, fun m => (c5 g).1.trans (up m)⟩
    next h1 =>
      rw [issued] at h1
      split
      next h2 =>
        have h2' := room.1 h2
        obtain ⟨c, c1, c2, c3, c4, c5, c6⟩ := (u.pushCommit (u.runs[st].commit st)).completeEnd_spec st
        refine ⟨(us.trans (.pushCommit ..)).trans c, ⟨fun g => absurd h0 g, fun _ => ⟨?_, ?_, fun _ g => c6 ?_⟩⟩, ?_, ?_, ?_, fun g => ?_⟩
        · rw [c1]
          show { u.runs[st] with state := if u.runs[st].notify then .doneHeld else .idle } = _
          rw [ur, if_pos (Or.inr h2')]
        · rw [c2, if_pos ⟨h1, h2'⟩]
          simp only [State.pushCommit, State.onTotals]
          rw [ut, ur]; rfl
        · show u.runs[st].silent = false
          rw [← Bool.not_eq_true, silent]; exact g
        · rw [c1]; dsimp only; split <;> simp
        · rw [c3]; exact uv
        · have : (u.pushCommit (u.runs[st].commit st)).channels = s.channels := uc
          rw [this] at c4; exact c4
        · have : (u.pushCommit (u.runs[st].commit st)).channels = s.channels := uc
          rw [this] at c5; exact ⟨(c5 g).2, fun m => (c5 g).1.trans (up m)⟩
      next h2 =>
        have h2' : ¬(s.totals.commits.length < 8 ∧ s.totals.closing = none) := fun g => h2 (room.2 g)
        have hs : s.runs[st].holds = true := by rw [Run.holds, h0]; rfl
        have ur' : (u.onRun st fun r => { r with state := .ending }).runs[st] = { u.runs[st] with state := .ending } := modAt_same _ _ _
        refine ⟨us.trans (.onRun _ _ _ fun g => ?_), ⟨fun g => absurd h0 g, fun _ => ⟨?_, ?_, fun g => ?_⟩⟩, ?_, ?_, ?_, fun g => ⟨?_, up⟩⟩
        · rw [ur, Run.holds, h0] at g; simp at g
        · rw [ur', ur, if_neg (by rintro (g | g); exacts [h1 g, h2' g])]
        · rw [if_neg (fun g => h2' g.2)]; exact ut
        · rcases g with g | g
          exacts [absurd g h1, absurd g h2']
        · rw [ur']; simp
        · exact uv
        · show Channel.ofRunEnd s.channels[st] u.channels[st]
          rw [uc]; rfl
        · show u.channels[st] = { s.channels[st] with pinned := u.channels[st].pinned }
          rw [uc]
  next h0 =>
    exact ⟨.same .., ⟨fun _ => ⟨rfl, rfl⟩, fun g => absurd g h0⟩, h0, rfl, rfl, fun _ => ⟨rfl, fun _ => rfl⟩⟩

/-- A weighing made afresh hides what the end of a run did to the channel, but for the adoption. -/
theorem Channel.startAfresh_ofRunEnd {c d : Channel} (h : Channel.ofRunEnd c d) (x : WeightState) :
    d.startAfresh x = { c with
      state := x, filter := [], stability := [], zp := none, z := none, last := none, tracking := 0, keyedTare := none,
      selection := none, returnClear := false, armed := false, outcome := .noSelection, pinned := d.pinned } := by
  unfold Channel.ofRunEnd at h
  rw [h]
  rfl

/-- RunEnded speaks of the run, the totals, the clock and the flags alone. -/
theorem RunEnded.congr {s s' t t' : State} {st : Station} {r : EndReason} (h : RunEnded s t st r) (hr : s'.runs[st] = s.runs[st])
    (ht : s'.totals = s.totals) (hc : s'.link.clock = s.link.clock) (gr : t'.runs[st] = t.runs[st]) (gt : t'.totals = t.totals)
    (gf : ∀ n : Fin 50, (t.link.flags[n]).pending = true → (t'.link.flags[n]).pending = true) : RunEnded s' t' st r := by
  unfold RunEnded at h ⊢
  rw [hr, ht, hc, gr, gt]
  exact ⟨h.1, fun g => ⟨(h.2 g).1, (h.2 g).2.1, fun a b => gf _ ((h.2 g).2.2 a b)⟩⟩

/-- R82: logging the clerk of a channel off is `loggedOff`. -/
theorem Service.updateClerk_off (v : Service) (st : Station) :
    (match v.clerkAt st with
     | none => v
     | some c => v.updateClerk c.number fun x => { x with channel := none }) = { v with clerks := loggedOff v st } := by
  unfold loggedOff
  cases h : v.clerkAt st with
  | none => simp
  | some c =>
    simp only [Service.updateClerk, Option.map_some, Option.some.injEq]
    congr 1
    apply List.map_congr_left
    intro x _
    simp only [eq_comm]

/-- R82: a logoff at a station whose port is not PRESENT and whose channel has no selection. -/
theorem State.logOffAt_spec (s : State) (st : Station) (hs : s.channels[st].selection = none) (hl : s.channels[st].last = none)
    (ho : s.channels[st].outcome = .noSelection) (hr : s.channels[st].returnClear = false) (hp : s.ports[st].state ≠ .present)  :
    StationStep s (s.logOffAt st) st ∧ (s.logOffAt st).service = { s.service with clerks := loggedOff s.service st } ∧
    (s.logOffAt st).runs = s.runs ∧ (s.logOffAt st).totals = s.totals ∧ (s.logOffAt st).ports = s.ports ∧
    (s.logOffAt st).channels[st] = { s.channels[st] with pinned := (s.logOffAt st).channels[st].pinned } := by
  have e : (s.logOffAt st) = (match s.service.clerkAt st with
    | none => s
    | some _ => (s.onService fun v => { v with clerks := loggedOff v st }).clerkLost st) := by
    unfold State.logOffAt
    have := Service.updateClerk_off s.service st
    cases h : s.service.clerkAt st with
    | none => rfl
    | some c => rw [h] at this; simp only [State.onService]; simp only at this; rw [this]
  cases h : s.service.clerkAt st with
  | none =>
    rw [h] at e
    rw [e]
    refine ⟨.same .., ?_, rfl, rfl, rfl, rfl⟩
    have := Service.updateClerk_off s.service st
    rw [h] at this
    exact this
  | some c =>
    rw [h] at e
    simp only at e
    generalize hu : (s.onService fun v => { v with clerks := loggedOff v st }) = u at e
    have us : StationStep s u st := by rw [← hu]; exact .onService ..
    have uc : u.channels = s.channels := by rw [← hu]; rfl
    have ur : u.runs = s.runs := by rw [← hu]; rfl
    have ut : u.totals = s.totals := by rw [← hu]; rfl
    have up : u.ports = s.ports := by rw [← hu]; rfl
    have uv : u.service = { s.service with clerks := loggedOff s.service st } := by rw [← hu]; rfl
    rw [e]
    unfold State.clerkLost
    by_cases hh : u.runs[st].holds = true
    · rw [if_pos hh, (u.refresh_spec st).2.1 (by rw [up]; exact hp)]
      exact ⟨us, uv, ur, ut, up, by rw [uc]⟩
    · rw [if_neg hh]
      obtain ⟨c0, c1, c2, c3, c4, _, c6⟩ := u.clearSelection_spec st
      refine ⟨us.trans c0, c4.trans uv, c2.trans ur, c3.trans ut, (c6 (by rw [up]; exact hp)).trans up, ?_⟩
      rw [c1, uc, (Channel.clearSelection_eq _).1, (Channel.clearSelection_eq s.channels[st]).2.2 (.inl hl), hl]
      generalize s.channels[st] = c at *
      cases c
      simp only at hs hl ho hr
      subst hs hl ho hr
      rfl

/-- R7, R21: a port leaves PRESENT, with all effects. -/
theorem State.leavePresent_spec (s : State) (st : Station) (x : PortState) (hx : x ≠ .present) :
    let t := s.leavePresent st x
    t.ports[st] = { s.ports[st] with state := x, lastSeq := none, switch := .unknown, converterFault := false, keypadFault := false,
                                     image := .initial, sampleTimer := false, stateTimer := false } ∧
    t.channels[st] = { s.channels[st] with
      state := .absent, filter := [], stability := [], zp := none, z := none, last := none, tracking := 0, keyedTare := none,
      selection := none, returnClear := false, armed := false, outcome := .noSelection, pinned := t.channels[st].pinned } ∧
    t.runs[st].state ≠ .active ∧ RunEnded s t st .headLost ∧ AdoptedIfFree s t st ∧
    t.service = { s.service with clerks := loggedOff s.service st } ∧
    (t.link.flags[(Flag.headLost st).entry]).pending = true ∧
    t.link.flags[(Flag.headLost st).entry] =
      (s.raise (.headLost st) (encSerial (s.ports[st].serial.getD 0))).link.flags[(Flag.headLost st).entry] ∧
    (∀ x : Station, x ≠ st → t.ports[x] = s.ports[x] ∧ t.channels[x] = s.channels[x] ∧ t.runs[x] = s.runs[x]) ∧
    t.headLines = modAt s.headLines st (fun l => { l with displayOwed := false, beepOwed := false }) ∧
    t = { s with ports := t.ports, headLines := t.headLines, channels := t.channels, price := t.price,
                 service := t.service, runs := t.runs, totals := t.totals, link := { s.link with flags := t.link.flags } } := by
  intro t
  generalize ht : t = t'
  obtain ⟨u, hu⟩ : ∃ u, u = (((s.raise (.headLost st) (encSerial (s.ports[st].serial.getD 0))).onPort st (·.departed x)).onHeadLine st
    fun l => { l with displayOwed := false, beepOwed := false }).onChannel st (·.startAfresh .absent) := ⟨_, rfl⟩
  obtain ⟨v, hv⟩ : ∃ v, v = u.endRun st .headLost := ⟨_, rfl⟩
  obtain ⟨w, hw⟩ : ∃ w, w = v.logOffAt st := ⟨_, rfl⟩
  have he : t' = w.adoptIfFree st := by rw [← ht, hw, hv, hu]; rfl
  have ur : u.runs = s.runs := by rw [hu]; rfl
  have up : u.ports[st] = s.ports[st].departed x := by rw [hu]; exact modAt_same _ _ _
  have ul : u.headLines = modAt s.headLines st (fun l => { l with displayOwed := false, beepOwed := false }) := by rw [hu]; rfl
  have uc : u.channels[st] = s.channels[st].startAfresh .absent := by rw [hu]; exact modAt_same _ _ _
  have uflag : (u.link.flags[(Flag.headLost st).entry]).pending = true := by rw [hu]; exact (State.raise_pending _ _ _).1
  have uraise : u.link.flags[(Flag.headLost st).entry] =
      (s.raise (.headLost st) (encSerial (s.ports[st].serial.getD 0))).link.flags[(Flag.headLost st).entry] := by rw [hu]; rfl
  have uo : ∀ y : Station, y ≠ st → u.channels[y] = s.channels[y] ∧ u.ports[y] = s.ports[y] ∧ u.runs[y] = s.runs[y] := by
    rw [hu]; exact fun y hy => ⟨modAt_other _ _ _ _ hy, modAt_other _ _ _ _ hy, rfl⟩
  have uparts : u = { s with ports := u.ports, headLines := u.headLines, channels := u.channels,
                             link := { s.link with flags := u.link.flags } } := by rw [hu]; rfl
  have uc' : u.channels[st] = { s.channels[st] with
      state := .absent, filter := [], stability := [], zp := none, z := none, last := none, tracking := 0, keyedTare := none,
      selection := none, returnClear := false, armed := false, outcome := .noSelection } := uc
  clear_value t
  clear ht hu uc
  obtain ⟨v1, v2, v3, v4, -, v5⟩ := u.endRun_spec st .headLost
  rw [← hv] at v1 v2 v3 v4 v5
  obtain ⟨v5, v6⟩ := v5 (by rw [uc'])
  have vp : v.ports = u.ports := v6 (by rw [up]; simp [Port.departed, DisplayImage.initial])
  obtain ⟨w1, w2, w3, w4, w5, w6⟩ := v.logOffAt_spec st (by rw [v5, uc']) (by rw [v5, uc']) (by rw [v5, uc']) (by rw [v5, uc'])
    (by rw [vp, up]; exact hx)
  rw [← hw] at w1 w2 w3 w4 w5 w6
  obtain ⟨x1, x2, x3, x4, x5, x6, x7⟩ := w.adoptIfFree_spec st
  rw [← he] at x1 x2 x3 x4 x5 x6 x7
  have all : StationStep u t' st := (v1.trans w1).trans x1
  have ts : t'.channels[st] = { u.channels[st] with pinned := t'.channels[st].pinned } := by rw [x2, w6, v5]
  have us : u.service = s.service := by rw [uparts]
  have ut : u.totals = s.totals := by rw [uparts]
  have uk : u.link.clock = s.link.clock := by rw [uparts]
  have upr : u.price = s.price := by rw [uparts]
  refine ⟨?_, ?_, ?_, ?_, ?_, ?_, all.pending uflag, (all.flags _ uflag).trans uraise, ?_, ?_, ?_⟩
  · rw [x5, w5, vp, up]; rfl
  · rw [ts, uc']
  · rw [x3, w3]; exact v3
  · exact v2.congr (by rw [ur]) ut.symm uk.symm (by rw [x3, w3]) (by rw [x4, w4]) (fun _ => (w1.trans x1).pending)
  · have := all.adoptedIfFree (by rw [ts, uc']) (fun g => x7 (by
      rw [State.free_iff] at g ⊢; rw [← x3]; exact ⟨by rw [w6, v5, uc'], g.2⟩))
    unfold AdoptedIfFree at this ⊢
    rw [upr, uc'] at this
    exact this
  · rw [x6, w2, v4, us]
  · intro y hy
    obtain ⟨a, b, c⟩ := all.others y hy
    obtain ⟨d, e, f⟩ := uo y hy
    exact ⟨b.trans e, a.trans d, c.trans f⟩
  · have : t'.headLines = u.headLines := by rw [all.parts]
    rw [this, ul]
  · have h1 : t'.headLines = u.headLines := by rw [all.parts]
    rw [h1]
    conv_lhs => rw [all.parts, uparts]

/-- R136: only an ACTIVE run is examined. -/
theorem State.examine_not_active {s : State} {st : Station} (h : s.runs[st].state ≠ .active) : s.examine st = s := by
  unfold State.examine
  rw [if_neg h]

/-- R20, R39: the ACTIVE run of a station ended, its weighing afresh in a channel that `f` makes, and the channel, if then free, adopted. -/
theorem State.afresh_spec (s : State) (st : Station) (reason : EndReason) (f : Channel → Channel)
    (hf : ∀ d, Channel.ofRunEnd s.channels[st] d → (f d).pinned = d.pinned ∧ (f d).selection = none) :
    let t := (((s.endRun st reason).onChannel st f).adoptIfFree st).decided st
    StationStep s t st ∧ RunEnded s t st reason ∧ t.runs[st].state ≠ .active ∧ t.service = s.service ∧ AdoptedIfFree s t st ∧
    ∃ d, Channel.ofRunEnd s.channels[st] d ∧ t.channels[st] = { f d with pinned := t.channels[st].pinned } := by
  intro t
  obtain ⟨u, hu⟩ : ∃ u, u = s.endRun st reason := ⟨_, rfl⟩
  obtain ⟨v, hv⟩ : ∃ v, v = u.onChannel st f := ⟨_, rfl⟩
  obtain ⟨w, hw⟩ : ∃ w, w = v.adoptIfFree st := ⟨_, rfl⟩
  obtain ⟨u1, u2, u3, u4, u5, -⟩ := s.endRun_spec st reason
  rw [← hu] at u1 u2 u3 u4 u5
  obtain ⟨h1, h2⟩ := hf _ u5
  have vs : StationStep u v st := by rw [hv]; exact .onChannel _ _ _ h1
  have vc : v.channels[st] = f u.channels[st] := by rw [hv]; exact modAt_same _ _ _
  have vr : v.runs = u.runs := by rw [hv]; rfl
  have vt : v.totals = u.totals := by rw [hv]; rfl
  have vv : v.service = u.service := by rw [hv]; rfl
  obtain ⟨w1, w2, w3, w4, w5, w6, w7⟩ := v.adoptIfFree_spec st
  rw [← hw] at w1 w2 w3 w4 w5 w6 w7
  have rs := w.refresh_spec st
  have et : t = w.refresh st := by
    show State.decided _ st = _
    rw [← hu, ← hv, ← hw]
    unfold State.decided
    apply State.examine_not_active
    rw [rs.1]
    show w.runs[st].state ≠ .active
    rw [w3, vr]; exact u3
  rw [← et] at rs
  have r0 := rs.1
  clear_value t
  have tr : t.runs = w.runs := by rw [r0]
  have tt : t.totals = w.totals := by rw [r0]
  have tc : t.channels = w.channels := by rw [r0]
  have tv : t.service = w.service := by rw [r0]
  have tp : t.price = w.price := by rw [r0]
  have all : StationStep u t st := (vs.trans w1).trans (et ▸ .refresh ..)
  have hsel : t.channels[st].selection = none := by rw [tc, w2, vc]; exact h2
  refine ⟨u1.trans all, ?_, ?_, ?_, ?_, u.channels[st], u5, ?_⟩
  · exact u2.congr rfl rfl rfl (by rw [tr, w3, vr]) (by rw [tt, w4, vt]) (fun _ => all.pending)
  · rw [tr, w3, vr]; exact u3
  · rw [tv, w6, vv]; exact u4
  · refine (u1.trans all).adoptedIfFree hsel fun g => ?_
    rw [tp]
    apply w7
    rw [State.free_iff] at g ⊢
    rw [← w3, ← tr]
    exact ⟨by rw [vc]; exact h2, g.2⟩
  · rw [tc, w2, vc]

/-- R82: the clerk logged off has no channel. -/
theorem loggedOff_none {v : Service} {st : Station} {c x : Clerk} (h : v.clerkAt st = some c) (hx : x ∈ loggedOff v st)
    (hn : x.number = c.number) : x.channel = none := by
  unfold loggedOff at hx
  obtain ⟨y, -, rfl⟩ := List.mem_map.1 hx
  simp only [h, Option.map_some, Option.some.injEq] at hn ⊢
  split
  · rfl
  · next g => rw [if_neg g] at hn; exact absurd hn.symm g

end Sys2Proof.Machine
end

