-- ==== Sys2Proof/Laws/Clerks.lean ====
section
/-! SUPPORT. Laws/Clerks: the display fields as their owners give them, and what a forced adoption, the loss of a clerk and a clerk's
logon leave at the stations they act at. -/

namespace Sys2Proof.Machine

/-- R36: display fields written agree with their owners: writing them again changes nothing. -/
theorem State.refresh_iff (s : State) (st : Station) :
    s.refresh st = s ↔ (s.ports[st].state = .present → s.ports[st].image = s.imageOf st) := by
  unfold State.refresh
  split
  · next h =>
    refine ⟨fun g _ => ?_, fun g => ?_⟩
    · have : (s.setImage st (s.imageOf st)).ports[st].image = s.ports[st].image := by rw [g]
      rw [← this]
      simp [State.setImage]
    · unfold State.setImage State.onPort
      rw [modAt_unchanged]
      rw [← g h]
  · next h => exact ⟨fun _ g => absurd g h, fun _ => rfl⟩

/-- R36: what the image of a station depends on. -/
theorem State.imageOf_congr {s t : State} {st : Station} (hc : ∃ g, t.channels[st] = { s.channels[st] with pinned := g })
    (hf : t.ports[st].converterFault = s.ports[st].converterFault) (hm : t.ports[st].image.message = s.ports[st].image.message)
    (hv : t.service.clerks = s.service.clerks) (hp : t.pool = s.pool) : t.imageOf st = s.imageOf st := by
  obtain ⟨g, hc⟩ := hc
  unfold State.imageOf State.shownTicket State.current Service.clerkAt
  rw [hc, hf, hm, hv, hp]
  rfl

/-- R36: the display fields written twice are the display fields written once. -/
theorem State.refresh_refresh (s : State) (st : Station) : (s.refresh st).refresh st = s.refresh st := by
  rw [State.refresh_iff]
  intro h
  obtain ⟨a, b, c, d⟩ := s.refresh_spec st
  have hp := (StationStep.refresh s st).port
  have hs : s.ports[st].state = .present := by rw [hp] at h; exact h
  rw [c hs]
  refine (State.imageOf_congr ⟨s.channels[st].pinned, ?_⟩ ?_ d ?_ ?_).symm
  · rw [a]
  · rw [hp]
  · rw [a]
  · rw [a]

/-- R78, R36: a station that no clerk is logged on at shows no clerk and no ticket. -/
theorem State.refresh_no_clerk {t : State} {st : Station} (h : t.refresh st = t) (hp : t.ports[st].state = .present)
    (hc : t.service.clerkAt st = none) : t.ports[st].image.clerk = none ∧ t.ports[st].image.ticket = none := by
  rw [(State.refresh_iff t st).1 h hp]
  simp [State.imageOf, State.shownTicket, hc]

/-- R36: a message set keeps the display fields as their owners give them. -/
theorem State.refresh_setMessage {s : State} {st : Station} (m : Message) (h : s.refresh st = s) :
    (s.setMessage st m).refresh st = s.setMessage st m := by
  rw [State.refresh_iff] at h ⊢
  intro g
  have hp : (s.setMessage st m).ports[st] = { s.ports[st] with image := { s.ports[st].image with message := m } } := modAt_same _ _ _
  have hs : s.ports[st].state = .present := by rw [hp] at g; exact g
  rw [hp]
  unfold State.imageOf State.shownTicket
  rw [hp]
  dsimp only
  rw [h hs]
  rfl

/-- R33, log 39: the channel of `clearSelection`, and of an adoption after it. -/
theorem SelectionCleared.of_clearSelection {c d : Channel} {g : Nat} (h : d = { c.clearSelection with pinned := g }) :
    SelectionCleared c d := by
  obtain ⟨a, b, e⟩ := c.clearSelection_eq
  subst h
  refine ⟨?_, b, e⟩
  conv_lhs => rw [a]

/-- R33: a cleared selection, the adoption of a channel then free, and the display fields as their owners give them. -/
theorem State.clearSelection_left (s : State) (st : Station) :
    SelectionCleared s.channels[st] (s.clearSelection st).channels[st] ∧ AdoptedIfFree s (s.clearSelection st) st ∧
    (s.clearSelection st).refresh st = s.clearSelection st := by
  obtain ⟨a, b, -, -, -, c, -⟩ := s.clearSelection_spec st
  have hc := SelectionCleared.of_clearSelection b
  refine ⟨hc, a.adoptedIfFree (by rw [hc.1]) c, ?_⟩
  exact State.refresh_refresh _ _

/-- R140: the end of a run clears a selection that is there, once it is complete. -/
theorem State.endRun_selected (s : State) (st : Station) (reason : EndReason) (h : s.channels[st].selection ≠ none) :
    (s.endRun st reason).channels[st] = s.channels[st] ∨
    (SelectionCleared s.channels[st] (s.endRun st reason).channels[st] ∧
      (s.endRun st reason).refresh st = s.endRun st reason) := by
  have complete : ∀ u : State, u.channels = s.channels →
      SelectionCleared s.channels[st] (u.completeEnd st).channels[st] ∧ (u.completeEnd st).refresh st = u.completeEnd st := by
    intro u hu
    obtain ⟨v, hv, hc⟩ : ∃ v : State, v.channels = s.channels ∧ u.completeEnd st = v.clearSelection st := by
      unfold State.completeEnd
      dsimp only
      rw [if_pos]
      · refine ⟨_, ?_, rfl⟩; split <;> exact hu
      · have : s.channels[st].selection.isSome = true := Option.isSome_iff_ne_none.2 h
        rw [← hu] at this
        split <;> exact this
    rw [hc, ← hv]
    exact ⟨(v.clearSelection_left st).1, (v.clearSelection_left st).2.2⟩
  have wait : (s.stopWaiting st).channels = s.channels := (s.stopWaiting_spec st).2.2.1
  unfold State.endRun
  split
  · dsimp only
    split
    · exact .inr (complete _ wait)
    · split
      · exact .inr (complete _ wait)
      · exact .inl (congrArg (·[st]) wait)
  · exact .inl rfl

/-- R57: a channel of the record that FORCE_ADOPTION takes. -/
theorem State.forceChannel_spec (s : State) (st : Station) :
    let t := s.forceChannel st
    RunEnded s t st .priceForced ∧ t.runs[st].state ≠ .active ∧
    (s.channels[st].selection = none → t.channels[st] = { s.channels[st] with pinned := s.price.generation }) ∧
    (s.channels[st].selection ≠ none → SelectionCleared s.channels[st] t.channels[st] ∧ t.refresh st = t) ∧
    t.channels[st].pinned = s.price.generation ∧ t.price = s.price.withoutChannel st ∧
    (s.price.pending = true → t.price.pending = false → (t.link.flags[Flag.adoptionComplete.entry]).pending = true) ∧
    t.ports[st] = { s.ports[st] with image := t.ports[st].image } ∧ t.ports[st].image.message = .priceChanged ∧
    (∀ x : Station, x ≠ st → t.channels[x] = s.channels[x] ∧ t.ports[x] = s.ports[x] ∧ t.runs[x] = s.runs[x]) ∧
    t = { s with ports := t.ports, channels := t.channels, price := t.price, runs := t.runs, totals := t.totals,
                 link := { s.link with flags := t.link.flags } } := by
  intro t
  obtain ⟨u, hu⟩ : ∃ u, u = s.endRun st .priceForced := ⟨_, rfl⟩
  obtain ⟨v, hv⟩ : ∃ v, v = if u.channels[st].selection.isSome then u.clearSelection st else u := ⟨_, rfl⟩
  obtain ⟨w, hw⟩ : ∃ w, w = v.setMessage st .priceChanged := ⟨_, rfl⟩
  obtain ⟨u1, u2, u3, u4, -, u5⟩ := s.endRun_spec st .priceForced
  have u6 := s.endRun_selected st .priceForced
  rw [← hu] at u1 u2 u3 u4 u5 u6
  have hvv : StationStep u v st ∧ v.runs = u.runs ∧ v.totals = u.totals ∧ v.service = u.service ∧
      (u.channels[st].selection = none → v = u) ∧
      (u.channels[st].selection ≠ none → SelectionCleared u.channels[st] v.channels[st] ∧ v.refresh st = v) := by
    rw [hv]
    by_cases g : u.channels[st].selection.isSome = true
    · rw [if_pos g]
      obtain ⟨a, -, b, c, d, -, -⟩ := u.clearSelection_spec st
      refine ⟨a, b, c, d, fun e => ?_, fun _ => ⟨(u.clearSelection_left st).1, (u.clearSelection_left st).2.2⟩⟩
      rw [e] at g; cases g
    · rw [if_neg g]
      exact ⟨.same .., rfl, rfl, rfl, fun _ => rfl, fun e => absurd (Option.isSome_iff_ne_none.2 e) g⟩
  obtain ⟨v1, v2, v3, v4, v5, v6⟩ := hvv
  have w1 : StationStep v w st := hw ▸ .setImage ..
  have wc : w.channels = v.channels := by rw [hw]; rfl
  have wr : w.runs = v.runs := by rw [hw]; rfl
  have wt : w.totals = v.totals := by rw [hw]; rfl
  have wv : w.service = v.service := by rw [hw]; rfl
  have wm : w.ports[st].image.message = .priceChanged := by rw [hw]; simp [State.setMessage, State.setImage]
  have all := (u1.trans v1).trans w1
  have et : t = w.adopt st := by rw [hw, hv, hu]; rfl
  obtain ⟨a1, a2, a3⟩ := w.adopt_spec st
  rw [← et] at a1 a2 a3
  have tc : t.channels = modAt w.channels st fun c => { c with pinned := w.price.generation } := by rw [a1]
  have tp : t.price = w.price.withoutChannel st := by rw [a1]
  have tr : t.runs = w.runs := by rw [a1]
  have tt : t.totals = w.totals := by rw [a1]
  have tq : t.ports = w.ports := by rw [a1]
  have tv : t.service = w.service := by rw [a1]
  have tx : t.pool = w.pool := by rw [a1]
  clear_value t
  have hw' := hw
  clear hu hv
  -- the table: at most one adoption counts
  have hprice : w.price.generation = s.price.generation ∧ t.price = s.price.withoutChannel st ∧
      (s.price.pending = true → t.price.pending = false → (t.link.flags[Flag.adoptionComplete.entry]).pending = true) := by
    rcases all.adopts with ⟨p, -⟩ | ⟨-, p, -, -, f⟩
    · rw [p] at tp a3
      exact ⟨by rw [p], tp, fun x y => a3 x (by rw [← tp]; exact y)⟩
    · rw [p, PriceTable.withoutChannel_twice] at tp
      refine ⟨by rw [p, (PriceTable.record_withoutChannel _ _).2], tp, fun x y => ?_⟩
      rw [tp] at y
      have := f x y
      rw [a2 _ this]; exact this
  obtain ⟨hg, hp1, hp2⟩ := hprice
  have tcs : t.channels[st] = { w.channels[st] with pinned := s.price.generation } := by rw [tc, modAt_same, hg]
  have flags : ∀ n : Fin 50, (w.link.flags[n]).pending = true → (t.link.flags[n]).pending = true := fun n hn => by
    rw [a2 n hn]; exact hn
  refine ⟨?_, ?_, ?_, ?_, by rw [tcs], hp1, hp2, ?_, by rw [tq]; exact wm, ?_, ?_⟩
  · exact u2.congr rfl rfl rfl (by rw [tr, wr, v2]) (by rw [tt, wt, v3]) fun n hn => flags n ((v1.trans w1).pending hn)
  · rw [tr, wr, v2]; exact u3
  · intro g
    obtain ⟨b, -⟩ := u5 g
    have : v = u := v5 (by rw [b]; exact g)
    rw [tcs, wc, this, b]
  · intro g
    have hcl : SelectionCleared s.channels[st] v.channels[st] ∧ v.refresh st = v := by
      rcases u6 g with b | ⟨b, c⟩
      · have := v6 (by rw [b]; exact g)
        rw [b] at this; exact this
      · have : v = u := v5 (by rw [b.1])
        rw [this]; exact ⟨b, c⟩
    refine ⟨?_, ?_⟩
    · rw [tcs, wc]
      obtain ⟨⟨b1, b2, b3⟩, -⟩ := hcl
      refine ⟨?_, b2, b3⟩
      conv_lhs => rw [b1]
    · have hwr : w.refresh st = w := by rw [hw']; exact State.refresh_setMessage _ hcl.2
      rw [State.refresh_iff] at hwr ⊢
      rw [tq]
      intro e
      rw [hwr e]
      exact (State.imageOf_congr ⟨s.price.generation, tcs⟩ (by rw [tq]) (by rw [tq]) (by rw [tv]) tx).symm
  · rw [tq]; exact all.port
  · intro x hx
    obtain ⟨b, c, d⟩ := all.others x hx
    refine ⟨?_, by rw [tq]; exact c, by rw [tr]; exact d⟩
    rw [tc, modAt_other _ _ _ _ hx]; exact b
  · have hsv : t.service = s.service := by rw [tv, wv, v4, u4]
    have e := all.parts
    rw [← wv] at v4
    rw [v4, u4] at e
    rw [a1]
    conv_lhs => rw [e]

/-- R82, R33, R55: what the loss of its clerk leaves of a station. -/
theorem State.clerkLost_spec (s : State) (st : Station) :
    StationStep s (s.clerkLost st) st ∧ ClerkLeft s (s.clerkLost st) st ∧ (s.clerkLost st).runs = s.runs ∧
    (s.clerkLost st).totals = s.totals ∧ (s.clerkLost st).service = s.service := by
  unfold State.clerkLost
  split
  · next h =>
    have a := StationStep.refresh s st
    obtain ⟨b, -, -, c⟩ := s.refresh_spec st
    refine ⟨a, ⟨fun _ => by rw [b], fun g => by rw [h] at g; (cases g), ?_, State.refresh_refresh _ _, a.port, c,
      fun x hx => ⟨(a.others x hx).1, (a.others x hx).2.1⟩⟩, by rw [b], by rw [b], by rw [b]⟩
    unfold AdoptedIfFree
    rw [if_neg]
    · rw [b]; exact ⟨rfl, rfl⟩
    · rw [b]
      rintro ⟨-, g, k⟩
      rcases (by simpa [Run.holds] using h : s.runs[st].state = .active ∨ s.runs[st].state = .ending) with h | h
      exacts [g h, k h]
  · next h =>
    obtain ⟨a, -, b, c, d, -, -⟩ := s.clearSelection_spec st
    obtain ⟨e, f, g⟩ := s.clearSelection_left st
    refine ⟨a, ⟨fun k => absurd k h, fun _ => e, f, g, a.port, ?_, fun x hx => ⟨(a.others x hx).1, (a.others x hx).2.1⟩⟩,
      b, c, d⟩
    show (State.refresh _ st).ports[st].image.message = _
    rw [(State.refresh_spec _ st).2.2.2]
    have : ((s.onChannel st (·.clearSelection)).adoptIfFree st).ports = s.ports := (State.adoptIfFree_spec _ st).2.2.2.2.1
    rw [this]

/-- R82: a logoff at a station, its port in whatever state: the clerk is logged off, and what is left of the station is as `ClerkLeft`
says; the display shows no clerk when no second clerk stood there. -/
theorem State.logOffAt_left (s : State) (st : Station) (c : Clerk) (h : s.service.clerkAt st = some c) :
    StationStep s (s.logOffAt st) st ∧ ClerkLeft s (s.logOffAt st) st ∧ (s.logOffAt st).runs = s.runs ∧
    (s.logOffAt st).totals = s.totals ∧ (s.logOffAt st).service = { s.service with clerks := loggedOff s.service st } := by
  have e : s.logOffAt st = (s.onService fun v => { v with clerks := loggedOff v st }).clerkLost st := by
    unfold State.logOffAt
    have := Service.updateClerk_off s.service st
    rw [h] at this ⊢
    simp only [State.onService]
    simp only at this
    rw [this]
  rw [e]
  obtain ⟨a, b, d, f, g⟩ := (s.onService fun v => { v with clerks := loggedOff v st }).clerkLost_spec st
  exact ⟨(StationStep.onService s st _).trans a, b, d, f, g⟩

/-- R78: with no two clerks on one channel, a logged off station has no clerk. -/
theorem clerkAt_loggedOff {v : Service} {st : Station}
    (h : v.clerks.Pairwise fun c d => c.number < d.number ∧ (c.channel = none ∨ c.channel ≠ d.channel)) :
    Service.clerkAt { v with clerks := loggedOff v st } st = none := by
  unfold Service.clerkAt
  rw [List.find?_eq_none]
  intro x hx
  unfold loggedOff at hx
  obtain ⟨y, hy, rfl⟩ := List.mem_map.1 hx
  split
  · simp
  · next g =>
    intro k
    have k : y.channel = some st := by simpa using k
    have : (v.clerkAt st).isSome = true := by
      unfold Service.clerkAt
      rw [List.find?_isSome]
      exact ⟨y, hy, by simp [k]⟩
    obtain ⟨c, hc⟩ := Option.isSome_iff_exists.1 this
    have hm : c ∈ v.clerks := List.mem_of_find?_eq_some hc
    have hch : c.channel = some st := by have := List.find?_some hc; simpa using this
    rw [hc] at g
    simp only [Option.map_some, Option.some.injEq] at g
    have : ∀ l : List Clerk, l.Pairwise (fun c d => c.number < d.number ∧ (c.channel = none ∨ c.channel ≠ d.channel)) →
        c ∈ l → y ∈ l → c = y := by
      intro l
      induction l with
      | nil => intro _ a; cases a
      | cons z l ih =>
        intro a b d
        rw [List.pairwise_cons] at a
        rw [List.mem_cons] at b d
        rcases b with rfl | b
        · rcases d with rfl | d
          · rfl
          · have := (a.1 _ d).2; simp [hch, k] at this
        · rcases d with rfl | d
          · have := (a.1 _ b).2; simp [hch, k] at this
          · exact ih a.2 b d
    exact g (by rw [this _ h hm hy])

/-- Beginning the next frames and answering leave what a lost clerk leaves. -/
theorem ClerkLeft.congr {s t u : State} {st : Station} (h : ClerkLeft s t st) (hp : u.ports = t.ports) (hc : u.channels = t.channels)
    (ht : u.price = t.price) (hr : u.runs[st] = t.runs[st])
    (hv : u.service.clerks = t.service.clerks ∨ (u.service.clerkAt st = none ∧ t.service.clerkAt st = none)) (hl : u.pool = t.pool)
    (hf : u.link.flags = t.link.flags) : ClerkLeft s u st := by
  obtain ⟨a, b, c, d, e, f, g⟩ := h
  unfold ClerkLeft
  rw [hc, hp]
  refine ⟨a, b, ?_, ?_, e, f, g⟩
  · unfold AdoptedIfFree at c ⊢
    rw [hc, ht, hr, hf]; exact c
  · rw [State.refresh_iff] at d ⊢
    intro k
    rw [hp] at k ⊢
    rw [d k]
    rcases hv with hv | ⟨hv, hv'⟩
    · exact (State.imageOf_congr ⟨t.channels[st].pinned, by rw [hc]⟩ (by rw [hp]) (by rw [hp]) hv hl).symm
    · unfold State.imageOf State.shownTicket
      rw [hv, hv', hp, hc]; rfl

/-- R81: what its clerk's logon elsewhere leaves of a station: as `clerkLost`, the weighing not touched. -/
theorem State.clerkMoved_spec (s : State) (st : Station) :
    let t := s.clerkMoved st
    StationStep s t st ∧ AdoptedIfFree s t st ∧ t.refresh st = t ∧ t.ports[st].image.message = s.ports[st].image.message ∧
    (s.runs[st].holds = true → t.channels[st] = s.channels[st]) ∧
    (s.runs[st].holds = false → t.channels[st] = { s.channels[st] with
      selection := none, returnClear := false, outcome := .noSelection, pinned := t.channels[st].pinned }) ∧
    t.runs = s.runs ∧ t.totals = s.totals ∧ t.service = s.service := by
  intro t
  have et : t = if s.runs[st].holds then s.refresh st else s.dropSelection st := rfl
  clear_value t
  by_cases h : s.runs[st].holds = true
  · rw [if_pos h] at et
    obtain ⟨b, -, -, c⟩ := s.refresh_spec st
    rw [← et] at b c
    refine ⟨et ▸ .refresh .., ?_, et ▸ State.refresh_refresh _ _, c, fun _ => by rw [b],
      fun g => (by rw [h] at g; cases g), by rw [b], by rw [b], by rw [b]⟩
    unfold AdoptedIfFree
    rw [if_neg]
    · rw [b]; exact ⟨rfl, rfl⟩
    · rw [b]
      rintro ⟨-, g, k⟩
      rcases (by simpa [Run.holds] using h : s.runs[st].state = .active ∨ s.runs[st].state = .ending) with h | h
      exacts [g h, k h]
  · rw [if_neg h] at et
    obtain ⟨u, hu⟩ : ∃ u, u = s.onChannel st (·.dropSelection) := ⟨_, rfl⟩
    obtain ⟨v, hv⟩ : ∃ v, v = u.adoptIfFree st := ⟨_, rfl⟩
    have et : t = v.refresh st := by rw [et, hv, hu]; rfl
    have us : StationStep s u st := hu ▸ .onChannel _ _ _ rfl
    have uc : u.channels[st] = s.channels[st].dropSelection := by rw [hu]; exact modAt_same _ _ _
    obtain ⟨a, a1, a2, a3, a4, a5, a6⟩ := u.adoptIfFree_spec st
    rw [← hv] at a a1 a2 a3 a4 a5 a6
    obtain ⟨b, -, -, c⟩ := v.refresh_spec st
    rw [← et] at b c
    have ur : u.runs = s.runs := by rw [hu]; rfl
    have ut : u.totals = s.totals := by rw [hu]; rfl
    have uv : u.service = s.service := by rw [hu]; rfl
    have up : u.ports = s.ports := by rw [hu]; rfl
    have tc : t.channels = v.channels := by rw [b]
    have tr : t.runs = v.runs := by rw [b]
    have tt : t.totals = v.totals := by rw [b]
    have tv : t.service = v.service := by rw [b]
    have tp : t.price = v.price := by rw [b]
    have all : StationStep s t st := (us.trans a).trans (et ▸ .refresh ..)
    have hsel : t.channels[st] = { s.channels[st] with
      selection := none, returnClear := false, outcome := .noSelection, pinned := t.channels[st].pinned } := by
      rw [tc]
      conv_lhs => rw [a1, uc]
      rfl
    refine ⟨all, all.adoptedIfFree (by rw [hsel]) fun g => ?_, et ▸ State.refresh_refresh _ _, ?_,
      fun g => absurd g h, fun _ => hsel, by rw [tr, a2, ur], by rw [tt, a3, ut], by rw [tv, a5, uv]⟩
    · rw [tp]; apply a6
      rw [State.free_iff] at g ⊢
      rw [ur]
      refine ⟨by rw [uc]; rfl, by simpa using h⟩
    · rw [c, a4, up]

/-- R55: what a lost or moved clerk leaves of the table. -/
theorem AdoptedIfFree.table {s t : State} {st : Station} (h : AdoptedIfFree s t st) (hr : t.runs[st] = s.runs[st]) :
    t.price = (if st ∈ s.price.record ∧ s.runs[st].holds = false then s.price.withoutChannel st else s.price) ∧
    t.channels[st].pinned = (if st ∈ s.price.record ∧ s.runs[st].holds = false then s.price.generation else s.channels[st].pinned) ∧
    (s.price.pending = true → t.price.pending = false → (t.link.flags[Flag.adoptionComplete.entry]).pending = true) := by
  unfold AdoptedIfFree at h
  rw [hr] at h
  have e : (s.runs[st].state ≠ .active ∧ s.runs[st].state ≠ .ending) ↔ s.runs[st].holds = false := by
    unfold Run.holds; simp
  split at h
  all_goals
    rename_i g
    rw [e] at g
  · rw [if_pos g, if_pos g]; obtain ⟨a, b, c⟩ := h; exact ⟨b, a, fun x y => c x (by rw [← b]; exact y)⟩
  · rw [if_neg g, if_neg g]; exact ⟨h.2, h.1, fun x y => by rw [h.2, x] at y; cases y⟩

/-- R81, R33, R55: what a clerk's logon leaves: the clerk moved, another clerk's place at the station and the place the clerk comes from
left, each of these channels, then free, adopted, and both stations' display fields as their owners give them. -/
theorem State.logOn_spec (s : State) (st : Station) (n : Nat) (old : Option Station) (hn : old ≠ some st) :
    let t := s.logOn st n old
    let freed := (if (s.service.clerkAt st).isSome = true ∧ s.runs[st].holds = false then [st] else [])
           ++ old.toList.filter fun o => !s.runs[o].holds
    t.service = { s.service with clerks := s.service.clerks.map fun x =>
          if x.number = n then { x with channel := some st }
          else if x.channel = (some st) then { x with channel := none } else x } ∧
    t.price = (freed.filter fun x => x ∈ s.price.record).foldl PriceTable.withoutChannel s.price ∧
    (∀ x ∈ freed, t.channels[x].pinned = if x ∈ s.price.record then s.price.generation else s.channels[x].pinned) ∧
    (s.price.pending = true → t.price.pending = false → (t.link.flags[Flag.adoptionComplete.entry]).pending = true) ∧
    ((s.service.clerkAt st).isSome = true → s.runs[st].holds = false → SelectionCleared s.channels[st] t.channels[st]) ∧
    (s.service.clerkAt st = none ∨ s.runs[st].holds = true → t.channels[st] = s.channels[st]) ∧
    (∀ x : Station, x ≠ st → old ≠ some x → t.channels[x] = s.channels[x] ∧ t.ports[x] = s.ports[x]) ∧
    (∀ x : Station, x = st ∨ old = some x → t.refresh x = t ∧
      t.ports[x] = { s.ports[x] with image := t.ports[x].image } ∧
      t.ports[x].image.message = s.ports[x].image.message) ∧
    (∀ o, old = some o →
      (s.runs[o].holds = false → t.channels[o] = { s.channels[o] with
        selection := none, returnClear := false, outcome := .noSelection, pinned := t.channels[o].pinned }) ∧
      (s.runs[o].holds = true → t.channels[o] = s.channels[o])) ∧
    t = { s with ports := t.ports, channels := t.channels, price := t.price,
                 service := t.service, link := { s.link with flags := t.link.flags } } := by
  intro t freed
  obtain ⟨u, hu⟩ : ∃ u, u = s.onService fun v =>
    { v with clerks := v.clerks.map fun c =>
        if c.number = n then { c with channel := some st } else if c.channel = some st then { c with channel := none } else c } :=
    ⟨_, rfl⟩
  obtain ⟨v, hv⟩ : ∃ v, v = if (s.service.clerkAt st).isSome then u.clerkLost st else u := ⟨_, rfl⟩
  obtain ⟨w, hw⟩ : ∃ w, w = match old with | none => v | some o => v.clerkMoved o := ⟨_, rfl⟩
  have et : t = w.refresh st := by rw [hw, hv, hu]; rfl
  clear_value t
  have u1 : u.price = s.price ∧ u.channels = s.channels ∧ u.ports = s.ports ∧ u.runs = s.runs ∧ u.totals = s.totals ∧
      u.link = s.link ∧ u.pool = s.pool := by
    rw [hu]; exact ⟨rfl, rfl, rfl, rfl, rfl, rfl, rfl⟩
  have us : u.service = { s.service with clerks := s.service.clerks.map fun x =>
          if x.number = n then { x with channel := some st }
          else if x.channel = (some st) then { x with channel := none } else x } := by rw [hu]; rfl
  have uparts : u = { s with service := u.service } := by rw [hu]; rfl
  obtain ⟨u1, u2, u3, u4, u5, u6, u7⟩ := u1
  -- the station the clerk arrives at
  have hv' : StationStep u v st ∧ v.runs = u.runs ∧ v.totals = u.totals ∧ v.service = u.service ∧
      v.price = (if st ∈ s.price.record ∧ ((s.service.clerkAt st).isSome = true ∧ s.runs[st].holds = false)
        then s.price.withoutChannel st else s.price) ∧
      ((s.service.clerkAt st).isSome = true ∧ s.runs[st].holds = false → v.channels[st].pinned =
        if st ∈ s.price.record then s.price.generation else s.channels[st].pinned) ∧
      (s.price.pending = true → v.price.pending = false → (v.link.flags[Flag.adoptionComplete.entry]).pending = true) ∧
      ((s.service.clerkAt st).isSome = true → s.runs[st].holds = false → SelectionCleared s.channels[st] v.channels[st]) ∧
      (s.service.clerkAt st = none ∨ s.runs[st].holds = true → v.channels[st] = s.channels[st]) ∧
      v.ports[st].image.message = s.ports[st].image.message := by
    rw [hv]
    by_cases g : (s.service.clerkAt st).isSome = true
    · rw [if_pos g]
      obtain ⟨a, ⟨b1, b2, b3, b4, b5, b6, b7⟩, c, d, e⟩ := u.clerkLost_spec st
      obtain ⟨f1, f2, f3⟩ := b3.table (by rw [c])
      rw [u1, u4] at f1 f2
      rw [u1] at f3
      rw [u2] at b1 b2 f2
      rw [u4] at b1 b2
      rw [u3] at b6
      refine ⟨a, c, d, e, by simpa [g] using f1, fun h => by rw [f2]; simp only [h.2, and_true], f3, fun _ => b2, fun h => ?_, b6⟩
      rcases h with h | h
      · rw [h] at g; cases g
      · exact b1 h
    · rw [if_neg g]
      refine ⟨.same .., rfl, rfl, rfl, by simpa [g] using u1, fun h => absurd h.1 g, fun h k => ?_,
        fun h => absurd h g, fun _ => by rw [u2], by rw [u3]⟩
      rw [u1, h] at k; cases k
  clear hv
  obtain ⟨v1, v2, v3, v4, v5, v6, v7, v8, v9, v10⟩ := hv'
  have vrec : v.price.generation = s.price.generation ∧
      ∀ o : Station, o ≠ st → (o ∈ v.price.record ↔ o ∈ s.price.record) := by
    rw [v5]; split
    · refine ⟨(PriceTable.record_withoutChannel _ _).2, fun o ho => ?_⟩
      rw [(PriceTable.record_withoutChannel _ _).1]; simp [ho]
    · exact ⟨rfl, fun _ _ => Iff.rfl⟩
  obtain ⟨r1, -, -, r4⟩ := w.refresh_spec st
  rw [← et] at r1 r4
  have tst : StationStep w t st := et ▸ .refresh ..
  have tref : t.refresh st = t := et ▸ State.refresh_refresh _ _
  have tc : t.channels = w.channels := by rw [r1]
  have tp : t.price = w.price := by rw [r1]
  have tl : t.link = w.link := by rw [r1]
  have tv : t.service = w.service := by rw [r1]
  have tx : t.pool = w.pool := by rw [r1]
  cases old with
  | none =>
    have hw : w = v := hw
    subst hw
    have hf : freed = if (s.service.clerkAt st).isSome = true ∧ s.runs[st].holds = false then [st] else [] := by
      show _ ++ [] = _; simp
    rw [hf]
    have tpr := (v1.trans tst).parts
    have hr : t.runs = s.runs := by rw [r1]; rw [v2, u4]
    have ht : t.totals = s.totals := by rw [r1]; rw [v3, u5]
    refine ⟨by rw [tv, v4, us], ?_, ?_, ?_, ?_, ?_, ?_, ?_, fun o ho => (by cases ho), ?_⟩
    · rw [tp, v5]
      by_cases g : (s.service.clerkAt st).isSome = true ∧ s.runs[st].holds = false
      · rw [if_pos g]
        by_cases k : st ∈ s.price.record
        · rw [if_pos ⟨k, g⟩]; simp [k]
        · rw [if_neg (fun h => k h.1)]; simp [k]
      · rw [if_neg (fun h => g h.2), if_neg g]; rfl
    · intro x hx
      split at hx
      · next g => rw [List.mem_singleton] at hx; subst hx; rw [tc]; exact v6 g
      · cases hx
    · rw [tp, tl]; exact v7
    · rw [tc]; exact v8
    · rw [tc]; exact v9
    · intro x hx _
      obtain ⟨a, b, -⟩ := (v1.trans tst).others x hx
      rw [u2] at a; rw [u3] at b; exact ⟨a, b⟩
    · rintro x (rfl | h)
      · refine ⟨tref, ?_, by rw [r4, v10]⟩
        have := (v1.trans tst).port
        rw [u3] at this; exact this
      · cases h
    · rw [hr, ht, u6] at tpr
      rw [uparts] at tpr; exact tpr
  | some o =>
    have ho : o ≠ st := fun h => hn (by rw [h])
    have hw : w = v.clerkMoved o := hw
    obtain ⟨w1, w2, w3, w4, w5, w6, w7, w8, w9⟩ := v.clerkMoved_spec o
    rw [← hw] at w1 w2 w3 w4 w5 w6 w7 w8 w9
    obtain ⟨f1, f2, f3⟩ := w2.table (by rw [w7])
    rw [v2, u4] at f1 f2 w5 w6
    simp only [vrec.2 o ho] at f1 f2
    rw [vrec.1] at f2
    obtain ⟨vo1, vo2, -⟩ := v1.others o ho
    rw [u2] at vo1; rw [u3] at vo2
    rw [vo1] at w5 w6 f2
    obtain ⟨wo1, wo2, -⟩ := w1.others st (Ne.symm ho)
    obtain ⟨to1, to2, -⟩ := tst.others o ho
    have hr : t.runs = s.runs := by rw [r1]; rw [w7, v2, u4]
    have ht : t.totals = s.totals := by rw [r1]; rw [w8, v3, u5]
    have hfl : ∀ k : Fin 50, (v.link.flags[k]).pending = true → (w.link.flags[k]).pending = true := fun k => w1.pending
    refine ⟨by rw [tv, w9, v4, us], ?_, ?_, ?_, ?_, ?_, ?_, ?_, ?_, ?_⟩
    · have h1 : (freed.filter fun x => x ∈ s.price.record).foldl PriceTable.withoutChannel s.price =
          ([o].filter fun x => (!s.runs[x].holds) && decide (x ∈ s.price.record)).foldl PriceTable.withoutChannel v.price := by
        show ((_ ++ List.filter _ [o]).filter _).foldl _ _ = _
        rw [List.filter_append, List.foldl_append, List.filter_filter, v5]
        congr 1
        · by_cases g : (s.service.clerkAt st).isSome = true ∧ s.runs[st].holds = false
          · rw [if_pos g]
            by_cases k : st ∈ s.price.record
            · rw [if_pos ⟨k, g⟩]; simp [k]
            · rw [if_neg (fun h => k h.1)]; simp [k]
          · rw [if_neg g, if_neg (fun h => g h.2)]; rfl
        · apply List.filter_congr; intro x _; rw [Bool.and_comm]
      rw [h1, tp, f1]
      by_cases k : o ∈ s.price.record ∧ s.runs[o].holds = false
      · rw [if_pos k, List.filter_cons_of_pos (by rw [k.2]; simp [k.1])]; rfl
      · rw [if_neg k, List.filter_cons_of_neg]
        · rfl
        · intro h; apply k
          rw [Bool.and_eq_true, decide_eq_true_eq, Bool.not_eq_true'] at h
          exact ⟨h.2, h.1⟩
    · intro x hx
      rcases List.mem_append.1 hx with hx | hx
      · split at hx
        · next g => rw [List.mem_singleton] at hx; subst hx; rw [tc, wo1]; exact v6 g
        · cases hx
      · obtain ⟨h1, h2⟩ := List.mem_filter.1 hx
        obtain rfl : x = o := by simpa using h1
        rw [Bool.not_eq_true'] at h2
        rw [tc, f2]; simp only [h2, and_true]
    · rw [tp, tl]
      intro x y
      by_cases g : v.price.pending = true
      · exact f3 g y
      · exact hfl _ (v7 x (by simpa using g))
    · rw [tc, wo1]; exact v8
    · rw [tc, wo1]; exact v9
    · intro x hx hx'
      have hxo : x ≠ o := fun h => hx' (by rw [h])
      obtain ⟨a, b, -⟩ := v1.others x hx
      obtain ⟨a', b', -⟩ := w1.others x hxo
      obtain ⟨a'', b'', -⟩ := tst.others x hx
      rw [u2] at a; rw [u3] at b
      exact ⟨a''.trans (a'.trans a), b''.trans (b'.trans b)⟩
    · rintro x (rfl | h)
      · refine ⟨tref, ?_, ?_⟩
        · rw [tst.port, wo2, v1.port, u3]
        · rw [r4, wo2, v10]
      · obtain rfl := Option.some.inj h
        refine ⟨?_, ?_, ?_⟩
        · rw [State.refresh_iff] at w3 ⊢
          rw [to2]
          intro k
          rw [w3 k]
          exact (State.imageOf_congr ⟨w.channels[o].pinned, by rw [to1]⟩ (by rw [to2]) (by rw [to2]) (by rw [tv]) tx).symm
        · rw [to2, w1.port, vo2]
        · rw [to2, w4, vo2]
    · intro o' h
      obtain rfl := Option.some.inj h
      rw [tc]; exact ⟨w6, w5⟩
    · have e1 := w1.parts
      have e2 := v1.parts
      have e3 := tst.parts
      rw [e1, e2] at e3
      rw [hr, ht] at e3
      dsimp only at e3
      rw [u6] at e3
      rw [uparts] at e3; exact e3

end Sys2Proof.Machine
end

