-- ==== Sys2Proof/Laws/Codec.lean ====
section
/-! SUPPORT. Laws/Codec: the frames of the peripheral lines with their check byte, built and taken (1.2, 5.4, 7.3). -/

namespace Sys2Proof.Machine

/-- 1.2: a frame of a kind and a payload, its last byte bringing the sum of all but the start byte to 0 modulo 256. -/
def framed (kind : Byte) (payload : List Byte) : List Byte :=
  [0xA5, kind, BitVec.ofNat 8 payload.length] ++ payload ++
    [BitVec.ofNat 8 (256 - (kind.toNat + payload.length + (payload.map BitVec.toNat).sum) % 256)]

/-- The sum of bytes as a number. -/
theorem byteSum_toNat (bs : List Byte) : (byteSum bs).toNat = (bs.map BitVec.toNat).sum % 256 := by
  have h : ∀ (bs : List Byte) (a : Byte), (bs.foldl (· + ·) a).toNat = (a.toNat + (bs.map BitVec.toNat).sum) % 256 := by
    intro bs
    induction bs with
    | nil => intro a; simp; omega
    | cons b bs ih => intro a; simp only [List.foldl_cons, ih, BitVec.toNat_add, List.map_cons, List.sum_cons]; omega
  have h0 := h bs 0
  rw [show ((0 : Byte)).toNat = 0 from rfl, Nat.zero_add] at h0
  exact h0

/-- 1.2: what the part sends is framed. -/
theorem peripheralFrame_eq (k : Nat) (payload : List Byte) : peripheralFrame k payload = framed (BitVec.ofNat 8 k) payload := by
  unfold peripheralFrame framed
  simp only [List.cons_append, List.nil_append, List.cons.injEq, true_and]
  congr 2
  apply BitVec.eq_of_toNat_eq
  rw [BitVec.toNat_sub, byteSum_toNat]
  simp
  omega

/-- 1.2: the sum comes to 0 with one check byte alone. -/
theorem byteSum_check (kind : Byte) (payload : List Byte) (c : Byte) :
    byteSum (kind :: BitVec.ofNat 8 payload.length :: (payload ++ [c])) = 0 ↔
      c = BitVec.ofNat 8 (256 - (kind.toNat + payload.length + (payload.map BitVec.toNat).sum) % 256) := by
  have h := byteSum_toNat (kind :: BitVec.ofNat 8 payload.length :: (payload ++ [c]))
  simp only [List.map_cons, List.map_append, List.sum_cons, List.sum_append, List.map_nil, List.sum_nil, BitVec.toNat_ofNat] at h
  have hc := c.isLt
  rw [← BitVec.toNat_inj, ← BitVec.toNat_inj, h]
  simp only [BitVec.toNat_ofNat]
  rw [show ((0 : Byte)).toNat = 0 from rfl]
  omega

/-- R2: a receiver takes framed bytes alone, and of them those of its kinds and lengths with a payload in range. -/
theorem frameTaken_iff (line : PeripheralLine) (frame : List Byte) : frameTaken line frame = true ↔
    ∃ (kind : Byte) (payload : List Byte), frame = framed kind payload ∧ payload.length ≤ 60 ∧
      (kind.toNat, payload.length) ∈ lineKinds line ∧ payloadOk line kind.toNat payload = true := by
  constructor
  · intro h
    match frame, h with
    | start :: kind :: length :: rest, h =>
      simp only [frameTaken, Bool.and_eq_true, beq_iff_eq, decide_eq_true_eq, List.contains_iff_mem] at h
      obtain ⟨⟨⟨⟨⟨a, b⟩, c⟩, d⟩, e⟩, f⟩ := h
      obtain ⟨p, x, rfl⟩ : ∃ p x, rest = p ++ [x] :=
        ⟨rest.dropLast, rest.getLast (by rintro rfl; simp at c), (List.dropLast_append_getLast _).symm⟩
      have hl : p.length = length.toNat := by simpa using c
      have hlen : length = BitVec.ofNat 8 p.length := by rw [hl]; simp
      refine ⟨kind, p, ?_, by omega, by rw [hl]; exact e, ?_⟩
      · rw [hlen] at d
        rw [a, hlen, (byteSum_check kind p x).1 d]
        rfl
      · rw [← hl] at f
        simpa using f
  · rintro ⟨kind, p, rfl, h, g, k⟩
    have hl : (BitVec.ofNat 8 p.length).toNat = p.length := by simp; omega
    simp only [framed, List.cons_append, List.nil_append, frameTaken, hl, Bool.and_eq_true, beq_iff_eq, decide_eq_true_eq,
      List.contains_iff_mem]
    exact ⟨⟨⟨⟨⟨trivial, h⟩, by simp⟩, (byteSum_check kind p _).2 rfl⟩, g⟩, by simpa using k⟩

/-- R182: a serial number is its four bytes, the least significant first. -/
theorem encSerial_eq (b : BitVec 32) :
    encSerial b = [b.extractLsb' 0 8, b.extractLsb' 8 8, b.extractLsb' 16 8, b.extractLsb' 24 8] := by
  simp only [encSerial, u4, leBytes, List.cons.injEq, and_true]
  refine ⟨?_, ?_, ?_, ?_⟩ <;> apply BitVec.eq_of_toNat_eq <;> simp [Nat.shiftRight_eq_div_pow] <;> omega

end Sys2Proof.Machine
end

