-- ==== Sys2Proof/Laws/Event.lean ====
section
/-! SUPPORT. Laws/Event: what one event, one request in execution and one key taken leave, said once for every meaning built on
them. -/

namespace Sys2Proof.Machine

/-- With power on, an event leaves what its effect leaves, the next frames begun, or the state as it is. -/
theorem State.event_powered {s : State} (h : s.powered = true) (f : State → Option State) :
    s.event f = .next (match f s with | some t => t.finish s | none => s) := by
  unfold State.event
  rw [if_pos h]
  cases f s <;> rfl

/-- With power off, an event leaves the state as it is. -/
theorem State.event_unpowered {s : State} (h : s.powered = false) (f : State → Option State) : s.event f = .next s := by
  unfold State.event
  rw [if_neg (by simp [h])]

/-- An executing request is answered, or goes on until its store read completes. -/
theorem State.request_executing {s : State} {kind : Nat} {payload : List Byte} (h : Executing s kind payload)
    (f : List Byte → State → State × Option (List Byte)) :
    s.request kind f = .next (match f payload s with
      | (t, some p) => answered s t p
      | (t, none) => (t.onLink HostLink.markWaiting).finish s) := by
  unfold State.request
  rw [State.event_powered h.1]
  simp only [h.2]
  rcases f payload s with ⟨t, _ | p⟩ <;> simp [answered]

/-- A taken key that its rules accept leaves what its action leaves. -/
theorem State.takeKey_accepted {s t : State} {st : Station} {f : State → Except Message State} (h : KeyTaken s st)
    (hf : f (accepted s st) = .ok t) : s.event (fun s => s.takeKey st f) = .next (t.finish s) := by
  have : s.takeKey st f = some t := by
    unfold State.takeKey
    rw [if_pos h.2]
    have hf' : f (s.setMessage st .none) = .ok t := hf
    rw [hf']
  rw [State.event_powered h.1, this]

/-- A taken key that its rules refuse shows its code. -/
theorem State.takeKey_refused {s : State} {st : Station} {m : Message} {f : State → Except Message State} (h : KeyTaken s st)
    (hf : f (accepted s st) = .error m) : s.event (fun s => s.takeKey st f) = .next ((s.refuseKey st m).finish s) := by
  have : s.takeKey st f = some (s.refuseKey st m) := by
    unfold State.takeKey
    rw [if_pos h.2]
    have hf' : f (s.setMessage st .none) = .error m := hf
    rw [hf']
  rw [State.event_powered h.1, this]

/-- A key that is not taken changes nothing. -/
theorem State.takeKey_discarded {s : State} {st : Station} (h : s.ports[st].state ≠ .present ∨ s.ports[st].keypadFault = true)
    (f : State → Except Message State) : s.takeKey st f = none := by
  unfold State.takeKey
  rw [if_neg]
  rintro ⟨h1, h2⟩
  rcases h with h | h
  · exact h h1
  · rw [h] at h2
    cases h2

/-- Free lines beginning their next frames changes only the head lines and what the host line sends. -/
theorem State.finish_parts (s old : State) :
    s.finish old = { s with headLines := (s.finish old).headLines, link := s.link.pump } := rfl

/-- What `finish` makes of one head line. -/
theorem State.finish_headLine (s old : State) (st : Station) :
    (s.finish old).headLines[st] = ((s.headLines[st]).markChange old.ports[st] s.ports[st]).pump s.ports[st] st := by
  show (Vector.ofFn _)[st] = _
  simp

/-- The host line's arbiter changes only what is being sent. -/
theorem HostLink.pump_parts (l : HostLink) : l.pump = { l with sending := l.pump.sending } := by
  unfold HostLink.pump HostLink.pumpReport
  repeat' split
  all_goals rfl

/-- The station a manual's number names. -/
theorem stationOf_number (st : Station) : stationOf (st.val + 1) = some st := by
  unfold stationOf
  rw [dif_pos (by have := st.isLt; omega)]
  rfl

/-- A modified entry modified again. -/
theorem modAt_modAt {α : Type} {n : Nat} (v : Vector α n) (i : Fin n) (f g : α → α) :
    modAt (modAt v i f) i g = modAt v i (fun x => g (f x)) := by
  simp [modAt]

end Sys2Proof.Machine
end

