-- ==== Sys2Proof/Laws/Labels.lean ====
section
/-! SUPPORT. Laws/Labels: what the end of a job and the cancelling of a basket's item jobs leave, what an open order of
parties leaves, and what an examination finds on a channel that is not STABLE. -/

namespace Sys2Proof.Machine

/-- R120: the end of a job takes it from the label queue. -/
@[simp] theorem State.endJob_labels (s : State) (j : Job) (o : JobOutcome) : (s.endJob j o).labels = s.labels.remove j.number := by
  unfold State.endJob
  dsimp only
  split <;> rfl

/-- R120: the end of an item job changes the label queue and the lines of open baskets. -/
theorem State.endJob_item {s : State} {j : Job} {o : JobOutcome} {serial line : Nat} (h : j.link = .item serial line) :
    s.endJob j o = { s with
      labels := s.labels.remove j.number,
      pool := { s.pool with records := s.pool.records.map (Basket.takeOutcome serial line j.number o) } } := by
  unfold State.endJob
  rw [h]
  rfl

/-- What a QUEUED item job of a basket is. -/
theorem Job.isQueuedItemOf_iff {serial : Nat} {j : Job} :
    j.isQueuedItemOf serial = true ↔ j.state = .queued ∧ ∃ line, j.link = .item serial line := by
  unfold Job.isQueuedItemOf
  cases j.link <;> simp

/-- A list of jobs that end leaves the jobs with other numbers. -/
theorem State.endJobs_labels (o : JobOutcome) : ∀ (js : List Job) (s : State),
    (js.foldl (fun t j => t.endJob j o) s).labels
      = { s.labels with queue := s.labels.queue.filter fun x => !(js.map Job.number).contains x.number }
  | [], s => by simp
  | j :: js, s => by
    rw [List.foldl_cons, State.endJobs_labels o js, State.endJob_labels]
    simp only [LabelUnit.remove, List.filter_filter, List.map_cons, List.contains_cons, Bool.not_or]
    congr 2
    funext x
    rw [Bool.and_comm]
    rfl

/-- R112: after the cancelling no job of the queue carries the number of an item job of the basket that was QUEUED. -/
theorem State.cancelItemJobs_labels (s : State) (serial : Nat) : (s.cancelItemJobs serial).labels = { s.labels with
    queue := s.labels.queue.filter fun x =>
      !((s.labels.queue.filter (Job.isQueuedItemOf serial)).map Job.number).contains x.number } :=
  State.endJobs_labels _ _ s

/-- R112: after the cancelling no item job of the basket is QUEUED. -/
theorem State.cancelItemJobs_none_queued {s : State} {serial : Nat} {j : Job} (h : j ∈ (s.cancelItemJobs serial).labels.queue) :
    j.isQueuedItemOf serial = false := by
  rw [State.cancelItemJobs_labels, List.mem_filter] at h
  by_contra hq
  have hq : j.isQueuedItemOf serial = true := by simpa using hq
  have : ((s.labels.queue.filter (Job.isQueuedItemOf serial)).map Job.number).contains j.number = true := by
    rw [List.contains_iff_mem]
    exact List.mem_map.2 ⟨j, List.mem_filter.2 ⟨h.1, hq⟩, rfl⟩
  rw [this] at h
  exact absurd h.2 (by simp)

/-! ## Parties that meet, and examinations -/

/-- Inserting by a key adds the entry and keeps the others. -/
theorem insertByKey_perm {α : Type} (key : α → Nat) (x : α) : ∀ xs : List α, (insertByKey key x xs).Perm (x :: xs)
  | [] => List.Perm.refl _
  | y :: ys => by
    unfold insertByKey
    split
    · exact List.Perm.refl _
    · exact ((insertByKey_perm key x ys).cons y).trans (List.Perm.swap x y ys)

/-- The parties in an open order are the parties. -/
theorem openOrder_perm {α : Type} (count : Nat) (number : α → Nat) (xs : List α) : (openOrder count number xs).Perm xs := by
  match xs with
  | [] => exact List.Perm.refl _
  | [_] => exact List.Perm.refl _
  | x :: y :: ys =>
    show ((x :: y :: ys).foldr _ []).Perm _
    generalize x :: y :: ys = zs
    induction zs with
    | nil => exact List.Perm.refl _
    | cons z zs ih => exact (insertByKey_perm _ z _).trans (ih.cons z)

/-- What an open order leaves: the same parties, and at most one free value drawn. -/
theorem State.inOpenOrder_spec {α : Type} (s : State) (number : α → Nat) (xs : List α) :
    (s.inOpenOrder number xs).2.Perm xs ∧ ∃ drawn ≤ 1, (s.inOpenOrder number xs).1 = { s with freeCount := s.freeCount + drawn } := by
  match xs with
  | [] => exact ⟨List.Perm.refl _, 0, Nat.zero_le _, rfl⟩
  | [_] => exact ⟨List.Perm.refl _, 0, Nat.zero_le _, rfl⟩
  | x :: y :: zs => exact ⟨openOrder_perm s.freeCount number (x :: y :: zs), 1, Nat.le_refl _, rfl⟩

/-- R136: no trigger conditions hold on a channel that is not STABLE. -/
theorem State.triggerPrice_of_not_stable {s : State} {st : Station} (h : s.channels[st].state ≠ .stable) : s.triggerPrice st = none := by
  have hl : s.channels[st].stableLoad = false := by
    unfold Channel.stableLoad
    generalize s.channels[st] = c at h
    cases c.last
    · rfl
    · rw [show (c.state == .stable) = false from by simpa using h]; rfl
  unfold State.triggerPrice
  rw [hl]
  split <;> simp_all

/-- R138: an examination on a channel that is not STABLE ends a wait for room and does nothing else. -/
theorem State.examine_of_not_stable {s : State} {st : Station} (h : s.channels[st].state ≠ .stable) :
    s.examine st = if s.runs[st].state = .active then s.stopWaiting st else s := by
  unfold State.examine
  rw [State.triggerPrice_of_not_stable h]

end Sys2Proof.Machine
end

