-- ==== Sys2Proof/Laws/Link.lean ====
section
/-! SUPPORT. Laws/Link: the CRC register bit by bit. -/

namespace Sys2Proof.Machine

/-- R170: the register takes one bit. -/
def crcBit (c : BitVec 16) (bit : Bool) : BitVec 16 := if c.getLsbD 15 = bit then c <<< 1 else (c <<< 1) ^^^ 0x1021

/-- The shift of the register is linear. -/
theorem crcShift_xor (a b : BitVec 16) : crcShift (a ^^^ b) = crcShift a ^^^ crcShift b := by
  unfold crcShift
  rw [BitVec.msb_xor, BitVec.shiftLeft_xor_distrib]
  have h : ∀ x y k : BitVec 16, x ^^^ y = (x ^^^ k) ^^^ (y ^^^ k) := by
    intro x y k
    rw [BitVec.xor_comm y k, ← BitVec.xor_assoc, BitVec.xor_assoc x k k, BitVec.xor_self, BitVec.xor_zero]
  cases a.msb <;> cases b.msb
  · rfl
  · exact BitVec.xor_assoc ..
  · show a <<< 1 ^^^ b <<< 1 ^^^ _ = a <<< 1 ^^^ _ ^^^ b <<< 1
    ac_rfl
  · exact h ..

/-- A bit taken is the register shifted, and the bit taken by the zero register. -/
theorem crcBit_eq (c : BitVec 16) (bit : Bool) : crcBit c bit = crcShift c ^^^ crcBit 0 bit := by
  unfold crcBit crcShift
  rw [BitVec.msb_eq_getLsbD_last]
  cases bit <;> cases h : c.getLsbD (16 - 1) <;> simp_all

/-- Bits taken are the register shifted as often, and the bits taken by the zero register. -/
theorem crcBits_eq : ∀ (bits : List Bool) (c : BitVec 16),
    bits.foldl crcBit c = (List.replicate bits.length ()).foldl (fun c _ => crcShift c) c ^^^ bits.foldl crcBit 0 := by
  intro bits
  induction bits with
  | nil => intro c; simp
  | cons b rest ih =>
    intro c
    rw [List.foldl_cons, List.foldl_cons, ih, ih (crcBit 0 b), crcBit_eq, ← BitVec.xor_assoc]
    congr 1
    rw [List.length_cons, List.replicate_succ, List.foldl_cons]
    generalize List.replicate rest.length () = us
    generalize crcShift c = a
    generalize crcBit 0 b = d
    induction us generalizing a d with
    | nil => rfl
    | cons u us ih => simp only [List.foldl_cons, crcShift_xor, ih]

/-- R170: a byte taken at once is its bits taken one after another, the most significant first. -/
theorem crcByte_eq (c : BitVec 16) (b : Byte) : crcByte c b = ([7, 6, 5, 4, 3, 2, 1, 0].map b.getLsbD).foldl crcBit c := by
  have h : ∀ b : Byte, crcByte 0 b = ([7, 6, 5, 4, 3, 2, 1, 0].map b.getLsbD).foldl crcBit 0 := by decide +kernel
  rw [crcBits_eq, ← h]
  unfold crcByte
  have h0 : crcShift 0 = 0 := rfl
  simp only [crcShift_xor, h0]
  rw [show ∀ x : BitVec 16, (0 : BitVec 16) ^^^ x = x from fun x => BitVec.zero_xor]
  rfl

/-- R170: the CRC is the register after the bits of all the bytes. -/
theorem crc_eq (bs : List Byte) : crc bs = (bs.flatMap fun b => [7, 6, 5, 4, 3, 2, 1, 0].map b.getLsbD).foldl crcBit 0xFFFF := by
  unfold crc
  generalize (0xFFFF : BitVec 16) = c
  induction bs generalizing c with
  | nil => rfl
  | cons b bs ih => rw [List.foldl_cons, ih, crcByte_eq, List.flatMap_cons, List.foldl_append]

end Sys2Proof.Machine
end

