-- ==== Sys2Proof/Laws/Memory.lean ====
section
/-! SUPPORT. Laws/Memory: every write of the FRAM keeps its canonical form, and reading a byte back gives what was written. -/

namespace Sys2Proof.Machine

theorem Memory.wf_nil : Memory.wf [] := by simp [Memory.wf]

theorem Memory.wf_cons {c : Host.Cell} {m : List Host.Cell} :
    Memory.wf (c :: m) ↔
      (∀ d ∈ m, c.1 < d.1) ∧ c.2 ≠ Memory.blank ∧ c.1 < Config.framBytes ∧ Memory.wf m := by
  simp only [Memory.wf, List.pairwise_cons, List.mem_cons, forall_eq_or_imp]
  tauto

/-- A cell of a memory after a write is the written one or was there before. -/
theorem Memory.mem_put {m : List Host.Cell} {a : Nat} {b : Byte} {d : Host.Cell} (h : d ∈ Memory.put m a b) :
    d = (a, b) ∨ d ∈ m := by
  induction m with
  | nil => simp only [Memory.put] at h; split at h <;> simp_all
  | cons c rest ih =>
    simp only [Memory.put] at h
    split at h
    · split at h <;> simp_all
    · split at h
      · split at h
        · exact Or.inr (List.mem_cons_of_mem _ h)
        · rcases List.mem_cons.mp h with h | h
          · exact Or.inl h
          · exact Or.inr (List.mem_cons_of_mem _ h)
      · rcases List.mem_cons.mp h with h | h
        · exact Or.inr (h ▸ List.mem_cons_self)
        · rcases ih h with h | h
          · exact Or.inl h
          · exact Or.inr (List.mem_cons_of_mem _ h)

/-- One byte written inside the FRAM keeps the canonical form. -/
theorem Memory.put_wf {m : List Host.Cell} {a : Nat} {b : Byte} (h : Memory.wf m) (ha : a < Config.framBytes) :
    Memory.wf (Memory.put m a b) := by
  induction m with
  | nil =>
    simp only [Memory.put]
    split
    · exact Memory.wf_nil
    · next hb => exact Memory.wf_cons.mpr ⟨by simp, hb, ha, Memory.wf_nil⟩
  | cons c rest ih =>
    obtain ⟨h1, h2, h3, h4⟩ := Memory.wf_cons.mp h
    simp only [Memory.put]
    split
    · next hlt =>
      split
      · exact h
      · next hb =>
        refine Memory.wf_cons.mpr ⟨fun d hd => ?_, hb, ha, h⟩
        rcases List.mem_cons.mp hd with hd | hd
        · exact hd ▸ hlt
        · exact lt_trans hlt (h1 d hd)
    · next hlt =>
      split
      · next heq =>
        split
        · exact h4
        · next hb => exact Memory.wf_cons.mpr ⟨fun d hd => heq ▸ h1 d hd, hb, ha, h4⟩
      · next hne =>
        refine Memory.wf_cons.mpr ⟨fun d hd => ?_, h2, h3, ih h4⟩
        rcases Memory.mem_put hd with hd | hd
        · subst hd; exact lt_of_le_of_ne (not_lt.mp hlt) (fun e => hne e.symm)
        · exact h1 d hd

theorem Memory.byte_of_lt {m : List Host.Cell} {a : Nat} (h : ∀ d ∈ m, a < d.1) : Memory.byte m a = Memory.blank := by
  induction m with
  | nil => rfl
  | cons c rest ih =>
    have hc := h c List.mem_cons_self
    simp only [Memory.byte]
    rw [if_neg (by omega), ih fun d hd => h d (List.mem_cons_of_mem _ hd)]

/-- A byte read after a write: the byte written at its address, what stood there elsewhere. -/
theorem Memory.byte_put {m : List Host.Cell} {a : Nat} {b : Byte} (h : Memory.wf m) (x : Nat) :
    Memory.byte (Memory.put m a b) x = if x = a then b else Memory.byte m x := by
  induction m with
  | nil =>
    simp only [Memory.put]
    split
    · next hb => subst hb; simp [Memory.byte]
    · simp only [Memory.byte]; by_cases hx : x = a <;> simp_all [eq_comm]
  | cons c rest ih =>
    obtain ⟨h1, h2, h3, h4⟩ := Memory.wf_cons.mp h
    simp only [Memory.put]
    split
    · next hlt =>
      split
      · next hb =>
        by_cases hx : x = a
        · subst hx
          rw [if_pos rfl, hb]
          exact Memory.byte_of_lt (by
            intro d hd
            rcases List.mem_cons.mp hd with hd | hd
            · exact hd ▸ hlt
            · exact lt_trans hlt (h1 d hd))
        · rw [if_neg hx]
      · by_cases hx : x = a
        · subst hx; simp [Memory.byte]
        · rw [if_neg hx]; conv_lhs => unfold Memory.byte
          rw [if_neg (fun e => hx e.symm)]
    · next hlt =>
      split
      · next heq =>
        split
        · next hb =>
          by_cases hx : x = a
          · subst hx; rw [if_pos rfl, hb, heq]; exact Memory.byte_of_lt h1
          · rw [if_neg hx]; simp only [Memory.byte]; rw [if_neg (fun e => hx (e.symm.trans heq.symm))]
        · by_cases hx : x = a
          · subst hx; simp [Memory.byte]
          · rw [if_neg hx]; simp only [Memory.byte]
            rw [if_neg (fun e => hx e.symm), if_neg (fun e => hx (e.symm.trans heq.symm))]
      · next hne =>
        simp only [Memory.byte]
        by_cases hc : c.1 = x
        · rw [if_pos hc, if_pos hc, if_neg (fun e => hne (e.symm.trans hc.symm))]
        · rw [if_neg hc, if_neg hc, ih h4]

theorem Memory.putAll_wf {bs : List Byte} : ∀ {m : List Host.Cell} {a : Nat}, Memory.wf m →
    a + bs.length ≤ Config.framBytes → Memory.wf (Memory.putAll m a bs) := by
  induction bs with
  | nil => intro m a h _; exact h
  | cons b rest ih =>
    intro m a h ha
    simp only [List.length_cons] at ha
    exact ih (Memory.put_wf h (by omega)) (by omega)

/-- A word transferred keeps the canonical form. -/
theorem Memory.putWord_wf {m : List Host.Cell} {w : Nat} {v : BitVec 72} (h : Memory.wf m) : Memory.wf (Memory.putWord m w v) := by
  unfold Memory.putWord
  split
  · next hw =>
    refine Memory.putAll_wf h ?_
    simp only [wordBytes, List.length_cons, List.length_nil, Config.framWords, Config.framBytes] at *
    omega
  · exact h

theorem Memory.byte_putAll {bs : List Byte} : ∀ {m : List Host.Cell} {a x : Nat}, Memory.wf m →
    a + bs.length ≤ Config.framBytes → (x < a ∨ a + bs.length ≤ x) → Memory.byte (Memory.putAll m a bs) x = Memory.byte m x := by
  induction bs with
  | nil => intro m a x _ _ _; rfl
  | cons b rest ih =>
    intro m a x h ha hx
    simp only [List.length_cons] at ha hx
    simp only [Memory.putAll]
    rw [ih (Memory.put_wf h (by omega)) (by omega) (by omega), Memory.byte_put h, if_neg (by omega)]

/-- A word transferred leaves every byte outside its nine as it was. -/
theorem Memory.byte_putWord {m : List Host.Cell} {w x : Nat} {v : BitVec 72} (h : Memory.wf m)
    (hx : x < 9 * w ∨ 9 * w + 9 ≤ x) : Memory.byte (Memory.putWord m w v) x = Memory.byte m x := by
  unfold Memory.putWord
  split
  · next hw =>
    refine Memory.byte_putAll h ?_ ?_
    · simp only [wordBytes, List.length_cons, List.length_nil, Config.framWords, Config.framBytes] at *; omega
    · simpa [wordBytes] using hx
  · rfl

/-- Bytes written side by side are read where they stand. -/
theorem Memory.byte_putAll_inside {bs : List Byte} : ∀ {m : List Host.Cell} {a : Nat}, Memory.wf m →
    a + bs.length ≤ Config.framBytes → ∀ i, i < bs.length → Memory.byte (Memory.putAll m a bs) (a + i) = bs.getD i 0 := by
  induction bs with
  | nil => intro m a _ _ i hi; simp at hi
  | cons b rest ih =>
    intro m a h ha i hi
    simp only [List.length_cons] at ha hi
    have hw : Memory.wf (Memory.put m a b) := Memory.put_wf h (by omega)
    show Memory.byte (Memory.putAll (Memory.put m a b) (a + 1) rest) (a + i) = _
    cases i with
    | zero =>
      rw [Memory.byte_putAll hw (by omega) (by omega), Memory.byte_put h]
      simp
    | succ i =>
      rw [show a + (i + 1) = a + 1 + i by omega, ih hw (by omega) i (by omega)]
      simp

/-- The nine bytes of a stored word hold it. -/
theorem joinBytes_wordBytes (v : BitVec 72) : joinBytes (wordBytes v) = v.toNat := by
  have h := v.isLt
  simp only [wordBytes, joinBytes, BitVec.extractLsb'_toNat, Nat.shiftRight_eq_div_pow]
  omega

/-- R158: a word that was transferred is read as it was, and the other words as before. -/
theorem Memory.word_putWord {m : List Host.Cell} {w : Nat} {v : BitVec 72} (h : Memory.wf m) (hw : w < Config.framWords) (x : Nat) :
    Memory.word (Memory.putWord m w v) x = if x = w then v else Memory.word m x := by
  have hlen : 9 * w + (wordBytes v).length ≤ Config.framBytes := by
    have : (wordBytes v).length = 9 := rfl
    unfold Config.framWords at hw; unfold Config.framBytes; omega
  split
  · next e =>
    subst e
    unfold Memory.word Memory.putWord
    rw [if_pos hw]
    have hb := fun i hi => Memory.byte_putAll_inside h hlen i hi
    have hl : (wordBytes v).length = 9 := rfl
    rw [hl] at hb
    have : Memory.bytes (Memory.putAll m (9 * x) (wordBytes v)) (9 * x) 9 = wordBytes v := by
      simp only [Memory.bytes, Nat.add_assoc]
      have h0 := hb 0 (by omega); have h1 := hb 1 (by omega); have h2 := hb 2 (by omega); have h3 := hb 3 (by omega)
      have h4 := hb 4 (by omega); have h5 := hb 5 (by omega); have h6 := hb 6 (by omega); have h7 := hb 7 (by omega)
      have h8 := hb 8 (by omega)
      simp only [Nat.add_zero, Nat.reduceAdd] at *
      rw [h0, h1, h2, h3, h4, h5, h6, h7, h8]
      rfl
    rw [this, joinBytes_wordBytes]
    simp
  · next e =>
    unfold Memory.word
    congr 2
    have hb : ∀ i, i < 9 → Memory.byte (Memory.putWord m w v) (9 * x + i) = Memory.byte m (9 * x + i) :=
      fun i hi => Memory.byte_putWord h (by omega)
    simp only [Memory.bytes, Nat.add_assoc, Nat.reduceAdd]
    have h0 := hb 0 (by omega); have h1 := hb 1 (by omega); have h2 := hb 2 (by omega); have h3 := hb 3 (by omega)
    have h4 := hb 4 (by omega); have h5 := hb 5 (by omega); have h6 := hb 6 (by omega); have h7 := hb 7 (by omega)
    have h8 := hb 8 (by omega)
    simp only [Nat.add_zero] at h0
    rw [h0, h1, h2, h3, h4, h5, h6, h7, h8]
/-! ## Passes -/

theorem Pass.transfer_wf {p : Pass} {w : Nat} {v : BitVec 72} (h : Memory.wf p.fram) : Memory.wf (p.transfer w v).fram :=
  Memory.putWord_wf h

theorem Pass.writeWords_wf {ds : List (BitVec 64)} : ∀ {p : Pass} {w : Nat}, Memory.wf p.fram →
    Memory.wf (p.writeWords w ds).fram := by
  induction ds with
  | nil => intro p w h; exact h
  | cons d rest ih => intro p w h; exact ih (Pass.transfer_wf h)

theorem Pass.write_wf {p : Pass} {w n : Nat} {bs : List Byte} (h : Memory.wf p.fram) : Memory.wf (p.write w n bs).fram :=
  Pass.writeWords_wf h

theorem Pass.capture_wf {r : Requester} {p : Pass} {e : WordError} (h : Memory.wf p.fram) :
    Memory.wf (Pass.capture r p e).fram := by
  unfold Pass.capture; exact Pass.write_wf h

theorem Pass.captureAll_wf {r : Requester} {es : List WordError} : ∀ {p : Pass}, Memory.wf p.fram →
    Memory.wf (es.foldl (Pass.capture r) p).fram := by
  induction es with
  | nil => intro p h; exact h
  | cons e rest ih => intro p h; rw [List.foldl_cons]; exact ih (p := Pass.capture r p e) (Pass.capture_wf h)

theorem Pass.readOne_wf {p : Pass} {w : Nat} (h : Memory.wf p.fram) : Memory.wf (p.readOne w).1.fram := by
  unfold Pass.readOne; split
  · exact h
  · exact Pass.transfer_wf h
  · exact h

theorem Pass.readWords_wf {n : Nat} : ∀ {p : Pass} {w : Nat}, Memory.wf p.fram → Memory.wf (p.readWords w n).1.fram := by
  induction n with
  | zero => intro p w h; exact h
  | succ n ih => intro p w h; exact ih (Pass.readOne_wf h)

theorem Pass.read_wf {p : Pass} {r : Requester} {w n : Nat} (h : Memory.wf p.fram) : Memory.wf (p.read r w n).1.fram :=
  Pass.captureAll_wf (Pass.readWords_wf h)

theorem Pass.readPair_wf {α : Type} [DecidableEq α] {p : Pass} {r : Requester} {w n : Nat} {parse : List Byte → α}
    {bytes : α → List Byte} {larger : α → α → α} (h : Memory.wf p.fram) :
    Memory.wf (p.readPair r w n parse bytes larger).1.fram := by
  have h2 := Pass.read_wf (r := r) (w := w + n) (n := n) (Pass.read_wf (r := r) (w := w) (n := n) h)
  unfold Pass.readPair
  dsimp only
  generalize (p.read r w n).1.read r (w + n) n = two at h2 ⊢
  generalize agreed larger ((p.read r w n).2.map parse) (two.2.map parse) = value
  cases value with
  | none => exact h2
  | some v =>
    dsimp only
    by_cases ha : (p.read r w n).2.map parse = some v <;> by_cases hb : two.2.map parse = some v
    · rw [if_pos ha, if_pos hb]; exact h2
    · rw [if_pos ha, if_neg hb]; exact Pass.write_wf h2
    · rw [if_neg ha, if_pos hb]; exact Pass.write_wf h2
    · rw [if_neg ha, if_neg hb]; exact Pass.write_wf (Pass.write_wf h2)

theorem Pass.writeAcc_wf {p : Pass} {a : AccId} {x : Acc} (h : Memory.wf p.fram) : Memory.wf (p.writeAcc a x).fram :=
  Pass.write_wf (Pass.write_wf h)

theorem Pass.readAcc_wf {p : Pass} {r : Requester} {a : AccId} {plu : Option Nat} (h : Memory.wf p.fram) :
    Memory.wf (p.readAcc r a plu).1.fram := by
  have := Pass.read_wf (r := r) (w := a.word) (n := a.bodyWords + 1) h
  unfold Pass.readAcc
  split
  · next e => rw [e] at this; exact this
  · next e => rw [e] at this; exact Pass.writeAcc_wf this

theorem Pass.writeGrand_wf {p : Pass} {g : Grand} (h : Memory.wf p.fram) : Memory.wf (p.writeGrand g).fram :=
  Pass.write_wf (Pass.write_wf h)

theorem Pass.writeLastPeriod_wf {p : Pass} {l : LastPeriod} (h : Memory.wf p.fram) : Memory.wf (p.writeLastPeriod l).fram :=
  Pass.write_wf h

theorem Pass.readLastPeriod_wf {p : Pass} {r : Requester} (h : Memory.wf p.fram) : Memory.wf (p.readLastPeriod r).1.fram := by
  have := Pass.read_wf (r := r) (w := lastPeriodWord) (n := lastPeriodWords) h
  unfold Pass.readLastPeriod
  split
  · next e => rw [e] at this; exact this
  · next e => rw [e] at this; exact Pass.writeLastPeriod_wf this

theorem Pass.writeJournal_wf {p : Pass} {kind number : Nat} {content : List Byte} (h : Memory.wf p.fram) :
    Memory.wf (p.writeJournal kind number content).fram :=
  Pass.write_wf (Pass.write_wf h)

theorem Pass.doneJournal_wf {p : Pass} {kind number : Nat} {content : List Byte} (h : Memory.wf p.fram) :
    Memory.wf (p.doneJournal kind number content).fram :=
  Pass.write_wf h

theorem Pass.readPast_wf {next : Pass → Nat → Pass × Option (List Byte)}
    (hn : ∀ p w, Memory.wf p.fram → Memory.wf (next p w).1.fram) {p : Pass} {w n : Nat} (h : Memory.wf p.fram) :
    Memory.wf (Pass.readPast next p w n).fram := by
  unfold Pass.readPast
  generalize List.range n = is
  induction is generalizing p with
  | nil => exact h
  | cons i is ih => exact ih (hn p (w + i) h)

theorem Pass.readEntry_wf {next : Pass → Nat → Pass × Option (List Byte)}
    (hn : ∀ p w, Memory.wf p.fram → Memory.wf (next p w).1.fram) {fuel : Nat} : ∀ {p : Pass} {w : Nat} {bs : List Byte},
    Memory.wf p.fram → Memory.wf (Pass.readEntry next fuel p w bs).1.fram := by
  induction fuel with
  | zero => intro p w bs h; exact h
  | succ n ih =>
    intro p w bs h
    have h1 := hn p w h
    unfold Pass.readEntry
    split
    · exact h
    · generalize next p w = one at h1 ⊢
      obtain ⟨q, _ | more⟩ := one
      · exact Pass.readPast_wf hn h1
      · exact ih h1

theorem Pass.readJournal_wf {p : Pass} {r : Requester} (h : Memory.wf p.fram) : Memory.wf (p.readJournal r).1.fram := by
  have h1 := Pass.readEntry_wf (next := fun q w => q.read r w 1) (fun _ _ => Pass.read_wf) (fuel := journalWords)
    (w := journalWord) (bs := []) h
  unfold Pass.readJournal
  generalize Pass.readEntry (fun q w => q.read r w 1) journalWords p journalWord [] = one at h1 ⊢
  obtain ⟨q, _ | bs⟩ := one
  · exact h1
  · exact h1

theorem Pass.readCal_wf {p : Pass} {r : Requester} {st : Station} (h : Memory.wf p.fram) : Memory.wf (p.readCal r st).1.fram := by
  have := Pass.read_wf (r := r) (w := calWord st) (n := 3) h
  unfold Pass.readCal
  split
  · next e => rw [e] at this; exact this
  · next e => rw [e] at this; split <;> exact this

theorem Pass.writeCal_wf {p : Pass} {w : CalWrite} (h : Memory.wf p.fram) : Memory.wf (p.writeCal w).fram :=
  Pass.write_wf (Pass.write_wf (Pass.write_wf h))

theorem Pass.writeMark_wf {p : Pass} {n : Nat} (h : Memory.wf p.fram) : Memory.wf (p.writeMark n).fram :=
  Pass.write_wf (Pass.write_wf h)

theorem Pass.zeroAll_wf {p : Pass} (h : Memory.wf p.fram) : Memory.wf p.zeroAll.fram := by
  unfold Pass.zeroAll
  generalize List.range accCount = is
  induction is generalizing p with
  | nil => exact h
  | cons i rest ih => exact ih (Pass.writeAcc_wf h)

theorem Pass.clearRest_wf {p : Pass} (h : Memory.wf p.fram) : Memory.wf p.clearRest.fram := by
  have h0 := Pass.zeroAll_wf h
  unfold Pass.clearRest
  generalize p.zeroAll = q at h0 ⊢
  exact Pass.write_wf (p := Pass.write { q with log := .reset } logWord logWords MemLog.reset.bytes) (Pass.write_wf h0)

theorem Pass.loadLog_wf {p : Pass} (h : Memory.wf p.fram) : Memory.wf p.loadLog.fram := by
  have h1 := Pass.readWords_wf (w := logWord) (n := logWords) h
  unfold Pass.loadLog
  dsimp only
  generalize p.readWords logWord logWords = one at h1 ⊢
  refine Pass.captureAll_wf ?_
  generalize recordBytes one.2.words = value
  cases value with
  | none => exact Pass.write_wf (p := { one.1 with log := .reset }) h1
  | some bs => exact h1

theorem Pass.readCals_wf {sts : List Station} : ∀ {p : Pass}, Memory.wf p.fram → Memory.wf (p.readCals sts).1.fram := by
  induction sts with
  | nil => intro p h; exact h
  | cons st rest ih => intro p h; exact ih (Pass.readCal_wf h)

theorem Pass.readCounters_wf {sts : List Station} : ∀ {p : Pass}, Memory.wf p.fram → Memory.wf (p.readCounters sts).1.fram := by
  induction sts with
  | nil => intro p h; exact h
  | cons st rest ih =>
    intro p h
    have h1 := Pass.readPair_wf (r := .startupScan) (w := counterWord st) (n := 1) (parse := parseCount) (bytes := u4)
      (larger := max) h
    unfold Pass.readCounters
    dsimp only
    generalize p.readPair .startupScan (counterWord st) 1 parseCount u4 max = one at h1 ⊢
    cases hf : one.1.failed
    · rw [if_neg (by simp)]; exact ih h1
    · rw [if_pos rfl]; exact h1

theorem Pass.readLegal_wf {p : Pass} (h : Memory.wf p.fram) : Memory.wf p.readLegal.1.fram := by
  have h1 := Pass.readCounters_wf (sts := stations) (Pass.readCals_wf (sts := stations) h)
  unfold Pass.readLegal
  dsimp only
  generalize (p.readCals stations).1.readCounters stations = counters at h1 ⊢
  have h2 := Pass.readPair_wf (r := .startupScan) (w := highMarkWord) (n := 1) (parse := parseCount) (bytes := u4)
    (larger := max) h1
  cases hf : counters.1.failed
  · rw [if_neg (by simp)]
    generalize counters.1.readPair .startupScan highMarkWord 1 parseCount u4 max = mark at h2 ⊢
    cases hm : mark.1.failed
    · have h3 := Pass.readPair_wf (r := .startupScan) (w := grandWord) (n := 2) (parse := parseGrand) (bytes := Grand.bytes)
        (larger := largerGrand) h2
      rw [if_neg (by simp)]
      generalize mark.1.readPair .startupScan grandWord 2 parseGrand Grand.bytes largerGrand = grand at h3 ⊢
      exact h3
    · rw [if_pos rfl]; exact h2
  · rw [if_pos rfl]; exact h1

theorem Pass.readAccs_wf {is : List Nat} : ∀ {p : Pass} {accs : List (Nat × Acc)} {n : Nat}, Memory.wf p.fram →
    Memory.wf (p.readAccs accs n is).1.fram := by
  induction is with
  | nil => intro p accs n h; exact h
  | cons i rest ih =>
    intro p accs n h
    unfold Pass.readAccs
    dsimp only
    exact ih (p := (p.readAcc .startupScan (accAt i) none).1) (Pass.readAcc_wf h)

theorem Pass.readRecords_wf {p : Pass} (h : Memory.wf p.fram) : Memory.wf p.readRecords.1.fram := by
  unfold Pass.readRecords
  dsimp only
  exact Pass.readLastPeriod_wf (Pass.readJournal_wf h)

theorem replayEntry_wf {n : Nat} {x : Pass × List (Nat × Acc)} {e : DeltaEntry} (h : Memory.wf x.1.fram) :
    Memory.wf (replayEntry n x e).1.fram := by
  unfold replayEntry
  dsimp only
  split
  · exact Pass.writeAcc_wf h
  · exact h

theorem replayAll_wf {n : Nat} {es : List DeltaEntry} : ∀ {x : Pass × List (Nat × Acc)}, Memory.wf x.1.fram →
    Memory.wf (es.foldl (replayEntry n) x).1.fram := by
  induction es with
  | nil => intro x h; exact h
  | cons e rest ih => intro x h; exact ih (replayEntry_wf h)

theorem replayClose_wf {p : Pass} {d : VerifyData} {j : CloseJournal} (h : Memory.wf p.fram) :
    Memory.wf (replayClose p d j).1.fram := by
  unfold replayClose
  dsimp only
  refine Pass.doneJournal_wf (Pass.zeroAll_wf ?_)
  split
  · exact Pass.writeGrand_wf (Pass.writeLastPeriod_wf h)
  · exact Pass.writeLastPeriod_wf h

theorem replay_wf {p : Pass} {d : VerifyData} (h : Memory.wf p.fram) : Memory.wf (replay p d).1.fram := by
  unfold replay
  split
  · exact h
  · exact h
  · exact Pass.doneJournal_wf (replayAll_wf h)
  · exact replayClose_wf h
  · exact Pass.clearRest_wf h
  · exact Pass.doneJournal_wf h

theorem verifyPass_log (d : VerifyData) (p : Pass) : verifyPass .log d p = (p.loadLog, d) := rfl

theorem verifyPass_legal (d : VerifyData) (p : Pass) :
    verifyPass .legal d p =
      (fun x : Pass × Legal => (x.1, { d with highMark := x.2.mark.getD 0, grand := x.2.grand.getD .zero })) p.readLegal := rfl

/-- Stage 4's result from its one read of all accumulators. -/
def VerifyData.gather (d : VerifyData) (x : Pass × List (Nat × Acc) × Nat) : Pass × VerifyData :=
  (x.1, { d with accs := x.2.1, highest := x.2.2 })

theorem VerifyData.gather_pass (d : VerifyData) (x : Pass × List (Nat × Acc) × Nat) : (d.gather x).1 = x.1 := rfl

theorem verifyPass_accumulators (d : VerifyData) (p : Pass) :
    verifyPass .accumulators d p = d.gather (p.readAccs [] 0 (List.range accCount)) := rfl

theorem verifyPass_journal (d : VerifyData) (p : Pass) :
    verifyPass .journal d p = (fun x : Pass × JournalRead => (x.1, { d with journal := x.2 })) p.readRecords := rfl

theorem verifyPass_replay (d : VerifyData) (p : Pass) : verifyPass .replay d p = replay p d := rfl

theorem verifyPass_serials (d : VerifyData) (p : Pass) :
    verifyPass .serials d p = (p.writeMark (raisedMark d.highMark), d) := rfl

/-- Every stage of the start-up verify keeps the canonical form. -/
theorem verifyPass_wf {stage : VerifyStage} {d : VerifyData} {p : Pass} (h : Memory.wf p.fram) :
    Memory.wf (verifyPass stage d p).1.fram := by
  cases stage
  case presence => exact h
  case log =>
    rw [verifyPass_log]
    have h2 := Pass.loadLog_wf h
    generalize p.loadLog = x at h2 ⊢
    exact h2
  case legal =>
    rw [verifyPass_legal]
    have h2 := Pass.readLegal_wf h
    generalize p.readLegal = x at h2 ⊢
    exact h2
  case accumulators =>
    rw [verifyPass_accumulators, VerifyData.gather_pass]
    exact Pass.readAccs_wf (is := List.range accCount) (accs := []) (n := 0) h
  case journal =>
    rw [verifyPass_journal]
    have h2 := Pass.readRecords_wf h
    generalize p.readRecords = x at h2 ⊢
    exact h2
  case replay => rw [verifyPass_replay]; exact replay_wf h
  case serials =>
    rw [verifyPass_serials]
    have h2 := Pass.writeMark_wf (n := raisedMark d.highMark) h
    generalize p.writeMark (raisedMark d.highMark) = x at h2 ⊢
    exact h2

theorem applyEntry_wf {p : Pass} {n : Nat} {e : DeltaEntry} (h : Memory.wf p.fram) : Memory.wf (applyEntry p n e).1.fram := by
  have := Pass.readAcc_wf (r := .commit) (a := e.acc) (plu := e.plu) h
  unfold applyEntry
  dsimp only
  split
  · exact Pass.writeAcc_wf this
  · exact this

theorem commitPass_wf {j : CommitJournal} {phase : CommitPhase} {p : Pass} (h : Memory.wf p.fram) :
    Memory.wf (commitPass j phase p).fram := by
  unfold commitPass
  split
  · exact Pass.writeJournal_wf h
  · exact Pass.doneJournal_wf h
  · exact applyEntry_wf h
  · exact Pass.doneJournal_wf h

theorem closeGrand_wf {p : Pass} {j : CloseJournal} (h : Memory.wf p.fram) : Memory.wf (closeGrand p j).1.fram := by
  have := Pass.readPair_wf (r := .periodClose) (w := grandWord) (n := 2) (parse := parseGrand) (bytes := Grand.bytes)
    (larger := largerGrand) h
  unfold closeGrand
  split
  · next e => rw [e] at this; exact this
  · next e =>
    rw [e] at this
    dsimp only
    split
    · exact Pass.writeGrand_wf this
    · exact this

theorem closePass_wf {j : CloseJournal} {phase : ClosePhase} {p : Pass} (h : Memory.wf p.fram) :
    Memory.wf (closePass j phase p).fram := by
  unfold closePass
  split
  · exact Pass.writeJournal_wf h
  · exact Pass.writeLastPeriod_wf h
  · exact closeGrand_wf h
  · exact Pass.zeroAll_wf h
  · exact Pass.doneJournal_wf h

theorem clearPass_wf {n : Nat} {p : Pass} (h : Memory.wf p.fram) : Memory.wf (clearPass n p).fram :=
  Pass.clearRest_wf (Pass.writeJournal_wf h)

theorem readCalPass_wf {p : Pass} {st : Station} (h : Memory.wf p.fram) : Memory.wf (readCalPass p st).1.fram := by
  have h1 := Pass.read_wf (r := .calibration) (w := counterWord st) (n := 1) (Pass.readCal_wf (r := .calibration) (st := st) h)
  have h2 := Pass.read_wf (r := .calibration) (w := counterWord st + 1) (n := 1) h1
  unfold readCalPass
  dsimp only
  generalize (p.readCal .calibration st).1.read .calibration (counterWord st) 1 = one at h1 h2 ⊢
  obtain ⟨q, _ | bs⟩ := one
  · dsimp only at h2 ⊢
    generalize q.read .calibration (counterWord st + 1) 1 = two at h2 ⊢
    obtain ⟨q2, _ | bs⟩ := two
    · exact h2
    · exact h2
  · exact h1

/-- The words transferred before power failed keep the canonical form, whatever the cut left. -/
theorem cutShort_wf {cut : BitVec 72} : ∀ {trace : List (Nat × BitVec 72)} {m : List Host.Cell} {n : Nat}, Memory.wf m →
    Memory.wf (cutShort m cut n trace) := by
  intro trace
  induction trace with
  | nil => intro m n h; cases n <;> exact h
  | cons x rest ih =>
    intro m n h
    cases n with
    | zero => exact Memory.putWord_wf h
    | succ n => exact ih (Memory.putWord_wf h)

/-- A write cut short leaves every byte outside its words as it was, whatever the cut left. -/
theorem byte_cutShort {cut : BitVec 72} {x : Nat} : ∀ {trace : List (Nat × BitVec 72)} {m : List Host.Cell} {n : Nat}, Memory.wf m →
    (∀ w v, (w, v) ∈ trace → x < 9 * w ∨ 9 * w + 9 ≤ x) → Memory.byte (cutShort m cut n trace) x = Memory.byte m x := by
  intro trace
  induction trace with
  | nil => intro m n _ _; cases n <;> rfl
  | cons y rest ih =>
    intro m n h hx
    have hy := hx y.1 y.2 List.mem_cons_self
    cases n with
    | zero => exact Memory.byte_putWord h hy
    | succ n =>
      exact (ih (Memory.putWord_wf h) fun w v hw => hx w v (List.mem_cons_of_mem _ hw)).trans (Memory.byte_putWord h hy)

/-- R167: what may be cut short is of the write in progress. -/
theorem State.cutTrace_subset {s : State} {x : Nat × BitVec 72} (h : x ∈ s.cutTrace) : x ∈ s.opPass.trace := by
  unfold State.cutTrace at h
  split at h
  · exact List.mem_of_mem_take h
  · exact h

/-- R158, R159: a write in progress cut short keeps the canonical form and every byte outside the words being written. -/
theorem State.cutWrites_fram {s : State} (h : Memory.wf s.store.fram) : Memory.wf s.cutWrites.store.fram ∧
    ∀ x, (∀ w v, (w, v) ∈ s.opPass.trace → x < 9 * w ∨ 9 * w + 9 ≤ x) →
      Memory.byte s.cutWrites.store.fram x = Memory.byte s.store.fram x :=
  ⟨cutShort_wf h, fun _ hx => byte_cutShort h fun w v hw => hx w v (State.cutTrace_subset hw)⟩

/-- R167: a calibration write cut short has touched the two words of the event counter alone. -/
theorem State.cutTrace_calWrite {s : State} {c : CalWrite} (h : s.store.op = some (.calWrite c)) :
    s.cutTrace.map Prod.fst = [counterWord c.channel, counterWord c.channel + 1] := by
  unfold State.cutTrace State.opPass
  rw [h]
  rfl

/-- R167: a calibration write cut short leaves every byte outside the event counter's two words, so the old record too. -/
theorem State.cutWrites_calWrite {s : State} {c : CalWrite} (hm : Memory.wf s.store.fram) (h : s.store.op = some (.calWrite c))
    {x : Nat} (hx : x < 9 * counterWord c.channel ∨ 9 * counterWord c.channel + 18 ≤ x) :
    Memory.byte s.cutWrites.store.fram x = Memory.byte s.store.fram x :=
  byte_cutShort hm fun w v hw => by
    have hw' : w ∈ s.cutTrace.map Prod.fst := List.mem_map_of_mem (f := Prod.fst) hw
    rw [State.cutTrace_calWrite h] at hw'
    simp only [List.mem_cons, List.not_mem_nil, or_false] at hw'
    omega

theorem completeWord_wf : ∀ {trace : List (Nat × BitVec 72)} {m : List Host.Cell} {n : Nat}, Memory.wf m →
    Memory.wf (completeWord m n trace) := by
  intro trace
  induction trace with
  | nil => intro m n h; cases n <;> exact h
  | cons x rest ih =>
    intro m n h
    cases n with
    | zero => exact Memory.putWord_wf h
    | succ n => exact ih (Memory.putWord_wf h)

/-- A word after whole words were transferred one after another: as it was, or as one of them wrote it. -/
theorem Memory.word_putWords : ∀ {trace : List (Nat × BitVec 72)} {m : List Host.Cell} {w : Nat}, Memory.wf m → w < Config.framWords →
    Memory.word (trace.foldl (fun m x => Memory.putWord m x.1 x.2) m) w = Memory.word m w ∨
      (w, Memory.word (trace.foldl (fun m x => Memory.putWord m x.1 x.2) m) w) ∈ trace := by
  intro trace
  induction trace with
  | nil => intro m w _ _; exact .inl rfl
  | cons y rest ih =>
    intro m w h hw
    rcases ih (w := w) (Memory.putWord_wf (w := y.1) (v := y.2) h) hw with g | g
    · rw [List.foldl_cons, g]
      by_cases hy : y.1 < Config.framWords
      · rw [Memory.word_putWord h hy]
        split
        · next e => rw [e]; exact .inr List.mem_cons_self
        · exact .inl rfl
      · unfold Memory.putWord
        rw [if_neg hy]
        exact .inl rfl
    · exact .inr (List.mem_cons_of_mem _ g)

/-- R175: RESTART completes the word being transferred: the first words of the write are whole, and no other is touched. -/
theorem completeWord_eq : ∀ (trace : List (Nat × BitVec 72)) (m : List Host.Cell) (n : Nat),
    completeWord m n trace = (trace.take (n + 1)).foldl (fun m x => Memory.putWord m x.1 x.2) m := by
  intro trace
  induction trace with
  | nil => intro m n; cases n <;> rfl
  | cons x rest ih =>
    intro m n
    cases n with
    | zero => rfl
    | succ n => exact ih _ n

/-- R158: of a write cut short every word but the one cut is whole, as it was or as the write wrote it. -/
theorem word_cutShort {c : BitVec 72} : ∀ (trace : List (Nat × BitVec 72)) {m : List Host.Cell} (n : Nat), Memory.wf m →
    ∃ cut, ∀ w, w < Config.framWords → w ≠ cut →
      Memory.word (cutShort m c n trace) w = Memory.word m w ∨ (w, Memory.word (cutShort m c n trace) w) ∈ trace := by
  intro trace
  induction trace with
  | nil => intro m n _; exact ⟨0, fun w _ _ => .inl (by cases n <;> rfl)⟩
  | cons y rest ih =>
    intro m n h
    cases n with
    | zero =>
      refine ⟨y.1, fun w _ g => .inl ?_⟩
      unfold cutShort
      by_cases hy : y.1 < Config.framWords
      · rw [Memory.word_putWord h hy, if_neg g]
      · unfold Memory.putWord
        rw [if_neg hy]
    | succ n =>
      obtain ⟨cut, hc⟩ := ih (m := Memory.putWord m y.1 y.2) n (Memory.putWord_wf h)
      refine ⟨cut, fun w hw g => ?_⟩
      show Memory.word (cutShort (Memory.putWord m y.1 y.2) c n rest) w = _ ∨
        (w, Memory.word (cutShort (Memory.putWord m y.1 y.2) c n rest) w) ∈ _
      rcases hc w hw g with e | e
      · rw [e]
        by_cases hy : y.1 < Config.framWords
        · rw [Memory.word_putWord h hy]
          split
          · next e => rw [e]; exact .inr List.mem_cons_self
          · exact .inl rfl
        · unfold Memory.putWord
          rw [if_neg hy]
          exact .inl rfl
      · exact .inr (List.mem_cons_of_mem _ e)

/-- The FRAM at reset is in canonical form. -/
theorem State.reset_fram_wf : Memory.wf State.reset.store.fram := Memory.wf_nil

end Sys2Proof.Machine
end

