-- ==== Sys2Proof/Laws/PerInstr.lean ====
section
/-! SUPPORT. Laws/PerInstr: what holds of every command as syntax, one lemma per constructor. -/

namespace Sys2Proof.Laws.NoTableWord

/-- No table word spells the command: the table gives no row any bits. -/
def Statement (i : Instr) : Prop := ∀ nbits w : Nat, decodeTableWord nbits w ≠ some i

theorem powerOn (framAnswers : Bool) : Statement (.powerOn framAnswers) := fun _ _ h => nomatch h
theorem powerLoss : Statement .powerLoss := fun _ _ h => nomatch h
theorem clockSecond : Statement .clockSecond := fun _ _ h => nomatch h
theorem hostFrameReceived (frame : List Byte) : Statement (.hostFrameReceived frame) := fun _ _ h => nomatch h
theorem hostInterbyteTimeout : Statement .hostInterbyteTimeout := fun _ _ h => nomatch h
theorem hostFrameSent : Statement .hostFrameSent := fun _ _ h => nomatch h
theorem unknownRequest : Statement .unknownRequest := fun _ _ h => nomatch h
theorem identify : Statement .identify := fun _ _ h => nomatch h
theorem restart : Statement .restart := fun _ _ h => nomatch h
theorem setClock : Statement .setClock := fun _ _ h => nomatch h
theorem getStatus : Statement .getStatus := fun _ _ h => nomatch h
theorem setFlagControl : Statement .setFlagControl := fun _ _ h => nomatch h
theorem clearFlags : Statement .clearFlags := fun _ _ h => nomatch h
theorem readFlags : Statement .readFlags := fun _ _ h => nomatch h
theorem configurePorts : Statement .configurePorts := fun _ _ h => nomatch h
theorem configureChannel : Statement .configureChannel := fun _ _ h => nomatch h
theorem readChannel : Statement .readChannel := fun _ _ h => nomatch h
theorem resetChannel : Statement .resetChannel := fun _ _ h => nomatch h
theorem writeCalibration : Statement .writeCalibration := fun _ _ h => nomatch h
theorem readCalibration : Statement .readCalibration := fun _ _ h => nomatch h
theorem readMemoryLog : Statement .readMemoryLog := fun _ _ h => nomatch h
theorem clearMemoryLog : Statement .clearMemoryLog := fun _ _ h => nomatch h
theorem clearStore : Statement .clearStore := fun _ _ h => nomatch h
theorem stagePlu : Statement .stagePlu := fun _ _ h => nomatch h
theorem stageDelete : Statement .stageDelete := fun _ _ h => nomatch h
theorem stageKeyPage : Statement .stageKeyPage := fun _ _ h => nomatch h
theorem discardStage : Statement .discardStage := fun _ _ h => nomatch h
theorem publish : Statement .publish := fun _ _ h => nomatch h
theorem forceAdoption : Statement .forceAdoption := fun _ _ h => nomatch h
theorem readPlu : Statement .readPlu := fun _ _ h => nomatch h
theorem readAdoption : Statement .readAdoption := fun _ _ h => nomatch h
theorem defineClerk : Statement .defineClerk := fun _ _ h => nomatch h
theorem removeClerk : Statement .removeClerk := fun _ _ h => nomatch h
theorem issueTicket : Statement .issueTicket := fun _ _ h => nomatch h
theorem resetNumbering : Statement .resetNumbering := fun _ _ h => nomatch h
theorem readQueue : Statement .readQueue := fun _ _ h => nomatch h
theorem readBasket : Statement .readBasket := fun _ _ h => nomatch h
theorem cancelBasket : Statement .cancelBasket := fun _ _ h => nomatch h
theorem readLabelQueue : Statement .readLabelQueue := fun _ _ h => nomatch h
theorem cancelJob : Statement .cancelJob := fun _ _ h => nomatch h
theorem resetPrinterPort : Statement .resetPrinterPort := fun _ _ h => nomatch h
theorem startRun : Statement .startRun := fun _ _ h => nomatch h
theorem abortRun : Statement .abortRun := fun _ _ h => nomatch h
theorem clearRun : Statement .clearRun := fun _ _ h => nomatch h
theorem readRun : Statement .readRun := fun _ _ h => nomatch h
theorem readTotals : Statement .readTotals := fun _ _ h => nomatch h
theorem readLastPeriod : Statement .readLastPeriod := fun _ _ h => nomatch h
theorem closePeriod : Statement .closePeriod := fun _ _ h => nomatch h
theorem peripheralFrameDiscarded (line : PeripheralLine) (frame : List Byte) : Statement (.peripheralFrameDiscarded line frame) := fun _ _ h => nomatch h
theorem peripheralInterbyteTimeout (line : PeripheralLine) : Statement (.peripheralInterbyteTimeout line) := fun _ _ h => nomatch h
theorem headHello (st : Station) (serial : BitVec 32) (model : Byte) : Statement (.headHello st serial model) := fun _ _ h => nomatch h
theorem sample (st : Station) (raw : BitVec 24) (seq : Byte) : Statement (.sample st raw seq) := fun _ _ h => nomatch h
theorem sampleTimeout (st : Station) : Statement (.sampleTimeout st) := fun _ _ h => nomatch h
theorem headState (st : Station) (condition : Byte) : Statement (.headState st condition) := fun _ _ h => nomatch h
theorem stateTimeout (st : Station) : Statement (.stateTimeout st) := fun _ _ h => nomatch h
theorem key (st : Station) (code : Byte) (number : BitVec 16) : Statement (.key st code number) := fun _ _ h => nomatch h
theorem preset (st : Station) (k : Nat) : Statement (.preset st k) := fun _ _ h => nomatch h
theorem pluEntry (st : Station) (number : BitVec 16) : Statement (.pluEntry st number) := fun _ _ h => nomatch h
theorem countEntry (st : Station) (number : BitVec 16) : Statement (.countEntry st number) := fun _ _ h => nomatch h
theorem zero (st : Station) : Statement (.zero st) := fun _ _ h => nomatch h
theorem tare (st : Station) : Statement (.tare st) := fun _ _ h => nomatch h
theorem clearTare (st : Station) : Statement (.clearTare st) := fun _ _ h => nomatch h
theorem clear (st : Station) : Statement (.clear st) := fun _ _ h => nomatch h
theorem page (st : Station) : Statement (.page st) := fun _ _ h => nomatch h
theorem add (st : Station) : Statement (.add st) := fun _ _ h => nomatch h
theorem voidLast (st : Station) : Statement (.voidLast st) := fun _ _ h => nomatch h
theorem total (st : Station) : Statement (.total st) := fun _ _ h => nomatch h
theorem nextKey (st : Station) : Statement (.nextKey st) := fun _ _ h => nomatch h
theorem park (st : Station) : Statement (.park st) := fun _ _ h => nomatch h
theorem recallBasket (st : Station) : Statement (.recallBasket st) := fun _ _ h => nomatch h
theorem recallTicket (st : Station) (number : BitVec 16) : Statement (.recallTicket st number) := fun _ _ h => nomatch h
theorem reprint (st : Station) : Statement (.reprint st) := fun _ _ h => nomatch h
theorem clerk (st : Station) (number : BitVec 16) : Statement (.clerk st number) := fun _ _ h => nomatch h
theorem logoff (st : Station) : Statement (.logoff st) := fun _ _ h => nomatch h
theorem displayRefresh (st : Station) : Statement (.displayRefresh st) := fun _ _ h => nomatch h
theorem displayFrameEnd (st : Station) : Statement (.displayFrameEnd st) := fun _ _ h => nomatch h
theorem dispenserHello (serial : BitVec 32) (model : Byte) : Statement (.dispenserHello serial model) := fun _ _ h => nomatch h
theorem dispenserState (condition : Byte) : Statement (.dispenserState condition) := fun _ _ h => nomatch h
theorem take (press : Byte) : Statement (.take press) := fun _ _ h => nomatch h
theorem dispenserTimeout : Statement .dispenserTimeout := fun _ _ h => nomatch h
theorem signRefresh : Statement .signRefresh := fun _ _ h => nomatch h
theorem queuePortFrameEnd : Statement .queuePortFrameEnd := fun _ _ h => nomatch h
theorem printerHello (p : Printer) (serial : BitVec 32) (model : Byte) : Statement (.printerHello p serial model) := fun _ _ h => nomatch h
theorem printerState (p : Printer) (condition : Byte) : Statement (.printerState p condition) := fun _ _ h => nomatch h
theorem printerDone (p : Printer) (job : BitVec 16) : Statement (.printerDone p job) := fun _ _ h => nomatch h
theorem printerFault (p : Printer) (job : BitVec 16) (cause : Byte) : Statement (.printerFault p job cause) := fun _ _ h => nomatch h
theorem printerFrameTimeout (p : Printer) : Statement (.printerFrameTimeout p) := fun _ _ h => nomatch h
theorem doneTimeout (p : Printer) : Statement (.doneTimeout p) := fun _ _ h => nomatch h
theorem printerFrameEnd (p : Printer) : Statement (.printerFrameEnd p) := fun _ _ h => nomatch h
theorem framNotAnswering (answersAfter : Bool) : Statement (.framNotAnswering answersAfter) := fun _ _ h => nomatch h
theorem verifyStageComplete : Statement .verifyStageComplete := fun _ _ h => nomatch h
theorem commitApplyBegin : Statement .commitApplyBegin := fun _ _ h => nomatch h
theorem commitWriteComplete : Statement .commitWriteComplete := fun _ _ h => nomatch h
theorem periodCloseBegin : Statement .periodCloseBegin := fun _ _ h => nomatch h
theorem periodCloseWriteComplete : Statement .periodCloseWriteComplete := fun _ _ h => nomatch h
theorem clearOperationBegin : Statement .clearOperationBegin := fun _ _ h => nomatch h
theorem clearComplete : Statement .clearComplete := fun _ _ h => nomatch h
theorem calibrationWriteBegin : Statement .calibrationWriteBegin := fun _ _ h => nomatch h
theorem calibrationWriteComplete : Statement .calibrationWriteComplete := fun _ _ h => nomatch h
theorem highMarkRaiseBegin : Statement .highMarkRaiseBegin := fun _ _ h => nomatch h
theorem highMarkRaiseComplete : Statement .highMarkRaiseComplete := fun _ _ h => nomatch h
theorem calibrationReadBegin : Statement .calibrationReadBegin := fun _ _ h => nomatch h
theorem calibrationReadComplete : Statement .calibrationReadComplete := fun _ _ h => nomatch h
theorem lastPeriodReadBegin : Statement .lastPeriodReadBegin := fun _ _ h => nomatch h
theorem lastPeriodReadComplete : Statement .lastPeriodReadComplete := fun _ _ h => nomatch h
theorem memoryLogWriteBegin : Statement .memoryLogWriteBegin := fun _ _ h => nomatch h
theorem memoryLogWriteComplete : Statement .memoryLogWriteComplete := fun _ _ h => nomatch h
theorem hostFrameBadLength (length : BitVec 16) : Statement (.hostFrameBadLength length) := fun _ _ h => nomatch h

end Sys2Proof.Laws.NoTableWord
end

