-- ==== Sys2Proof/Laws/Store.lean ====
section
/-! SUPPORT. Laws/Store: what a pass over the FRAM leaves of the part, said once for every operation of the store, and how the store's
choices of numbers and phases read as plain conditions. -/

namespace Sys2Proof.Machine

/-- Raising a list of flags changes the flag table alone. -/
theorem State.raiseAll_eq : ∀ (raises : List (Flag × List Byte)) (s : State),
    raises.foldl (fun t f => t.raise f.1 f.2) s
      = { s with link := { s.link with flags := raisedFlags s.link.flags raises } }
  | [], _ => rfl
  | r :: rs, s => by rw [List.foldl_cons, State.raiseAll_eq rs]; rfl

/-- R158, R164: a pass leaves its FRAM, its log image and its flags, and nothing else. -/
theorem State.takePass_eq (s : State) (p : Pass) : s.takePass p = afterPass s p := by
  unfold State.takePass
  rw [State.raiseAll_eq]
  rfl

/-- R146: OTHER_USED for a list of PLU numbers changes the flag table alone. -/
theorem State.raiseOthers_eq (others : List Nat) (s : State) : others.foldl State.raiseOther s
    = { s with link := { s.link with
        flags := raisedFlags s.link.flags (others.map fun plu => (Flag.otherUsed, u2 plu)) } } := by
  rw [← State.raiseAll_eq, List.foldl_map]
  rfl

/-- R153: the grand total after a period is the sum, held at its limit. -/
theorem Grand.close_eq (before : Nat) (saturated : Bool) (value z : Nat) : Grand.close before saturated value z =
    { value := min (before + value) 281474976710655, z := z,
      saturated := saturated || decide (281474976710655 < before + value) } := by
  unfold Grand.close addFigure
  rw [show Config.max48 = 281474976710655 from rfl]
  generalize before + value = sum
  by_cases h : 281474976710655 < sum
  · simp [h]
    omega
  · simp [h]
    omega

/-- R150: the phase after an entry, by the entries left. -/
theorem applyNext_eq (rest : List DeltaEntry) : applyNext rest = if rest = [] then .done else .apply rest := by
  cases rest <;> simp [applyNext]

/-- R160: the larger of two grand total copies: by the Z counter, then by the value. -/
theorem largerGrand_eq (a b : Grand) :
    largerGrand a b = if a.z < b.z ∨ (a.z = b.z ∧ a.value < b.value) then b else a := by
  unfold largerGrand
  split_ifs <;> first | rfl | (exfalso; omega)

end Sys2Proof.Machine
end

