-- ==== Sys2Proof/WellFormed.lean ====
section
/-! DEFINITION. WellFormed: which commands name an event that can happen on the part's lines. -/

namespace Sys2Proof

open Sys2Proof.Machine

/-- R2: the bytes of a discarded frame begin with the start byte and fail the receiver's checks. -/
def discardedFrame (line : PeripheralLine) (frame : List Byte) : Bool :=
  frame.head? == some 0xA5 && !frameTaken line frame

/-- A command whose operands are those of its event: a whole host frame (R171), a length the receiver refuses (R171), a discarded
peripheral frame (R2), a preset key 1 to 48 (1.5), a condition and a cause a printer port takes (R123). -/
def Instr.wellFormed : Instr → Bool
  | .hostFrameReceived frame => wholeFrame frame
  | .hostFrameBadLength length => decide (length = 0 ∨ 1030 < length.toNat)
  | .peripheralFrameDiscarded line frame => discardedFrame line frame
  | .preset _ k => decide (1 ≤ k ∧ k ≤ 48)
  | .printerState _ condition => decide (condition.toNat ≤ 2)
  | .printerFault _ _ cause => decide (1 ≤ cause.toNat ∧ cause.toNat ≤ 4)
  | _ => true

end Sys2Proof
end

