-- ==== Sys2Proof/Tests/Slice0.lean ====
section
/-! SUPPORT. Tests/Slice0: ill-formed commands that WellFormed refuses, values worked out in the manual, and states that meet the
hypotheses of the statements. -/

namespace Sys2Proof.Tests

open Sys2Proof.Machine

/-! ## WellFormed -/

theorem test_wf_frame_without_crc : (Instr.hostFrameReceived [0xD5, 1, 0, 1]).wellFormed = false := by decide
theorem test_wf_frame_whole : (Instr.hostFrameReceived (hostFrame 4 [])).wellFormed = true := by decide
theorem test_wf_length_in_range : (Instr.hostFrameBadLength 1030).wellFormed = false := by decide
theorem test_wf_length_too_long : (Instr.hostFrameBadLength 1031).wellFormed = true := by decide
theorem test_wf_good_peripheral_frame : (Instr.peripheralFrameDiscarded (.head 0) (peripheralFrame 0x13 [1])).wellFormed = false := by
  decide
theorem test_wf_bad_check_byte : (Instr.peripheralFrameDiscarded (.head 0) [0xA5, 0x13, 1, 1, 0]).wellFormed = true := by decide
theorem test_wf_no_start_byte : (Instr.peripheralFrameDiscarded .queue [0x22, 1, 1, 0]).wellFormed = false := by decide
theorem test_wf_preset_zero : (Instr.preset 0 0).wellFormed = false := by decide
theorem test_wf_preset_49 : (Instr.preset 0 49).wellFormed = false := by decide
theorem test_wf_preset_48 : (Instr.preset 0 48).wellFormed = true := by decide
theorem test_wf_condition_three : (Instr.printerState 0 3).wellFormed = false := by decide
theorem test_wf_cause_zero : (Instr.printerFault 0 1 0).wellFormed = false := by decide
theorem test_wf_cause_five : (Instr.printerFault 0 1 5).wellFormed = false := by decide

/-! ## Values of the manual -/

/-- 4.6: 346 g at 2,125 per kilogram in steps of 5 is 735. -/
theorem test_price_735 : finalPrice (basePriceByWeight 346 2125) 0 5 = 735 := by decide
theorem test_step_midway_goes_up : stepPrice 735 10 = 740 ∧ stepPrice 734 10 = 730 ∧ stepPrice 732 5 = 730 ∧ stepPrice 2 5 = 0 := by
  decide
theorem test_markdown_of_one : markdownAmount 1 90 = 1 := by decide
theorem test_item_code : itemCode 17 735 = [50, 48, 48, 49, 55, 48, 48, 48, 48, 55, 51, 53] := by decide
theorem test_summary_code : summaryCode none 1234567890 = [57, 48, 48, 50, 51, 52, 53, 54, 55, 56, 57, 48] := by decide
theorem test_leap_day : Date.addDays { year := 2028, month := 2, day := 28 } 1 = { year := 2028, month := 2, day := 29 } := by decide
theorem test_clamped_date : Date.addDays { year := 2099, month := 12, day := 30 } 5 = { year := 2099, month := 12, day := 31 } := by
  decide
/-- The CRC-16 of the nine digits, with this polynomial and start value. -/
theorem test_crc : crc [0x31, 0x32, 0x33, 0x34, 0x35, 0x36, 0x37, 0x38, 0x39] = 0x29B1 := by decide +kernel
theorem test_sign_frame : (QueueFrame.sign [{ ticket := 7, clerk := 12, channel := 2 }]).bytes
    = [0xA5, 0xB3, 12, 7, 12, 3, 0, 0, 0, 0, 0, 0, 0, 0, 0, 0x2B] := by decide
theorem test_blank_word : storedWord 0 = 0 := by decide +kernel
theorem test_word_read_back : judge (storedWord 0x0123456789ABCDEF) = .good 0x0123456789ABCDEF := by decide +kernel
theorem test_data_bit_corrected : judge (storedWord 5 ^^^ 1) = .corrected 5 (BitVec.ofNat 8 131) := by decide +kernel
theorem test_two_bits_found : judge (storedWord 5 ^^^ 3) = .uncorrectable (BitVec.ofNat 8 6) := by decide +kernel

/-! ## A counter at work -/

def record : CalRecord := { zc := 1000, span := 200000, max := 6000, rangeMode := 0, e1 := 2, e2 := 0, max1 := 0 }

def version : PluVersion :=
  { number := 17, name := [0x48], mode := .byWeight, unitPrice := 2125, markdown := 0, step := 5, presetTare := 0, department := 1,
    labelFormat := 1, shelfLife := none, extraText := none, zeroAllowed := false, generation := 0 }

def weighed : Weighing := { gross := 3460, net := 3460, division := 2, weight := 346 }

/-- Channel 1 with 346 g on the pan, PLU 17 selected, armed. -/
def loaded : Channel :=
  { Channel.reset with
    state := .stable, calStatus := .valid, cal := some record, stability := [70200], zp := some 0, z := some 0,
    selection := some { version := version, presetTare := 0, count := none }, armed := true, last := some weighed,
    outcome := .priced 735 }

/-- Channel 1 with an empty pan. -/
def unloaded : Channel :=
  { loaded with selection := none, stability := [1010], last := some { gross := 5, net := 5, division := 2, weight := 0 } }

def clerk : Clerk := { number := 12, name := [0x41], enabled := true, channel := some 0, current := some 1, parked := [] }

def soldLine : Line :=
  { number := 1, plu := 17, name := [0x48], mode := .byWeight, department := 1, labelFormat := 1, shelfLife := none,
    extraText := none, generation := 0, netWeight := some 3460, tare := some 0, quantity := none, unitPrice := 2125, markdown := 0,
    step := 5, markdownShown := false, price := 735, packed := none, useBy := none, channel := 0, voided := false,
    labelState := .none, latestJob := none, reprints := 0 }

def basket (lines : List Line) : Basket :=
  { slot := 1, state := .opened, serial := some 1, clerk := some 12, ticket := none, channel := some 0, openedAt := none,
    endedAt := none, lines := lines, total := (lines.map (·.price)).sum }

/-- Station 1 with a PRESENT head, clerk 12 logged on with a basket of the given lines, and a VERIFIED store. -/
def counter (ch : Channel) (lines : List Line) : State :=
  { State.reset with
    ports := modAt State.reset.ports 0 fun p =>
      { p with state := .present, serial := some 9, model := some 1, sampleTimer := true, stateTimer := true, switch := .opened },
    channels := modAt State.reset.channels 0 fun _ => ch,
    price := { PriceTable.reset with versions := [version] },
    service := { Service.reset with clerks := [clerk] },
    pool := { records := basket lines :: Pool.reset.records.tail, free := Pool.reset.free.tail },
    store := { State.reset.store with state := .verified, op := none, nextSerial := some 2, highMark := 64 } }

/-- The counter with a request in execution. -/
def asking (s : State) (kind : Nat) (payload : List Byte) : State :=
  { s with link := { s.link with
      executing := some { kind := kind, payload := payload, waiting := false },
      replies := [{ kind := kind, busy := false, restart := false, answer := none }] } }

/-- A request row has a state in which it executes, for every kind and payload. -/
theorem witness_executing (ch : Channel) (lines : List Line) (kind : Nat) (payload : List Byte) :
    Executing (asking (counter ch lines) kind payload) kind payload := ⟨rfl, rfl⟩

theorem witness_key_taken (ch : Channel) (lines : List Line) : KeyTaken (counter ch lines) 0 := ⟨rfl, rfl, rfl⟩

/-- The state after a command. -/
def after (o : Host.Outcome State Fault Refusal) : Option State :=
  match o with
  | .next s => some s
  | .fault _ => none
  | .refused _ => none

/-- What a command leaves, looked at through `f`. -/
def seen {α : Type} (c : Instr) (s : State) (f : State → α) : Option α := (after (exec c s)).map f

/-! ## One step of some commands -/

theorem test_add_appends_a_line :
    seen (.add 0) (counter loaded []) (fun s => (s.pool.records.map (fun b => (b.lines.length, b.total))).head?)
      = some (some (1, 735)) := by decide +kernel
theorem test_add_queues_a_label : seen (.add 0) (counter loaded []) (fun s => s.labels.queue.map (·.content.price)) = some [735] := by
  decide +kernel
theorem test_void_takes_the_price_back :
    seen (.voidLast 0) (counter loaded [soldLine]) (fun s => (s.pool.records.map (·.total)).head?) = some (some 0) := by decide +kernel
theorem test_total_hands_a_commit_over :
    seen (.total 0) (counter loaded [soldLine]) (fun s => s.totals.commits.map (·.kind)) = some [.basket] := by decide +kernel
theorem test_total_frees_the_record :
    seen (.total 0) (counter loaded [soldLine]) (fun s => s.pool.free.getLast?) = some (some 1) := by decide +kernel
theorem test_zero_key : seen (.zero 0) (counter unloaded []) (fun s => s.channels[0].z) = some (some 10) := by decide +kernel
theorem test_tare_key : seen (.tare 0) (counter loaded []) (fun s => s.channels[0].keyedTare) = some (some 3460) := by decide +kernel
theorem test_clear_key : seen (.clear 0) (counter loaded []) (fun s => s.channels[0].selection) = some none := by decide +kernel
theorem test_plu_entry : seen (.pluEntry 0 17) (counter unloaded []) (fun s => s.ports[0].image.unitPrice) = some (some 2125) := by
  decide +kernel
theorem test_plu_entry_unknown : seen (.pluEntry 0 18) (counter unloaded []) (fun s => s.ports[0].image.message) = some .notFound := by
  decide +kernel
theorem test_logoff : seen (.logoff 0) (counter loaded []) (fun s => s.service.clerks.map (·.channel)) = some [none] := by
  decide +kernel
theorem test_sample_timeout : seen (.sampleTimeout 0) (counter loaded []) (fun s => (s.ports[0].state, s.channels[0].state))
    = some (.lost, .absent) := by decide +kernel
theorem test_hello : seen (.headHello 3 77 2) State.reset (fun s => (s.ports[3].state, s.headLines[3].sending))
    = some (.present, some (.accept 77 3)) := by decide +kernel
theorem test_host_request : seen (.hostFrameReceived (hostFrame 0x1A [])) State.reset (fun s => s.link.executing)
    = some (some { kind := 0x1A, payload := [], waiting := false }) := by decide +kernel
theorem test_bad_crc : seen (.hostFrameReceived [0xD5, 1, 0, 1, 0, 0]) State.reset (fun s => s.link.errors) = some 1 := by decide +kernel
theorem test_issue_ticket : seen .issueTicket (asking State.reset 0x32 []) (fun s => s.service.waiting) = some [1] := by decide +kernel
theorem test_close_period_needs_no_basket :
    seen .closePeriod (asking (counter loaded []) 0x52 []) (fun s => s.link.sending)
      = some (some (.reply (hostFrame 0xD2 [12]) false)) := by decide +kernel
theorem test_take_before_hello : seen (.take 1) State.reset (fun s => s.service.waiting) = some [] := by decide +kernel
theorem test_dispenser_hello : seen (.dispenserHello 5 1) State.reset (fun s => s.queuePort.sending) = some (some (.accept 5)) := by
  decide +kernel
theorem test_printer_hello : seen (.printerHello 1 6 1) State.reset (fun s => (s.printers[1].state, s.printers[1].sending))
    = some (.notReady, some (.accept 6 1)) := by decide +kernel
theorem test_verify_presence : seen .verifyStageComplete State.reset (fun s => s.store.op) = some (some (.verify .log .start)) := by
  decide +kernel
theorem test_power_loss : seen .powerLoss (counter loaded []) (fun s => (s.powered, s.service.clerks)) = some (false, []) := by
  decide +kernel

/-! ## States that meet the hypotheses of the statements -/

def dark : State := { State.reset with powered := false }

def linked (l : HostLink) : State := { State.reset with link := l }

def slot : ReplySlot := { kind := 4, busy := false, restart := false, answer := none }
def busySlot : ReplySlot := { kind := 4, busy := true, restart := false, answer := some [4] }
def held : Request := { kind := 4, payload := [], waiting := false }
def operating (op : StoreOp) : State := { State.reset with store := { State.reset.store with op := some op, state := .verified } }

/-- IdleOrUnpoweredPartKeepsItsState, PowerOnStartsAfreshOverTheFram, PowerLossKeepsOnlyTheFram. -/
theorem witness_power : State.reset.pending = [] ∧ dark.powered = false ∧ Instr.clockSecond ≠ .powerOn true ∧ State.reset.powered = true ∧
    (operating .raiseMark).store.op = some .raiseMark ∧ (counter loaded []).store.op = none ∧ Memory.wf State.reset.store.fram :=
  ⟨rfl, rfl, by decide, rfl, rfl, rfl, Memory.wf_nil⟩

/-- UseByDateFollowsTheCalendar, ClockSecondAdvancesASetClock, SetClockSetsAValidValue: the first and the last day, a value that is none. -/
theorem witness_calendar :
    Date.legal { year := 2000, month := 1, day := 1 } ∧ Date.legal { year := 2099, month := 12, day := 31 } ∧
    Date.number { year := 2099, month := 12, day := 31 } < Date.number { year := 2099, month := 12, day := 31 } + 1 ∧
    DateTime.valid { year := 2000, month := 2, day := 29, hour := 0, minute := 0, second := 0 } = true ∧
    DateTime.valid { year := 2001, month := 2, day := 29, hour := 0, minute := 0, second := 0 } = false ∧
    (linked { HostLink.reset with clock := some .last }).link.clock = some .last := by
  unfold Date.legal; decide

/-- HostRequestIsHeldOrRefusedBusy: each of its four clauses. -/
theorem witness_holding :
    (let l := { HostLink.reset with executing := some held, holding := [held, held, held] }
     l.holding.length < 4 ∧ l.executing.isSome = true) ∧
    (HostLink.reset.holding = [] ∧ HostLink.reset.executing = none ∧ HostLink.reset.restarting = false) ∧
    (let l := { HostLink.reset with holding := [held, held, held, held], replies := [busySlot, busySlot, busySlot] }
     4 ≤ l.holding.length ∧ (l.replies.countP fun r => r.busy) < 4) ∧
    (let l := { HostLink.reset with holding := [held, held, held, held], replies := [busySlot, busySlot, busySlot, busySlot] }
     4 ≤ l.holding.length ∧ 4 ≤ (l.replies.countP fun r => r.busy)) ∧ (hostFrame 0x7F []).length = 6 := by decide

/-- HostFramesInErrorAreCounted: the lengths at the ends of the ranges, and a whole frame with a wrong CRC. -/
theorem witness_frames_in_error : ((0 : BitVec 16) = 0 ∧ 1030 < (1031 : BitVec 16).toNat) ∧
    wholeFrame [0xD5, 1, 0, 1, 0, 0] = true ∧ parseHostFrame [0xD5, 1, 0, 1, 0, 0] = none := by decide +kernel

/-- HostFrameSentEndsTheTransmission, ArbiterSendsReplyThenHighestFlag, AnsweredRequestTakesItsPlace, UnknownRequestAndRestart. -/
theorem witness_transmissions :
    (linked { HostLink.reset with sending := some (.reply [] false) }).link.sending = some (.reply [] false) ∧
    (linked { HostLink.reset with sending := some (.reply [] true) }).link.sending = some (.reply [] true) ∧
    (linked { HostLink.reset with sending := some (.report 0 [] true) }).link.sending = some (.report 0 [] true) ∧
    (linked { HostLink.reset with sending := some (.report 0 [] false) }).link.sending = some (.report 0 [] false) ∧
    (linked { HostLink.reset with replies := [busySlot] }).link.replies.head?.bind (·.answer) = some [4] ∧
    (let l := { HostLink.reset with
        flags := modAt HostLink.reset.flags 3 fun _ => { enabled := true, level := 3, pending := true, reported := false, body := [] } }
     l.sending = none ∧ (∀ r, l.replies.head? = some r → r.answer = none) ∧ (l.flags[(3 : Fin 50)]).due = true) ∧
    (∀ n : Fin 50, (HostLink.reset.flags[n]).due = false) ∧
    ([busySlot, slot] = [busySlot] ++ slot :: [] ∧ busySlot.answer.isSome = true ∧ slot.answer = none) ∧ 0x60 ∉ knownKinds := by
  refine ⟨rfl, rfl, rfl, rfl, rfl, ⟨rfl, fun _ h => (by cases h), by decide⟩, by decide, ⟨rfl, rfl, rfl⟩, by decide⟩

/-- RequestsRefusePayloadsOfAnotherLength, FlagsAreRaisedAndControlled: payloads, triples and entries at the ends of their ranges. -/
theorem witness_flag_requests : ([0] : List Byte) ≠ [] ∧ ([0, 0] : List Byte).length ≠ 1 ∧
    (1 ≤ [FlagControl.mk 1 0 0, FlagControl.mk 50 1 3].length ∧
      ∀ c ∈ [FlagControl.mk 1 0 0, FlagControl.mk 50 1 3], 1 ≤ c.entry ∧ c.entry ≤ 50 ∧ c.enable ≤ 1 ∧ c.level ≤ 3) ∧
    (∀ n ∈ [1, 50], 1 ≤ n ∧ n ≤ 50) ∧ (State.reset.link.flags[(Flag.headLost 7).entry]).pending = false ∧
    ((State.reset.raise (.headLost 7) [1]).link.flags[(Flag.headLost 7).entry]).pending = true := by decide

/-- HeadHelloAcceptsTheHead, SampleTimeoutLosesTheHead, PortDiscardsFramesByItsState, SampleJoinsTheWindows,
HeadStateWritesTheIndications, HeadLineEventsActOnTheLineAlone. -/
theorem witness_ports :
    let s := counter loaded []
    State.reset.ports[0].state = .waiting ∧ (s.onPort 0 fun p => { p with state := .lost }).ports[0].state = .lost ∧
    s.ports[0].state = .present ∧ s.ports[0].serial = some 9 ∧ s.ports[0].serial ≠ some 8 ∧ s.ports[0].sampleTimer = true ∧
    s.ports[0].stateTimer = true ∧ s.ports[0].converterFault = false ∧
    (s.onPort 0 fun p => { p with converterFault := true }).ports[0].converterFault = true ∧
    (s.onPort 0 fun p => { p with keypadFault := true }).ports[0].keypadFault = true ∧
    (s.onPort 0 fun p => { p with state := .off }).ports[0].state = .off ∧ stationRow (.zero 0) = some 0 ∧
    s.ports[0].converterFault = (1 : Byte).getLsbD 1 ∧ s.ports[0].converterFault ≠ (2 : Byte).getLsbD 1 ∧
    (s.onHeadLine 0 fun l => { l with sending := some (.accept 9 0) }).headLines[0].sending.isSome = true := by decide

/-- SampleIsWeighed, ChannelKeysAct: a STABLE channel with its record; ZERO within the range and at its end, TARE. -/
theorem witness_channel :
    loaded.cal = some record ∧ loaded.z = some 0 ∧ loaded.state = .stable ∧ unloaded.tareInForce = 0 ∧ unloaded.zp = some 0 ∧
    unloaded.stability.getLast? = some 1010 ∧ 50000 * ((1010 : Int) - record.zc - 0).natAbs ≤ record.max * record.span ∧
    50000 * ((25000 : Int) - record.zc - 0).natAbs ≤ record.max * record.span ∧
    record.max * record.span < 50000 * ((25001 : Int) - record.zc - 0).natAbs ∧
    ((3460 : Nat) : Int) = roundDiv weighed.gross (10 * record.e1) * ((10 * record.e1 : Nat) : Int) ∧
    roundDiv 5 (10 * record.e1) * ((10 * record.e1 : Nat) : Int) ≤ 0 ∧
    ({ loaded with keyedTare := some 20 } : Channel).tareInForce ≠ 0 ∧
    ({ version with mode := .byCount } : PluVersion).mode = .byCount ∧ (0 : Byte).toNat < 0x40 ∧ 0x50 < (0x51 : Byte).toNat := by decide

/-- PluKeysSelectFromTheView, KeysAreRefusedByTheirRules: a window at its last key, an override, the two views. -/
theorem witness_selection :
    let page : KeyPage := { window := some { first := 47, count := 2, base := 17 }, overrides := [(1, 17)] }
    let s := { counter loaded [] with price := { PriceTable.reset with
      versions := [version], pages := Vector.replicate 8 { a := page, b := .empty } } }
    (s.price.viewPage (s.price.isPrevious s.channels[0].pinned) 0 s.channels[0].page).map 1 = some 17 ∧
    page.map 48 = some 18 ∧ page.map 2 = none ∧ (page.overrides.map Prod.fst).Nodup ∧
    s.price.lookup s.channels[0].pinned 17 = some version ∧ s.runs[0].state ≠ .active ∧ s.runs[0].state ≠ .ending ∧
    (1 : Nat) ≠ s.price.generation ∧ Retained.plu 17 none ∈ [Retained.plu 17 none] ∧
    (s.onRun 0 fun r => { r with state := .ending }).runs[0].holds = true ∧ State.reset.service.clerkAt 0 = none ∧
    s.price.lookup 0 18 = none := by decide

/-- PortsAndChannelsAreConfigured, ReadAndResetChannel, CalibrationRequests, ClearAndCloseNeedAQuietStore. -/
theorem witness_channel_requests :
    ([1, 0, 1, 1, 1, 1, 1, 1] : List Nat).length = 8 ∧ (∃ v ∈ ([1, 0, 2, 1, 1, 1, 1, 1] : List Nat), 1 < v) ∧
    (8 : Byte).toNat = (7 : Station).val + 1 ∧ 8 < (9 : Byte).toNat ∧ record.valid = true ∧
    (counter loaded []).ports[0].switch = .opened ∧ (counter loaded []).ports[1].switch ≠ .opened ∧
    (counter loaded []).store.state = .verified ∧ (counter loaded []).store.calBusy 0 = false ∧
    (counter loaded []).store.eventCounters[0] < 4294967295 ∧ State.reset.store.state ≠ .verified ∧
    (operating .writeLog).store.op = some .writeLog ∧ (∃ b ∈ (counter loaded []).pool.records, b.state = .opened) ∧
    (let s := operating .writeLog
     s.store.state = .verified ∧ ¬(∃ b ∈ s.pool.records, b.state = .opened) ∧
     ¬(∃ st : Station, s.runs[st].state = .active ∨ s.runs[st].state = .ending) ∧
     ¬(s.totals.commits ≠ [] ∨ s.totals.closing.isSome = true) ∧ s.totals.grand.z ≠ 4294967295) ∧
    (State.reset.onRun 7 fun r => { r with state := .ending }).runs[(7 : Station)].state = .ending ∧
    ({ Totals.reset with closing := some 1 } : Totals).closing.isSome = true ∧
    ({ Totals.reset with images := some { accs := [], grand := { Grand.zero with z := 4294967295 } } } : Totals).grand.z = 4294967295 := by
  decide

/-- PricingOutcomeAndCodeStrings, HostFramesAndPluPayloadsReadBack, RoundingsAreToTheNearest, StagedChangesTakeTheirPlace,
DiscardStageEmptiesTheChangeSet, PublicationAndForcedAdoption. -/
theorem witness_price :
    loaded.selection.map (·.version.mode) = some .byWeight ∧ loaded.last = some weighed ∧ version.inRange ∧
    Staged [] (.delete 17) [.delete 17] 1 ∧ Staged [.delete 17] (.plu version) [.plu version] 1 ∧ (counter loaded []).price.present 17 = true ∧
    (counter loaded []).price.present 18 = false ∧ ([Change.delete 17] : List Change) = [] ++ .delete 17 :: [] ∧
    KeyPage.empty.inRange = true ∧ (List.replicate 64 (Change.delete 18)).length = 64 ∧
    (∀ c ∈ List.replicate 64 (Change.delete 18), c.subject ≠ .plu 17) ∧ PriceTable.reset.generation ≠ 4294967295 ∧
    ({ PriceTable.reset with generation := 4294967295 } : PriceTable).generation = 4294967295 ∧
    ({ PriceTable.reset with pending := true, record := [0] } : PriceTable).record ≠ [] ∧
    (∀ c ∈ List.replicate 64 (Change.delete 18), c.subject ≠ .page 7 .b) ∧
    ([Change.page 7 .b .empty, .delete 17] = [] ++ .page 7 .b .empty :: [.delete 17] ∧
      ∀ c ∈ [Change.delete 17], c.subject ≠ .page 7 .b) := by
  refine ⟨rfl, rfl, by unfold PluVersion.inRange; decide, Or.inl ⟨by simp, by simp, rfl, rfl⟩,
    Or.inr ⟨[], .delete 17, [], rfl, by simp, rfl, rfl, rfl⟩, rfl, rfl, rfl, rfl, rfl, by decide, by decide, rfl, by decide, by decide,
    rfl, by decide⟩

/-- ReadingRequestsChangeNothing: a list read from its first and its last entry. -/
theorem witness_reading : 1 ≤ 2 ∧ 2 ≤ ([[1], [2]] : List (List Byte)).length ∧ (true = true → (true : Bool) = true) ∧
    ({ PriceTable.reset with pending := true } : PriceTable).pending = true := by decide

/-- ClerksAreDefinedAndMoved, TicketIsTheNextNumberNotLive, ResetNumberingStartsFromOne. -/
theorem witness_service :
    TablesConsistent (counter loaded []) ∧ ([0x41] : List Byte).length ≤ 12 ∧ (counter loaded []).service.clerk 12 = some clerk ∧
    (counter loaded []).service.clerk 13 = none ∧ clerk.current.isSome = true ∧ clerk.enabled = true ∧
    clerk.channel = some 0 ∧ clerk.channel ≠ some 1 ∧ (counter loaded []).service.clerkAt 0 = some clerk ∧
    State.reset.service.lastIssued ≤ 99 ∧ 1 ∉ State.reset.service.live ∧
    (∀ n : Nat, 1 ≤ n → n ≤ 99 → n ∈ ({ Service.reset with waiting := List.range 100 } : Service).live) ∧
    ({ QueuePort.reset with state := .present, lastPress := some 3, lastAnswer := some (.refuse 3) } : QueuePort).lastPress = some 3 ∧
    State.reset.queuePort.lastPress ≠ some 1 ∧ State.reset.service.waiting = [] ∧
    ({ Service.reset with recallList := [5] } : Service).recallList ≠ [] := by
  refine ⟨by unfold TablesConsistent; decide, by decide, rfl, rfl, rfl, rfl, rfl, by decide, rfl, by decide, by decide, ?_, rfl,
    by decide, rfl, by decide⟩
  intro n _ h
  simp [Service.live, Service.reset]
  omega

/-- QueuePortActsOnItsEvents. -/
theorem witness_queue_port :
    let q : QueuePort := { QueuePort.reset with state := .present, serial := some 5, frameTimer := true, sending := some (.refuse 1) }
    q.state = .present ∧ q.serial = some 5 ∧ q.serial ≠ some 6 ∧ q.frameTimer = true ∧ q.sending.isSome = true ∧
    QueuePort.reset.state ≠ .present := by decide

/-- CustomerIsCalledIntoANewBasket, BasketKeysChangeTheCurrentBasket, BasketsEndWithTheirCommit. -/
theorem witness_baskets :
    let s := counter loaded [soldLine]
    TablesConsistent s ∧ s.service.clerkAt 0 = some clerk ∧ (if clerk.current.isSome then 1 else 0) + clerk.parked.length < 3 ∧
    s.store.nextSerial = some 2 ∧ 2 ≤ s.store.highMark ∧ s.pool.free ≠ [] ∧ s.service.waiting = [] ∧
    ({ Service.reset with waiting := [7], recallList := [99] } : Service).waiting = 7 :: [] ∧
    s.current clerk = some (basket [soldLine]) ∧ clerk.parked.length < 2 ∧ (basket [soldLine]).newest = some soldLine ∧
    soldLine.reprints < 9 ∧ s.labels.queue.length < 32 ∧ (basket []).newest = none ∧ s.runs[0].state = .idle ∧
    s.channels[0].selection = some { version := version, presetTare := 0, count := none } ∧ s.channels[0].armed = true ∧
    s.channels[0].outcome = .priced 735 ∧ version.shelfLife = none ∧ (basket [soldLine]).lines ≠ [] ∧
    (∃ l ∈ (basket [soldLine]).lines, l.voided = false) ∧ (∀ l ∈ (basket [{ soldLine with voided := true }]).lines, l.voided = true) ∧
    s.totals.commits.length < 8 ∧ s.totals.closing = none ∧ s.pool.openBasket 1 = some (basket [soldLine]) ∧
    s.pool.openBasket 2 = none ∧ (basket [soldLine]).channel = some 0 ∧ 40 ≤ (List.replicate 40 soldLine).length ∧
    s.current { clerk with current := none } = none ∧
    ({ s with service := { s.service with clerks := [{ clerk with current := none }] } }).service.clerkAt 0
      = some { clerk with current := none } ∧
    (s.onRun 0 fun r => { r with state := .doneHeld }).runs[0].state ≠ .idle ∧
    (basket [{ soldLine with reprints := 9 }]).newest = some { soldLine with reprints := 9 } ∧
    9 ≤ ({ soldLine with reprints := 9 } : Line).reprints := by
  refine ⟨by unfold TablesConsistent; decide, ?_⟩
  decide

def job : Job :=
  { number := 1, cls := .summary, stamp := 1, preferred := 0, fallback := true, state := .printing 0, attempts := 1,
    link := .summary 1,
    content := { format := 0, channel := 0, clerk := none, ticket := none, serial := some 1, plu := none, name := none,
                 generation := none, netGrams := none, tare := none, quantity := none, unitPrice := none, markdown := none,
                 step := none, markdownShown := none, price := 735, lineCount := some 1, packed := none,
                 useBy := none, extraText := none, code := [] } }

/-- LabelJobsAreQueuedAndTaken, PrinterEventsMoveThePort: a port that prints job 1 and waits for its DONE. -/
theorem witness_printers :
    let q : PrinterPort := { PrinterPort.reset with
      state := .busyPrinting, serial := some 6, inHand := some 1, phase := some .awaitingDone, frameTimer := true, doneTimer := true,
      sending := some (.labelEnd 1) }
    let l : LabelUnit := { queue := [job], nextJob := 2, stamp := 1 }
    l.queue.length < 32 ∧ l.stamp.toNat < 4294967295 ∧ l.nextJob < 65536 ∧ (∀ x ∈ l.queue, x.stamp.toNat ≤ l.stamp.toNat) ∧
    l.queue.Pairwise (fun x y => x.key ≤ y.key) ∧ l.job 1 = some job ∧ l.job 3 = none ∧ job.state ≠ .queued ∧
    ({ job with state := .queued } : Job).state = .queued ∧ (2 : Byte).toNat = (1 : Printer).val + 1 ∧ 2 < (3 : Byte).toNat ∧
    q.state = .busyPrinting ∧ q.inHand = some (1 : BitVec 16).toNat ∧ q.phase = some .awaitingDone ∧ q.frameTimer = true ∧
    q.doneTimer = true ∧ q.sending = some (.labelEnd 1) ∧ 1 ≤ (4 : Byte).toNat ∧ PrinterPort.reset.state = .waiting ∧
    ({ State.reset with printers := modAt State.reset.printers 0 fun q => { q with state := .ready } }).arbitrate.printers[(0 : Printer)].state
      = .ready := by decide

/-- PrepackRunsStartTriggerAndEnd: a run that can trigger, and one that ends with labels issued. -/
theorem witness_runs :
    let s := (counter loaded []).onRun 0 fun _ => startedRun 2 version 10 true none
    (counter loaded []).runs[0].state = .idle ∧ (counter loaded []).ports[0].state = .present ∧ (counter loaded []).clerkBusy 0 = false ∧
    (counter loaded []).price.lookup 0 17 = some version ∧ version.mode ≠ .byCount ∧ s.runs[0].state = .active ∧
    s.runs[0].version = some version ∧ s.channels[0].outcome = .priced 735 ∧ s.channels[0].last = some weighed ∧
    ((200 * s.channels[0].e1 : Nat) : Int) ≤ weighed.net ∧ s.channels[0].armed = true ∧ 1 < s.runs[0].remaining ∧
    s.runs[0].issued = 0 ∧ (s.onRun 0 fun r => { r with issued := 1 }).runs[0].issued ≠ 0 ∧
    (s.onRun 0 fun r => { r with state := .doneHeld }).runs[0].state = .doneHeld ∧
    (s.onRun 0 fun r => { r with remaining := 1 }).runs[0].remaining = 1 ∧ s.totals.commits.length < 8 ∧ s.totals.closing = none ∧
    (s.onRun 0 fun r => { r with state := .ending }).runs[0].state = .ending ∧
    8 ≤ ({ Totals.reset with commits := List.replicate 8 (Run.commit s.runs[0] 0) } : Totals).commits.length ∧
    unloaded.last.map (fun w => decide (w.net < ((200 * unloaded.e1 : Nat) : Int))) = some true ∧
    ({ loaded with armed := false } : Channel).armed = false ∧ Channel.reset.outcome = .noSelection ∧
    ({ version with shelfLife := some 365 } : PluVersion).shelfLife.isSome = true ∧ s.link.clock = none ∧
    32 ≤ ({ LabelUnit.reset with queue := List.replicate 32 job } : LabelUnit).queue.length := by
  decide

/-- PrepackRunsStartTriggerAndEnd: START_RUN at each of its checks: the ends of the ranges, a run not IDLE, a head not PRESENT, a
clerk serving, an unknown PLU, one BY_COUNT, a store without a serial. -/
theorem witness_start_run :
    (0 < 1 ∧ 8 < 9 ∧ 9999 < 10000 ∧ 999 < 1000 ∧ 1 < 2 ∧ 8 = (7 : Station).val + 1) ∧ (counter loaded []).runs[0].state = .idle ∧
    (counter loaded []).ports[0].state = .present ∧ (counter loaded []).ports[1].state ≠ .present ∧
    (∃ c b, (counter loaded [soldLine]).service.clerkAt 0 = some c ∧ (counter loaded [soldLine]).current c = some b ∧ b.lines ≠ []) ∧
    (¬∃ c b, State.reset.service.clerkAt 0 = some c ∧ State.reset.current c = some b ∧ b.lines ≠ []) ∧
    (counter loaded []).price.lookup 0 18 = none ∧
    ({ PriceTable.reset with versions := [{ version with mode := .byCount }] } : PriceTable).lookup 0 17
      = some { version with mode := .byCount } ∧
    State.reset.store.state ≠ .verified ∧ (∀ n, State.reset.store.nextSerial = some n → State.reset.store.highMark < n) := by
  refine ⟨by decide, rfl, rfl, by decide, ⟨clerk, basket [soldLine], rfl, rfl, by decide⟩, ?_, rfl, rfl, by decide, ?_⟩
  · rintro ⟨c, b, h, _⟩
    cases h
  · intro n h
    cases h

def commitJournal : CommitJournal := { kind := .basket, applyNumber := 1, serial := 1, entries := [] }

def delta : DeltaEntry := { acc := .department 1, plu := none, before := [0, 0], delta := [1, 735] }

def period : LastPeriod := { z := 1, closedAt := none, figures := [1, 1, 735, 0, 0, 0], saturated := false, damaged := false }

def closeJournal : CloseJournal := { applyNumber := 1, period := period, beforeValue := 0, beforeZ := 0 }

def commit (kind : CommitKind) : Commit :=
  { kind := kind, serial := 1, clerk := some 12, channel := 0, endedAt := none, content := .lines [soldLine.commitLine],
    applyNumber := none }

/-- The part with these words uncorrectable in its FRAM. -/
def worn (words : List Nat) : State :=
  { State.reset with store := { State.reset.store with fram := words.foldl (fun m w => Memory.putWord m w 3) [] } }

/-- StoreVerifiesThenBeginsInRankOrder: every stage of the verify, a FRAM that answers and one that does not, and a store that begins
each rank. -/
theorem witness_store_begins :
    (∀ stage ∈ [VerifyStage.presence, .log, .legal, .accumulators, .journal, .replay, .serials],
      (operating (.verify stage .start)).powered = true ∧ (operating (.verify stage .start)).store.op = some (.verify stage .start)) ∧
    State.reset.store.framAnswers = true ∧ ({ State.reset.store with framAnswers := false } : Store).framAnswers = false ∧
    (let s := counter loaded []
     s.powered = true ∧ s.store.op = none ∧ s.store.state ≠ .storeFault ∧ s.store.raiseWaiting = false ∧ s.store.calWrites = [] ∧
     s.store.waiting = [] ∧ s.totals.commits = [] ∧ s.totals.closing = none ∧ s.totals.journalApply < 4294967295 ∧
     (s.onStore fun m => { m with raiseWaiting := true }).store.raiseWaiting = true ∧
     (s.onStore fun m => { m with calWrites := [{ channel := 7, counter := 1, record := record }] }).store.calWrites
       = [{ channel := 7, counter := 1, record := record }] ∧
     (∀ a ∈ [WaitingAccess.readCalibration 7, .readLastPeriod, .writeLog],
       (s.onStore fun m => { m with waiting := [a] }).store.waiting = a :: []) ∧
     (s.pushCommit (commit .basket)).totals.commits = commit .basket :: [] ∧
     (s.onTotals fun x => { x with closing := some 1 }).totals.closing = some 1 ∧
     (s.onStore fun m => { m with clearAccepted := true }).store.clearAccepted = true) ∧
    [CalFound.missing, .damaged, .missing, .missing, .missing, .missing, .missing, .valid record].length = 8 := by decide +kernel

/-- StoreVerifiesThenBeginsInRankOrder: a stage that finds both copies of a value uncorrectable, one that does not; a replay of each
kind; an accumulator to be written again and one that is passed by. -/
theorem witness_verify :
    (verifyPass .legal .start (worn [24, 25]).pass).1.failed = true ∧ (verifyPass .log .start State.reset.pass).1.failed = false ∧
    (∀ j ∈ [JournalRead.nothing, .done 5, .commit commitJournal, .close closeJournal, .clear, .uncorrectable],
      ({ VerifyData.start with journal := j } : VerifyData).journal = j) ∧
    (accOf [] delta.acc).lastApplied < 1 ∧ 0 ≤ (accOf [] delta.acc).lastApplied ∧
    ((worn [40]).pass.read .startupScan 40 1).2 = none ∧ ((worn [40]).pass.read .startupScan 41 1).2.isSome = true := by
  decide +kernel

/-- StoreOperationsCompleteOrFault: every operation, every phase, the calibration records it may read, the grand totals it may find. -/
theorem witness_store_completes :
    (∀ op ∈ [StoreOp.raiseMark, .clear, .calWrite { channel := 7, counter := 1, record := record }, .readCalibration 0, .readLastPeriod,
        .commit commitJournal .journal [], .commit commitJournal (.apply [delta]) [], .commit commitJournal (.apply []) [],
        .commit commitJournal .done [(1025, AccId.zero (.department 1))], .close closeJournal .journal .zero,
        .close closeJournal .lastPeriod .zero, .close closeJournal .grand .zero, .close closeJournal .zeroing .zero,
        .close closeJournal .done .zero], (operating op).powered = true ∧ (operating op).store.op = some op) ∧
    (readCalPass (worn [24, 25]).pass 0).1.failed = true ∧
    (readCalPass (Pass.write (Pass.start [] .reset) 0 3 record.stored) 0).2.1 = .valid record ∧
    (readCalPass State.reset.pass 0).2.1 = .missing ∧ (readCalPass (worn [1]).pass 0).2.1 = .damaged ∧
    (readCalPass (worn [1]).pass 0).1.failed = false ∧
    (State.reset.pass.readPair .periodClose 42 2 parseGrand Grand.bytes largerGrand).2 = some .zero ∧ Grand.zero.z < period.z ∧
    ({ period with z := 0 } : LastPeriod).z ≤ Grand.zero.z ∧
    ((worn [42, 44]).pass.readPair .periodClose 42 2 parseGrand Grand.bytes largerGrand).2 = none ∧
    (linked { HostLink.reset with executing := some { held with waiting := true } }).link.executing = some { held with waiting := true } := by
  refine ⟨by decide +kernel, by decide +kernel, by decide +kernel, by decide +kernel, by decide +kernel, by decide +kernel,
    by decide +kernel, by decide, by decide, by decide +kernel, rfl⟩

/-- FiguresSaturateAtTheirLimits: figures, commits of each kind, a PLU with a slot, one that this commit gave a slot, one that takes
the lowest free slot, and an image whose 1,024 slots are all taken. -/
theorem witness_accounts :
    (AccId.zero .summary).figures.length = (AccId.limits .summary).length ∧ [1, 2, 3, 4, 5, 6].length = (AccId.limits .summary).length ∧
    (∀ k ∈ [CommitKind.basket, .cancel], (commit k).content = .lines [soldLine.commitLine] ∧ (commit k).kind = k) ∧
    ((startedRun 2 version 10 true none).commit 0).content = .pack 17 1 .byWeight 0 0 0 ∧
    (1024, { AccId.zero (.plu 1024) with plu := some 17 }) ∈ [(1024, { AccId.zero (.plu 1024) with plu := some 17 })] ∧
    ((17, 3) : Nat × Nat) ∈ [(17, 3)] ∧ (accOf [] (.plu 1)).plu = none ∧ (accOf [(1, { AccId.zero (.plu 1) with plu := some 17 })] (.plu 1)).plu ≠ none ∧
    [delta].Pairwise (fun d e => d.acc.index ≤ e.acc.index ∧ d.acc ≠ e.acc) ∧ delta.delta.length = [1, 735].length ∧
    (AccId.plu 0).index ≠ AccId.summary.index := by decide

/-- OnlyStoreOperationsTouchTheFram, HostFrameSentEndsTheTransmission, PowerLossKeepsOnlyTheFram: a RESTART reply ends with a raise in
flight, a byte outside its words and one of them; the beginning of a period close reads the summary's words. -/
theorem witness_fram :
    (let s := { operating .raiseMark with link := { HostLink.reset with sending := some (.reply [] true) } }
     s.link.sending = some (.reply [] true) ∧ s.store.op.isSome = true ∧ s.opPass.trace.map Prod.fst = [40, 41] ∧
     (359 < 9 * 40 ∧ 359 < 9 * 41) ∧ ¬(360 < 9 * 40 ∨ 9 * 40 + 9 ≤ 360)) ∧
    Instr.clockSecond ∉ [Instr.hostFrameSent, .powerLoss] ∧
    ((worn [10809]).pass.readAcc .periodClose .summary none).1.trace ≠ [] := by decide +kernel

/-- StepTakesFrontCommand: a queue with a command at its front and one behind it; ResetMeetsTheInvariants gives the invariants a state
that steps. -/
theorem witness_step :
    ({ State.reset with pending := Instr.clockSecond :: [.signRefresh] }).pending = [Instr.clockSecond, .signRefresh] ∧
    after (step { State.reset with pending := [Instr.clockSecond, .signRefresh] }) = after (exec .clockSecond
      { State.reset with pending := [.signRefresh] }) ∧
    (after (step { State.reset with pending := [Instr.clockSecond, .signRefresh] })).map (·.pending) = some [.signRefresh] ∧
    step State.reset = .next State.reset := by
  refine ⟨rfl, rfl, by decide +kernel, rfl⟩

/-! ## Points of the review -/

/-- R161: a journal entry is read back as it was written: a PENDING commit and a PENDING close, and a DONE one. -/
theorem test_journal_read_back :
    let j : CommitJournal := { kind := .cancel, applyNumber := 7, serial := 9, entries := [delta] }
    let p := Pass.start [] .reset
    (Pass.readJournal (p.writeJournal 2 7 j.content) .startupScan).2 = .commit j ∧
    (Pass.readJournal (p.writeJournal 4 1 closeJournal.content) .startupScan).2 = .close closeJournal ∧
    (Pass.readJournal ((p.writeJournal 2 7 j.content).doneJournal 2 7 j.content) .startupScan).2 = .done 7 := by decide +kernel

/-- R158: the content of a journal entry follows its kind, apply number and state with no padding. -/
theorem test_journal_content_at_byte_six : (journalHeader 2 7 true).length = 6 := by decide

/-- R168, R169: a missing record and a damaged one are told apart in the reply. -/
theorem test_missing_is_not_damaged : calReply .missing 0 ≠ calReply .damaged 0 := by decide

/-- R134, R182: a run's state, then its serial with a presence byte, then its snapshot's number and generation with one. -/
theorem test_run_serial_has_presence_byte :
    (startedRun 2 version 10 true none).bytes.take 13 = [1, 1, 2, 0, 0, 0, 1, 17, 0, 0, 0, 0, 0] := by decide

/-- R182: an UNUSED slot has no lines to continue from. -/
theorem test_unused_slot_refuses_index : State.reset.pool.records.map (fun b => b.reply (some 1)) = List.replicate 48 [3] := by decide

/-- R76: a prepack label records the tare in force, the markdown and the step. -/
theorem test_prepack_label_records_its_price :
    let content := (counter loaded []).packContent 0 version 735
    (content.tare, content.markdown, content.step, content.generation) = (some 0, some 0, some 5, some 0) := by decide +kernel

/-! ## States that meet the hypotheses of the clauses for refusals, departures and open values -/

/-- Channel 1 in WARMUP with a full window at rest, `zc` counts away from the sample's average. -/
def warming (zc : Int) : Channel :=
  { Channel.reset with
    state := .warmup, calStatus := .valid, cal := some { record with zc := zc }, filter := List.replicate 8 0,
    stability := List.replicate 10 0 }

/-- Channel 1 with an empty pan, one sample before its zero is taken by tracking, `z` away from the sample. -/
def tracked (z : Int) (count : Nat) : Channel :=
  { unloaded with
    filter := List.replicate 8 1000, stability := List.replicate 10 1000, z := some z, tracking := count, returnClear := true,
    armed := false, selection := loaded.selection }

/-- SampleIsWeighed: the power-up zero at the end of its range (6,000 × 200,000 / 10,000 = 120,000 counts) and beyond it, not at rest,
without a VALID record; zero tracking at the last count and before it; a zero return with the mark set and without it; CAL_FAULT. -/
theorem witness_power_up_zero :
    (let c := (warming (-120000)).sample 0
     (c.state, c.zp, c.z, c.last.map (·.gross), c.armed) = (.stable, some 120000, some 120000, some 0, true)) ∧
    (((warming (-120001)).sample 0).state, ((warming (-120001)).sample 0).z) = (.zeroFault, none) ∧
    ((warming 0).sample 8000).state = .warmup ∧ (({ warming 0 with calStatus := .notLoaded } : Channel).sample 0).state = .warmup ∧
    (({ warming 0 with state := .zeroFault } : Channel).sample 0).state = .stable ∧
    (let c := (tracked 1 9).sample 1000
     (c.state, c.z, c.tracking, c.armed, c.selection, c.returnClear) = (.stable, some 0, 0, true, none, false)) ∧
    (((tracked 1 8).sample 1000).z, ((tracked 1 8).sample 1000).tracking) = (some 1, 9) ∧
    (let c := ({ tracked 1 9 with returnClear := false } : Channel).sample 1000
     (c.armed, c.selection) = (true, loaded.selection)) ∧
    (({ warming 0 with state := .calFault } : Channel).sample 0).state = .calFault := by
  refine ⟨?_, ?_, ?_, ?_, ?_, ?_, ?_, ?_, ?_⟩ <;> decide +kernel

/-- KeysAreRefusedByTheirRules: a key mapped to a PLU that is not in the view, a clerk undefined and one disabled, RECALL_TICKET with no
clerk and for a ticket that is not in the recall list. -/
theorem witness_key_refusals :
    let page : KeyPage := { window := none, overrides := [(48, 18)] }
    let s := { counter loaded [] with
      price := { PriceTable.reset with versions := [version], pages := Vector.replicate 8 { a := page, b := .empty } },
      service := { Service.reset with clerks := [clerk, { clerk with number := 32, enabled := false, channel := none }] } }
    s.runs[0].holds = false ∧
    (s.price.viewPage (s.price.isPrevious s.channels[0].pinned) 0 s.channels[0].page).map 48 = some 18 ∧
    s.price.lookup s.channels[0].pinned 18 = none ∧ s.service.clerk 1 = none ∧ (s.service.clerk 32).map (·.enabled) = some false ∧
    s.service.clerkAt 0 ≠ none ∧ 99 ∉ s.service.recallList ∧
    seen (.preset 0 48) s (fun t => t.ports[0].image.message) = some .notFound ∧
    seen (.clerk 0 32) s (fun t => t.ports[0].image.message) = some .notFound ∧
    seen (.recallTicket 0 99) s (fun t => t.ports[0].image.message) = some .notFound := by decide +kernel

/-- PortsAndChannelsAreConfigured: a yes/no value and a channel number just outside their ranges. -/
theorem witness_bad_configuration :
    (0 : Byte) = 0 ∧ 8 < (9 : Byte).toNat ∧ 1 < (2 : Byte).toNat ∧
    seen .configureChannel (asking (counter loaded []) 0x11 [1, 8, 10, 2, 1, 0, 1, 1, 2]) (fun s => s.link.sending)
      = some (some (.reply (hostFrame 0x91 [3]) false)) := by decide +kernel

/-- PublicationAndForcedAdoption: the last channel of the record, free, adopts; one that holds does not. -/
theorem witness_adoption :
    let s := (counter unloaded []).onPrice fun p => { p with generation := 5, pending := true, record := [0], retained := [.plu 17 none] }
    (0 : Station) ∈ s.price.record ∧ s.free 0 = true ∧ (s.price.record.filter fun x => x != 0) = [] ∧
    (s.adoptIfFree 0).link.flags[Flag.adoptionComplete.entry].body = u4 5 ∧ (counter loaded []).free 0 = false ∧
    (1 : Station) ∉ s.price.record := by decide +kernel

/-- The counter with clerk 12's basket of the given lines bound to ticket 30, tickets 7 and 8 recallable. -/
def serving (lines : List Line) (c : Clerk) : State :=
  let s := counter loaded lines
  { s with
    service := { s.service with
      clerks := [c], recallList := [7, 8], bound := [{ number := 30, serving := !lines.isEmpty, clerk := 12, serial := 1 }] },
    pool := { s.pool with records := { basket lines with ticket := some 30 } :: s.pool.records.tail } }

def fullPool (s : State) : State := s.onPool fun p => { p with free := [] }

/-- CustomerIsCalledIntoANewBasket: each refusal, a full pool whose clerk's empty basket is given up, a basket that is parked. -/
theorem witness_calls :
    (let s := serving [] { clerk with parked := [4, 5] }
     TablesConsistent s ∧ s.service.clerkAt 0 = some { clerk with parked := [4, 5] } ∧
     3 ≤ (if ({ clerk with parked := [4, 5] } : Clerk).current.isSome then 1 else 0) + ({ clerk with parked := [4, 5] } : Clerk).parked.length ∧
     seen (.nextKey 0) s (fun t => t.ports[0].image.message) = some .basketsFull) ∧
    (let s := (serving [] clerk).onStore fun m => { m with highMark := 1 }
     s.store.state = .verified ∧ s.store.nextSerial = some 2 ∧ ¬(2 ≤ s.store.highMark) ∧
     seen (.recallTicket 0 7) s (fun t => t.ports[0].image.message) = some .storeNotReady) ∧
    (let s := fullPool (serving [soldLine] clerk)
     s.pool.free = [] ∧ (s.current clerk).map (·.lines) = some [soldLine] ∧
     seen (.nextKey 0) s (fun t => t.ports[0].image.message) = some .basketsFull) ∧
    9 ∉ (serving [] clerk).service.recallList ∧ 7 ∈ (serving [] clerk).service.recallList ∧
    (let s := fullPool (serving [] clerk)
     (s.current clerk).map (·.lines) = some [] ∧
     seen (.recallTicket 0 7) s (fun t => (t.service.recallList, t.service.bound.map (·.number), t.totals.commits))
       = some ([30, 8], [7], [])) ∧
    (1 ∉ (serving [soldLine] clerk).pool.free ∧ (serving [] clerk).pool.free ≠ [] ∧
     seen (.nextKey 0) (serving [soldLine] clerk) (fun t => t.service.clerks.map (·.parked)) = some [[1]]) := by
  refine ⟨⟨by unfold TablesConsistent; decide, ?_⟩, ?_⟩ <;> decide +kernel

/-- BasketKeysChangeTheCurrentBasket, BasketsEndWithTheirCommit: the first line makes the ticket SERVING and the tare goes; a basket that
held none sends its ticket to the recall list with no commit, one that held lines frees it. -/
theorem test_ticket_of_a_basket :
    seen (.add 0) ((serving [] clerk).onChannel 0 fun c => { c with keyedTare := some 20 })
      (fun t => (t.service.bound.map (·.serving), t.channels[0].keyedTare)) = some ([true], none) ∧
    seen (.total 0) (serving [] clerk) (fun t => (t.service.recallList, t.service.bound, t.totals.commits)) = some ([30, 7, 8], [], []) ∧
    seen (.total 0) (serving [soldLine] clerk) (fun t => (t.service.recallList, t.service.bound)) = some ([7, 8], []) := by
  decide +kernel

/-- A printer 1 that prints job 1 for the second time, with the other printer in the state given. -/
def printing (other : PrinterState) : State :=
  { State.reset with
    labels := { queue := [{ job with attempts := 2 }], nextJob := 2, stamp := 1 },
    printers := modAt (modAt State.reset.printers 0 fun q =>
      { q with state := .busyPrinting, serial := some 6, model := some 1, inHand := some 1, phase := some .sending, frameTimer := true })
      1 fun q => { q with state := other, serial := some 7 } }

/-- LabelJobsAreQueuedAndTaken, PrinterEventsMoveThePort: the job in hand after RESET_PRINTER_PORT, with the other printer not READY and
READY; a HELLO of another printer and of the same; a FAULT of another job; a port with no printer. -/
theorem witness_printer_ports :
    (let s := printing .notReady
     s.printers[0].inHand = some 1 ∧ s.labels.job 1 = some { job with attempts := 2 } ∧ s.printers[otherPrinter 0].state ≠ .ready ∧
     seen .resetPrinterPort (asking s 0x42 [1]) (fun t => t.labels.queue.map fun x => (x.state, x.attempts))
       = some [(.queued, 1)]) ∧
    seen .resetPrinterPort (asking (printing .ready) 0x42 [1]) (fun t => t.labels.queue.map fun x => (x.state, x.attempts))
      = some [(.printing 1, 2)] ∧
    (printing .ready).printers[0].serial ≠ some 8 ∧ (printing .ready).printers[0].sending = none ∧
    seen (.printerHello 0 8 2) (printing .notReady) (fun t => (t.printers[0].sending, t.printers[0].model,
      t.link.flags[(Flag.printerLost 0).entry].pending, t.link.flags[(Flag.printerFound 0).entry].pending))
      = some (some (.accept 8 0), some 2, true, true) ∧
    seen (.printerHello 0 6 2) (printing .notReady) (fun t => t.printers[0].model) = some (some 1) ∧
    (printing .ready).printers[0].inHand ≠ some (2 : BitVec 16).toNat ∧
    seen (.printerFault 0 2 1) (printing .notReady) (fun t => t.printers[0].state) = some .busyPrinting ∧
    State.reset.printers[0].state = .waiting ∧ State.reset.printers[0].serial.isSome = false := by decide +kernel

/-- PrepackRunsStartTriggerAndEnd: the CLEAR key and a run in DONE_HELD. -/
theorem witness_clear_done_held :
    let s := (counter loaded []).onRun 0 fun _ => { startedRun 2 version 10 true none with state := .doneHeld }
    KeyTaken s 0 ∧ s.runs[0].state = .doneHeld ∧ seen (.clear 0) s (fun t => t.runs[0].state) = some .idle := by
  refine ⟨⟨rfl, rfl, rfl⟩, rfl, by decide +kernel⟩

/-- StoreOperationsCompleteOrFault, OnlyStoreOperationsTouchTheFram: the FRAM stops answering during the write of a commit's journal
entry; the commits stay, and a free value has been drawn. -/
theorem witness_fram_stops :
    let s := (operating (.commit commitJournal .journal [])).onTotals fun x => { x with commits := [commit .basket] }
    s.powered = true ∧ s.store.op.isSome = true ∧ s.opPass.trace ≠ [] ∧ Memory.wf s.store.fram ∧
    seen (.framNotAnswering true) s (fun t => (t.store.state, t.store.op, t.totals.commits, t.freeCount))
      = some (.storeFault, none, [commit .basket], 1) := by
  refine ⟨rfl, rfl, by decide +kernel, Memory.wf_nil, by decide +kernel⟩

/-! ## The checks of WRITE_CALIBRATION, cancelled jobs, errors of one record -/

/-- The status byte of the reply that a command sends. -/
def statusAfter (c : Instr) (s : State) : Option (Option Byte) :=
  seen c s fun t =>
    match t.link.sending with
    | some (.reply frame _) => frame[4]?
    | _ => none

def calibrating (s : State) (n : Byte) (r : CalRecord) : State := asking s 0x18 (n :: r.bytes)

/-- Every field of the record at an end of its encoding. -/
def widest : CalRecord :=
  { zc := -2147483648, span := 4294967295, max := 65535, rangeMode := 255, e1 := 255, e2 := 255, max1 := 65535 }

/-- CalibrationRequests: a record that is not valid meets each check that comes before its own; channel numbers 0 and 9. -/
theorem witness_calibration_checks :
    let s := counter loaded []
    let w : CalWrite := { channel := 0, counter := 1, record := record }
    let waits := s.onStore fun m => { m with calWrites := [w] }
    let flies := s.onStore fun m => { m with op := some (.calWrite w) }
    let counted := s.onStore fun m => { m with eventCounters := Vector.replicate 8 4294967295 }
    let closed := s.onPort 0 fun p => { p with switch := .closed }
    let unverified := s.onStore fun m => { m with state := .unverified }
    widest.valid = false ∧ ({ record with e1 := 3 } : CalRecord).valid = false ∧
    ({ record with rangeMode := 1, e1 := 10, e2 := 20, max1 := 5999 } : CalRecord).valid = true ∧
    statusAfter .writeCalibration (calibrating s 0 record) = some (some 3) ∧
    statusAfter .writeCalibration (calibrating s 9 widest) = some (some 3) ∧
    statusAfter .writeCalibration (calibrating closed 1 widest) = some (some 8) ∧
    statusAfter .writeCalibration (calibrating unverified 1 widest) = some (some 14) ∧
    statusAfter .writeCalibration (calibrating waits 1 widest) = some (some 4) ∧
    statusAfter .writeCalibration (calibrating flies 1 widest) = some (some 4) ∧
    statusAfter .writeCalibration (calibrating counted 1 widest) = some (some 6) ∧
    statusAfter .writeCalibration (calibrating s 1 widest) = some (some 3) ∧
    statusAfter .writeCalibration (calibrating s 1 record) = some (some 0) ∧
    statusAfter .readCalibration (asking s 0x19 [0]) = some (some 3) ∧
    statusAfter .readCalibration (asking s 0x19 [9]) = some (some 3) := by
  refine ⟨?_, ?_, ?_, ?_, ?_, ?_, ?_, ?_, ?_, ?_, ?_, ?_, ?_, ?_⟩ <;> decide +kernel

/-- An item job of the basket with serial 1. -/
def itemJobOf (number line : Nat) (state : JobState) : Job :=
  { job with number := number, cls := .item, state := state, link := .item 1 line }

def queueing (jobs : List Job) (lines : List Line) : State :=
  { counter loaded lines with labels := { queue := jobs, nextJob := 9, stamp := 9 } }

def labelledLine (n latest : Nat) (voided : Bool) : Line :=
  { soldLine with number := n, latestJob := some latest, labelState := .queued, voided := voided }

/-- BasketKeysChangeTheCurrentBasket: VOID_LAST with the line's latest job QUEUED, PRINTING and gone from the queue. -/
theorem witness_void_cancels :
    let line := labelledLine 1 1 false
    let left := fun (jobs : List Job) => seen (.voidLast 0) (queueing jobs [line]) fun t =>
      (t.labels.queue.map (·.number), t.pool.records.head?.map fun b => b.lines.map fun l => (l.voided, l.labelState))
    (basket [line]).newest = some line ∧ (queueing [itemJobOf 1 1 .queued] [line]).labels.job 1 = some (itemJobOf 1 1 .queued) ∧
    left [itemJobOf 1 1 .queued, itemJobOf 2 1 .queued] = some ([2], some [(true, .none)]) ∧
    left [itemJobOf 1 1 (.printing 0), itemJobOf 2 1 .queued] = some ([1, 2], some [(true, .queued)]) ∧
    left [itemJobOf 2 1 .queued] = some ([2], some [(true, .queued)]) := by
  refine ⟨?_, ?_, ?_, ?_, ?_⟩ <;> decide +kernel

/-- BasketsEndWithTheirCommit: a cancel takes the basket's QUEUED item jobs, also one that is no line's latest, and leaves a PRINTING
one, another basket's and a summary; a closed basket keeps them all. -/
theorem witness_cancel_takes_jobs :
    let jobs := [{ job with number := 4, state := .queued, link := .summary 6 }, itemJobOf 1 1 .queued, itemJobOf 2 2 (.printing 0),
      itemJobOf 7 2 .queued, { itemJobOf 3 1 .queued with link := .item 5 1 }]
    let left := fun (voided : Bool) => seen (.total 0) (queueing jobs [labelledLine 1 1 voided, labelledLine 2 2 voided]) fun t =>
      (t.labels.queue.map (·.number), t.pool.records.head?.map fun b => b.lines.map (·.labelState))
    JobNumbersDistinct (queueing jobs []) ∧
    left true = some ([4, 2, 3], some [.none, .queued]) ∧
    left false = some ([4, 9, 1, 2, 7, 3], some [.queued, .queued]) := by
  refine ⟨by unfold JobNumbersDistinct; decide, ?_, ?_⟩ <;> decide +kernel

/-- MemoryLogIsReadAndCleared, StoreVerifiesThenBeginsInRankOrder: a journal whose first word and a later one are uncorrectable: the first
is captured, the later one is the second error and the last address (shown on the journal's first four words). With its first word good
and its kind NONE the reading ends there. -/
theorem witness_journal_errors :
    ((worn [256]).pass.read .startupScan 256 1).2 = none ∧ ([] : List Byte).length < journalNeed [] ∧
    (let x := Pass.readEntry (fun q w => q.read .startupScan w 1) 4 (worn [256, 258]).pass 256 []
     x.2 = none ∧ x.1.log.address = some 256 ∧ x.1.log.second = true ∧ x.1.log.lastAddress = some 258) ∧
    (let x := Pass.readJournal (worn [257]).pass .startupScan
     journalNeed (List.replicate 8 0) ≤ 8 ∧ x.2 = .nothing ∧ x.1.log = .reset) := by
  refine ⟨?_, ?_, ?_, ?_⟩ <;> decide +kernel

/-- R164: a log record is read back as it was written; one with a state or a requester out of its range reads as NONE. -/
theorem test_log_record_read_back :
    let l : MemLog := { state := .corrected, address := some 5, requester := some .calibration, syndrome := some 9, second := true,
                        lastRequester := some .commit, lastAddress := some 7 }
    parseLog (l.bytes ++ [0, 0]) = l ∧ parseLog (3 :: l.bytes.tail) = .reset ∧
    parseLog ([1, 1, 5, 0, 1, 5] ++ l.bytes.drop 6) = .reset := by decide +kernel

/-! ## A clerk that moves, a cut calibration write, a channel without a record -/

/-- Clerk 5 at channel 4 with a selection whose preset tare is in force, clerk 12 at channel 1. -/
def twoClerks : State :=
  let s := counter loaded [soldLine]
  { s with
    service := { s.service with
      clerks := [{ number := 5, name := [0x42], enabled := true, channel := some 3, current := none, parked := [] }, clerk] },
    ports := modAt s.ports 3 fun _ => s.ports[0],
    channels := modAt s.channels 3 fun _ =>
      { loaded with
        selection := some { version := version, presetTare := 100, count := none }, last := some { weighed with net := 3360 } } }

/-- ClerksAreDefinedAndMoved (R81): clerk 5 goes to channel 1: on channel 4 the selection goes and the weighing, the last net of the
preset tare with it, stays; clerk 12's channel loses its selection. Of DEFINE_CLERK disabling and REMOVE_CLERK, and DEFINE_CLERK's ends. -/
theorem witness_clerk_moves :
    KeyTaken twoClerks 0 ∧ TablesConsistent twoClerks ∧ (twoClerks.service.clerkAt 0).isSome = true ∧ twoClerks.runs[3].holds = false ∧
    seen (.clerk 0 5) twoClerks (fun t => (t.channels[3].last, t.channels[3].selection, t.channels[3].armed, t.channels[0].selection))
      = some (some { weighed with net := 3360 }, none, true, none) ∧
    seen (.clerk 0 5) twoClerks (fun t => (t.ports[0].image.clerk, t.ports[3].image.clerk)) = some (some 5, none) ∧
    seen .defineClerk (asking twoClerks 0x30 [5, 1, 0x43, 0]) (fun t => t.channels[3].selection) = some none ∧
    seen .removeClerk (asking twoClerks 0x31 [5]) (fun t => t.channels[3].selection) = some none ∧
    (∀ payload ∈ ([[0, 1, 0x43, 1], [33, 1, 0x43, 1], [5, 0, 1], [5, 1, 0x1F, 1], [5, 1, 0xFF, 1], [5, 1, 0x43, 2],
        5 :: 13 :: (List.replicate 13 0x43 ++ [1])] : List (List Byte)),
      statusAfter .defineClerk (asking twoClerks 0x30 payload) = some (some 3)) := by
  refine ⟨⟨rfl, rfl, rfl⟩, by unfold TablesConsistent; decide, rfl, by decide, ?_, ?_, ?_, ?_, ?_⟩ <;> decide +kernel

/-- PowerLossKeepsOnlyTheFram, HostFrameSentEndsTheTransmission, StoreOperationsCompleteOrFault (R167): a calibration write of channel 8
that is cut short may have written its two counter words, none of its record. -/
theorem witness_cut_calibration_write :
    let s := operating (.calWrite { channel := 7, counter := 1, record := record })
    s.store.op = some (.calWrite { channel := 7, counter := 1, record := record }) ∧ Memory.wf s.store.fram ∧
    s.opPass.trace.map Prod.fst = [38, 39, 21, 22, 23] ∧ s.cutTrace.map Prod.fst = [38, 39] ∧
    (9 * 21 < 9 * (24 + 2 * (7 : Station).val) ∧ 9 * 39 < 9 * (26 + 2 * (7 : Station).val)) := by
  refine ⟨rfl, Memory.wf_nil, ?_, ?_, ?_⟩ <;> decide +kernel

/-- SampleIsWeighed: no record, in CAL_FAULT and in WARMUP with NOT_LOADED. -/
theorem witness_no_record :
    ({ loaded with cal := none, calStatus := .fault, state := .calFault } : Channel).cal = none ∧
    (({ loaded with cal := none, calStatus := .fault, state := .calFault } : Channel).sample 70200).state = .calFault ∧
    (({ loaded with cal := none, calStatus := .notLoaded, state := .warmup } : Channel).sample 70200).state = .warmup := by
  decide +kernel

/-- HeadLineEventsActOnTheLineAlone: the image of a weighed and priced channel, the same under a converter fault, each weight state. -/
theorem witness_image :
    let s := counter loaded []
    let image := fun (t : State) => (t.refresh 0).ports[0].image
    s.ports[0].state = .present ∧ State.reset.ports[0].state ≠ .present ∧ s.ports[0].converterFault = false ∧
    (image s).weight = .value 346 ∧ (image s).price = .value 735 ∧ (image s).clerk = some 12 ∧
    (let t := s.onPort 0 fun p => { p with converterFault := true }
     (image t).weight = .blank ∧ (image t).price = .blank) ∧
    ([WeightState.absent, .calFault, .warmup, .zeroFault, .motion, .overload, .underload].map fun w =>
      (image (s.onChannel 0 fun c => { c with state := w, outcome := .notStable })).weight)
      = [.blank, .blank, .blank, .blank, .dashes, .over, .under] ∧
    State.reset.service.clerkAt 0 = none ∧ s.current clerk = some (basket []) := by decide +kernel

/-! ## Requests refused, views, drawn serials -/

/-- FlagsAreRaisedAndControlled, StagedChangesTakeTheirPlace, ReadingRequestsChangeNothing: arguments just outside their ranges, and the
previous view with no adoption pending. -/
theorem witness_requests_refused :
    let s := counter loaded []
    (∀ p ∈ ([[0], [1, 0, 0, 0], [1, 51, 0, 0], [1, 1, 2, 0], [1, 1, 1, 4]] : List (List Byte)),
      statusAfter .setFlagControl (asking s 0x05 p) = some (some 3)) ∧
    (∀ p ∈ ([[0], [1, 0], [1, 51]] : List (List Byte)), statusAfter .clearFlags (asking s 0x06 p) = some (some 3)) ∧
    (∀ v ∈ [{ version with number := 0 }, { version with number := 10000 }, { version with unitPrice := 1000000 },
        { version with step := 2 }, { version with shelfLife := some 366 }, { version with extraText := some [] }],
      statusAfter .stagePlu (asking s 0x20 v.bytes) = some (some 3)) ∧
    (∀ p ∈ ([[0, 0, 0, 0], [9, 0, 0, 0], [1, 2, 0, 0], [1, 0, 1, 2, 48, 1, 0, 0], [1, 0, 0, 2, 1, 1, 0, 1, 2, 0]] : List (List Byte)),
      statusAfter .stageKeyPage (asking s 0x22 p) = some (some 3)) ∧
    (∀ n ∈ [0, 10000], statusAfter .stageDelete (asking s 0x21 (u2 n)) = some (some 3)) ∧
    (∀ p ∈ ([[0, 0, 0, 0, 0], [0, 1, 0, 2, 0], [0, 1, 0, 0, 2], [1, 9, 0, 0], [1, 1, 2, 0], [2]] : List (List Byte)),
      statusAfter .readPlu (asking s 0x26 p) = some (some 3)) ∧
    (∀ p ∈ ([[0, 17, 0, 1, 0], [0, 17, 0, 1, 1], [1, 1, 0, 1]] : List (List Byte)),
      statusAfter .readPlu (asking s 0x26 p) = some (some 7)) ∧
    (∀ p ∈ ([[0], [9]] : List (List Byte)), statusAfter .readRun (asking s 0x4B p) = some (some 3)) ∧
    statusAfter .readBasket (asking s 0x38 [3]) = some (some 3) := by
  refine ⟨?_, ?_, ?_, ?_, ?_, ?_, ?_, ?_, ?_⟩ <;> decide +kernel

/-- StagedChangesTakeTheirPlace, PluKeysSelectFromTheView, PublicationAndForcedAdoption: an insert and a deletion staged; a page that
is retained, and one that is not, in the previous view. -/
theorem witness_views :
    let page : KeyPage := { window := none, overrides := [(48, 18)] }
    let t : PriceTable := { PriceTable.reset with
      versions := [version], changes := [.plu { version with number := 18 }, .delete 17, .page 0 .b page], generation := 5,
      pending := true, record := [0], retained := [.plu 17 none, .page 0 .b page] }
    t.projected = 1 ∧ (4 : Nat) ≠ t.generation ∧ t.viewPage (t.isPrevious 4) 0 .b = page ∧
    t.viewPage (t.isPrevious 4) 0 .a = t.pageAt 0 .a ∧ t.viewPage (t.isPrevious 5) 0 .b = .empty ∧
    (∀ p, Retained.page 0 .a p ∉ t.retained) ∧ t.lookup 4 17 = none ∧ (t.next true 17).isNone = true ∧
    t.next false 17 = some version := by
  refine ⟨by decide, by decide, by decide, by decide, by decide, ?_, by decide, by decide, by decide⟩
  intro p
  simp

/-- CustomerIsCalledIntoANewBasket: a draw that leaves 32 reserved serials puts the raise to wait, one that leaves 33 does not, nor one
while a raise runs. -/
theorem witness_draw :
    let store := (counter loaded []).store
    let drawn := fun (high : Nat) (op : Option StoreOp) =>
      let m := ({ store with nextSerial := some 100, highMark := high, op := op } : Store).draw
      (m.nextSerial, m.raiseWaiting)
    drawn 132 none = (some 101, true) ∧ drawn 133 none = (some 101, false) ∧ drawn 132 (some .raiseMark) = (some 101, false) ∧
    State.reset.store.draw = State.reset.store := by decide

/-- ReadingRequestsChangeNothing: the arguments of READ_TOTALS at the ends of each kind, a basket in use and an unused record, a run with
a serial and one without. -/
theorem witness_reply_contents :
    let s := counter loaded [soldLine]
    (∀ a ∈ [TotalsArgs.mk 0 10000 1, .mk 1 0 1, .mk 1 17 1, .mk 2 33 1, .mk 3 9 1, .mk 6 0 1, .mk 4 0 0, .mk 4 0 33],
      s.readTotals a = [3]) ∧
    State.reset.readTotals (.mk 4 0 1) = [14] ∧
    (let t := s.onTotals fun x => { x with images := some { accs := [], grand := .zero } }
     (∀ a ∈ [TotalsArgs.mk 0 0 1, .mk 0 9999 1, .mk 1 16 1, .mk 2 32 1, .mk 3 8 1, .mk 4 0 32, .mk 5 0 1],
       (t.readTotals a).head? = some 0)) ∧
    (basket []).state ≠ .unused ∧ (s.pool.records.map (·.state)).getLast? = some .unused ∧ Run.reset.serial = none ∧
    (startedRun 2 version 10 true none).serial = some 2 := by
  refine ⟨?_, ?_, ?_, ?_, ?_, ?_, ?_⟩ <;> decide +kernel

/-! ## Arbiters and interrupted jobs -/

/-- LabelJobsAreQueuedAndTaken: two READY printers and one job, one that only printer 1 may take, and two jobs. -/
theorem witness_arbiters :
    let ready := fun (jobs : List Job) =>
      { State.reset with
        labels := { queue := jobs, nextJob := 9, stamp := 9 },
        printers := State.reset.printers.map fun (q : PrinterPort) => { q with state := .ready, serial := some 6, frameTimer := true } }
    let queued : Job := { job with state := .queued, attempts := 0 }
    let own : Job := { queued with number := 2, fallback := false }
    (ready [queued]).nextJobFor 0 = some queued ∧ (ready [queued]).nextJobFor 1 = none ∧ (ready [job, own]).nextJobFor 0 = some own ∧
    (let s := ready [own, { own with number := 3, preferred := 1 }]
     s.nextJobFor 0 = some own ∧ s.nextJobFor 1 = some { own with number := 3, preferred := 1 }) ∧
    ((ready [own]).arbitrate.labels.queue.map fun j => (j.state, j.attempts)) = [(.printing 0, 1)] ∧
    (ready [own]).arbitrate.printers[(0 : Printer)].sending = some (.labelBegin 2 0 .summary) := by decide +kernel

/-- PrinterEventsMoveThePort: the job in hand, at its third attempt, interrupted in STARTING stays and in the other phases is FAILED. -/
theorem witness_interrupts :
    let busy := fun (phase : Phase) =>
      { printing .notReady with
        labels := { queue := [{ job with attempts := 3 }], nextJob := 9, stamp := 4 },
        printers := modAt (printing .notReady).printers 0 fun q =>
          { q with phase := some phase, doneTimer := phase == .awaitingDone } }
    let left := fun (c : Instr) (phase : Phase) => seen c (busy phase) fun t => t.labels.queue.map fun j => (j.state, j.attempts)
    (∀ phase ∈ [Phase.starting, .sending, .awaitingDone],
      (busy phase).printers[0].state = .busyPrinting ∧ (busy phase).printers[0].phase = some phase ∧
      (busy phase).printers[0].inHand = some (1 : BitVec 16).toNat ∧ (busy phase).printers[0].serial = some 6 ∧
      (busy phase).printers[0].frameTimer = true) ∧
    (∀ c ∈ [Instr.printerState 0 1, .printerState 0 2, .printerFault 0 1 1, .printerFault 0 1 4, .printerHello 0 6 1, .printerHello 0 8 1,
        .printerFrameTimeout 0],
      left c .starting = some [(.queued, 2)] ∧ left c .sending = some [] ∧ left c .awaitingDone = some []) ∧
    left (.doneTimeout 0) .awaitingDone = some [] := by
  refine ⟨by decide, ?_, ?_⟩ <;> decide +kernel

/-- R117: the frames of a job with every field, its extra text in three segments. -/
theorem test_fields_ascend :
    let full : LabelContent := { job.content with
      clerk := some 1, ticket := some 2, plu := some 3, name := some [0x41], netGrams := some 4, quantity := some 5, unitPrice := some 6,
      markdownShown := some true, useBy := some { year := 2028, month := 2, day := 28 },
      packed := some { year := 2028, month := 2, day := 27 }, extraText := some (List.replicate 120 0x41) }
    full.fields.map (fun f => match f with | .field i v => (i, v.length) | _ => (0, 0))
      = [(0x01, 1), (0x02, 1), (0x03, 1), (0x04, 1), (0x05, 1), (0x06, 1), (0x07, 1), (0x08, 1), (0x09, 1), (0x0A, 1), (0x0B, 3),
         (0x0C, 1), (0x0D, 10), (0x0E, 10), (0x20, 59), (0x21, 59), (0x22, 2), (0x30, 0)] := by decide +kernel

/-! ## Restarting, faults, examinations, records read back -/

/-- ArbiterSendsReplyThenHighestFlag: a due entry and a RESTART that waits for its reply to be sent. -/
theorem witness_restarting :
    let l := { HostLink.reset with
      restarting := true,
      flags := modAt HostLink.reset.flags 3 fun _ => { enabled := true, level := 3, pending := true, reported := false, body := [] } }
    l.sending = none ∧ l.restarting = true ∧ l.replies.head? = none ∧ (l.flags[(3 : Fin 50)]).due = true ∧ l.pump = l ∧
    (Flag.prepackDone 7).entry.val + 1 = 43 + 7 ∧ entrySource (Flag.jobFailed 1).entry = 2 := by decide

/-- CalibrationRequests: an accepted write at a channel that holds in a record of adoption, whose run ends and cannot hand over. -/
theorem witness_accepted_calibration :
    let s := (((calibrating (counter loaded []) 1 record).onRun 0 fun _ => { startedRun 2 version 10 true none with issued := 1 }).onPrice
      fun p => { p with generation := 5, pending := true, record := [0] }).onTotals fun x => { x with commits := List.replicate 8 (commit .basket) }
    s.ports[0].switch = .opened ∧ s.runs[0].state = .active ∧
    seen .writeCalibration s (fun t => (t.runs[0].state, t.runs[0].endReason, t.channels[0].pinned)) =
      some (.ending, some .calibration, 0) ∧
    seen .writeCalibration (s.onTotals fun x => { x with commits := [] }) (fun t => (t.runs[0].state, t.channels[0].pinned)) =
      some (.doneHeld, 5) := by
  refine ⟨rfl, rfl, ?_, ?_⟩ <;> decide +kernel

/-- StoreOperationsCompleteOrFault: CAL_FAULT keeps the selection of a channel whose head is PRESENT; an absent head's channel stays
ABSENT. -/
theorem witness_cal_fault :
    let s := (counter loaded []).storeFault
    (counter loaded []).ports[0].state = .present ∧ (counter loaded []).ports[1].state ≠ .present ∧
    (counter loaded []).runs[1].state ≠ .active ∧ s.channels[0].state = .calFault ∧ s.channels[0].selection = loaded.selection ∧
    s.channels[0].armed = false ∧ s.channels[1].state = .absent ∧ s.channels[1].calStatus = .fault := by decide +kernel

/-- PrepackRunsStartTriggerAndEnd: every run examined, one that triggers, one that waits for room, one whose conditions fail; a run in
ENDING offered with room and without; a channel number out of range. -/
theorem witness_examinations :
    let s := (counter loaded []).onRun 0 fun _ => startedRun 2 version 10 true none
    let full := s.onLabels fun l => { l with queue := List.replicate 32 { job with state := .printing 1 } }
    let ending := s.onRun 0 fun r => { r with state := .ending, issued := 1 }
    (s.triggerPrice 0).isSome = true ∧ s.examineAll.runs[0].issued = 1 ∧ s.runs[0].jobs = [] ∧
    s.examineAll.runs[0].jobs = [s.labels.nextJob] ∧
    (full.examineAll.runs[0].waitingRoom, full.examineAll.ports[0].image.message) = (true, .labelsFull) ∧
    (s.onChannel 0 fun c => { c with armed := false }).examineAll.runs[0].issued = 0 ∧
    ending.offerAll.runs[0].state = .doneHeld ∧
    (ending.onTotals fun x => { x with closing := some 1 }).offerAll.runs[0].state = .ending ∧
    (∀ n ∈ [0, 9], statusAfter .abortRun (asking s 0x49 [n]) = some (some 3) ∧
      statusAfter .clearRun (asking s 0x4A [n]) = some (some 3)) := by
  refine ⟨?_, ?_, ?_, ?_, ?_, ?_, ?_, ?_, ?_⟩ <;> decide +kernel

/-- CheckCodeCorrectsOneBitAndFindsTwo: an accumulator, a grand total, a last-period record and a log record with fields at the ends of
their ranges are read back as they were written. -/
theorem witness_records_read_back :
    let p := Pass.start [] .reset
    let slot : Acc :=
      { plu := some 9999, figures := AccId.limits (.plu 1024), lastApplied := 4294967295, saturated := true, damaged := false }
    let closed : LastPeriod := { period with closedAt := some .last, figures := List.replicate 6 281474976710655 }
    (AccId.plu 1024 ∈ (List.range 1082).map accAt ∧ slot.figures.length = (AccId.limits (.plu 1024)).length) ∧
    ((p.writeAcc (.plu 1024) slot).readAcc .commit (.plu 1024) none).2 = slot ∧
    ((p.write 10816 8 closed.bytes).readLastPeriod .totalsRead).2 = closed ∧
    (Pass.readJournal (p.writeJournal 5 7 []) .startupScan).2 = .clear ∧
    (Pass.readJournal (p.doneJournal 6 7 []) .startupScan).2 = .done 7 ∧
    (Pass.readJournal (p.write 256 1 (journalHeader 0 0 false)) .startupScan).2 = .nothing := by
  refine ⟨⟨List.mem_map.2 ⟨1024, List.mem_range.2 (by decide), rfl⟩, rfl⟩, ?_, ?_, ?_, ?_, ?_⟩ <;> decide +kernel

/-! ## The tare in force, the end of a run, a write cut short, checks of frames and records -/

/-- SampleIsWeighed (R29): the keyed tare before a preset one, a preset tare of 37 rounded down to 20 (ten divisions of 2 g), none. -/
theorem witness_tare_in_force :
    let preset := { loaded with selection := some { version := version, presetTare := 37, count := none } }
    preset.keyedTare = none ∧ preset.cal = some record ∧ preset.tareInForce = 20 ∧ ({ preset with cal := none } : Channel).tareInForce = 0 ∧
    ({ preset with keyedTare := some 7 } : Channel).tareInForce = 7 ∧ ({ preset with selection := none } : Channel).tareInForce = 0 := by
  decide

/-- ChannelKeysAct: CLEAR_TARE recomputes the net; CLEAR with an IDLE run takes the preset tare with the selection; the channel, then free,
adopts. -/
theorem witness_clear_recomputes :
    let ch := { loaded with
      selection := some { version := version, presetTare := 40, count := none }, last := some (weighing record 3460 40) }
    let s := (counter ch []).onPrice fun p => { p with generation := 5, pending := true, record := [0] }
    let left := fun (t : State) => (t.channels[0].last.map (·.net), t.channels[0].outcome, t.channels[0].pinned, t.price.pending)
    s.runs[0].state = .idle ∧ s.channels[0].last.map (·.net) = some 3420 ∧
    (seen (.clearTare 0) s left).map Prod.fst = some (some 3460) ∧ seen (.clear 0) s left = some (some 3460, .noSelection, 5, false) := by
  decide +kernel

/-- SampleTimeoutLosesTheHead, HeadHelloAcceptsTheHead, ReadAndResetChannel (R140): an ACTIVE run ends with the reason of its event, the
tracking count is 0, and the channel, no longer held, adopts. -/
theorem witness_run_ends :
    let ch := { loaded with tracking := 3, returnClear := true }
    let s := ((counter ch []).onRun 0 fun _ => startedRun 2 version 10 true none).onPrice
      fun p => { p with generation := 5, pending := true, record := [0] }
    let left := fun (t : State) =>
      ((t.runs[0].state, t.runs[0].endReason), (t.channels[0].tracking, t.channels[0].returnClear, t.channels[0].pinned), t.price.record)
    s.runs[0].state = .active ∧
    seen (.sampleTimeout 0) s left = some ((.doneHeld, some .headLost), (0, false, 5), []) ∧
    seen (.headHello 0 8 1) s left = some ((.doneHeld, some .headLost), (0, false, 5), []) ∧
    seen .resetChannel (asking s 0x13 [1]) left = some ((.doneHeld, some .reset), (0, false, 5), []) := by
  refine ⟨rfl, ?_, ?_, ?_⟩ <;> decide +kernel

/-- HostFrameSentEndsTheTransmission, PowerLossKeepsOnlyTheFram, StoreOperationsCompleteOrFault: a write of two words, and its first one
written alone. -/
theorem witness_words_whole :
    let s := operating .raiseMark
    (40 < 14563 ∧ 40 ≠ 41) ∧ s.opPass.trace.length = 2 ∧
    ((s.opPass.trace.take 1).foldl (fun fram x => Memory.putWord fram x.1 x.2) s.store.fram) =
      completeWord s.store.fram 0 s.cutTrace ∧
    (40, Memory.word (completeWord s.store.fram 0 s.cutTrace) 40) ∈ s.opPass.trace ∧
    Memory.word (completeWord s.store.fram 0 s.cutTrace) 41 = Memory.word s.store.fram 41 := by decide +kernel

/-- HostFramesAndPluPayloadsReadBack: a frame that the receiver takes. -/
theorem witness_frame_taken : parseHostFrame (hostFrame 0x7F [1, 2]) = some (0x7F, [1, 2]) := by decide +kernel

/-- R168: a record with its check worked out by hand: the fifteen bytes add up to 452, and 452 + 0xA5A5 is 0xA769. -/
theorem test_record_check :
    record.stored = [0xE8, 0x03, 0, 0, 0x40, 0x0D, 0x03, 0, 0x70, 0x17, 0, 2, 0, 0, 0, 0x69, 0xA7] ∧ 17 ≤ record.stored.length ∧
    parseCal record.stored = some record ∧ parseCal (record.stored.take 16 ++ [0xA6]) = none := by decide +kernel

/-- HostFramesAndPluPayloadsReadBack: frames written out from the tables of 1.2, 5.4 and 7.3, their check bytes worked out by hand. -/
theorem test_peripheral_frames :
    (HeadFrame.accept 9 0).bytes = [0xA5, 0x90, 5, 9, 0, 0, 0, 1, 0x61] ∧
    (HeadFrame.display
      { weight := .value 346, unitPrice := some 2125, price := .value 735, name := [0x48], clerk := some 12, ticket := some 7,
        message := .none } true).bytes =
      [0xA5, 0x91, 39, 0, 0x5A, 1, 0, 0x4D, 8, 0, 0, 0xDF, 2, 0, 0x48] ++ List.replicate 23 0 ++ [12, 7, 0, 1, 0x5B] ∧
    (QueueFrame.issue 3 42).bytes = [0xA5, 0xB1, 2, 3, 42, 0x20] ∧
    (PrinterFrame.labelBegin 258 1 .item).bytes = [0xA5, 0xC1, 4, 2, 1, 1, 2, 0x35] := by decide +kernel

/-- HostFramesAndPluPayloadsReadBack: frames a receiver takes, at the ends of their ranges, and frames it does not. -/
theorem witness_peripheral_frame_taken :
    frameTaken (.head 0) [0xA5, 0x11, 4, 1, 2, 3, 5, 0xE0] = true ∧ frameTaken .queue [0xA5, 0x11, 4, 1, 2, 3, 5, 0xE0] = false ∧
    frameTaken (.printer 0) [0xA5, 0x31, 1, 2, 0xCC] = true ∧ frameTaken (.printer 0) [0xA5, 0x31, 1, 3, 0xCB] = false ∧
    frameTaken (.printer 0) [0xA5, 0x33, 3, 1, 0, 4, 0xC5] = true ∧ frameTaken (.printer 0) [0xA5, 0x33, 3, 1, 0, 0, 0xC9] = false ∧
    ([] : List CallSign).length ≤ 4 ∧ DisplayImage.initial.name.length ≤ 24 := by decide +kernel

/-- PublicationAndForcedAdoption (R57, R140, R33): an ACTIVE run ends with PRICE_FORCED, a run in ENDING stays, the selection and its
return-clear mark go, the message is PRICE_CHANGED, and the channels of the record adopt. -/
theorem witness_forced :
    let ch := { loaded with returnClear := true }
    let s := (((counter ch []).onRun 0 fun _ => startedRun 2 version 10 true none).onRun 3 fun r => { r with state := .ending }).onPrice
      fun p => { p with generation := 5, pending := true, record := [0, 3] }
    (0 : Station) ∈ s.price.record ∧ s.price.pending = true ∧ s.channels[0].selection ≠ none ∧ s.channels[3].selection = none ∧
    s.runs[0].state = .active ∧ s.runs[3].state ≠ .active ∧ (1 : Station) ∉ s.price.record ∧
    seen .forceAdoption (asking s 0x25 []) (fun t => (t.runs[0].state, t.runs[0].endReason, t.runs[3].state))
      = some (.doneHeld, some .priceForced, .ending) ∧
    seen .forceAdoption (asking s 0x25 []) (fun t => (t.channels[0].selection.isSome, t.channels[0].returnClear, t.channels[0].pinned))
      = some (false, false, 5) ∧
    seen .forceAdoption (asking s 0x25 []) (fun t => (t.ports[0].image.message, t.ports[0].image.unitPrice)) = some (.priceChanged, none) ∧
    seen .forceAdoption (asking s 0x25 []) (fun t => (t.channels[3].pinned, t.price.record, t.price.pending)) = some (5, [], false) := by
  refine ⟨by decide, rfl, nofun, rfl, rfl, nofun, by decide, ?_, ?_, ?_, ?_⟩ <;> decide +kernel

/-- ClerksAreDefinedAndMoved (R82, R33, R55): the channel a logged off clerk leaves: the mark and the preset tare's net gone, the display
without clerk and ticket, the channel adopted; with a run that holds it the channel stays. -/
theorem witness_clerk_left :
    let s := twoClerks.onPrice fun p => { p with generation := 5, pending := true, record := [3] }
    let left := fun (t : State) => (t.channels[3].selection.isSome, t.channels[3].last, t.channels[3].pinned, t.price.record)
    let gone := some (false, some weighed, 5, [])
    let shown := fun (t : State) => (t.ports[3].image.clerk, t.ports[3].image.ticket)
    KeyTaken s 3 ∧ (s.service.clerkAt 3).map (·.number) = some 5 ∧ s.runs[3].holds = false ∧
    (seen (.logoff 3) s left = gone ∧ seen (.logoff 3) s shown = some (none, none)) ∧
    (seen (.clerk 3 12) s left = gone ∧ seen (.clerk 3 12) s shown = some (some 12, none)) ∧
    (seen .defineClerk (asking s 0x30 [5, 1, 0x43, 0]) left = gone ∧
      seen .defineClerk (asking s 0x30 [5, 1, 0x43, 0]) shown = some (none, none)) ∧
    (seen .removeClerk (asking s 0x31 [5]) left = gone ∧ seen .removeClerk (asking s 0x31 [5]) shown = some (none, none)) ∧
    (s.onRun 3 fun r => { r with state := .ending }).runs[3].holds = true ∧
    seen (.logoff 3) (s.onRun 3 fun r => { r with state := .ending }) (fun t => (t.channels[3].selection.isSome, t.price.record))
      = some (true, [3]) := by
  refine ⟨⟨rfl, rfl, rfl⟩, rfl, by decide, ?_, ?_, ?_, ?_, by decide, ?_⟩ <;> decide +kernel

/-- CustomerIsCalledIntoANewBasket (R83, R91, R94): the display shows the called ticket, and a free queue line sends the new list, a busy one
owes it; a walk-up basket shows no ticket and owes nothing. ResetMeetsTheInvariants: serials below the next one. -/
theorem witness_called_shown :
    let s := (serving [soldLine] clerk).onService fun v => { v with waiting := [9] }
    let shown := fun (t : State) => (t.ports[0].image.clerk, t.ports[0].image.ticket, t.queuePort.sending, t.queuePort.signOwed)
    SerialsFresh s ∧ s.service.waiting = [9] ∧
    seen (.nextKey 0) s shown = some (some 12, some 9, some (.sign [{ ticket := 9, clerk := 12, channel := 0 }]), false) ∧
    seen (.nextKey 0) (s.onQueuePort fun q => { q with sending := some (.accept 5) }) shown
      = some (some 12, some 9, some (.accept 5), true) ∧
    seen (.nextKey 0) (serving [soldLine] clerk) shown = some (some 12, none, none, false) := by
  refine ⟨⟨?_, ?_⟩, rfl, ?_, ?_, ?_⟩
  · intro b hb n hn
    refine ⟨2, rfl, ?_⟩
    have : ∀ b ∈ ((serving [soldLine] clerk).onService fun v => { v with waiting := [9] }).pool.records,
        b.serial = none ∨ b.serial = some 1 := by decide +kernel
    rcases this b hb with h | h
    · rw [h] at hn; cases hn
    · rw [h] at hn; cases hn; decide
  · intro stage d h
    cases h
  all_goals decide +kernel

/-- PrinterEventsMoveThePort (R125): a STATE ready in BUSY_PRINTING leaves the job in hand and its phase; one in NOT_READY makes the port
READY, and it begins a QUEUED job. -/
theorem witness_state_ready :
    (printing .notReady).printers[0].state = .busyPrinting ∧
    seen (.printerState 0 0) (printing .notReady) (fun t => ((t.printers[0].state, t.printers[0].inHand, t.printers[0].phase),
        t.printers[0].condition, t.printers[1].state))
      = some ((.busyPrinting, some 1, some .sending), .ready, .notReady) ∧
    (let s := { printing .notReady with labels := { queue := [{ job with state := .queued, preferred := 1 }], nextJob := 2, stamp := 1 } }
     s.printers[1].state ≠ .busyPrinting ∧
     seen (.printerState 1 0) s (fun t => (t.printers[1].state, t.printers[1].inHand, t.printers[1].phase))
       = some (.busyPrinting, some 1, some .starting) ∧
     seen (.printerState 1 1) s (fun t => (t.printers[1].state, t.printers[1].condition)) = some (.notReady, .paperOut)) := by
  refine ⟨rfl, ?_, nofun, ?_, ?_⟩ <;> decide +kernel

/-- StoreVerifiesThenBeginsInRankOrder: a beginning that does not happen: nothing of its own waits, an operation of a higher rank waits, one
is in flight, the store is in STORE_FAULT. -/
theorem witness_no_beginning :
    let s := (counter loaded []).pushCommit (commit .basket)
    let higher := s.onStore fun m => { m with waiting := [.writeLog] }
    after (exec .highMarkRaiseBegin s) = some s ∧ after (exec .periodCloseBegin s) = some s ∧
    after (exec .commitApplyBegin higher) = some higher ∧
    (higher.store.waiting ≠ [] ∧ higher.store.waiting.head? ≠ some .readLastPeriod ∧ s.totals.commits ≠ []) ∧
    (s.onStore fun m => { m with op := some .writeLog }).store.op ≠ none ∧
    (s.onStore fun m => { m with state := .storeFault }).store.state = .storeFault := by
  refine ⟨?_, ?_, ?_, ⟨?_, ?_, ?_⟩, ?_, ?_⟩ <;> decide +kernel

end Sys2Proof.Tests
end

section
/-! SUPPORT. What an event, a request with arguments and a changed entry leave, for the proofs below. -/

namespace Sys2Proof.Machine

/-! ## Entries of a vector -/

/-- What a change makes of an entry depends on that entry alone. -/
theorem modAt_congr {α : Type} {n : Nat} {v : Vector α n} {i : Fin n} {f g : α → α} (h : f v[i] = g v[i]) :
    modAt v i f = modAt v i g := by
  unfold modAt
  rw [h]

/-- An entry after a change of one. -/
theorem modAt_apply {α : Type} {n : Nat} (v : Vector α n) (i j : Fin n) (f : α → α) :
    (modAt v i f)[j] = if j = i then f v[j] else v[j] := by
  split
  · next h => rw [h, modAt_same]
  · next h => exact modAt_other v i j f h

/-! ## Events -/

/-- An event that can happen: its effect, and the next frames begun. -/
theorem State.event_some {s t : State} {f : State → Option State} (h : s.powered = true) (hf : f s = some t) :
    s.event f = .next (t.finish s) := by
  rw [State.event_powered h, hf]

/-- An event that cannot happen leaves the state as it is. -/
theorem State.event_none {s : State} {f : State → Option State} (h : s.powered = true) (hf : f s = none) : s.event f = .next s := by
  rw [State.event_powered h, hf]

/-- Free lines beginning their next frames leave everything but the head lines and what the host line sends. -/
@[simp] theorem State.finish_fields (s old : State) :
    (s.finish old).pending = s.pending ∧ (s.finish old).powered = s.powered ∧ (s.finish old).freeCount = s.freeCount ∧
    (s.finish old).ports = s.ports ∧ (s.finish old).channels = s.channels ∧ (s.finish old).price = s.price ∧
    (s.finish old).service = s.service ∧ (s.finish old).queuePort = s.queuePort ∧ (s.finish old).pool = s.pool ∧
    (s.finish old).labels = s.labels ∧ (s.finish old).printers = s.printers ∧ (s.finish old).runs = s.runs ∧
    (s.finish old).totals = s.totals ∧ (s.finish old).store = s.store ∧ (s.finish old).link.flags = s.link.flags ∧
    (s.finish old).link.clock = s.link.clock := by
  have hl : (s.finish old).link = { s.link with sending := s.link.pump.sending } := s.link.pump_parts
  rw [hl]
  exact ⟨rfl, rfl, rfl, rfl, rfl, rfl, rfl, rfl, rfl, rfl, rfl, rfl, rfl, rfl, rfl, rfl⟩

/-- What is known of a state carries over to the state with its next frames begun. -/
theorem State.finish_of_eq {s t old : State} (h : s = t) :
    s.finish old = { t with headLines := (s.finish old).headLines, link := (s.finish old).link } := by
  subst h
  rfl

/-- AdoptedIfFree speaks of the channel's pinned generation, the price table, the run and the flags alone. -/
theorem AdoptedIfFree.congr {s t t' : State} {st : Station} (h : AdoptedIfFree s t st)
    (hc : t'.channels[st].pinned = t.channels[st].pinned) (hp : t'.price = t.price) (hr : t'.runs[st] = t.runs[st])
    (hf : ∀ n : Fin 50, (t.link.flags[n]).pending = true → (t'.link.flags[n]).pending = true) : AdoptedIfFree s t' st := by
  unfold AdoptedIfFree at h ⊢
  rw [hr, hc, hp]
  split
  · next g =>
    rw [if_pos g] at h
    obtain ⟨pinned, price, flag⟩ := h
    exact ⟨pinned, price, fun a b => hf _ (flag a b)⟩
  · next g =>
    rw [if_neg g] at h
    exact h

/-! ## Requests with arguments (R172, R182) -/

/-- R172: a request whose payload holds its arguments is answered with what `f` makes of them. -/
theorem State.request_args {α : Type} {s : State} {kind : Nat} {payload : List Byte} {parse : List Byte → Option α} {a : α}
    (h : Executing s kind payload) (parsed : parse payload = some a) (f : α → State → State × List Byte) :
    s.request kind (withArgs parse f) = .next (answered s (f a s).1 (f a s).2) := by
  rw [State.request_executing h]
  unfold withArgs
  rw [parsed]

/-- A number of one byte is read off the front. -/
theorem num_one (b : Byte) (bs : List Byte) : num 1 (b :: bs) = some (b.toNat, bs) := by
  simp [num, leNat]

/-- As many numbers of one byte as stand there. -/
theorem many_num_one : ∀ {values : List Nat}, (∀ v ∈ values, v < 256) →
    many (num 1) values.length (values.map (BitVec.ofNat 8)) = some (values, [])
  | [], _ => rfl
  | v :: vs, h => by
    obtain ⟨hv, hvs⟩ := List.forall_mem_cons.1 h
    have value : (BitVec.ofNat 8 v).toNat = v := Nat.mod_eq_of_lt hv
    simp only [List.map_cons, List.length_cons, many, num_one, many_num_one hvs, value]

end Sys2Proof.Machine
end

section
/-! SUPPORT. Power-on values, and the next frames begun after an event (R16). -/

namespace Sys2Proof.Machine

/-- Settles O3: the power-on values evaluate, and a vector of alike records has that record at every index. -/
theorem resetHoldsPowerOnValues : Obligations.ResetHoldsPowerOnValues := by
  unfold Obligations.ResetHoldsPowerOnValues
  have alike : ∀ {α : Type} (n : Nat) (x : α) (i : Fin n), (Vector.replicate n x)[i] = x := fun _ _ _ => by simp
  have page : ∀ (st : Station) (name : PageName), State.reset.price.pageAt st name = .empty := fun st name => by
    show (State.reset.price.pages[st]).get name = .empty
    have pair : State.reset.price.pages[st] = { a := .empty, b := .empty } := alike 8 _ st
    rw [pair]
    cases name <;> rfl
  have slot : ∀ k < 48, State.reset.pool.records[k]? = some (Basket.unused (k + 1)) := fun k hk => by
    have records : State.reset.pool.records = (List.range 48).map fun i => Basket.unused (i + 1) := rfl
    rw [records, List.getElem?_map, List.getElem?_range hk]
    rfl
  exact ⟨rfl, rfl, rfl, alike 8 _, alike 8 _, alike 8 _, rfl, rfl, rfl, rfl, rfl, rfl, page, rfl, rfl, rfl, slot, rfl, rfl,
    alike 2 _, alike 8 _, rfl, rfl, fun _ _ => rfl, rfl, rfl, rfl, rfl, rfl, rfl, rfl, rfl, alike 50 _⟩

/-- R16: the change of the image owes a DISPLAY, in PRESENT, beside one that was owed already. -/
theorem HeadLine.markChange_eq (old new : Port) (l : HeadLine) : l.markChange old new =
    { l with displayOwed := l.displayOwed || decide (new.state = .present ∧ new.image ≠ old.image) } := by
  unfold HeadLine.markChange
  split
  · next h => rw [decide_eq_true h, Bool.or_true]
  · next h => rw [decide_eq_false h, Bool.or_false]

/-- Settles O13: `finish` on one head line is `markChange` and then `pump`. -/
theorem finishBeginsNextFrames : Obligations.FinishBeginsNextFrames := by
  unfold Obligations.FinishBeginsNextFrames
  intro s t
  refine ⟨State.finish_parts t s, fun st => ?_⟩
  rw [State.finish_headLine, HeadLine.markChange_eq]
  unfold HeadLine.pump
  rfl

end Sys2Proof.Machine
end

section
/-! SUPPORT. The presence of a head (R3 to R8): arrival, departure, and the frames a port does not take. -/

namespace Sys2Proof.Machine

/-! ## The commands of a scale port -/

/-- SAMPLE_TIMEOUT is an event of the port (R6). -/
theorem exec_sampleTimeout (st : Station) (s : State) : exec (.sampleTimeout st) s = s.event fun s =>
    if s.ports[st].state = .present ∧ s.ports[st].sampleTimer then some (s.leavePresent st .lost) else none := rfl

/-- HEAD_HELLO is an event of the port (R4, R5). -/
theorem exec_headHello (st : Station) (serial : BitVec 32) (model : Byte) (s : State) :
    exec (.headHello st serial model) s = s.event (State.hello st serial model) := rfl

/-- R4: a HELLO in WAITING or LOST. -/
theorem State.hello_absent {s : State} {st : Station} (h : s.ports[st].state = .waiting ∨ s.ports[st].state = .lost)
    (serial : BitVec 32) (model : Byte) : s.hello st serial model = some (s.acceptHead st serial model) := by
  unfold State.hello
  rcases h with h | h <;> rw [h]

/-- R5: a HELLO in PRESENT, of the same head or of another. -/
theorem State.hello_present {s : State} {st : Station} (h : s.ports[st].state = .present) (serial : BitVec 32) (model : Byte) :
    s.hello st serial model = if s.ports[st].serial = some serial then some (s.onHeadLine st (·.oweAccept serial))
      else some ((s.leavePresent st .lost).acceptHead st serial model) := by
  unfold State.hello
  rw [h]

/-- SAMPLE is an event of the port (R9). -/
theorem exec_sample (st : Station) (raw : BitVec 24) (seq : Byte) (s : State) :
    exec (.sample st raw seq) s = s.event (State.takeSample st raw seq) := rfl

/-- HEAD_STATE is an event of the port (R10). -/
theorem exec_headState (st : Station) (condition : Byte) (s : State) :
    exec (.headState st condition) s = s.event (State.takeHeadState st condition) := rfl

/-- A key row is a key of its station. -/
theorem exec_keyRow {c : Instr} {st : Station} (h : stationRow c = some st) :
    ∃ f, ∀ s, exec c s = s.event fun s => s.takeKey st f := by
  cases c <;> cases h <;> exact ⟨_, fun _ => rfl⟩

/-! ## The acceptance of a head -/

/-- R4, R21: what the acceptance of a head leaves. -/
theorem State.acceptHead_spec (s : State) (st : Station) (serial : BitVec 32) (model : Byte) :
    let t := s.acceptHead st serial model
    t.ports = modAt s.ports st (fun _ => .accepted serial model) ∧
    t.headLines = modAt s.headLines st (fun l =>
      { l with owedAccepts := l.owedAccepts ++ [serial], displayOwed := true, beepOwed := false }) ∧
    t.channels = modAt s.channels st (fun c => c.startAfresh c.startState) ∧
    (t.link.flags[(Flag.headFound st).entry]).pending = true ∧
    (∀ n : Fin 50, (s.link.flags[n]).pending = true → t.link.flags[n] = s.link.flags[n]) ∧
    t = { s with ports := t.ports, headLines := t.headLines, channels := t.channels,
                 link := (s.raise (.headFound st) (encSerial serial)).link } := by
  obtain ⟨found, kept⟩ := State.raise_pending s (.headFound st) (encSerial serial)
  exact ⟨rfl, rfl, rfl, found, kept, rfl⟩

/-- Settles O23: an event that the port's state rules out leaves the state as it is. -/
theorem portDiscardsFramesByItsState : Obligations.PortDiscardsFramesByItsState := by
  unfold Obligations.PortDiscardsFramesByItsState
  intro s st hp
  refine ⟨fun off serial model => ?_, fun absent => ⟨fun raw seq => ?_, fun condition => ?_⟩, fun deaf c row => ?_⟩
  · exact (exec_headHello st serial model s).trans (State.event_none hp (by unfold State.hello; rw [off]))
  · exact (exec_sample st raw seq s).trans (State.event_none hp (if_neg absent))
  · exact (exec_headState st condition s).trans (State.event_none hp (if_neg absent))
  · obtain ⟨f, key⟩ := exec_keyRow row
    exact (key s).trans (State.event_none hp (State.takeKey_discarded deaf f))

/-- Settles O22: what `leavePresent` leaves, and then the next frames. -/
theorem sampleTimeoutLosesTheHead : Obligations.SampleTimeoutLosesTheHead := by
  unfold Obligations.SampleTimeoutLosesTheHead
  intro s st hp present running
  obtain ⟨port, channel, ended, run, adopted, service, flag, body, others, lines, parts⟩ := s.leavePresent_spec st .lost nofun
  have timeout : exec (.sampleTimeout st) s = .next ((s.leavePresent st .lost).finish s) :=
    (exec_sampleTimeout st s).trans (State.event_some hp (if_pos ⟨present, running⟩))
  generalize s.leavePresent st .lost = u at *
  refine ⟨u.finish s, timeout, ?_⟩
  simp only [State.finish_fields]
  refine ⟨port, fun x hx => (others x hx).1, channel, ?_, fun x hx => (others x hx).2.1, ended, ?_, fun x hx => (others x hx).2.2,
    ?_, ?_, flag, body, ⟨u, rfl, fun x => ?_⟩, ?_⟩
  · exact adopted.congr (by simp) (by simp) (by simp) (by simp)
  · exact run.congr rfl rfl rfl (by simp) (by simp) (by simp)
  · rw [service]
  · intro c hc x hx
    rw [service] at hx
    exact loggedOff_none hc hx
  · rw [lines, modAt_apply]
  · rw [service] at parts ⊢
    exact State.finish_of_eq parts

/-- Settles O21: `acceptHead` alone in WAITING and LOST; in PRESENT another head's HELLO is `leavePresent` and then `acceptHead`. -/
theorem headHelloAcceptsTheHead : Obligations.HeadHelloAcceptsTheHead := by
  unfold Obligations.HeadHelloAcceptsTheHead
  intro s st serial model hp
  refine ⟨fun h => ?_, fun h same => ?_, fun h other => ?_⟩
  · rw [exec_headHello, State.event_some hp (State.hello_absent h serial model)]
    rfl
  · rw [exec_headHello, State.event_some hp ((State.hello_present h serial model).trans (if_pos same))]
    rfl
  · obtain ⟨-, channel, ended, run, adopted, service, lost, -, others, lines, parts⟩ := s.leavePresent_spec st .lost nofun
    have hello := (exec_headHello st serial model s).trans
      (State.event_some hp ((State.hello_present h serial model).trans (if_neg other)))
    generalize s.leavePresent st .lost = u at *
    obtain ⟨port', lines', channel', found, kept, parts'⟩ := u.acceptHead_spec st serial model
    generalize u.acceptHead st serial model = v at *
    have pending : ∀ n : Fin 50, (u.link.flags[n]).pending = true → (v.link.flags[n]).pending = true := fun n hn => by
      rw [kept n hn]; exact hn
    have runs : v.runs = u.runs := by rw [parts']
    have totals : v.totals = u.totals := by rw [parts']
    have price : v.price = u.price := by rw [parts']
    have service' : v.service = { s.service with clerks := loggedOff s.service st } := by rw [parts', service]
    have pinned : v.channels[st].pinned = u.channels[st].pinned := by rw [channel', modAt_same]; rfl
    have channel_st : v.channels[st] =
        { s.channels[st].startAfresh s.channels[st].startState with pinned := u.channels[st].pinned } := by
      rw [channel', modAt_same, channel]
      rfl
    rw [← pinned] at channel_st
    have flags : (v.finish s).link.flags = v.link.flags := by simp
    refine ⟨v.finish s, hello, ?_, ?_, ?_, ?_, ?_, ?_, ?_, ⟨v, rfl, fun x => ?_⟩, ?_, ?_, fun x hx => ?_, ?_⟩
    · show v.ports[st] = _
      rw [port', modAt_same]
      rfl
    · rw [flags]; exact pending _ lost
    · rw [flags]; exact found
    · show v.runs[st].state ≠ _
      rw [runs]; exact ended
    · exact run.congr rfl rfl rfl (by simp [runs]) (by simp [totals]) (by simpa using pending)
    · exact adopted.congr (by simpa using pinned) (by simp [price]) (by simp [runs]) (by simpa using pending)
    · exact channel_st
    · rw [lines', lines, modAt_apply, modAt_apply]
      split <;> rfl
    · show v.service.clerks = _
      rw [service']
    · intro c hc x hx
      have hx : x ∈ v.service.clerks := hx
      rw [service'] at hx
      exact loggedOff_none hc hx
    · obtain ⟨a, b, c⟩ := others x hx
      show v.ports[x] = _ ∧ v.channels[x] = _ ∧ v.runs[x] = _
      rw [port', channel', runs, modAt_other _ _ _ _ hx, modAt_other _ _ _ _ hx]
      exact ⟨a, b, c⟩
    · show v.finish s = { s with
        ports := v.ports, headLines := (v.finish s).headLines, channels := v.channels, price := v.price,
        service := { s.service with clerks := v.service.clerks }, runs := v.runs, totals := v.totals, link := (v.finish s).link }
      rw [price, runs, totals, service']
      rw [service] at parts
      generalize (u.raise (.headFound st) (encSerial serial)).link = k at parts'
      have whole : v = { s with
          ports := v.ports, headLines := v.headLines, channels := v.channels, price := u.price,
          service := { s.service with clerks := loggedOff s.service st }, runs := u.runs, totals := u.totals, link := k } := by
        conv_lhs => rw [parts', parts]
      exact State.finish_of_eq whole

end Sys2Proof.Machine
end

section
/-! SUPPORT. The display image and the events of a head line (R11, R16, R36, R71). -/

namespace Sys2Proof.Machine

/-! ## The display image (R36, R71, R83) -/

/-- R11: a converter fault blanks weight and price. -/
theorem State.imageOf_fault {s : State} {st : Station} (h : s.ports[st].converterFault = true) :
    (s.imageOf st).weight = .blank ∧ (s.imageOf st).price = .blank := by
  unfold State.imageOf
  rw [h]
  exact ⟨rfl, rfl⟩

/-- R36, R71: without a converter fault the image shows the channel's own fields. -/
theorem State.imageOf_no_fault {s : State} {st : Station} (h : s.ports[st].converterFault = false) :
    (s.imageOf st).weight = s.channels[st].weightField ∧ (s.imageOf st).price = s.channels[st].priceField := by
  unfold State.imageOf
  rw [h]
  exact ⟨rfl, rfl⟩

/-- R36: the weight field, by the weight state. -/
theorem Channel.weightField_cases (c : Channel) :
    (c.state ∈ [.absent, .calFault, .warmup, .zeroFault] → c.weightField = .blank) ∧
    (c.state = .motion → c.weightField = .dashes) ∧
    (∀ w, c.state = .stable → c.last = some w → c.weightField = .value w.weight) ∧
    (c.state = .overload → c.weightField = .over) ∧
    (c.state = .underload → c.weightField = .under) := by
  unfold Channel.weightField
  refine ⟨fun h => ?_, fun h => ?_, fun w h hw => ?_, fun h => ?_, fun h => ?_⟩
  · simp only [List.mem_cons, List.not_mem_nil, or_false] at h
    rcases h with h | h | h | h <;> rw [h]
  · rw [h]
  · rw [h, hw]; rfl
  · rw [h]
  · rw [h]

/-- R71: the price field, by the pricing outcome. -/
theorem Channel.priceField_cases (c : Channel) :
    (∀ price, c.outcome = .priced price → c.priceField = .value price) ∧
    (c.outcome = .notStable → c.priceField = if c.state ∈ [.motion, .overload, .underload] then .dashes else .blank) ∧
    (c.outcome ∈ [.noSelection, .noCount, .netLow, .zeroPrice] → c.priceField = .blank) ∧
    (c.outcome = .priceOverflow → c.priceField = .dashes) := by
  unfold Channel.priceField
  refine ⟨fun price h => ?_, fun h => ?_, fun h => ?_, fun h => ?_⟩
  · rw [h]
  · rw [h]; cases c.state <;> rfl
  · simp only [List.mem_cons, List.not_mem_nil, or_false] at h
    rcases h with h | h | h | h <;> rw [h]
  · rw [h]

/-- R71: the fields of the selected version. -/
theorem State.imageOf_selection (s : State) (st : Station) :
    (s.channels[st].selection = none → (s.imageOf st).unitPrice = none ∧ (s.imageOf st).name = []) ∧
    ∀ sel, s.channels[st].selection = some sel →
      (s.imageOf st).unitPrice = some sel.version.unitPrice ∧ (s.imageOf st).name = sel.version.name := by
  unfold State.imageOf
  dsimp only
  refine ⟨fun h => ?_, fun sel h => ?_⟩ <;> rw [h] <;> exact ⟨rfl, rfl⟩

/-- R83: the clerk and the ticket of the clerk's current basket. -/
theorem State.imageOf_clerk (s : State) (st : Station) :
    (s.service.clerkAt st = none → (s.imageOf st).clerk = none ∧ (s.imageOf st).ticket = none) ∧
    ∀ k, s.service.clerkAt st = some k → (s.imageOf st).clerk = some k.number ∧
      (s.current k = none → (s.imageOf st).ticket = none) ∧ ∀ b, s.current k = some b → (s.imageOf st).ticket = b.ticket := by
  unfold State.imageOf State.shownTicket
  refine ⟨fun h => ?_, fun k h => ?_⟩ <;> rw [h]
  · exact ⟨rfl, rfl⟩
  · refine ⟨rfl, fun g => ?_, fun b g => ?_⟩ <;> rw [Option.bind_some, g] <;> rfl

/-! ## The commands of the line (R2, R10, R16) -/

/-- STATE_TIMEOUT, DISPLAY_REFRESH and DISPLAY_FRAME_END are events of the station. -/
theorem exec_lineEvents (st : Station) (s : State) :
    exec (.stateTimeout st) s = s.event (fun s => if s.ports[st].state = .present ∧ s.ports[st].stateTimer then
      some (s.onPort st fun p => { p with switch := .unknown }) else none) ∧
    exec (.displayRefresh st) s = s.event (fun s => if s.ports[st].state = .present then
      some (s.onHeadLine st fun l => { l with displayOwed := true }) else none) ∧
    exec (.displayFrameEnd st) s = s.event (fun s => if s.headLines[st].sending.isSome then
      some (s.onHeadLine st fun l => { l with sending := none }) else none) := ⟨rfl, rfl, rfl⟩

/-- Settles O26: the image that `refresh` writes, field by field, and the events of the line. -/
theorem headLineEventsActOnTheLineAlone : Obligations.HeadLineEventsActOnTheLineAlone := by
  unfold Obligations.HeadLineEventsActOnTheLineAlone
  refine ⟨fun s st => ?_, fun s st hp => ?_⟩
  · obtain ⟨-, absent, shown, -⟩ := s.refresh_spec st
    refine ⟨absent, fun present => ?_⟩
    rw [shown present]
    obtain ⟨noSelection, selected⟩ := s.imageOf_selection st
    obtain ⟨noClerk, clerk⟩ := s.imageOf_clerk st
    refine ⟨if_pos present, State.imageOf_fault, fun h => ?_, noSelection, selected, noClerk, clerk, rfl⟩
    obtain ⟨weight, price⟩ := State.imageOf_no_fault h
    rw [weight, price]
    obtain ⟨blank, motion, stable, overload, underload⟩ := s.channels[st].weightField_cases
    exact ⟨blank, motion, stable, overload, underload, s.channels[st].priceField_cases⟩
  · obtain ⟨timeout, refresh, frameEnd⟩ := exec_lineEvents st s
    exact ⟨fun present running => timeout.trans (State.event_some hp (if_pos ⟨present, running⟩)),
      fun present => refresh.trans (State.event_some hp (if_pos present)),
      fun sending => frameEnd.trans (State.event_some hp (if_pos sending)),
      fun _ _ => State.event_some (f := some) hp rfl, fun _ => State.event_some (f := some) hp rfl⟩

end Sys2Proof.Machine
end

section
/-! SUPPORT. The windows of a channel (R9, R10, R22, R26). -/

namespace Sys2Proof.Machine

/-! ## Emptied windows (R26) -/

/-- R138: a wait for room that ends changes the mark of the run and the message field. -/
theorem State.stopWaiting_eq (s : State) (st : Station) : ∃ m, s.stopWaiting st = { s with
    ports := modAt s.ports st fun p => { p with image := { p.image with message := m } },
    runs := modAt s.runs st fun r => { r with waitingRoom := false } } := by
  have message : modAt s.ports st (fun p => { p with image := { p.image with message := s.ports[st].image.message } }) = s.ports :=
    modAt_unchanged _ _ _ rfl
  unfold State.stopWaiting
  split
  · unfold State.withdraw
    split
    · refine ⟨.none, ?_⟩
      have none : modAt s.ports st (fun p => { p with image := { s.ports[st].image with message := .none } })
        = modAt s.ports st fun p => { p with image := { p.image with message := .none } } := modAt_congr rfl
      rw [← none]
      rfl
    · exact ⟨s.ports[st].image.message, by rw [message]; rfl⟩
  · next h =>
    have waits : s.runs[st].waitingRoom = false := by simpa using h
    have mark : modAt s.runs st (fun r => { r with waitingRoom := false }) = s.runs :=
      modAt_unchanged _ _ _ (by rw [← waits])
    exact ⟨s.ports[st].image.message, by rw [message, mark]⟩

/-- R26: what emptied windows leave of a channel. -/
theorem Channel.emptyWindows_eq (c : Channel) : c.emptyWindows.outcome = c.emptyWindows.price ∧ c.emptyWindows = { c with
    filter := [], stability := [], tracking := 0, state := if c.state = .stable then .motion else c.state,
    outcome := c.emptyWindows.outcome } := ⟨rfl, rfl⟩

/-- R26: a channel with emptied windows is not at rest. -/
theorem Channel.emptyWindows_not_stable (c : Channel) : c.emptyWindows.state ≠ .stable := by
  show (if c.state = .stable then _ else _) ≠ _
  split
  · nofun
  · next h => exact h

/-- R36: display fields that are written change the image alone. -/
theorem State.refresh_eq (s : State) (st : Station) : ∃ image : DisplayImage,
    s.refresh st = { s with ports := modAt s.ports st fun p => { p with image := image } } ∧
    (s.ports[st].state = .present → image = s.imageOf st) := by
  unfold State.refresh
  split
  · exact ⟨s.imageOf st, rfl, fun _ => rfl⟩
  · next h =>
    have same : modAt s.ports st (fun p => { p with image := s.ports[st].image }) = s.ports := modAt_unchanged _ _ _ rfl
    exact ⟨s.ports[st].image, by rw [same], fun g => absurd g h⟩

/-- R26, R36, R138: what emptied windows leave of the part. -/
theorem State.emptyWindows_eq (s : State) (st : Station) : ∃ image : DisplayImage,
    s.emptyWindows st = { s with
      ports := modAt s.ports st fun p => { p with image := image },
      channels := modAt s.channels st Channel.emptyWindows,
      runs := modAt s.runs st fun r => if r.state = .active then { r with waitingRoom := false } else r } ∧
    (s.ports[st].state = .present → s.ports[st].converterFault = true → image.weight = .blank ∧ image.price = .blank) := by
  obtain ⟨image, refreshed, shown⟩ := (s.onChannel st (·.emptyWindows)).refresh_eq st
  have fault : s.ports[st].state = .present → s.ports[st].converterFault = true → image.weight = .blank ∧ image.price = .blank :=
    fun present fault => by rw [shown present]; exact State.imageOf_fault fault
  have unfolded : s.emptyWindows st = ((s.onChannel st (·.emptyWindows)).refresh st).examine st := rfl
  rw [unfolded, refreshed, State.examine_of_not_stable (by
    show (modAt s.channels st Channel.emptyWindows)[st].state ≠ .stable
    rw [modAt_same]
    exact Channel.emptyWindows_not_stable _)]
  split
  · next active =>
    obtain ⟨m, waited⟩ := State.stopWaiting_eq
      { s.onChannel st (·.emptyWindows) with ports := modAt s.ports st fun p => { p with image := image } } st
    refine ⟨{ image with message := m }, ?_, fault⟩
    have run : modAt s.runs st (fun r => if r.state = .active then { r with waitingRoom := false } else r)
        = modAt s.runs st fun r => { r with waitingRoom := false } := modAt_congr (if_pos active)
    rw [run]
    refine waited.trans ?_
    rw [modAt_modAt]
    rfl
  · next idle =>
    have run : modAt s.runs st (fun r => if r.state = .active then { r with waitingRoom := false } else r) = s.runs :=
      modAt_unchanged _ _ _ (if_neg idle)
    exact ⟨image, by rw [run]; rfl, fault⟩

/-- Settles O25: emptied windows leave a channel that is not STABLE, so an examination ends a wait for room and no more. -/
theorem headStateWritesTheIndications : Obligations.HeadStateWritesTheIndications := by
  unfold Obligations.HeadStateWritesTheIndications
  refine ⟨Channel.emptyWindows_eq, fun s st => ?_, fun s st condition hp present => ⟨fun same => ?_, fun change => ?_⟩⟩
  · obtain ⟨image, emptied, -⟩ := s.emptyWindows_eq st
    generalize s.emptyWindows st = t at emptied
    have port : t.ports[st] = { s.ports[st] with image := image } := by rw [emptied]; exact modAt_same _ _ _
    refine ⟨by rw [emptied], ?_, by rw [port], by rw [emptied]; exact modAt_same _ _ _, fun x hx => ?_⟩
    · rw [emptied]
    · rw [emptied]
      exact ⟨modAt_other _ _ _ _ hx, modAt_other _ _ _ _ hx⟩
  · have taken : State.takeHeadState st condition s = some (s.onPort st (Port.takeCondition condition)) := by
      unfold State.takeHeadState
      rw [if_pos present]
      exact if_pos same
    rw [exec_headState, State.event_some hp taken]
    rfl
  · have taken : State.takeHeadState st condition s = some ((s.onPort st (Port.takeCondition condition)).emptyWindows st) := by
      unfold State.takeHeadState
      rw [if_pos present]
      exact if_neg change
    obtain ⟨image, emptied, blank⟩ := (s.onPort st (Port.takeCondition condition)).emptyWindows_eq st
    have head := (exec_headState st condition s).trans (State.event_some hp taken)
    obtain ⟨w, hw⟩ : ∃ w, w = (s.onPort st (Port.takeCondition condition)).emptyWindows st := ⟨_, rfl⟩
    rw [← hw] at head emptied
    have taken_port : (s.onPort st (Port.takeCondition condition)).ports[st] = s.ports[st].takeCondition condition :=
      modAt_same _ _ _
    rw [taken_port] at blank
    have port : w.ports[st] = { s.ports[st].takeCondition condition with image := image } := by
      rw [emptied, ← taken_port]; exact modAt_same _ _ _
    have channel : w.channels[st] = s.channels[st].emptyWindows := by rw [emptied]; exact modAt_same _ _ _
    refine ⟨w.finish s, head, ?_, fun fault => ?_, ?_, ?_, fun x hx => ?_, ?_⟩
    · show w.ports[st] = { s.ports[st].takeCondition condition with image := w.ports[st].image }
      rw [port]
    · show w.ports[st].image.weight = _ ∧ w.ports[st].image.price = _
      rw [port]
      exact blank present fault
    · show w.channels[st].outcome = w.channels[st].price
      rw [channel]
      rfl
    · show w.channels[st] = { s.channels[st].emptyWindows with outcome := w.channels[st].outcome }
      rw [channel]
    · show w.ports[x] = _ ∧ w.channels[x] = _ ∧ w.runs[x] = _
      rw [emptied]
      exact ⟨(modAt_other _ _ _ _ hx).trans (modAt_other _ _ _ _ hx), modAt_other _ _ _ _ hx, modAt_other _ _ _ _ hx⟩
    · rw [emptied]
      rfl

/-! ## Examinations and samples (R22, R136) -/

/-- What an examination and a count handed over at a station leave: its port but for the image, and every block but those that a label
job, a weighing and the end of a run reach. -/
structure ExaminationStep (s t : State) (st : Station) : Prop where
  port : t.ports[st] = { s.ports[st] with image := t.ports[st].image }
  parts : t = { s with freeCount := t.freeCount, ports := t.ports, channels := t.channels, price := t.price, labels := t.labels,
                       printers := t.printers, runs := t.runs, totals := t.totals, link := { s.link with flags := t.link.flags } }

/-- Nothing happened. -/
theorem ExaminationStep.same (s : State) (st : Station) : ExaminationStep s s st := ⟨rfl, rfl⟩

/-- One such operation after another. -/
theorem ExaminationStep.trans {s t u : State} {st : Station} (h : ExaminationStep s t st) (g : ExaminationStep t u st) :
    ExaminationStep s u st := by
  refine ⟨?_, ?_⟩
  · rw [g.port, h.port]
  · rw [g.parts, h.parts]

/-- An operation at the station that leaves clerks and tickets. -/
theorem StationStep.examination {s t : State} {st : Station} (h : StationStep s t st) (hv : t.service = s.service) :
    ExaminationStep s t st := by
  have parts := h.parts
  rw [hv] at parts
  refine ⟨h.port, ?_⟩
  have free : t.freeCount = s.freeCount := by rw [parts]
  have labels : t.labels = s.labels := by rw [parts]
  have printers : t.printers = s.printers := by rw [parts]
  rw [free, labels, printers]
  exact parts

/-- R127: a choice of the arbiters changes the label queue, the printers and the free values drawn. -/
theorem State.chooseOnce_eq (s : State) : s.chooseOnce = { s with
    freeCount := s.chooseOnce.freeCount, labels := s.chooseOnce.labels, printers := s.chooseOnce.printers } := by
  obtain ⟨-, drawn, -, order⟩ := s.inOpenOrder_spec printerNumber s.choosers
  unfold State.chooseOnce
  generalize s.inOpenOrder printerNumber s.choosers = x at order
  obtain ⟨t, ps⟩ := x
  subst order
  cases ps with
  | nil => rfl
  | cons p ps =>
    dsimp only
    split <;> rfl

/-- R119, R127: a job taken in reaches the label queue, the printers and the free values drawn. -/
theorem State.takeJob_eq (s : State) (j : Job) : s.takeJob j = { s with
    freeCount := (s.takeJob j).freeCount, labels := (s.takeJob j).labels, printers := (s.takeJob j).printers } := by
  have first := (s.onLabels (·.takeIn j)).chooseOnce_eq
  have second := (s.onLabels (·.takeIn j)).chooseOnce.chooseOnce_eq
  unfold State.takeJob State.arbitrate
  rw [first] at second ⊢
  exact second

/-- What an examination keeps of a channel: the windows, the zero and its tracking, the weight state and the gross last weighed. -/
structure Channel.WeighedAs (c d : Channel) : Prop where
  filter : d.filter = c.filter
  stability : d.stability = c.stability
  config : d.config = c.config
  cal : d.cal = c.cal
  state : d.state = c.state
  zp : d.zp = c.zp
  z : d.z = c.z
  tracking : d.tracking = c.tracking
  gross : d.last.map Weighing.gross = c.last.map Weighing.gross

/-- Nothing happened to the channel. -/
theorem Channel.WeighedAs.same (c : Channel) : c.WeighedAs c := ⟨rfl, rfl, rfl, rfl, rfl, rfl, rfl, rfl, rfl⟩

/-- One such operation after another. -/
theorem Channel.WeighedAs.trans {c d e : Channel} (h : c.WeighedAs d) (g : d.WeighedAs e) : c.WeighedAs e :=
  ⟨g.filter.trans h.filter, g.stability.trans h.stability, g.config.trans h.config, g.cal.trans h.cal, g.state.trans h.state,
    g.zp.trans h.zp, g.z.trans h.z, g.tracking.trans h.tracking, g.gross.trans h.gross⟩

/-- R33, R55: a cleared selection and an adoption keep the weighing and its gross. -/
theorem SelectionCleared.weighedAs {c d : Channel} (h : SelectionCleared c d) : c.WeighedAs d := by
  obtain ⟨fields, recomputed, kept⟩ := h
  have gross : d.last.map Weighing.gross = c.last.map Weighing.gross := by
    cases hl : c.last with
    | none => rw [kept (.inl hl), hl]
    | some w =>
      cases hr : c.cal with
      | none => rw [kept (.inr hr), hl]
      | some r => rw [recomputed w r hl hr]; rfl
  generalize d.last = last at fields gross
  generalize d.pinned = pinned at fields
  subst fields
  exact ⟨rfl, rfl, rfl, rfl, rfl, rfl, rfl, rfl, gross⟩

/-- A channel that differs in its pinned generation alone. -/
theorem Channel.WeighedAs.of_pinned {c d : Channel} {g : Nat} (h : d = { c with pinned := g }) : c.WeighedAs d := by
  subst h
  exact ⟨rfl, rfl, rfl, rfl, rfl, rfl, rfl, rfl, rfl⟩

/-- R140: the end of a run keeps the weighing of its channel. -/
theorem State.endRun_weighedAs (s : State) (st : Station) (reason : EndReason) :
    s.channels[st].WeighedAs (s.endRun st reason).channels[st] := by
  by_cases h : s.channels[st].selection = none
  · obtain ⟨-, -, -, -, -, unselected⟩ := s.endRun_spec st reason
    exact .of_pinned (unselected h).1
  · rcases s.endRun_selected st reason h with same | ⟨cleared, -⟩
    · rw [same]; exact .same _
    · exact cleared.weighedAs

/-- R138: a wait for room that ends. -/
theorem State.stopWaiting_examination (s : State) (st : Station) :
    ExaminationStep s (s.stopWaiting st) st ∧ s.channels[st].WeighedAs (s.stopWaiting st).channels[st] := by
  obtain ⟨step, -, channels, -, -, service, -⟩ := s.stopWaiting_spec st
  refine ⟨step.examination service, ?_⟩
  rw [channels]
  exact .same _

/-- R137: what a trigger leaves. -/
theorem State.trigger_examination (s : State) (st : Station) (v : PluVersion) (price : Nat) :
    ExaminationStep s (s.trigger st v price) st ∧ s.channels[st].WeighedAs (s.trigger st v price).channels[st] := by
  obtain ⟨job, hjob⟩ : ∃ job, job =
    newJob .prepack s.channels[st].config (.prepack (s.runs[st].serial.getD 0)) (s.packContent st v price) := ⟨_, rfl⟩
  obtain ⟨u, hu⟩ : ∃ u, u = ((s.takeJob job).onChannel st fun c => { c with armed := false }).onRun st
    (Run.count s.labels.nextJob s.channels[st].shownWeight price (v.mode == .byWeight)) := ⟨_, rfl⟩
  have triggered : s.trigger st v price =
      if (u.stopWaiting st).runs[st].remaining = 0 then (u.stopWaiting st).endRun st .count else u.stopWaiting st := by
    rw [hu, hjob]; rfl
  have taken := s.takeJob_eq job
  generalize s.takeJob job = j at hu taken
  have jobStep : ExaminationStep s u st := by
    rw [hu, taken]
    exact ⟨rfl, rfl⟩
  have jobChannel : u.channels[st] = { s.channels[st] with armed := false } := by
    rw [hu, taken]
    exact modAt_same _ _ _
  have armed : s.channels[st].WeighedAs u.channels[st] := by
    rw [jobChannel]
    exact ⟨rfl, rfl, rfl, rfl, rfl, rfl, rfl, rfl, rfl⟩
  obtain ⟨waited, roomless⟩ := u.stopWaiting_examination st
  rw [triggered]
  split
  · obtain ⟨ended, -, -, service, -⟩ := (u.stopWaiting st).endRun_spec st .count
    exact ⟨(jobStep.trans waited).trans (ended.examination service),
      (armed.trans roomless).trans ((u.stopWaiting st).endRun_weighedAs st .count)⟩
  · exact ⟨jobStep.trans waited, armed.trans roomless⟩

/-- R136, R138: what an examination leaves. -/
theorem State.examine_examination (s : State) (st : Station) :
    ExaminationStep s (s.examine st) st ∧ s.channels[st].WeighedAs (s.examine st).channels[st] := by
  unfold State.examine
  split
  · split
    · exact s.stopWaiting_examination st
    · split
      · exact s.trigger_examination st _ _
      · refine ⟨ExaminationStep.trans (t := s.onRun st fun r => { r with waitingRoom := true }) ⟨rfl, rfl⟩ ?_, .same _⟩
        exact (StationStep.setImage _ st _).examination rfl
  · exact ⟨.same .., .same _⟩

/-! ## What a sample leaves of a channel (R22) -/

/-- What a weighing may change in the channel. -/
def Channel.ofWeighing (c d : Channel) : Prop :=
  d = { c with state := d.state, zp := d.zp, z := d.z, tracking := d.tracking, selection := d.selection, returnClear := d.returnClear,
               armed := d.armed, last := d.last, outcome := d.outcome }

/-- One weighing step after another. -/
theorem Channel.ofWeighing_trans {c d e : Channel} (h : c.ofWeighing d) (g : d.ofWeighing e) : c.ofWeighing e := by
  unfold Channel.ofWeighing at *
  rw [g, h]

/-- R33: a cleared selection. -/
theorem Channel.clearSelection_ofWeighing (c : Channel) : c.ofWeighing c.clearSelection := by
  have fields := c.clearSelection_eq.1
  unfold Channel.ofWeighing
  generalize c.clearSelection = d at fields
  rw [fields]

/-- R34: the zero return. -/
theorem Channel.zeroReturn_ofWeighing (c : Channel) (r : CalRecord) : c.ofWeighing (c.zeroReturn r) := by
  unfold Channel.zeroReturn
  split
  · rfl
  · split
    · split
      · exact Channel.ofWeighing_trans (d := { c with armed := true }) rfl (Channel.clearSelection_ofWeighing _)
      · rfl
    · rfl

/-- R27: zero tracking. -/
theorem Channel.track_ofWeighing (c : Channel) (r : CalRecord) (a : Int) : c.ofWeighing (c.track r a) := by
  unfold Channel.track
  split
  · split
    · split <;> rfl
    · rfl
  · rfl

/-- R24, R25: a weighing and what follows it. -/
theorem Channel.weighAndFollow_ofWeighing (c : Channel) (r : CalRecord) (a z : Int) (rest : Bool) :
    c.ofWeighing (c.weighAndFollow r a z rest) :=
  Channel.ofWeighing_trans (Channel.ofWeighing_trans (d := c.weigh r a z rest) rfl (Channel.zeroReturn_ofWeighing _ r))
    (Channel.track_ofWeighing _ r a)

/-- R23: the power-up zero tried. -/
theorem Channel.tryZero_ofWeighing (c : Channel) (r : CalRecord) (a : Int) : c.ofWeighing (c.tryZero r a) := by
  unfold Channel.tryZero
  dsimp only
  split
  · refine Channel.ofWeighing_trans ?_ (Channel.weighAndFollow_ofWeighing _ r a _ true)
    rfl
  · rfl

/-- R22: a sample is taken into the windows, and all else of it is a weighing. -/
theorem Channel.sample_ofWeighing (c : Channel) (x : Int) : (c.takeCount x).ofWeighing (c.sample x) := by
  unfold Channel.sample
  dsimp only
  refine Channel.ofWeighing_trans ?_ (d := _) (show Channel.ofWeighing _ (Channel.reprice _) from rfl)
  split
  · rfl
  · split
    · rfl
    · rfl
    · split
      · exact Channel.tryZero_ofWeighing ..
      · rfl
    · split
      · exact Channel.tryZero_ofWeighing ..
      · rfl
    all_goals exact Channel.weighAndFollow_ofWeighing ..

/-- R22, R26: the windows after a sample, at a gap or without one, and what the weighing does not reach. -/
theorem Channel.sample_windows (c : Channel) (gap : Bool) (x : Int) :
    let filter := (if gap then [] else c.filter) ++ [x]
    let filter := filter.drop (filter.length - c.config.filterLength)
    let stability := (if gap then [] else c.stability) ++ [roundDiv filter.sum filter.length]
    let sampled := (if gap then c.emptyWindows else c).sample x
    sampled.filter = filter ∧ sampled.stability = stability.drop (stability.length - c.config.stabilityCount) ∧
    sampled.config = c.config ∧ sampled.cal = c.cal ∧ sampled.pinned = c.pinned := by
  have taken := (if gap then c.emptyWindows else c).sample_ofWeighing x
  intro filter filter' stability sampled
  refine ⟨(congrArg Channel.filter taken).trans ?_, (congrArg Channel.stability taken).trans ?_,
    (congrArg Channel.config taken).trans ?_, (congrArg Channel.cal taken).trans ?_, (congrArg Channel.pinned taken).trans ?_⟩
  all_goals cases gap <;> rfl

/-- R55: the pinned generation after a free channel adopted. -/
theorem State.adoptIfFree_pinned (s : State) (st : Station) : (s.adoptIfFree st).channels[st].pinned =
    if st ∈ s.price.record ∧ s.free st then s.price.generation else s.channels[st].pinned := by
  unfold State.adoptIfFree
  split
  · rw [(s.adopt_spec st).1]
    show (modAt s.channels st _)[st].pinned = _
    rw [modAt_same]
  · rfl

/-- R22 to R25, R34: what a count handed over leaves. -/
theorem State.handCount_spec (s : State) (st : Station) (x : Int) :
    ExaminationStep s (s.handCount st x) st ∧ (s.channels[st].sample x).WeighedAs (s.handCount st x).channels[st] ∧
    (s.runs[st].state ≠ .active → (s.handCount st x).channels[st] = { s.channels[st].sample x with
      pinned := if decide (st ∈ s.price.record) && (s.channels[st].sample x).selection.isNone && !s.runs[st].holds then
        s.price.generation else (s.channels[st].sample x).pinned }) := by
  obtain ⟨u, hu⟩ : ∃ u, u = s.onChannel st (·.sample x) := ⟨_, rfl⟩
  obtain ⟨v, hv⟩ : ∃ v, v = u.adoptIfFree st := ⟨_, rfl⟩
  obtain ⟨w, hw⟩ : ∃ w, w = v.refresh st := ⟨_, rfl⟩
  have handed : s.handCount st x = w.examine st := by rw [hw, hv, hu]; rfl
  have sampled : u.channels[st] = s.channels[st].sample x := by rw [hu]; exact modAt_same _ _ _
  have sampleStep : ExaminationStep s u st := by rw [hu]; exact ⟨rfl, rfl⟩
  obtain ⟨adopts, channel, runs, -, -, service, -⟩ := u.adoptIfFree_spec st
  have pinned := u.adoptIfFree_pinned st
  have free : u.free st = ((s.channels[st].sample x).selection.isNone && !s.runs[st].holds) := by
    unfold State.free
    rw [sampled, hu]
    rfl
  have price : u.price = s.price := by rw [hu]; rfl
  rw [← hv] at adopts channel runs service pinned
  rw [free, price, sampled] at pinned
  obtain ⟨refreshed, -⟩ := v.refresh_spec st
  have refreshStep := StationStep.refresh v st
  rw [← hw] at refreshed refreshStep
  have refreshedChannels : w.channels = v.channels := by rw [refreshed]
  have refreshedRuns : w.runs = s.runs := by rw [refreshed, runs, hu]; rfl
  have refreshedService : w.service = v.service := by rw [refreshed]
  have kept : (s.channels[st].sample x).WeighedAs w.channels[st] := by
    rw [refreshedChannels, ← sampled]
    exact .of_pinned channel
  obtain ⟨examined, weighed⟩ := w.examine_examination st
  rw [handed]
  refine ⟨((sampleStep.trans (adopts.examination service)).trans (refreshStep.examination refreshedService)).trans examined,
    kept.trans weighed, fun idle => ?_⟩
  rw [State.examine_not_active (by rw [refreshedRuns]; exact idle), refreshedChannels, channel, pinned, sampled]
  simp only [Bool.and_assoc, Bool.and_eq_true (decide _), decide_eq_true_eq]

/-- R9: the gap of a sequence number. -/
theorem Port.gap_eq (p : Port) (seq : Byte) : p.gap seq = decide (∃ last, p.lastSeq = some last ∧ seq ≠ last + 1) := by
  unfold Port.gap
  rw [Bool.eq_iff_iff]
  cases p.lastSeq <;> simp

/-- R9, R11: a SAMPLE in PRESENT, with a converter fault and without one. -/
theorem State.takeSample_present {s : State} {st : Station} (h : s.ports[st].state = .present) (raw : BitVec 24) (seq : Byte) :
    let taken := s.onPort st fun p => { p with sampleTimer := true, lastSeq := some seq }
    s.takeSample st raw seq = some (if s.ports[st].converterFault then taken
      else (if s.ports[st].gap seq then taken.emptyWindows st else taken).handCount st raw.toInt) := by
  unfold State.takeSample
  rw [if_pos h]
  split
  · rfl
  · split <;> rfl

/-- R9, R26: what the windows emptied at a gap, and only there, leave of the part. -/
theorem State.emptyWindows_at_gap (s : State) (st : Station) (gap : Bool) :
    let fresh := if gap then s.emptyWindows st else s
    ExaminationStep s fresh st ∧
    fresh.channels[st] = (if gap then s.channels[st].emptyWindows else s.channels[st]) ∧ fresh.price = s.price ∧
    fresh.runs[st].state = s.runs[st].state := by
  cases gap with
  | false => exact ⟨.same .., rfl, rfl, rfl⟩
  | true =>
    obtain ⟨image, emptied, -⟩ := s.emptyWindows_eq st
    show ExaminationStep s (s.emptyWindows st) st ∧ (s.emptyWindows st).channels[st] = s.channels[st].emptyWindows ∧
      (s.emptyWindows st).price = s.price ∧ (s.emptyWindows st).runs[st].state = s.runs[st].state
    generalize s.emptyWindows st = t at emptied
    have port : t.ports[st] = { s.ports[st] with image := image } := by rw [emptied]; exact modAt_same _ _ _
    refine ⟨⟨by rw [port], by rw [emptied]⟩, by rw [emptied]; exact modAt_same _ _ _, by rw [emptied], ?_⟩
    rw [emptied]
    show (modAt s.runs st _)[st].state = _
    rw [modAt_same]
    split <;> rfl

/-- Settles O24: `Channel.sample` takes the windows before it weighs, and an examination leaves windows, zero and gross. -/
theorem sampleJoinsTheWindows : Obligations.SampleJoinsTheWindows := by
  unfold Obligations.SampleJoinsTheWindows
  intro s st raw seq hp present
  have sample := (exec_sample st raw seq s).trans (State.event_some hp (State.takeSample_present present raw seq))
  refine ⟨fun fault => ?_, fun ok => ?_⟩
  · rw [if_pos fault] at sample
    exact sample
  · rw [if_neg (ne_true_of_eq_false ok), Port.gap_eq] at sample
    refine ⟨_, sample, ?_⟩
    intro c gap filter filter' stability
    obtain ⟨taken, htaken⟩ : ∃ taken, taken = s.onPort st fun p => { p with sampleTimer := true, lastSeq := some seq } := ⟨_, rfl⟩
    obtain ⟨emptied, freshChannel, freshPrice, freshRun⟩ := taken.emptyWindows_at_gap st gap
    rw [← htaken]
    obtain ⟨fresh, hfresh⟩ : ∃ fresh, fresh = if gap then taken.emptyWindows st else taken := ⟨_, rfl⟩
    rw [← hfresh] at emptied freshChannel freshPrice freshRun ⊢
    have takenChannel : taken.channels[st] = c := by rw [htaken]; rfl
    have takenPort : taken.ports[st] = { s.ports[st] with sampleTimer := true, lastSeq := some seq } := by
      rw [htaken]; exact modAt_same _ _ _
    have takenRuns : taken.runs = s.runs := by rw [htaken]; rfl
    have takenPrice : taken.price = s.price := by rw [htaken]; rfl
    rw [takenChannel] at freshChannel
    rw [takenRuns] at freshRun
    have holds : fresh.runs[st].holds = s.runs[st].holds := by unfold Run.holds; rw [freshRun]
    obtain ⟨step, weighed, idle⟩ := fresh.handCount_spec st raw.toInt
    rw [freshChannel, freshPrice, takenPrice, freshRun, holds] at idle
    rw [freshChannel] at weighed
    have all := emptied.trans step
    obtain ⟨w, hw⟩ : ∃ w, w = fresh.handCount st raw.toInt := ⟨_, rfl⟩
    rw [← hw] at weighed idle all ⊢
    obtain ⟨windowFilter, windowStability, config, cal, pinned⟩ := c.sample_windows gap raw.toInt
    rw [pinned] at idle
    refine ⟨weighed.filter.trans windowFilter, weighed.stability.trans windowStability, weighed.config.trans config,
      weighed.cal.trans cal, ?_, ⟨weighed.state, weighed.zp, weighed.z, weighed.tracking, weighed.gross, idle⟩, ?_, ?_⟩
    · rw [hw, hfresh]
      rfl
    · show w.ports[st] = _
      rw [all.port, takenPort]
      rfl
    · have parts := all.parts
      rw [htaken] at parts
      exact State.finish_of_eq parts

end Sys2Proof.Machine
end

section
/-! SUPPORT. The KEY frame and the refusals of the keys (R13, R14). -/

namespace Sys2Proof.Machine

/-! ## The key of a code (R13) -/

/-- A KEY frame is the key of its code. -/
theorem exec_key_of_keyOf {st : Station} {code : Byte} {number : BitVec 16} {f : State → Except Message State}
    (h : keyOf st code.toNat number.toNat = some f) (s : State) :
    exec (.key st code number) s = s.event fun s => s.takeKey st f := by
  have act : State.keyAction st code.toNat number.toNat = f := by
    funext u; unfold State.keyAction; rw [h]
  have arm : exec (.key st code number) s = s.event fun s => s.takeKey st (State.keyAction st code.toNat number.toNat) := rfl
  rw [arm, act]

/-- A code outside 1 to 48 and the table of 1.5 has no key. -/
theorem keyOf_unknown {st : Station} {code number : Nat} (h : code = 0 ∨ (48 < code ∧ code < 0x40) ∨ 0x50 < code) :
    keyOf st code number = none := by
  unfold keyOf
  rw [if_neg (by omega)]
  split
  iterate 17 next => omega
  rfl

/-- Settles O29: a KEY frame is the event of the key that `keyOf` gives its code. -/
theorem keyFrameCarriesItsKey : Obligations.KeyFrameCarriesItsKey := by
  unfold Obligations.KeyFrameCarriesItsKey
  intro s st number
  refine ⟨fun k h1 h2 => ?_, fun code c hc => ?_, fun code hc hk => ?_, fun hk => ?_⟩
  · have hn : (BitVec.ofNat 8 k).toNat = k := Nat.mod_eq_of_lt (by omega)
    refine exec_key_of_keyOf ?_ s
    rw [hn]
    exact if_pos ⟨h1, h2⟩
  · simp only [List.mem_cons, Prod.mk.injEq, List.not_mem_nil, or_false] at hc
    rcases hc with h | h | h | h | h | h | h | h | h | h | h | h | h | h | h | h | h <;> obtain ⟨rfl, rfl⟩ := h <;>
      exact exec_key_of_keyOf rfl s
  · have hc : code.toNat = 0 ∨ (48 < code.toNat ∧ code.toNat < 0x40) ∨ 0x50 < code.toNat :=
      hc.imp_left fun h => by rw [h]; rfl
    refine State.takeKey_refused hk ?_
    unfold State.keyAction
    rw [keyOf_unknown hc]
  · rw [exec_key_of_keyOf (f := State.pageKey st) rfl]
    refine State.takeKey_accepted hk ?_
    unfold State.pageKey
    congr 2
    funext c
    cases c.page <;> rfl

/-! ## A refused key (R14) -/

/-- R14: what a refused key changes. -/
theorem State.refuseKey_eq (s : State) (st : Station) (m : Message) : s.refuseKey st m = { s with
    ports := modAt s.ports st fun p => { p with image := { p.image with message := m } },
    headLines := modAt s.headLines st fun l => { l with beepOwed := true } } := by
  have ports : modAt s.ports st (fun p => { p with image := { s.ports[st].image with message := m } })
      = modAt s.ports st fun p => { p with image := { p.image with message := m } } := modAt_congr rfl
  rw [← ports]
  rfl

/-! ## The refusals of the channel's keys (R28, R30, R32, R37, R44) -/

/-- A key refused by the channel is refused. -/
theorem State.keyOnChannel_error {st : Station} {r : Except Message Channel} {m : Message} (h : r = .error m) (s : State) :
    s.keyOnChannel st r = .error m := by
  rw [h]
  rfl

/-- R28: ZERO off rest. -/
theorem Channel.zeroKey_not_stable {c : Channel} (h : c.state ≠ .stable) : c.zeroKey = .error .notStable := if_pos h

/-- R28: ZERO with a tare in force. -/
theorem Channel.zeroKey_under_tare {c : Channel} (h : c.state = .stable) (ht : c.tareInForce ≠ 0) :
    c.zeroKey = .error .keyUnmapped := by
  unfold Channel.zeroKey
  rw [if_neg (not_not.2 h), if_pos ht]

/-- R28: ZERO more than 2% of Max from the centre. -/
theorem Channel.zeroKey_out_of_range {c : Channel} {r : CalRecord} {zp a : Int} (h : c.state = .stable) (ht : c.tareInForce = 0)
    (hr : c.cal = some r) (hz : c.zp = some zp) (ha : c.stability.getLast? = some a)
    (far : r.max * r.span < 50000 * (a - r.zc - zp).natAbs) : c.zeroKey = .error .zeroRange := by
  have outside : withinZeroRange r (a - r.zc) zp = false := decide_eq_false (Nat.not_le.2 far)
  unfold Channel.zeroKey Channel.lastAverage
  rw [if_neg (not_not.2 h), if_neg (not_not.2 ht), hr, hz, ha]
  simp only [outside]
  rfl

/-- R30: TARE off rest. -/
theorem Channel.tareKey_not_stable {c : Channel} (h : c.state ≠ .stable) : c.tareKey = .error .notStable := if_pos h

/-- R30: TARE of a gross that rounds to nothing. -/
theorem Channel.tareKey_not_positive {c : Channel} {r : CalRecord} {w : Weighing} (h : c.state = .stable) (hr : c.cal = some r)
    (hw : c.last = some w) (low : roundDiv w.gross (10 * r.e1) * ((10 * r.e1 : Nat) : Int) ≤ 0) :
    c.tareKey = .error .keyUnmapped := by
  unfold Channel.tareKey
  rw [if_neg (not_not.2 h), hw, hr]
  exact if_pos low

/-- R37: a count without a selection. -/
theorem Channel.countKey_no_selection {c : Channel} (h : c.selection = none) (q : Nat) : c.countKey q = .error .noPlu := by
  unfold Channel.countKey
  rw [h]

/-- R37: a count for a PLU that is not sold by count. -/
theorem Channel.countKey_other_mode {c : Channel} {sel : Selection} (h : c.selection = some sel) (hm : sel.version.mode ≠ .byCount)
    (q : Nat) : c.countKey q = .error .keyUnmapped := by
  unfold Channel.countKey
  rw [h]
  exact if_neg hm

/-- R13: a count out of its range. -/
theorem State.countEntryKey_out_of_range {q : Nat} (h : q < 1 ∨ 999 < q) (st : Station) (s : State) :
    s.countEntryKey st q = .error .keyUnmapped := if_pos h

/-- R37: a count in its range is refused as the channel refuses it. -/
theorem State.countEntryKey_error {q : Nat} {st : Station} {s : State} {m : Message} (h1 : 1 ≤ q) (h2 : q ≤ 999)
    (h : s.channels[st].countKey q = .error m) : s.countEntryKey st q = .error m := by
  unfold State.countEntryKey
  rw [if_neg (by omega)]
  exact State.keyOnChannel_error h s

/-- R32: a PLU that is not in the channel's view. -/
theorem State.selectPlu_not_found {s : State} {st : Station} {n : Nat} (h : s.price.lookup s.channels[st].pinned n = none) :
    s.selectPlu st n = .error .notFound := by
  unfold State.selectPlu
  rw [h]

/-- R13: a PLU number out of its range. -/
theorem State.pluEntryKey_out_of_range {n : Nat} (h : n < 1 ∨ 9999 < n) (st : Station) (s : State) :
    s.pluEntryKey st n = .error .notFound := if_pos h

/-- R32: PLU_ENTRY while a run holds the channel. -/
theorem State.pluEntryKey_run {s : State} {st : Station} {n : Nat} (h1 : 1 ≤ n) (h2 : n ≤ 9999) (h : s.runs[st].holds = true) :
    s.pluEntryKey st n = .error .runActive := by
  unfold State.pluEntryKey
  rw [if_neg (by omega), if_pos h]

/-- R32: PLU_ENTRY of a number in its range on a channel without a run. -/
theorem State.pluEntryKey_select {s : State} {st : Station} {n : Nat} (h1 : 1 ≤ n) (h2 : n ≤ 9999) (h : s.runs[st].holds = false) :
    s.pluEntryKey st n = s.selectPlu st n := by
  unfold State.pluEntryKey
  rw [if_neg (by omega), if_neg (ne_true_of_eq_false h)]

/-- R32: PRESET while a run holds the channel. -/
theorem State.presetKey_run {s : State} {st : Station} (h : s.runs[st].holds = true) (k : Nat) :
    s.presetKey st k = .error .runActive := if_pos h

/-- R44: PRESET of a key that the page of the view does not map. -/
theorem State.presetKey_unmapped {s : State} {st : Station} {k : Nat} (h : s.runs[st].holds = false)
    (hk : (s.price.viewPage (s.price.isPrevious s.channels[st].pinned) st s.channels[st].page).map k = none) :
    s.presetKey st k = .error .keyUnmapped := by
  unfold State.presetKey
  rw [if_neg (ne_true_of_eq_false h)]
  dsimp only
  rw [hk]

/-- R44: PRESET of a key that the page of the view maps to a PLU. -/
theorem State.presetKey_mapped {s : State} {st : Station} {k n : Nat} (h : s.runs[st].holds = false)
    (hk : (s.price.viewPage (s.price.isPrevious s.channels[st].pinned) st s.channels[st].page).map k = some n) :
    s.presetKey st k = s.selectPlu st n := by
  unfold State.presetKey
  rw [if_neg (ne_true_of_eq_false h)]
  dsimp only
  rw [hk]

/-- R37: CLEAR while a run holds the channel. -/
theorem State.clearKey_run {s : State} {st : Station} (h : s.runs[st].holds = true) : s.clearKey st = .error .runActive := if_pos h

/-! ## The refusals of the clerk, basket and ticket keys (R81, R82, R88, R90, R102, R105 to R109) -/

/-- R13: a clerk number out of its range. -/
theorem State.clerkKey_out_of_range {n : Nat} (h : n < 1 ∨ 32 < n) (st : Station) (s : State) :
    s.clerkKey st n = .error .notFound := if_pos h

/-- R81: a clerk who is undefined or disabled. -/
theorem State.clerkKey_unusable {s : State} {n : Nat}
    (h : s.service.clerk n = none ∨ ∃ k, s.service.clerk n = some k ∧ k.enabled = false) (st : Station) :
    s.clerkKey st n = .error .notFound := by
  unfold State.clerkKey
  rcases h with h | ⟨k, h, hk⟩
  · rw [h]; split <;> rfl
  · rw [h]; simp [hk]

/-- R13: a ticket number out of its range. -/
theorem State.recallKey_out_of_range {n : Nat} (h : n < 1 ∨ 99 < n) (st : Station) (s : State) :
    s.recallKey st n = .error .notFound := if_pos h

/-- R90: a ticket number in its range. -/
theorem State.recallKey_in_range {n : Nat} (h1 : 1 ≤ n) (h2 : n ≤ 99) (st : Station) (s : State) :
    s.recallKey st n = s.recallTicketKey st n := if_neg (by omega)

/-- R90: RECALL_TICKET without a clerk. -/
theorem State.recallTicketKey_no_clerk {s : State} {st : Station} (h : s.service.clerkAt st = none) (n : Nat) :
    s.recallTicketKey st n = .error .noClerk := by
  unfold State.recallTicketKey
  rw [h]

/-- R90: a ticket that is not in the recall list. -/
theorem State.recallTicketKey_not_listed {s : State} {st : Station} {n : Nat} (h : s.service.clerkAt st ≠ none)
    (hn : n ∉ s.service.recallList) : s.recallTicketKey st n = .error .notFound := by
  obtain ⟨c, hc⟩ := Option.ne_none_iff_exists'.1 h
  unfold State.recallTicketKey
  rw [hc]
  exact if_neg (by simpa using hn)

/-- R88, R102, R105 to R109: without a clerk nothing at the channel has a basket. -/
theorem State.withBasket_no_clerk {s : State} {st : Station} (h : s.service.clerkAt st = none)
    (f : Clerk → Basket → Except Message State) : s.withBasket st f = .error .noClerk := by
  unfold State.withBasket
  rw [h]

/-- R82, R88, R102, R105 to R109: the keys that ask for a clerk. -/
theorem State.no_clerk_keys {s : State} {st : Station} (h : s.service.clerkAt st = none) :
    s.logoffKey st = .error .noClerk ∧ s.addKey st = .error .noClerk ∧ s.recallBasketKey st = .error .noClerk ∧
    s.nextCustomer st = .error .noClerk := by
  unfold State.logoffKey State.addKey State.recallBasketKey State.nextCustomer
  rw [h]
  exact ⟨rfl, rfl, rfl, rfl⟩

/-- Settles O32: the refusal of each key, found after the message field was set to NONE. -/
theorem keysAreRefusedByTheirRules : Obligations.KeysAreRefusedByTheirRules := by
  unfold Obligations.KeysAreRefusedByTheirRules
  refine ⟨State.refuseKey_eq, fun s st hk => ?_⟩
  have refused : ∀ {f : State → Except Message State} {m : Message}, f (accepted s st) = .error m →
      s.event (fun s => s.takeKey st f) = .next ((s.refuseKey st m).finish s) := State.takeKey_refused hk
  have channels : (accepted s st).channels = s.channels := rfl
  have runs : (accepted s st).runs = s.runs := rfl
  have price : (accepted s st).price = s.price := rfl
  have service : (accepted s st).service = s.service := rfl
  dsimp only
  rw [← channels, ← runs, ← price, ← service]
  generalize accepted s st = u at refused
  refine ⟨fun h => ⟨?_, ?_⟩, fun h ht => ?_, fun r zp a h ht hr hz ha far => ?_, fun r w h hr hw low => ?_, fun number => ?_,
    fun h => ⟨?_, fun k => ?_⟩, fun k h hm => ?_, fun k n h hm hn => ?_, fun number h1 h2 h => ?_,
    fun number h1 h2 => ⟨fun h => ?_, fun h hn => ?_⟩, fun h => ?_⟩
  · exact refused (State.keyOnChannel_error (Channel.zeroKey_not_stable h) _)
  · exact refused (State.keyOnChannel_error (Channel.tareKey_not_stable h) _)
  · exact refused (State.keyOnChannel_error (Channel.zeroKey_under_tare h ht) _)
  · exact refused (State.keyOnChannel_error (Channel.zeroKey_out_of_range h ht hr hz ha far) _)
  · exact refused (State.keyOnChannel_error (Channel.tareKey_not_positive h hr hw low) _)
  · exact ⟨fun h => refused (State.countEntryKey_out_of_range h st _),
      fun h1 h2 h => refused (State.countEntryKey_error h1 h2 (Channel.countKey_no_selection h _)),
      fun sel h1 h2 h hm => refused (State.countEntryKey_error h1 h2 (Channel.countKey_other_mode h hm _)),
      fun h => refused (State.pluEntryKey_out_of_range h st _),
      fun h => refused (State.recallKey_out_of_range h st _),
      fun h => refused (State.clerkKey_out_of_range h st _),
      fun h1 h2 h => refused (State.pluEntryKey_run h1 h2 h),
      fun h1 h2 h hn => refused ((State.pluEntryKey_select h1 h2 h).trans (State.selectPlu_not_found hn))⟩
  · exact refused (State.clearKey_run h)
  · exact refused (State.presetKey_run h k)
  · exact refused (State.presetKey_unmapped h hm)
  · exact refused ((State.presetKey_mapped h hm).trans (State.selectPlu_not_found hn))
  · exact refused (State.clerkKey_unusable h st)
  · exact refused ((State.recallKey_in_range h1 h2 st _).trans (State.recallTicketKey_no_clerk h _))
  · exact refused ((State.recallKey_in_range h1 h2 st _).trans (State.recallTicketKey_not_listed h hn))
  · obtain ⟨logoff, add, recallBasket, next⟩ := State.no_clerk_keys (s := u) h
    have basket := State.withBasket_no_clerk (s := u) h
    exact ⟨refused logoff, refused add, refused (basket _), refused (basket _), refused (basket _), refused recallBasket,
      refused (basket _), refused next⟩

end Sys2Proof.Machine
end

section
/-! SUPPORT. CONFIGURE_PORTS and CONFIGURE_CHANNEL (R8, R38). -/

namespace Sys2Proof.Machine

/-! ## The arguments -/

/-- R8: eight enable values. -/
theorem parsePorts_values {values : List Nat} (hl : values.length = 8) (h : ∀ v ∈ values, v < 256) :
    parsePorts (values.map (BitVec.ofNat 8)) = some values := by
  have read := many_num_one h
  rw [hl] at read
  unfold parsePorts parseAll
  rw [read]

/-- R38: the nine bytes of CONFIGURE_CHANNEL. -/
theorem parseConfig_bytes (channel n m b z t i printer f : Byte) : parseConfig [channel, n, m, b, z, t, i, printer, f] = some
    { channel := channel.toNat, filterLength := n.toNat, stabilityCount := m.toNat, motionBand := b.toNat,
      zeroTracking := z.toNat, tareHold := t.toNat, itemLabels := i.toNat, boundPrinter := printer.toNat,
      fallback := f.toNat } := by
  simp only [parseConfig, parseAll, mapP, both, num_one]

/-- R8: the values of CONFIGURE_PORTS. -/
theorem State.configurePorts_eq (values : List Nat) (s : State) : State.configurePorts values s =
    if ∀ v ∈ values, v ≤ 1 then ((stations.zip values).foldl (fun t x => t.enablePort x.1 (x.2 == 1)) s, [0]) else (s, [3]) := by
  unfold State.configurePorts
  simp only [List.all_eq_true, decide_eq_true_eq]
  rfl

/-- A yes/no value that is neither. -/
theorem boolOf_none {n : Nat} (h : 1 < n) : boolOf n = none := by
  unfold boolOf
  split
  · omega
  · omega
  · rfl

/-- A yes/no value, as its byte. -/
theorem boolOf_flag (b : Bool) : boolOf (if b then 1 else 0 : Byte).toNat = some b := by
  cases b <;> rfl

/-- A channel number that is none. -/
theorem stationOf_none {n : Nat} (h : n = 0 ∨ 8 < n) : stationOf n = none := by
  unfold stationOf
  rw [dif_neg (by omega)]

/-- R38: a yes/no value that is neither gives no configuration. -/
theorem ConfigArgs.config_none {a : ConfigArgs} (h : 1 < a.zeroTracking ∨ 1 < a.tareHold ∨ 1 < a.itemLabels ∨ 1 < a.fallback) :
    a.config = none := by
  unfold ConfigArgs.config
  split
  · next hz ht hi hf =>
    rcases h with h | h | h | h
    · rw [boolOf_none h] at hz; cases hz
    · rw [boolOf_none h] at ht; cases ht
    · rw [boolOf_none h] at hi; cases hi
    · rw [boolOf_none h] at hf; cases hf
  · rfl

/-- R38: yes/no values give a configuration, its numeric fields clamped. -/
theorem ConfigArgs.config_flags (channel n m b printer : Nat) (z t i f : Bool) : ConfigArgs.config
    { channel := channel, filterLength := n, stabilityCount := m, motionBand := b,
      zeroTracking := (if z then 1 else 0 : Byte).toNat, tareHold := (if t then 1 else 0 : Byte).toNat,
      itemLabels := (if i then 1 else 0 : Byte).toNat, boundPrinter := printer, fallback := (if f then 1 else 0 : Byte).toNat } =
    some { filterLength := clampFilter n, stabilityCount := clampTo 5 25 m, motionBand := clampTo 1 6 b, zeroTracking := z,
           tareHold := t, itemLabels := i, boundPrinter := if printer ≤ 1 then 0 else 1, fallback := f } := by
  unfold ConfigArgs.config
  simp only [boolOf_flag]

/-- R38: a channel number that is none, or no configuration. -/
theorem State.configureChannel_bad {a : ConfigArgs} (h : stationOf a.channel = none ∨ a.config = none) (s : State) :
    State.configureChannel a s = (s, [3]) := by
  unfold State.configureChannel
  rcases h with h | h
  · rw [h]; rfl
  · rw [h]; cases stationOf a.channel <;> rfl

/-- R38: the configuration of a channel is written, and the reply says whether a field was clamped. -/
theorem State.configureChannel_good {a : ConfigArgs} {st : Station} {cfg : ChannelConfig} (hs : stationOf a.channel = some st)
    (hc : a.config = some cfg) (s : State) :
    State.configureChannel a s = (s.writeConfig st cfg, [if a.clamped cfg then 1 else 0]) := by
  unfold State.configureChannel
  rw [hs, hc]
  cases h : a.clamped cfg <;> simp [h, u1, leBytes, Status.code]

/-- The byte of a station is its number. -/
theorem stationOf_byte (st : Station) : stationOf (BitVec.ofNat 8 (st.val + 1)).toNat = some st := by
  have number : (BitVec.ofNat 8 (st.val + 1)).toNat = st.val + 1 := Nat.mod_eq_of_lt (by omega)
  rw [number, stationOf_number]

/-! ## One port acts on its enable value (R8) -/

/-- R8: a port in OFF stays there, or goes to WAITING. -/
theorem State.enablePort_off {s : State} {st : Station} (h : s.ports[st].state = .off) : s.enablePort st false = s ∧
    s.enablePort st true = s.onPort st fun p => { p with state := .waiting, serial := none } := by
  unfold State.enablePort
  rw [h]
  exact ⟨rfl, rfl⟩

/-- R8: an enabled port that is not in OFF. -/
theorem State.enablePort_enabled {s : State} {st : Station} (h : s.ports[st].state ≠ .off) : s.enablePort st true = s := by
  unfold State.enablePort
  cases g : s.ports[st].state with
  | off => exact absurd g h
  | waiting => rfl
  | present => rfl
  | lost => rfl

/-- R8: a port that is disabled in WAITING or LOST. -/
theorem State.enablePort_absent {s : State} {st : Station} (h : s.ports[st].state = .waiting ∨ s.ports[st].state = .lost) :
    s.enablePort st false = { s with
      ports := modAt s.ports st fun p => { p with state := .off },
      headLines := modAt s.headLines st fun l => { l with owedAccepts := [], displayOwed := false, beepOwed := false } } := by
  have silent : modAt s.headLines st (fun l => { l with owedAccepts := [], displayOwed := false, beepOwed := false })
      = modAt s.headLines st (·.silence false) := modAt_congr (by unfold HeadLine.silence; rw [Bool.or_false])
  rw [silent]
  unfold State.enablePort
  rcases h with h | h <;> rw [h] <;> rfl

/-- R8: a port that is disabled in PRESENT leaves it and falls silent. -/
theorem State.enablePort_present {s : State} {st : Station} (h : s.ports[st].state = .present) :
    s.enablePort st false = (s.leavePresent st .off).onHeadLine st (·.silence true) := by
  unfold State.enablePort
  rw [h]

/-- R8, R7: a port that is disabled in PRESENT. -/
theorem State.enablePort_departure {s : State} {st : Station} (h : s.ports[st].state = .present) :
    let t := s.enablePort st false
    t.ports[st] = { state := .off, serial := s.ports[st].serial, model := s.ports[st].model, lastSeq := none, switch := .unknown,
                    converterFault := false, keypadFault := false, image := .initial, sampleTimer := false,
                    stateTimer := false } ∧
    t.channels[st] = { s.channels[st] with
      state := .absent, filter := [], stability := [], zp := none, z := none, last := none, tracking := 0, keyedTare := none,
      selection := none, returnClear := false, armed := false, outcome := .noSelection, pinned := t.channels[st].pinned } ∧
    t.runs[st].state ≠ .active ∧ RunEnded s t st .headLost ∧ AdoptedIfFree s t st ∧ t.service.clerks = loggedOff s.service st ∧
    (t.link.flags[(Flag.headLost st).entry]).pending = true ∧
    (∀ c, s.service.clerkAt st = some c → ∀ x ∈ t.service.clerks, x.number = c.number → x.channel = none) ∧
    (∀ x : Station, x ≠ st → t.ports[x] = s.ports[x] ∧ t.headLines[x] = s.headLines[x] ∧ t.channels[x] = s.channels[x] ∧
      t.runs[x] = s.runs[x]) ∧
    t = { s with ports := t.ports, headLines := t.headLines, channels := t.channels, price := t.price,
                 service := { s.service with clerks := t.service.clerks }, runs := t.runs, totals := t.totals,
                 link := { s.link with flags := t.link.flags } } := by
  rw [State.enablePort_present h]
  obtain ⟨port, channel, ended, run, adopted, service, lost, -, others, lines, parts⟩ := s.leavePresent_spec st .off nofun
  generalize s.leavePresent st .off = u at *
  rw [service] at parts
  refine ⟨port, channel, ended, run.congr rfl rfl rfl rfl rfl fun _ => id, adopted.congr rfl rfl rfl fun _ => id, ?_, lost, ?_, ?_, ?_⟩
  · show u.service.clerks = _
    rw [service]
  · intro c hc x hx
    have hx : x ∈ u.service.clerks := hx
    rw [service] at hx
    exact loggedOff_none hc hx
  · intro x hx
    obtain ⟨a, b, c⟩ := others x hx
    refine ⟨a, ?_, b, c⟩
    show (modAt u.headLines st _)[x] = _
    rw [modAt_other _ _ _ _ hx, lines, modAt_other _ _ _ _ hx]
  · show u.onHeadLine st _ = { s with
      ports := u.ports, headLines := modAt u.headLines st _, channels := u.channels, price := u.price,
      service := { s.service with clerks := u.service.clerks }, runs := u.runs, totals := u.totals,
      link := { s.link with flags := u.link.flags } }
    rw [service]
    unfold State.onHeadLine
    generalize modAt u.headLines st _ = l
    conv_lhs => rw [parts]

/-- R8: a disabled port is OFF and owes nothing but the final DISPLAY. -/
theorem State.enablePort_disabled {s : State} {st : Station} (h : s.ports[st].state ≠ .off) :
    (s.enablePort st false).ports[st].state = .off ∧ (s.enablePort st false).headLines[st].owedAccepts = [] ∧
    (s.enablePort st false).headLines[st].displayOwed = false ∧ (s.enablePort st false).headLines[st].beepOwed = false ∧
    (s.ports[st].state = .present → (s.enablePort st false).headLines[st].finalOwed = true) := by
  by_cases present : s.ports[st].state = .present
  · obtain ⟨port, -⟩ := s.leavePresent_spec st .off nofun
    rw [State.enablePort_present present]
    have line : ((s.leavePresent st .off).onHeadLine st (·.silence true)).headLines[st]
        = (s.leavePresent st .off).headLines[st].silence true := modAt_same _ _ _
    rw [line]
    refine ⟨?_, rfl, rfl, rfl, fun _ => Bool.or_true _⟩
    show (s.leavePresent st .off).ports[st].state = .off
    rw [port]
  · have absent : s.ports[st].state = .waiting ∨ s.ports[st].state = .lost := by
      cases g : s.ports[st].state with
      | off => exact absurd g h
      | waiting => exact .inl rfl
      | present => exact absurd g present
      | lost => exact .inr rfl
    rw [State.enablePort_absent absent]
    have line : (modAt s.headLines st fun l => { l with owedAccepts := [], displayOwed := false, beepOwed := false })[st]
        = { s.headLines[st] with owedAccepts := [], displayOwed := false, beepOwed := false } := modAt_same _ _ _
    dsimp only
    rw [line, modAt_same]
    exact ⟨rfl, rfl, rfl, rfl, fun g => absurd g present⟩

/-- CONFIGURE_PORTS and CONFIGURE_CHANNEL are requests with arguments (R8, R38). -/
theorem exec_configure (s : State) :
    exec .configurePorts s = s.request 0x10 (withArgs parsePorts State.configurePorts) ∧
    exec .configureChannel s = s.request 0x11 (withArgs parseConfig State.configureChannel) := ⟨rfl, rfl⟩

/-- Settles O33: the payloads read, one port on its enable value, and the configuration written. -/
theorem portsAndChannelsAreConfigured : Obligations.PortsAndChannelsAreConfigured := by
  unfold Obligations.PortsAndChannelsAreConfigured
  refine ⟨fun s values hl hv he => ?_, fun s st => ?_, fun s channel n m b z t i printer f he bad => ?_,
    fun s st n m b printer z t i f he => ?_⟩
  · rw [(exec_configure s).1, State.request_args he (parsePorts_values hl hv), State.configurePorts_eq]
    refine ⟨fun h => by rw [if_pos h], fun ⟨v, hm, hlt⟩ => ?_⟩
    rw [if_neg fun h => absurd (h v hm) (by omega)]
  · exact ⟨State.enablePort_off, State.enablePort_enabled, State.enablePort_disabled, State.enablePort_absent,
      State.enablePort_departure⟩
  · rw [(exec_configure s).2, State.request_args he (parseConfig_bytes ..), State.configureChannel_bad]
    rcases bad with h | h | h
    · exact .inl (stationOf_none (.inl (by rw [h]; rfl)))
    · exact .inl (stationOf_none (.inr h))
    · exact .inr (ConfigArgs.config_none h)
  · intro cfg clamped written
    have config := ConfigArgs.config_flags (BitVec.ofNat 8 (st.val + 1)).toNat n.toNat m.toNat b.toNat printer.toNat z t i f
    rw [(exec_configure s).2, State.request_args he (parseConfig_bytes ..), State.configureChannel_good (stationOf_byte st) config]
    rfl

end Sys2Proof.Machine
end

section
/-! SUPPORT. The roundings of weighing and of prices (2.3, R65, R67, R68). -/

namespace Sys2Proof.Machine

/-- A quotient by twice the divisor, with the divisor added first, is rounded to the nearest, a half going up. -/
theorem nearest_quotient (n : Nat) {d : Nat} (hd : 0 < d) :
    2 * ((2 * n + d) / (2 * d)) * d ≤ 2 * n + d ∧ 2 * n + d < 2 * ((2 * n + d) / (2 * d) + 1) * d := by
  have rearrange : ∀ q : Nat, 2 * q * d = 2 * d * q := fun q => by ring
  rw [rearrange, rearrange]
  exact ⟨Nat.mul_div_le _ _, Nat.lt_mul_div_succ _ (by omega)⟩

/-- 2.3: rounding acts on the magnitude and keeps the sign. -/
theorem roundDiv_natAbs (n : Int) (d : Nat) :
    (roundDiv n d).natAbs = (2 * n.natAbs + d) / (2 * d) ∧ (0 ≤ n → 0 ≤ roundDiv n d) ∧ (n < 0 → roundDiv n d ≤ 0) := by
  unfold roundDiv
  split
  · next h =>
    have magnitude : n.toNat = n.natAbs := by omega
    rw [magnitude]
    exact ⟨Int.natAbs_natCast _, fun _ => Int.natCast_nonneg _, fun g => absurd h (by omega)⟩
  · next h =>
    refine ⟨?_, fun g => absurd g h, fun _ => ?_⟩
    · rw [Int.natAbs_neg, Int.natAbs_natCast]
    · exact Int.neg_nonpos_of_nonneg (Int.natCast_nonneg _)

/-- 2.3: zero over anything. -/
theorem roundDiv_zero (d : Nat) : roundDiv 0 d = 0 := by
  have magnitude := (roundDiv_natAbs 0 d).1
  rcases Nat.eq_zero_or_pos d with h | h
  · rw [h] at magnitude ⊢
    exact Int.natAbs_eq_zero.1 magnitude
  · have quotient : (2 * (0 : Int).natAbs + d) / (2 * d) = 0 := Nat.div_eq_of_lt (by simp; omega)
    exact Int.natAbs_eq_zero.1 (magnitude.trans quotient)

/-- R67: no markdown up to 90 percent exceeds its base. -/
theorem markdownAmount_le {m : Nat} (h : m ≤ 90) (base : Nat) : markdownAmount base m ≤ base := by
  have product : base * m ≤ base * 90 := Nat.mul_le_mul_left base h
  unfold markdownAmount
  omega

/-- R68: the price is a multiple of the step nearest to what it is rounded from. -/
theorem stepPrice_nearest (pre : Nat) {s : Nat} (h : 0 < s) :
    s ∣ stepPrice pre s ∧ 2 * stepPrice pre s ≤ 2 * pre + s ∧ 2 * pre + s < 2 * stepPrice pre s + 2 * s := by
  obtain ⟨below, above⟩ := nearest_quotient pre h
  unfold stepPrice
  generalize (2 * pre + s) / (2 * s) = q at *
  have assoc : 2 * q * s = 2 * (q * s) := by ring
  have next : 2 * (q + 1) * s = 2 * (q * s) + 2 * s := by ring
  exact ⟨Nat.dvd_mul_left s q, assoc ▸ below, next ▸ above⟩

/-- Settles O27: every rounding is a quotient by twice the divisor. -/
theorem roundingsAreToTheNearest : Obligations.RoundingsAreToTheNearest := by
  unfold Obligations.RoundingsAreToTheNearest
  refine ⟨fun n d hd => ?_, fun w p => ?_, fun base m => ⟨?_, ?_, fun h => markdownAmount_le h base⟩, fun pre s hs => ?_⟩
  · obtain ⟨magnitude, nonneg, nonpos⟩ := roundDiv_natAbs n d
    obtain ⟨below, above⟩ := nearest_quotient n.natAbs hd
    rw [magnitude]
    refine ⟨below, above, nonneg, fun h => ?_⟩
    rcases Int.lt_or_eq_of_le h with h | h
    · exact nonpos h
    · rw [h, roundDiv_zero]
  · unfold basePriceByWeight
    generalize w * p = product
    omega
  · unfold markdownAmount
    omega
  · unfold markdownAmount
    omega
  · exact stepPrice_nearest pre (by omega)

end Sys2Proof.Machine
end

section
/-! SUPPORT. The keys that select a PLU, and what a channel's view holds (R32, R44, R45). -/

namespace Sys2Proof.Machine

/-! ## The selection -/

/-- R32: a PLU in the view is selected. -/
theorem State.selectPlu_found {s : State} {st : Station} {n : Nat} {v : PluVersion}
    (h : s.price.lookup s.channels[st].pinned n = some v) :
    s.selectPlu st n = .ok ((s.onChannel st (·.select v)).decided st) := by
  unfold State.selectPlu
  rw [h]

/-- R18: a run that neither is ACTIVE nor waits in ENDING leaves its channel to the keys. -/
theorem Run.not_holds {r : Run} (active : r.state ≠ .active) (ending : r.state ≠ .ending) : r.holds = false := by
  unfold Run.holds
  simp only [Bool.or_eq_false_iff, beq_eq_false_iff_ne]
  exact ⟨active, ending⟩

/-! ## The key pages (R44, R45) -/

/-- R44: the one override of a key. -/
theorem find_override : ∀ {overrides : List (Nat × Nat)} {k n : Nat}, (k, n) ∈ overrides → (overrides.map Prod.fst).Nodup →
    overrides.find? (fun o => o.1 == k) = some (k, n)
  | [], _, _, h, _ => absurd h List.not_mem_nil
  | (i, m) :: rest, k, n, h, distinct => by
    rw [List.map_cons, List.nodup_cons] at distinct
    obtain ⟨fresh, distinct⟩ := distinct
    rcases List.mem_cons.1 h with e | later
    · rw [← e]
      exact List.find?_cons_of_pos (beq_self_eq_true k)
    · have other : i ≠ k := fun e => fresh (e ▸ List.mem_map_of_mem (f := Prod.fst) (a := (k, n)) later)
      rw [List.find?_cons_of_neg (by simpa using other)]
      exact find_override later distinct

/-- R44: an override names its key's PLU. -/
theorem KeyPage.map_override {p : KeyPage} {k n : Nat} (h : (k, n) ∈ p.overrides) (distinct : (p.overrides.map Prod.fst).Nodup) :
    p.map k = some n := by
  unfold KeyPage.map
  rw [find_override h distinct]

/-- R44: a key without an override is mapped by the window. -/
theorem KeyPage.map_window {p : KeyPage} {k : Nat} (h : ∀ o ∈ p.overrides, o.1 ≠ k) : p.map k =
    match p.window with
    | none => none
    | some w => if w.first ≤ k ∧ k < w.first + w.count ∧ w.base + (k - w.first) ≤ 9999 then some (w.base + (k - w.first)) else none := by
  have unnamed : p.overrides.find? (fun o => o.1 == k) = none :=
    List.find?_eq_none.2 fun o ho => by simpa using h o ho
  unfold KeyPage.map
  rw [unnamed] <;> rfl

/-- R45: a channel pinned to G. -/
theorem PriceTable.isPrevious_generation (t : PriceTable) : t.isPrevious t.generation = false := bne_self_eq_false' ..

/-- R45: a channel pinned to the generation before G. -/
theorem PriceTable.isPrevious_other {t : PriceTable} {pinned : Nat} (h : pinned ≠ t.generation) : t.isPrevious pinned = true :=
  bne_iff_ne.2 h

/-- R53: a retained entry holds the content of a page when it is an entry of that page. -/
theorem Retained.pageOf_eq_some {r : Retained} {st : Station} {name : PageName} {p : KeyPage} :
    r.pageOf st name = some p ↔ r = .page st name p := by
  cases r with
  | plu number previous => exact ⟨nofun, nofun⟩
  | page st' name' previous =>
    simp only [Retained.pageOf, Retained.page.injEq, Option.ite_none_right_eq_some, Option.some.injEq, and_assoc]

/-- R53: no entry of the list is one of this page. -/
theorem Retained.pageOf_none {rs : List Retained} {st : Station} {name : PageName} (h : ∀ p, Retained.page st name p ∉ rs) :
    rs.findSome? (Retained.pageOf st name) = none := by
  refine List.findSome?_eq_none_iff.2 fun r hr => ?_
  cases content : r.pageOf st name with
  | none => rfl
  | some p => exact absurd (Retained.pageOf_eq_some.1 content ▸ hr) (h p)

/-- R45: a page that nothing replaced is seen as it stands at G. -/
theorem PriceTable.viewPage_kept {t : PriceTable} {st : Station} {name : PageName} (h : ∀ p, Retained.page st name p ∉ t.retained) :
    t.viewPage true st name = t.pageAt st name := by
  unfold PriceTable.viewPage
  rw [if_pos rfl, Retained.pageOf_none h]
  rfl

/-- R45: a page that was replaced is seen as its first retained entry holds it. -/
theorem PriceTable.viewPage_retained {t : PriceTable} {st : Station} {name : PageName} {before after : List Retained} {p : KeyPage}
    (ht : t.retained = before ++ .page st name p :: after) (h : ∀ q, Retained.page st name q ∉ before) :
    t.viewPage true st name = p := by
  have own : (Retained.page st name p).pageOf st name = some p := Retained.pageOf_eq_some.2 rfl
  unfold PriceTable.viewPage
  rw [if_pos rfl, ht, List.findSome?_append, Retained.pageOf_none h, List.findSome?_cons, own]
  rfl

/-! ## The versions of a view (R45) -/

/-- R53: a retained entry of a version. -/
theorem Retained.version_eq_some {r : Retained} {v : PluVersion} : r.version = some v ↔ ∃ m, r = .plu m (some v) := by
  cases r with
  | plu m previous =>
    refine ⟨fun h => ⟨m, congrArg (Retained.plu m) h⟩, fun ⟨_, h⟩ => ?_⟩
    cases h
    rfl
  | page st name previous => exact ⟨nofun, nofun⟩

/-- R53: a retained entry concerns a PLU number when it is an entry of that PLU. -/
theorem Retained.number_eq_some {r : Retained} {n : Nat} : r.number = some n ↔ ∃ p, r = .plu n p := by
  cases r with
  | plu m previous =>
    refine ⟨fun h => ⟨previous, ?_⟩, fun ⟨_, h⟩ => ?_⟩
    · cases h
      rfl
    · cases h
      rfl
  | page st name previous => exact ⟨nofun, nofun⟩

/-- R45: a version is looked up among those at G that nothing replaced, then among the retained ones. -/
theorem PriceTable.lookup_previous {t : PriceTable} {pinned : Nat} (h : pinned ≠ t.generation) (n : Nat) : t.lookup pinned n =
    ((t.versions.filter fun v => !(t.retained.any fun r => r.number == some v.number)).find? fun v => v.number == n).or
      ((t.retained.filterMap Retained.version).find? fun v => v.number == n) := by
  unfold PriceTable.lookup PriceTable.view
  rw [PriceTable.isPrevious_other h, if_pos rfl, List.find?_append]

/-- R45: a PLU that nothing replaced is seen as it stands at G. -/
theorem PriceTable.lookup_kept {t : PriceTable} {pinned n : Nat} (h : pinned ≠ t.generation)
    (kept : ∀ p, Retained.plu n p ∉ t.retained) (own : ∀ m v, Retained.plu m (some v) ∈ t.retained → v.number = m) :
    t.lookup pinned n = t.versions.find? fun v => v.number == n := by
  have retained : (t.retained.filterMap Retained.version).find? (fun v => v.number == n) = none := by
    refine List.find?_eq_none.2 fun v hv same => ?_
    obtain ⟨r, hr, version⟩ := List.mem_filterMap.1 hv
    obtain ⟨m, rfl⟩ := Retained.version_eq_some.1 version
    have number : m = n := (own m v hr).symm.trans (by simpa using same)
    exact kept _ (number ▸ hr)
  have unreplaced : t.retained.any (fun r => r.number == some n) = false := by
    refine List.any_eq_false.2 fun r hr same => ?_
    obtain ⟨p, rfl⟩ := Retained.number_eq_some.1 (by simpa using same)
    exact kept p hr
  rw [PriceTable.lookup_previous h, retained, Option.or_none, List.find?_filter]
  congr 1
  funext v
  by_cases number : v.number = n
  · simp [number, unreplaced]
  · simp [number]

/-- R45: a PLU that was replaced is seen as its retained entry holds it. -/
theorem PriceTable.lookup_retained {t : PriceTable} {pinned n : Nat} {previous : Option PluVersion} (h : pinned ≠ t.generation)
    (held : Retained.plu n previous ∈ t.retained) (only : ∀ p, Retained.plu n p ∈ t.retained → p = previous)
    (own : ∀ m v, Retained.plu m (some v) ∈ t.retained → v.number = m) : t.lookup pinned n = previous := by
  have replaced : (t.versions.filter fun v => !(t.retained.any fun r => r.number == some v.number)).find?
      (fun v => v.number == n) = none := by
    refine List.find?_eq_none.2 fun v hv same => ?_
    have number : v.number = n := by simpa using same
    have unreplaced := (List.mem_filter.1 hv).2
    rw [number, Bool.not_eq_true', List.any_eq_false] at unreplaced
    exact unreplaced _ held (by simp [Retained.number])
  rw [PriceTable.lookup_previous h, replaced, Option.none_or]
  cases found : (t.retained.filterMap Retained.version).find? (fun v => v.number == n) with
  | some v =>
    obtain ⟨r, hr, version⟩ := List.mem_filterMap.1 (List.mem_of_find?_eq_some found)
    obtain ⟨m, rfl⟩ := Retained.version_eq_some.1 version
    have number : m = n := (own m v hr).symm.trans (by simpa using List.find?_some found)
    exact only _ (number ▸ hr)
  | none =>
    cases previous with
    | none => rfl
    | some v =>
      have listed : v ∈ t.retained.filterMap Retained.version := List.mem_filterMap.2 ⟨_, held, rfl⟩
      exact absurd (by simpa using own n v held) (List.find?_eq_none.1 found v listed)

/-- Settles O31: the two keys end in `selectPlu`; a view is looked up in its two parts. -/
theorem pluKeysSelectFromTheView : Obligations.PluKeysSelectFromTheView := by
  unfold Obligations.PluKeysSelectFromTheView
  refine ⟨fun s st v hk active ending => ?_, fun p k n => KeyPage.map_override, fun p k => KeyPage.map_window,
    fun t st => ⟨rfl, rfl⟩, fun t st name => ?_, fun t pinned st name h => ?_, fun t n => ?_,
    fun t pinned n h => ⟨PriceTable.lookup_kept h, fun previous => PriceTable.lookup_retained h⟩⟩
  · have free : (accepted s st).runs[st].holds = false := Run.not_holds active ending
    have selected : ∀ n, s.price.lookup s.channels[st].pinned n = some v →
        (accepted s st).selectPlu st n = .ok (((accepted s st).onChannel st (·.select v)).decided st) := fun n found =>
      State.selectPlu_found (s := accepted s st) found
    refine ⟨fun k n mapped found => ?_, fun number h1 h2 found => ?_⟩
    · exact State.takeKey_accepted hk ((State.presetKey_mapped free mapped).trans (selected n found))
    · exact State.takeKey_accepted hk ((State.pluEntryKey_select h1 h2 free).trans (selected _ found))
  · rw [PriceTable.isPrevious_generation]
    rfl
  · rw [PriceTable.isPrevious_other h]
    exact ⟨PriceTable.viewPage_kept, fun before p after => PriceTable.viewPage_retained⟩
  · unfold PriceTable.lookup PriceTable.view
    rw [PriceTable.isPrevious_generation]
    rfl

end Sys2Proof.Machine
end

section
/-! SUPPORT. The keys of the channel when they are accepted (R25, R28, R30, R31, R33, R37). -/

namespace Sys2Proof.Machine

/-! ## The weighing under a tare -/

/-- R24: net, division and displayed weight of a gross under a tare. -/
theorem weighing_fields (r : CalRecord) (gross : Int) (tare : Nat) :
    (weighing r gross tare).gross = gross ∧ (weighing r gross tare).net = gross - (tare : Int) ∧
    (weighing r gross tare).division =
      (if r.rangeMode = 1 ∧ ((10 * r.max1 : Nat) : Int) < gross - (tare : Int) then r.e2 else r.e1) ∧
    (weighing r gross tare).weight =
      roundDiv (gross - (tare : Int)) (10 * (weighing r gross tare).division) * ((weighing r gross tare).division : Int) := by
  have limit : r.max1 * 10 = 10 * r.max1 := Nat.mul_comm ..
  refine ⟨rfl, rfl, ?_, rfl⟩
  unfold weighing CalRecord.dual
  simp only [beq_iff_eq, limit]

/-- R28: nothing on the platter under no tare. -/
theorem weighing_zero (r : CalRecord) : weighing r 0 0 = { gross := 0, net := 0, division := r.e1, weight := 0 } := by
  have lower : ¬(r.dual = true ∧ ((r.max1 * 10 : Nat) : Int) < 0 - ((0 : Nat) : Int)) := fun h => absurd h.2 (by omega)
  have net : (0 : Int) - ((0 : Nat) : Int) = 0 := rfl
  unfold weighing
  dsimp only
  rw [if_neg lower, net, roundDiv_zero, Int.zero_mul]

/-- R25: the last weighing under the tare now in force. -/
theorem Channel.retare_some {c : Channel} {w : Weighing} {r : CalRecord} (hw : c.last = some w) (hr : c.cal = some r) :
    c.retare = { c with last := some (weighing r w.gross c.tareInForce) } := by
  unfold Channel.retare
  rw [hw, hr]

/-- R25: without a last weighing, or without a record, nothing is recomputed. -/
theorem Channel.retare_none {c : Channel} (h : c.last = none ∨ c.cal = none) : c.retare = c := by
  unfold Channel.retare
  split
  · next hw hr =>
    rcases h with h | h
    · rw [h] at hw; cases hw
    · rw [h] at hr; cases hr
  · rfl

/-- R29: a keyed tare is the tare in force. -/
theorem Channel.tareInForce_keyed {c : Channel} {t : Nat} (h : c.keyedTare = some t) : c.tareInForce = t := by
  unfold Channel.tareInForce
  rw [h]

/-- R31: with no keyed tare and a preset tare of 0, no tare is in force. -/
theorem Channel.tareInForce_cleared {c : Channel} (h : c.keyedTare = none) (preset : ∀ sel, c.selection = some sel → sel.presetTare = 0) :
    c.tareInForce = 0 := by
  unfold Channel.tareInForce
  rw [h]
  cases selected : c.selection with
  | none => rfl
  | some sel => simp [preset sel selected]

/-! ## The keys -/

/-- R28: ZERO within 2% of Max around zp. -/
theorem Channel.zeroKey_accepted {c : Channel} {r : CalRecord} {zp a : Int} (stable : c.state = .stable) (ht : c.tareInForce = 0)
    (hr : c.cal = some r) (hz : c.zp = some zp) (ha : c.stability.getLast? = some a)
    (near : 50000 * (a - r.zc - zp).natAbs ≤ r.max * r.span) :
    c.zeroKey = .ok (Channel.reprice { c with
      z := some (a - r.zc), tracking := 0, last := some { gross := 0, net := 0, division := r.e1, weight := 0 } }) := by
  have newest : c.lastAverage = some a := ha
  have within : withinZeroRange r (a - r.zc) zp = true := decide_eq_true near
  have gross : grossOf r a (a - r.zc) = 0 := by
    unfold grossOf
    rw [Int.sub_self, Int.zero_mul, roundDiv_zero]
  unfold Channel.zeroKey
  rw [if_neg (not_not_intro stable), if_neg (not_not_intro ht), hr, hz, newest]
  dsimp only
  rw [if_pos within, ht, gross, weighing_zero]

/-- R30: TARE of a gross that rounds to a positive tare. -/
theorem Channel.tareKey_accepted {c : Channel} {r : CalRecord} {w : Weighing} {t : Nat} (stable : c.state = .stable)
    (hr : c.cal = some r) (hw : c.last = some w) (tare : (t : Int) = roundDiv w.gross (10 * r.e1) * ((10 * r.e1 : Nat) : Int))
    (positive : 0 < t) :
    c.tareKey = .ok (Channel.reprice { c with keyedTare := some t, last := some (weighing r w.gross t) }) := by
  have keyed : Channel.tareInForce { c with keyedTare := some t } = t := Channel.tareInForce_keyed rfl
  have retared := Channel.retare_some (c := { c with keyedTare := some t }) hw hr
  rw [keyed] at retared
  have key : c.tareKey = .ok (Channel.reprice (Channel.retare { c with keyedTare := some t })) := by
    unfold Channel.tareKey
    rw [if_neg (not_not_intro stable)]
    split
    · next w' r' hw' hr' =>
      cases hw.symm.trans hw'
      cases hr.symm.trans hr'
      rw [← tare, if_neg (by omega), Int.toNat_natCast]
    · next none => exact absurd hr (none w r hw)
  rw [key, retared]

/-- R31: the last weighing after the tares are cleared. -/
theorem Channel.clearTare_some {c : Channel} {r : CalRecord} {w : Weighing} (hr : c.cal = some r) (hw : c.last = some w) :
    c.clearTare = Channel.reprice { c with
      keyedTare := none, selection := c.selection.map fun x => { x with presetTare := 0 }, last := some (weighing r w.gross 0) } := by
  have tare : Channel.tareInForce { c with
      keyedTare := none, selection := c.selection.map fun x => { x with presetTare := 0 } } = 0 := by
    refine Channel.tareInForce_cleared rfl fun sel h => ?_
    obtain ⟨x, -, rfl⟩ := Option.map_eq_some_iff.1 h
    rfl
  have retared := Channel.retare_some
    (c := { c with keyedTare := none, selection := c.selection.map fun x => { x with presetTare := 0 } }) hw hr
  rw [tare] at retared
  exact congrArg Channel.reprice retared

/-- R37: COUNT_ENTRY on a BY_COUNT selection. -/
theorem Channel.countKey_accepted {c : Channel} {sel : Selection} (h : c.selection = some sel) (hm : sel.version.mode = .byCount)
    (q : Nat) :
    c.countKey q = .ok (Channel.reprice (Channel.retare { c with selection := some { sel with count := some q } })) := by
  unfold Channel.countKey
  rw [h]
  exact if_pos hm

/-- R25: an accepted key of the channel: its effect on the channel, and what follows. -/
theorem State.keyOnChannel_ok {s : State} {st : Station} {r : Except Message Channel} {f : Channel → Channel}
    (h : r = .ok (f s.channels[st])) : s.keyOnChannel st r = .ok ((s.onChannel st f).decided st) := by
  rw [h]
  rfl

/-- R37: COUNT_ENTRY of a count in its range. -/
theorem State.countEntryKey_in_range {q : Nat} (h1 : 1 ≤ q) (h2 : q ≤ 999) (st : Station) (s : State) :
    s.countEntryKey st q = s.keyOnChannel st (s.channels[st].countKey q) := if_neg (by omega)

/-- R142: only a run in DONE_HELD is released. -/
theorem Run.release_idle {r : Run} (h : r.state = .idle) : r.release = r := if_neg (by rw [h]; nofun)

/-- R37: CLEAR of a channel that no run holds. -/
theorem State.clearKey_accepted {s : State} {st : Station} (h : s.runs[st].holds = false) : s.clearKey st =
    .ok ((if s.channels[st].selection = none then s else s.clearSelection st).onRun st Run.release) := by
  unfold State.clearKey
  rw [if_neg (by rw [h]; exact Bool.false_ne_true)]
  cases s.channels[st].selection <;> rfl

/-- R37: CLEAR keeps the run, or releases it from DONE_HELD. -/
theorem State.clearKey_run_state {s : State} {st : Station} (h : s.runs[st].holds = false) :
    let cleared := if s.channels[st].selection = none then s else s.clearSelection st
    (s.runs[st].state = .idle → s.clearKey st = .ok cleared) ∧
    (s.runs[st].state = .doneHeld → s.clearKey st =
      .ok { cleared with runs := modAt s.runs st fun r => { r with state := .idle } }) := by
  intro cleared
  have runs : cleared.runs = s.runs := by
    show (if _ then _ else _ : State).runs = _
    split
    · rfl
    · exact (s.clearSelection_spec st).2.2.1
  have key : s.clearKey st = .ok { cleared with runs := modAt s.runs st Run.release } := by
    rw [State.clearKey_accepted h, ← runs]
    rfl
  rw [key]
  refine ⟨fun idle => ?_, fun held => ?_⟩
  · rw [modAt_unchanged _ _ _ (Run.release_idle idle), ← runs]
  · have released : s.runs[st].release = { s.runs[st] with state := .idle } := if_pos held
    rw [modAt_congr (f := Run.release) (g := fun r => { r with state := .idle }) released]

/-- R33, R55: clearing the selection acts on the channel, the price table, the display and the adoption's flag alone. -/
theorem State.clearSelection_parts (s : State) (st : Station) : s.clearSelection st = State.refresh
    { s with channels := (s.clearSelection st).channels, price := (s.clearSelection st).price,
             link := { s.link with flags := (s.clearSelection st).link.flags } } st := by
  have effect : s.clearSelection st = ((s.onChannel st (·.clearSelection)).adoptIfFree st).refresh st := rfl
  have refreshed := (((s.onChannel st (·.clearSelection)).adoptIfFree st).refresh_spec st).1
  rw [← effect] at refreshed
  obtain ⟨adopted, -, runs, totals, ports, service, -⟩ := (s.onChannel st (·.clearSelection)).adoptIfFree_spec st
  have parts := adopted.parts
  rw [runs, totals, ports, service] at parts
  have channels : (s.clearSelection st).channels = ((s.onChannel st (·.clearSelection)).adoptIfFree st).channels := by rw [refreshed]
  have price : (s.clearSelection st).price = ((s.onChannel st (·.clearSelection)).adoptIfFree st).price := by rw [refreshed]
  have link : (s.clearSelection st).link = ((s.onChannel st (·.clearSelection)).adoptIfFree st).link := by rw [refreshed]
  rw [channels, price, link, effect]
  exact congrArg (State.refresh · st) parts

/-- R33, R36: the display of a channel without a selection. -/
theorem State.clearSelection_image {s : State} {st : Station} (present : s.ports[st].state = .present) :
    (s.clearSelection st).ports[st].image.unitPrice = none ∧ (s.clearSelection st).ports[st].image.name = [] ∧
    (s.clearSelection st).ports[st].image.price = .blank := by
  obtain ⟨cleared, -, refreshed⟩ := s.clearSelection_left st
  obtain ⟨step, -⟩ := s.clearSelection_spec st
  have shown := (State.refresh_iff _ _).1 refreshed (by rw [step.port]; exact present)
  generalize s.clearSelection st = t at *
  have selection : t.channels[st].selection = none := by rw [cleared.1]
  have outcome : t.channels[st].outcome = .noSelection := by rw [cleared.1]
  rw [shown]
  refine ⟨((t.imageOf_selection st).1 selection).1, ((t.imageOf_selection st).1 selection).2, ?_⟩
  cases fault : t.ports[st].converterFault with
  | true => exact (State.imageOf_fault fault).2
  | false =>
    rw [(State.imageOf_no_fault fault).2]
    exact (Channel.priceField_cases _).2.2.1 (by rw [outcome]; exact List.mem_cons_self)

/-- R33: clearing the selection leaves the message. -/
theorem State.clearSelection_message (s : State) (st : Station) :
    (s.clearSelection st).ports[st].image.message = s.ports[st].image.message := by
  rw [State.clearSelection_parts]
  exact (State.refresh_spec _ st).2.2.2

/-- Settles O30: each key's effect on the channel record, and `clearSelection` part by part. -/
theorem channelKeysAct : Obligations.ChannelKeysAct := by
  unfold Obligations.ChannelKeysAct
  refine ⟨fun r gross tare => weighing_fields r gross tare,
    fun c => ⟨rfl, fun w r hw hr => Channel.retare_some hw hr, Channel.retare_none⟩, fun s st => ?_, fun s st hk => ?_⟩
  · obtain ⟨cleared, adopted, -⟩ := s.clearSelection_left st
    obtain ⟨channel, retared, unweighed⟩ := cleared
    obtain ⟨step, -⟩ := s.clearSelection_spec st
    exact ⟨channel, retared, unweighed, adopted, State.clearSelection_image, step.port, State.clearSelection_message s st,
      fun x hx => ⟨(step.others x hx).1, (step.others x hx).2.1⟩, State.clearSelection_parts s st⟩
  · have key : ∀ {f : State → Except Message State} {t : State}, f (accepted s st) = .ok t →
        s.event (fun s => s.takeKey st f) = .next (t.finish s) := State.takeKey_accepted hk
    refine ⟨rfl, fun r zp a stable ht hr hz ha near => ?_, fun r w t stable hr hw tare positive => ?_, ?_, fun r w hr hw => ?_,
      fun number sel h1 h2 hs hm => ?_, fun active ending => ?_, ?_⟩
    · exact key (State.keyOnChannel_ok (Channel.zeroKey_accepted stable ht hr hz ha near))
    · exact key (State.keyOnChannel_ok (Channel.tareKey_accepted stable hr hw tare positive))
    · exact key (State.keyOnChannel_ok rfl)
    · exact key (State.keyOnChannel_ok (congrArg Except.ok (Channel.clearTare_some hr hw)))
    · exact key ((State.countEntryKey_in_range h1 h2 st _).trans (State.keyOnChannel_ok (Channel.countKey_accepted hs hm _)))
    · obtain ⟨idle, held⟩ := State.clearKey_run_state (s := accepted s st) (st := st) (Run.not_holds active ending)
      exact ⟨fun h => key (idle h), fun h => key (held h)⟩
    · have other : PageName.other = fun p => if p = .a then .b else .a := by
        funext p
        cases p <;> rfl
      refine key ?_
      show State.pageKey st _ = _
      unfold State.pageKey
      rw [other]

end Sys2Proof.Machine
end

section
/-! SUPPORT. READ_CHANNEL and RESET_CHANNEL (R39, R40), and what is left of a weighing made afresh. -/

namespace Sys2Proof.Machine

/-! ## The reply of READ_CHANNEL -/

/-- Strings of bytes that agree part by part. -/
theorem append_congr {a b c d : List Byte} (h : a = b) (g : c = d) : a ++ c = b ++ d := by rw [h, g]

/-- R40: the reply in the parts of R18. -/
theorem State.channelBytes_parts (s : State) (st : Station) : s.channelBytes st =
    encStation st ++ u1 s.channels[st].state.code ++ u1 s.channels[st].calStatus.code ++ encOpt Weighing.bytes s.channels[st].last
      ++ (u1 s.channels[st].outcome.code ++ u4 s.channels[st].outcome.price) ++ encOpt i4 s.channels[st].zp
      ++ encOpt i4 s.channels[st].z ++ encOpt u4 s.channels[st].keyedTare ++ u4 s.channels[st].tareInForce
      ++ encOpt Selection.bytes s.channels[st].selection
      ++ (encBool s.channels[st].armed ++ encBool s.channels[st].returnClear ++ u1 (s.holdingCode st)) ++ u4 s.channels[st].pinned
      ++ u1 s.channels[st].page.code ++ s.channels[st].config.bytes ++ u1 (((s.service.clerkAt st).map (·.number)).getD 0)
      ++ (s.ports[st]).bytes := by
  simp only [State.channelBytes, List.append_assoc]

/-- A request of one number. -/
theorem parseNumber1_byte (n : Byte) : parseNumber1 [n] = some n.toNat := by
  unfold parseNumber1 parseAll
  rw [num_one]

/-- READ_CHANNEL and RESET_CHANNEL are requests with one number (R39, R40). -/
theorem exec_oneChannel (s : State) :
    exec .readChannel s = s.request 0x12 (withArgs parseNumber1 State.readChannel) ∧
    exec .resetChannel s = s.request 0x13 (withArgs parseNumber1 State.resetChannel) := ⟨rfl, rfl⟩

/-- R174: a reply with OK. -/
theorem okReply_eq (content : List Byte) : okReply content = 0 :: content := rfl

/-- R39, R40: READ_CHANNEL and RESET_CHANNEL of a channel. -/
theorem State.oneChannel_station {n : Nat} {st : Station} (h : n = st.val + 1) (s : State) :
    s.readChannel n = (s, 0 :: s.channelBytes st) ∧ s.resetChannel n = (s.restartChannel st, [0]) := by
  unfold State.readChannel State.resetChannel
  rw [h, stationOf_number]
  dsimp only
  rw [okReply_eq, okReply_eq]
  exact ⟨rfl, rfl⟩

/-- R39, R40: a channel number that is none. -/
theorem State.oneChannel_none {n : Nat} (h : n = 0 ∨ 8 < n) (s : State) :
    s.readChannel n = (s, [3]) ∧ s.resetChannel n = (s, [3]) := by
  unfold State.readChannel State.resetChannel
  rw [stationOf_none h]
  exact ⟨rfl, rfl⟩

/-! ## A weighing made afresh -/

/-- An operation that keeps the clerks, in its parts. -/
theorem StationStep.parts_of_service {s t : State} {st : Station} (h : StationStep s t st) (hv : t.service = s.service) :
    t = { s with ports := t.ports, channels := t.channels, price := t.price, runs := t.runs, totals := t.totals,
                 link := { s.link with flags := t.link.flags } } := by
  have parts := h.parts
  rw [hv] at parts
  exact parts

/-- R39: RESET_CHANNEL ends the run and makes the weighing afresh. -/
theorem State.restartChannel_spec (s : State) (st : Station) :
    StationStep s (s.restartChannel st) st ∧ RunEnded s (s.restartChannel st) st .reset ∧
    (s.restartChannel st).runs[st].state ≠ .active ∧ (s.restartChannel st).service = s.service ∧
    AdoptedIfFree s (s.restartChannel st) st ∧
    (s.restartChannel st).channels[st] = { s.channels[st] with
      state := if s.ports[st].state = .present then (if s.channels[st].calStatus = .fault then .calFault else .warmup) else .absent,
      filter := [], stability := [], zp := none, z := none, last := none, tracking := 0, keyedTare := none, selection := none,
      returnClear := false, armed := false, outcome := .noSelection,
      pinned := (s.restartChannel st).channels[st].pinned } := by
  obtain ⟨step, ended, run, service, adopted, d, ofEnd, channel⟩ := s.afresh_spec st .reset
    (fun c => c.startAfresh (if s.ports[st].state = .present then c.startState else .absent)) fun d _ => ⟨rfl, rfl⟩
  refine ⟨step, ended, run, service, adopted, channel.trans ?_⟩
  have start : d.startState = if s.channels[st].calStatus = .fault then .calFault else .warmup := by
    rw [ofEnd]
    rfl
  dsimp only
  rw [start, Channel.startAfresh_ofRunEnd ofEnd]
  rfl

/-- Settles O34: the reply part by part, and `restartChannel`. -/
theorem readAndResetChannel : Obligations.ReadAndResetChannel := by
  unfold Obligations.ReadAndResetChannel
  refine ⟨fun s st => ?_, fun s n => ⟨fun st hn => ⟨fun he => ?_, fun he => ?_⟩, fun hn => ?_⟩⟩
  · dsimp only
    rw [State.channelBytes_parts]
    iterate 15 refine append_congr ?_ ?_
    · rfl
    · cases s.channels[st].state <;> rfl
    · cases s.channels[st].calStatus <;> rfl
    · cases s.channels[st].last <;> rfl
    · cases s.channels[st].outcome <;> rfl
    · cases s.channels[st].zp <;> rfl
    · cases s.channels[st].z <;> rfl
    · rfl
    · rfl
    · rcases s.channels[st].selection with _ | ⟨version, tare, _ | count⟩ <;> rfl
    · unfold State.holdingCode
      cases s.runs[st].holds <;> cases s.channels[st].selection <;> rfl
    · rfl
    · cases s.channels[st].page <;> rfl
    · rfl
    · cases s.service.clerkAt st <;> rfl
    · unfold Port.bytes
      simp only [List.append_assoc]
      refine append_congr ?_ (append_congr rfl (append_congr rfl (append_congr (a := u1 _) (b := [_]) ?_ rfl)))
      · cases s.ports[st].state <;> rfl
      · cases s.ports[st].switch <;> rfl
  · rw [(exec_oneChannel s).1, State.request_args he (parseNumber1_byte n), (State.oneChannel_station hn s).1]
  · obtain ⟨step, ended, run, service, adopted, channel⟩ := s.restartChannel_spec st
    refine ⟨s.restartChannel st, ?_, channel, adopted, run, ended, step.port, fun x hx => ?_, step.parts_of_service service⟩
    · rw [(exec_oneChannel s).2, State.request_args he (parseNumber1_byte n), (State.oneChannel_station hn s).2]
    · obtain ⟨channels, ports, runs⟩ := step.others x hx
      exact ⟨channels, runs, ports⟩
  · have none : n.toNat = 0 ∨ 8 < n.toNat := hn.imp_left fun h => by rw [h]; rfl
    refine ⟨fun he => ?_, fun he => ?_⟩
    · rw [(exec_oneChannel s).1, State.request_args he (parseNumber1_byte n), (State.oneChannel_none none s).1]
    · rw [(exec_oneChannel s).2, State.request_args he (parseNumber1_byte n), (State.oneChannel_none none s).2]

end Sys2Proof.Machine
end

section
/-! SUPPORT. WRITE_CALIBRATION and READ_CALIBRATION (R20, R167 to R169), and the encodings of numbers read back (R182). -/

namespace Sys2Proof.Machine

/-! ## Numbers read back (R182) -/

@[simp] theorem length_leBytes : ∀ k n : Nat, (leBytes k n).length = k
  | 0, _ => rfl
  | k + 1, n => by rw [leBytes, List.length_cons, length_leBytes k]

/-- The bytes of a number give it back, up to their width. -/
theorem leNat_leBytes : ∀ k n : Nat, leNat (leBytes k n) = n % 256 ^ k
  | 0, n => (Nat.mod_one n).symm
  | k + 1, n => by
    have front : (BitVec.ofNat 8 n).toNat = n % 256 := BitVec.toNat_ofNat ..
    rw [leBytes, leNat, leNat_leBytes k, front, Nat.pow_succ' (n := k), Nat.mod_mul]

/-- A number that fits its width is read off the front. -/
theorem num_leBytes {k n : Nat} (h : n < 256 ^ k) (rest : List Byte) : num k (leBytes k n ++ rest) = some (n, rest) := by
  have long : ¬(leBytes k n ++ rest).length < k := by simp
  have front : (leBytes k n ++ rest).take k = leBytes k n := List.take_left' (length_leBytes k n)
  have back : (leBytes k n ++ rest).drop k = rest := List.drop_left' (length_leBytes k n)
  unfold num
  rw [if_neg long, front, back, leNat_leBytes, Nat.mod_eq_of_lt h]

/-- A number that fits its width is all that is left. -/
theorem num_leBytes_all {k n : Nat} (h : n < 256 ^ k) : num k (leBytes k n) = some (n, []) := by
  have read := num_leBytes h []
  rwa [List.append_nil] at read

/-- A signed number of four bytes is read off the front. -/
theorem snum_i4 {i : Int} (low : -2147483648 ≤ i) (high : i < 2147483648) (rest : List Byte) :
    snum 4 (i4 i ++ rest) = some (i, rest) := by
  have width : (256 ^ 4 : Nat) = 4294967296 := rfl
  have fits : (i % (256 ^ 4 : Nat)).toNat < 256 ^ 4 := by rw [width]; omega
  have back : signedOf 4 (i % (256 ^ 4 : Nat)).toNat = i := by
    unfold signedOf
    rw [width]
    split <;> omega
  unfold snum i4 leInt
  rw [num_leBytes fits]
  exact congrArg (fun i => some (i, rest)) back

/-! ## The record and the arguments -/

/-- R168: the field values that fit their widths. -/
def CalRecord.fits (r : CalRecord) : Prop :=
  -2147483648 ≤ r.zc ∧ r.zc < 2147483648 ∧ r.span < 4294967296 ∧ r.max < 65536 ∧ r.rangeMode < 256 ∧ r.e1 < 256 ∧
  r.e2 < 256 ∧ r.max1 < 65536

/-- R167: channel number and record of a WRITE_CALIBRATION. -/
theorem parseCalibration_bytes (n : Byte) {r : CalRecord} (h : r.fits) : parseCalibration (n :: r.bytes) = some (n.toNat, r) := by
  obtain ⟨low, high, span, max, rangeMode, e1, e2, max1⟩ := h
  simp only [parseCalibration, parseAll, both, num_one, calRecord, mapP, CalRecord.bytes, List.append_assoc, snum_i4 low high,
    u4, u2, u1, num_leBytes (k := 4) span, num_leBytes (k := 2) max, num_leBytes (k := 1) rangeMode, num_leBytes (k := 1) e1,
    num_leBytes (k := 1) e2, num_leBytes_all (k := 2) max1]

/-- R168: the pairs of divisions of a dual range. -/
theorem dual_divisions {e1 e2 : Nat} (h : e1 ∈ [1, 2, 5, 10, 20]) :
    e1 ≠ 20 ∧ e2 = nextDivision e1 ↔ (e1, e2) ∈ [(1, 2), (2, 5), (5, 10), (10, 20)] := by
  simp only [List.mem_cons, List.not_mem_nil, or_false] at h
  rcases h with rfl | rfl | rfl | rfl | rfl <;> simp [nextDivision]

/-- R168: the record is valid. -/
theorem CalRecord.valid_iff (r : CalRecord) : r.valid = true ↔
    -8388608 ≤ r.zc ∧ r.zc ≤ 8388607 ∧ 1000 ≤ r.span ∧ r.span ≤ 4000000 ∧ 100 ≤ r.max ∧ r.max ≤ 30000 ∧
    r.e1 ∈ [1, 2, 5, 10, 20] ∧
    ((r.rangeMode = 0 ∧ r.e2 = 0 ∧ r.max1 = 0) ∨
     (r.rangeMode = 1 ∧ (r.e1, r.e2) ∈ [(1, 2), (2, 5), (5, 10), (10, 20)] ∧ 100 ≤ r.max1 ∧ r.max1 < r.max)) := by
  have listed : [1, 2, 5, 10, 20].contains r.e1 = true ↔ r.e1 ∈ [1, 2, 5, 10, 20] := List.contains_iff_mem
  unfold CalRecord.valid
  rw [Bool.and_eq_true, Bool.and_eq_true, decide_eq_true_eq, listed]
  simp only [and_assoc]
  refine and_congr_right fun _ => and_congr_right fun _ => and_congr_right fun _ => and_congr_right fun _ =>
    and_congr_right fun _ => and_congr_right fun _ => and_congr_right fun division => ?_
  rw [← dual_divisions division]
  rcases r.rangeMode with _ | _ | mode <;> simp [and_assoc]

/-! ## WRITE_CALIBRATION (R167) -/

/-- WRITE_CALIBRATION is a request with arguments, READ_CALIBRATION one that may wait (R167, R169). -/
theorem exec_calibration (s : State) :
    exec .writeCalibration s = s.request 0x18 (withArgs parseCalibration State.writeCalibration) ∧
    exec .readCalibration s = s.request 0x19 State.readCalibration := ⟨rfl, rfl⟩

/-- R167: a write waits or is in flight for a channel. -/
theorem Store.calBusy_iff (m : Store) (st : Station) : m.calBusy st = true ↔
    (∃ w ∈ m.calWrites, w.channel = st) ∨ ∃ w, m.op = some (.calWrite w) ∧ w.channel = st := by
  unfold Store.calBusy
  rw [Bool.or_eq_true, List.any_eq_true]
  refine or_congr (by simp only [beq_iff_eq]) ?_
  split
  · next w hw => simp only [hw, Option.some.injEq, StoreOp.calWrite.injEq, exists_eq_left', beq_iff_eq]
  · next none => exact ⟨nofun, fun ⟨w, hw, _⟩ => absurd hw (none w)⟩

/-- R167: a channel number that is none. -/
theorem State.writeCalibration_none {n : Nat} (h : n = 0 ∨ 8 < n) (r : CalRecord) (s : State) :
    State.writeCalibration (n, r) s = (s, [3]) := by
  unfold State.writeCalibration
  rw [stationOf_none h]
  rfl

/-- R167: a switch that is not OPEN. -/
theorem State.writeCalibration_locked {s : State} {st : Station} (h : s.ports[st].switch ≠ .opened) (r : CalRecord) :
    State.writeCalibration (st.val + 1, r) s = (s.raise (.calAttempt st) (u1 s.ports[st].switch.code), [8]) := by
  unfold State.writeCalibration
  rw [stationOf_number]
  exact if_pos h

/-- R167: a write that the checks after the switch refuse. -/
theorem State.writeCalibration_refused {s : State} {st : Station} {r : CalRecord} {status : Status} (h : s.ports[st].switch = .opened)
    (check : s.calCheck st r = some status) : State.writeCalibration (st.val + 1, r) s = (s, refusal status) := by
  unfold State.writeCalibration
  rw [stationOf_number]
  dsimp only
  rw [if_neg (not_not_intro h), check]

/-- R167: a write that the checks let pass. -/
theorem State.writeCalibration_accepted {s : State} {st : Station} {r : CalRecord} (h : s.ports[st].switch = .opened)
    (check : s.calCheck st r = none) : State.writeCalibration (st.val + 1, r) s =
      ((s.takeCalibration st r).onStore fun m => { m with calWrites := m.calWrites ++
        [{ channel := st, counter := s.store.eventCounters[st] + 1, record := r }] },
      0 :: u4 (s.store.eventCounters[st] + 1)) := by
  unfold State.writeCalibration
  rw [stationOf_number]
  dsimp only
  rw [if_neg (not_not_intro h), check]
  rfl

/-- R167: the checks after the switch, in order. -/
theorem State.calCheck_cases (s : State) (st : Station) (r : CalRecord) :
    (s.store.state ≠ .verified → s.calCheck st r = some .storeNotReady) ∧
    (s.store.state = .verified → s.store.calBusy st = true → s.calCheck st r = some .busy) ∧
    (s.store.state = .verified → ¬s.store.calBusy st = true →
      (s.store.eventCounters[st] = Config.max32 → s.calCheck st r = some .full) ∧
      (s.store.eventCounters[st] ≠ Config.max32 →
        (r.valid = false → s.calCheck st r = some .badArgument) ∧ (r.valid = true → s.calCheck st r = none))) := by
  unfold State.calCheck
  refine ⟨fun h => if_pos h, fun h busy => ?_, fun h idle => ⟨fun full => ?_, fun room => ⟨fun bad => ?_, fun good => ?_⟩⟩⟩
  · rw [if_neg (not_not_intro h), if_pos busy]
  · rw [if_neg (not_not_intro h), if_neg idle, if_pos full]
  · rw [if_neg (not_not_intro h), if_neg idle, if_neg room, if_pos bad]
  · rw [if_neg (not_not_intro h), if_neg idle, if_neg room, if_neg (by rw [good]; nofun)]

/-- R20: an accepted record ends the run and makes the weighing afresh. -/
theorem State.takeCalibration_spec (s : State) (st : Station) (r : CalRecord) :
    let t := s.takeCalibration st r
    StationStep s t st ∧ RunEnded s t st .calibration ∧ t.runs[st].state ≠ .active ∧ t.service = s.service ∧ AdoptedIfFree s t st ∧
    t.channels[st] = { s.channels[st] with
      calStatus := .valid, cal := some r, state := .warmup, filter := [], stability := [], zp := none, z := none, last := none,
      tracking := 0, keyedTare := none, selection := none, returnClear := false, armed := false, outcome := .noSelection,
      pinned := t.channels[st].pinned } := by
  obtain ⟨step, ended, run, service, adopted, d, ofEnd, channel⟩ := s.afresh_spec st .calibration
    (fun c => (c.calibrationValid r).startAfresh .warmup) fun d _ => ⟨rfl, rfl⟩
  refine ⟨step, ended, run, service, adopted, channel.trans ?_⟩
  unfold Channel.ofRunEnd at ofEnd
  rw [ofEnd]
  rfl

/-- R33, R55: the pinned generation of a channel whose run, if it had one, is over or waits in ENDING. -/
theorem AdoptedIfFree.pinned_of_not_active {s t : State} {st : Station} (h : AdoptedIfFree s t st)
    (run : t.runs[st].state ≠ .active) : t.channels[st].pinned =
      if st ∈ s.price.record ∧ t.runs[st].state ≠ .ending then s.price.generation else s.channels[st].pinned := by
  unfold AdoptedIfFree at h
  by_cases free : st ∈ s.price.record ∧ t.runs[st].state ≠ .ending
  · rw [if_pos ⟨free.1, run, free.2⟩] at h
    rw [if_pos free, h.1]
  · rw [if_neg fun g => free ⟨g.1, g.2.2⟩] at h
    rw [if_neg free, h.1]

/-! ## READ_CALIBRATION (R169) -/

/-- R169: a channel number that is none. -/
theorem State.readCalibration_none {n : Byte} (h : n.toNat = 0 ∨ 8 < n.toNat) (s : State) :
    State.readCalibration [n] s = (s, some [3]) := by
  unfold State.readCalibration
  rw [parseNumber1_byte]
  dsimp only
  rw [stationOf_none h]
  rfl

/-- R169: a store that is not VERIFIED refuses; of a VERIFIED store the request waits for the read. -/
theorem State.readCalibration_station (s : State) (st : Station) : State.readCalibration [BitVec.ofNat 8 (st.val + 1)] s =
    if s.store.state ≠ .verified then (s, some [14]) else (s.awaitAccess (.readCalibration st), none) := by
  unfold State.readCalibration
  rw [parseNumber1_byte]
  dsimp only
  rw [stationOf_byte]
  rfl

/-- Settles O35: the checks of WRITE_CALIBRATION in their order, and `takeCalibration`. -/
theorem calibrationRequests : Obligations.CalibrationRequests := by
  unfold Obligations.CalibrationRequests
  intro fits
  have byte_none : ∀ n : Byte, n = 0 ∨ 8 < n.toNat → n.toNat = 0 ∨ 8 < n.toNat := fun n h => h.imp_left fun h => by rw [h]; rfl
  refine ⟨CalRecord.valid_iff, fun s n r h hn he => ?_, fun s st r h he => ?_, fun s n hn he => ?_, fun s st he => ⟨fun h => ?_, fun h => ?_⟩⟩
  · rw [(exec_calibration s).1, State.request_args he (parseCalibration_bytes n h), State.writeCalibration_none (byte_none n hn)]
  · have number : (BitVec.ofNat 8 (st.val + 1)).toNat = st.val + 1 := Nat.mod_eq_of_lt (by omega)
    have write : exec .writeCalibration s = .next (answered s (State.writeCalibration (st.val + 1, r) s).1
        (State.writeCalibration (st.val + 1, r) s).2) := by
      rw [(exec_calibration s).1, State.request_args he (parseCalibration_bytes _ h), number]
    obtain ⟨unready, busy, checks⟩ := s.calCheck_cases st r
    rw [Store.calBusy_iff] at busy checks
    rw [write]
    refine ⟨fun closed => ?_, fun opened store => ?_, fun opened store writing => ?_, fun opened store idle =>
      ⟨fun counter => ?_, fun counter invalid => ?_, fun counter valid => ?_⟩⟩
    · rw [State.writeCalibration_locked closed]
      rfl
    · rw [State.writeCalibration_refused opened (unready store)]
      rfl
    · rw [State.writeCalibration_refused opened (busy store writing)]
      rfl
    · rw [State.writeCalibration_refused opened ((checks store idle).1 counter)]
      rfl
    · rw [State.writeCalibration_refused opened (((checks store idle).2 (Nat.ne_of_lt counter)).1 invalid)]
      rfl
    · rw [State.writeCalibration_accepted opened (((checks store idle).2 (Nat.ne_of_lt counter)).2 valid)]
      obtain ⟨step, ended, run, service, adopted, channel⟩ := s.takeCalibration_spec st r
      have parts := step.parts_of_service service
      rw [adopted.pinned_of_not_active run] at channel
      generalize s.takeCalibration st r = u at *
      refine ⟨_, rfl, channel, step.port, run, ended.congr rfl rfl rfl rfl rfl fun _ => id,
        adopted.congr rfl rfl rfl fun _ => id, fun x hx => ?_, ?_⟩
      · obtain ⟨channels, ports, runs⟩ := step.others x hx
        exact ⟨channels, runs, ports⟩
      · have store' : u.store = s.store := by rw [parts]
        unfold State.onStore
        rw [store']
        conv_lhs => rw [parts]
  · rw [(exec_calibration s).2, State.request_executing he, State.readCalibration_none (byte_none n hn)]
  · rw [(exec_calibration s).2, State.request_executing he, State.readCalibration_station, if_pos h]
  · rw [(exec_calibration s).2, State.request_executing he, State.readCalibration_station, if_neg (not_not_intro h)]
    have executing : (s.link.markWaiting).executing =
        some { kind := 0x19, payload := [BitVec.ofNat 8 (st.val + 1)], waiting := true } := by
      unfold HostLink.markWaiting
      rw [he.2]
      rfl
    have waiting : s.link.markWaiting = { s.link with
        executing := some { kind := 0x19, payload := [BitVec.ofNat 8 (st.val + 1)], waiting := true } } := by
      rw [← executing]
      rfl
    dsimp only
    rw [← waiting]
    rfl

end Sys2Proof.Machine
end

section
/-! SUPPORT. A sample weighed (R22 to R29, R34, R35). -/

namespace Sys2Proof.Machine

/-! ## The tare in force (R29) -/

/-- R29: without a selection the keyed tare alone. -/
theorem Channel.tareInForce_unselected {c : Channel} (h : c.selection = none) : c.tareInForce = c.keyedTare.getD 0 := by
  unfold Channel.tareInForce
  rw [h]
  cases c.keyedTare <;> rfl

/-- R29: the preset tare rounded down, under no keyed tare. -/
theorem Channel.tareInForce_preset {c : Channel} {sel : Selection} (h : c.keyedTare = none) (hs : c.selection = some sel) :
    c.tareInForce = sel.presetTare / (10 * c.e1) * (10 * c.e1) := by
  unfold Channel.tareInForce
  rw [h, hs]

/-- R29: without a record there is no division to round the preset tare by. -/
theorem Channel.tareInForce_no_record {c : Channel} (h : c.keyedTare = none) (hr : c.cal = none) : c.tareInForce = 0 := by
  have division : c.e1 = 0 := by
    unfold Channel.e1
    rw [hr]
    rfl
  cases selected : c.selection with
  | none => rw [Channel.tareInForce_unselected selected, h, Option.getD_none]
  | some sel => rw [Channel.tareInForce_preset h selected, division, Nat.mul_zero]

/-- The lower division of the record in force. -/
theorem Channel.e1_record {c : Channel} {r : CalRecord} (h : c.cal = some r) : c.e1 = r.e1 := by
  unfold Channel.e1
  rw [h]
  rfl

/-! ## What follows a weighing (R27, R34) -/

/-- R34: the net arms the channel again. -/
def Channel.Arms (c : Channel) (r : CalRecord) (state : WeightState) (gross : Int) : Prop :=
  (state = .stable ∨ state = .motion) ∧ gross - (c.tareInForce : Int) < ((50 * r.e1 : Nat) : Int) ∧ c.armed = false

/-- R34: what the zero return makes of a channel that weighed `gross`. -/
theorem Channel.zeroReturn_spec {c : Channel} {r : CalRecord} {gross : Int} (hr : c.cal = some r)
    (hw : c.last = some (weighing r gross c.tareInForce)) :
    let d := c.zeroReturn r
    d = { c with armed := d.armed, returnClear := d.returnClear, selection := d.selection, last := d.last, outcome := d.outcome } ∧
    d.last = some (weighing r gross d.tareInForce) ∧
    (c.Arms r c.state gross → d.armed = true ∧ d.returnClear = false ∧
      d.selection = if c.returnClear then none else c.selection) ∧
    (¬c.Arms r c.state gross → d.armed = c.armed ∧ d.returnClear = c.returnClear ∧ d.selection = c.selection) := by
  intro d
  by_cases arms : c.Arms r c.state gross
  · have armed : d = if c.returnClear then Channel.clearSelection { c with armed := true } else { c with armed := true } := by
      show Channel.zeroReturn c r = _
      unfold Channel.zeroReturn
      rw [hw]
      exact if_pos arms
    clear_value d
    by_cases mark : c.returnClear = true
    · rw [if_pos mark] at armed
      obtain ⟨fields, retared, -⟩ := Channel.clearSelection_eq { c with armed := true }
      have last := retared _ r hw hr
      rw [← armed] at fields last
      have unselected : d.selection = none := by rw [fields]
      have keyed : d.keyedTare = c.keyedTare := by rw [fields]
      have tare : d.tareInForce = c.keyedTare.getD 0 := by rw [Channel.tareInForce_unselected unselected, keyed]
      refine ⟨?_, ?_, fun _ => ⟨?_, ?_, ?_⟩, fun g => absurd arms g⟩
      · rw [fields]
      · rw [tare]
        exact last
      · rw [fields]
      · rw [fields]
      · rw [unselected, if_pos mark]
    · rw [if_neg mark] at armed
      rw [armed, if_neg mark]
      exact ⟨rfl, hw, fun _ => ⟨rfl, Bool.not_eq_true _ ▸ mark, rfl⟩, fun g => absurd arms g⟩
  · have kept : d = c := by
      show Channel.zeroReturn c r = _
      unfold Channel.zeroReturn
      rw [hw]
      exact if_neg arms
    rw [kept]
    exact ⟨rfl, hw, fun g => absurd g arms, fun _ => ⟨rfl, rfl, rfl⟩⟩

/-- R27: a weighing that zero tracking counts. -/
def Channel.Tracks (c : Channel) (r : CalRecord) (state : WeightState) (tare : Nat) (gross : Int) : Prop :=
  c.config.zeroTracking = true ∧ state = .stable ∧ tare = 0 ∧ gross.natAbs ≤ 5 * r.e1

/-- R27: zero tracking changes the count and the zero offset alone. -/
theorem Channel.track_frame (c : Channel) (r : CalRecord) (a : Int) :
    c.track r a = { c with tracking := (c.track r a).tracking, z := (c.track r a).z } := by
  unfold Channel.track
  split
  · split
    · split <;> rfl
    · rfl
  · rfl

/-- R27: what zero tracking makes of count and offset. -/
theorem Channel.track_spec {c : Channel} {w : Weighing} {zp z : Int} (hw : c.last = some w) (hzp : c.zp = some zp)
    (hz : c.z = some z) (r : CalRecord) (a : Int) :
    let d := c.track r a
    let tracks := c.Tracks r c.state c.tareInForce w.gross
    (¬tracks → d.tracking = 0 ∧ d.z = some z) ∧
    (tracks → c.tracking + 1 < c.config.stabilityCount → d.tracking = c.tracking + 1 ∧ d.z = some z) ∧
    (tracks → c.config.stabilityCount ≤ c.tracking + 1 → d.tracking = 0 ∧
      d.z = some (if 50000 * (a - r.zc - zp).natAbs ≤ r.max * r.span then a - r.zc else z)) := by
  intro d tracks
  refine ⟨fun h => ?_, fun h more => ?_, fun h full => ?_⟩
  · have effect : d = { c with tracking := 0 } := by
      show Channel.track c r a = _
      unfold Channel.track
      rw [hw, hzp]
      exact if_neg h
    rw [effect]
    exact ⟨rfl, hz⟩
  · have effect : d = { c with tracking := c.tracking + 1 } := by
      show Channel.track c r a = _
      unfold Channel.track
      rw [hw, hzp]
      exact (if_pos h).trans (if_neg (Nat.not_le.2 more))
    rw [effect]
    exact ⟨rfl, hz⟩
  · have effect : d = { c with tracking := 0, z := if withinZeroRange r (a - r.zc) zp then some (a - r.zc) else c.z } := by
      show Channel.track c r a = _
      unfold Channel.track
      rw [hw, hzp]
      exact (if_pos h).trans (if_pos full)
    rw [effect, hz]
    refine ⟨rfl, ?_⟩
    unfold withinZeroRange
    simp only [decide_eq_true_eq, apply_ite some]

/-- R24, R25: a weighing, the zero return and zero tracking. -/
theorem Channel.weighAndFollow_spec {c : Channel} {r : CalRecord} (hr : c.cal = some r) (a z : Int) (rest : Bool) :
    let gross := grossOf r a z
    let d := c.weighAndFollow r a z rest
    let tracks := c.Tracks r d.state d.tareInForce gross
    d.state = stateOf r gross rest ∧ d.zp = c.zp ∧ d.last = some (weighing r gross d.tareInForce) ∧
    (c.Arms r d.state gross → d.armed = true ∧ d.returnClear = false ∧
      d.selection = if c.returnClear then none else c.selection) ∧
    (¬c.Arms r d.state gross → d.armed = c.armed ∧ d.returnClear = c.returnClear ∧ d.selection = c.selection) ∧
    ∀ zp old : Int, c.zp = some zp → c.z = some old →
      (¬tracks → d.tracking = 0 ∧ d.z = some old) ∧
      (tracks → c.tracking + 1 < c.config.stabilityCount → d.tracking = c.tracking + 1 ∧ d.z = some old) ∧
      (tracks → c.config.stabilityCount ≤ c.tracking + 1 → d.tracking = 0 ∧
        d.z = some (if 50000 * (a - r.zc - zp).natAbs ≤ r.max * r.span then a - r.zc else old)) := by
  intro gross d tracks
  obtain ⟨returned, last, arms, keeps⟩ :=
    Channel.zeroReturn_spec (c := c.weigh r a z rest) (gross := gross) hr rfl
  have follow : d = ((c.weigh r a z rest).zeroReturn r).track r a := rfl
  have tracked := Channel.track_frame ((c.weigh r a z rest).zeroReturn r) r a
  have count := fun zp old hzp hz => Channel.track_spec (zp := zp) (z := old) last hzp hz r a
  rw [← follow] at tracked
  rw [← follow] at count
  clear_value d
  generalize (c.weigh r a z rest).zeroReturn r = e at *
  have state : d.state = stateOf r gross rest := by rw [tracked, returned]; rfl
  have estate : e.state = d.state := by rw [tracked]
  have tare : d.tareInForce = e.tareInForce := by rw [tracked]; rfl
  have tracksE : e.Tracks r e.state e.tareInForce (weighing r gross e.tareInForce).gross ↔ tracks := by
    show e.Tracks r e.state e.tareInForce gross ↔ c.Tracks r d.state d.tareInForce gross
    have config : e.config = c.config := by rw [returned]; rfl
    unfold Channel.Tracks
    rw [estate, tare, config]
  have weighedState : (c.weigh r a z rest).state = d.state := state.symm
  rw [weighedState] at arms keeps
  refine ⟨state, by rw [tracked, returned]; rfl, ?_, fun h => ?_, fun h => ?_, fun zp old hzp hz => ?_⟩
  · rw [tare, tracked]
    exact last
  · rw [tracked]
    exact arms h
  · rw [tracked]
    exact keeps h
  · have ezp : e.zp = some zp := by rw [returned]; exact hzp
    have ez : e.z = some old := by rw [returned]; exact hz
    have etracking : e.tracking = c.tracking := by rw [returned]; rfl
    have econfig : e.config = c.config := by rw [returned]; rfl
    have counted := count zp old ezp ez
    dsimp only at counted
    rw [tracksE, etracking, econfig] at counted
    exact counted

/-! ## The sample (R22, R23) -/

/-- R22: at rest, with the division of the previous weighing. -/
theorem Channel.atRest_eq (c : Channel) (r : CalRecord) : c.atRest r = decide (c.stability.length = c.config.stabilityCount ∧
    roundDiv (spread c.stability * 10000) r.span ≤
      ((c.config.motionBand * 5 * (match c.last with | none => r.e1 | some w => w.division) : Nat) : Int)) := by
  have division : (match c.last with | none => r.e1 | some w => w.division) = (c.last.map (·.division)).getD r.e1 := by
    cases c.last <;> rfl
  rw [division]
  unfold Channel.atRest
  exact (Bool.decide_and _ _).symm

/-- R22, R23: what a sample does by the weight state, with a record. -/
theorem Channel.sample_cases {c : Channel} {r : CalRecord} (hr : c.cal = some r) (x : Int) :
    let taken := c.takeCount x
    let a := average taken.filter
    (c.state = .motion ∨ c.state = .stable ∨ c.state = .overload ∨ c.state = .underload →
      c.sample x = Channel.reprice (taken.weighAndFollow r a (c.z.getD 0) (taken.atRest r))) ∧
    (c.state = .warmup ∨ c.state = .zeroFault →
      c.sample x = Channel.reprice (if c.calStatus = .valid ∧ taken.atRest r then taken.tryZero r a else taken)) ∧
    (c.state = .absent ∨ c.state = .calFault → c.sample x = Channel.reprice taken) := by
  intro taken a
  have record : (c.takeCount x).cal = some r := hr
  have state : (c.takeCount x).state = c.state := rfl
  unfold Channel.sample
  dsimp only
  rw [record, state]
  refine ⟨fun h => ?_, fun h => ?_, fun h => ?_⟩
  · rcases h with h | h | h | h <;> rw [h] <;> rfl
  · rcases h with h | h <;> rw [h] <;> rfl
  · rcases h with h | h <;> rw [h]

/-- R22: without a record the windows take the sample, and nothing is weighed. -/
theorem Channel.sample_no_record {c : Channel} (h : c.cal = none) (x : Int) : c.sample x = (c.takeCount x).reprice := by
  have record : (c.takeCount x).cal = none := h
  unfold Channel.sample
  dsimp only
  rw [record]

/-- R23: the power-up zero, within 10% of Max and outside it. -/
theorem Channel.tryZero_cases (c : Channel) (r : CalRecord) (a : Int) :
    (10000 * (a - r.zc).natAbs ≤ r.max * r.span → c.tryZero r a = Channel.weighAndFollow
      { c with zp := some (a - r.zc), z := some (a - r.zc), tracking := 0, state := .stable } r a (a - r.zc) true) ∧
    (r.max * r.span < 10000 * (a - r.zc).natAbs → c.tryZero r a = { c with state := .zeroFault }) :=
  ⟨fun h => if_pos h, fun h => if_neg (Nat.not_le.2 h)⟩

/-- R24: at the power-up zero the gross is 0, and the state STABLE. -/
theorem grossOf_at_zero (r : CalRecord) (a : Int) : grossOf r a (a - r.zc) = 0 ∧ stateOf r 0 true = .stable := by
  constructor
  · unfold grossOf
    rw [Int.sub_self, Int.zero_mul, roundDiv_zero]
  · unfold stateOf
    dsimp only
    rw [if_neg (by omega), if_neg (by omega), if_pos rfl]

/-- R24: the weight state, in the limits of the record. -/
theorem stateOf_eq (r : CalRecord) (gross : Int) (rest : Bool) : stateOf r gross rest =
    (if ((10 * (r.max + 9 * (if r.rangeMode = 1 then r.e2 else r.e1)) : Nat) : Int) < gross then .overload
     else if gross < -((200 * r.e1 : Nat) : Int) then .underload
     else if rest then .stable else .motion) := by
  unfold stateOf CalRecord.dual
  simp only [beq_iff_eq]

/-- R24: with no gross the net lies in the lower range. -/
theorem weighing_zero_division (r : CalRecord) (tare : Nat) : (weighing r 0 tare).division = r.e1 := by
  rw [(weighing_fields r 0 tare).2.2.1, if_neg]
  rintro ⟨-, positive⟩
  omega

/-- Settles O28: `sample` by the weight state, and what a weighing leaves. -/
theorem sampleIsWeighed : Obligations.SampleIsWeighed := by
  unfold Obligations.SampleIsWeighed
  refine ⟨fun c => ⟨fun t => Channel.tareInForce_keyed, fun h hs => ?_, Channel.tareInForce_no_record, fun sel r h hs hr => ?_⟩,
    fun c x hr => ?_, fun c r x hr => ?_⟩
  · rw [Channel.tareInForce_unselected hs, h, Option.getD_none]
  · rw [Channel.tareInForce_preset h hs, Channel.e1_record hr]
    exact ⟨Nat.dvd_mul_left .., Nat.div_add_mod' ..⟩
  · rw [Channel.sample_no_record hr]
    exact ⟨rfl, rfl⟩
  · intro filter a stability upper e rest after unweighed zeroReturn tracks trying deviation
    have windows : after = { c with
        filter := filter, stability := stability, state := after.state, zp := after.zp, z := after.z, tracking := after.tracking,
        selection := after.selection, returnClear := after.returnClear, armed := after.armed, last := after.last,
        outcome := after.outcome } := c.sample_ofWeighing x
    have atRest : (c.takeCount x).atRest r = rest := Channel.atRest_eq ..
    have mean : average (c.takeCount x).filter = a := rfl
    have sampled : c.sample x = after := rfl
    obtain ⟨weighs, tries, keeps⟩ := Channel.sample_cases hr x
    rw [atRest, mean, sampled] at weighs tries
    rw [sampled] at keeps
    have outcome : after.outcome = after.price := by
      show (Channel.sample c x).outcome = (Channel.sample c x).price
      rw [Channel.sample]
      rfl
    have windowsAlone : after = Channel.reprice (c.takeCount x) → after.state = c.state ∧ unweighed := fun same => by
      show after.state = c.state ∧ after.zp = c.zp ∧ after.z = c.z ∧ after.last = c.last ∧ after.tracking = c.tracking ∧
        after.armed = c.armed ∧ after.selection = c.selection ∧ after.returnClear = c.returnClear
      rw [same]
      exact ⟨rfl, rfl, rfl, rfl, rfl, rfl, rfl, rfl⟩
    refine ⟨congrArg Channel.filter windows, congrArg Channel.stability windows, (congrArg Channel.keyedTare windows).trans rfl,
      outcome, windows, ?_⟩
    clear windows outcome atRest mean sampled
    clear_value after rest a
    refine ⟨fun z hz states => ?_, fun states unrested => ?_, fun states valid rested far => ?_, fun states valid rested near => ?_,
      fun states => windowsAlone (keeps states)⟩
    · intro gross
      have weighed := weighs states
      rw [hz, Option.getD_some] at weighed
      obtain ⟨state, zp, last, arms, keepsMark, tracking⟩ :=
        Channel.weighAndFollow_spec (c := c.takeCount x) (r := r) hr a z rest
      generalize (c.takeCount x).weighAndFollow r a z rest = d at *
      have grossA : grossOf r a z = gross := rfl
      rw [grossA] at state last arms keepsMark tracking
      obtain ⟨-, -, division, weight⟩ := weighing_fields r gross d.tareInForce
      rw [stateOf_eq] at state
      clear grossA
      clear_value gross
      subst weighed
      exact ⟨⟨_, last, rfl, rfl, division, weight⟩, state, zp, ⟨arms, keepsMark⟩,
        fun zp hzp => tracking zp z hzp hz⟩
    · exact windowsAlone ((tries states).trans (by rw [if_neg unrested]))
    · have faulted : after = _ := (tries states).trans (by
        rw [if_pos ⟨valid, rested⟩, (Channel.tryZero_cases _ r a).2 far])
      subst faulted
      exact ⟨rfl, rfl, rfl, rfl, rfl, rfl, rfl, rfl⟩
    · have zeroed : after = _ := (tries states).trans (by
        rw [if_pos ⟨valid, rested⟩, (Channel.tryZero_cases _ r a).1 near])
      obtain ⟨gross, stable⟩ := grossOf_at_zero r a
      obtain ⟨state, zp, last, arms, keepsMark, tracking⟩ := Channel.weighAndFollow_spec (r := r) (c := { c.takeCount x with
        zp := some (a - r.zc), z := some (a - r.zc), tracking := 0, state := .stable }) hr a (a - r.zc) true
      rw [gross] at state last arms keepsMark tracking
      rw [stable] at state
      have counted := tracking _ _ rfl rfl
      clear tracking
      generalize Channel.weighAndFollow _ r a (a - r.zc) true = d at *
      obtain ⟨-, -, -, weight⟩ := weighing_fields r 0 d.tareInForce
      rw [weighing_zero_division] at weight
      obtain ⟨uncounted, counts, counted⟩ := counted
      subst zeroed
      have zero : d.z = some (a - r.zc) := by
        by_cases tracked : tracks 0
        · rcases Nat.lt_or_ge (0 + 1) c.config.stabilityCount with more | full
          · exact (counts tracked more).2
          · exact (counted tracked full).2.trans (by rw [ite_self])
        · exact (uncounted tracked).2
      exact ⟨state, zp, zero, ⟨arms, keepsMark⟩, ⟨_, last, rfl, Int.zero_sub _, weighing_zero_division r _, weight⟩,
        fun more => ⟨fun tracked => (counts tracked more).1, fun tracked => (uncounted tracked).1⟩⟩

end Sys2Proof.Machine
end

section
/-! SUPPORT. What the label queue keeps when jobs are taken in and chosen (R119, R127), and what examinations leave (R136). -/

namespace Sys2Proof.Machine

/-! ## Jobs taken in and chosen (R119, R127) -/

/-- R127: what an arbiter's choice may change in a job. -/
def Job.Begun (f : Job → Job) : Prop := ∀ j, f j = { j with state := (f j).state, attempts := (f j).attempts }

/-- One choice after another. -/
theorem Job.Begun.comp {f g : Job → Job} (hf : Job.Begun f) (hg : Job.Begun g) : Job.Begun fun j => g (f j) := by
  intro j
  have outer := hg (f j)
  have inner := hf j
  show g (f j) = { j with state := (g (f j)).state, attempts := (g (f j)).attempts }
  generalize g (f j) = k at *
  rw [outer, inner]

/-- R127: one choice begins a job or leaves the queue. -/
theorem State.chooseOnce_queue (s : State) : ∃ f, Job.Begun f ∧ s.chooseOnce.labels.queue = s.labels.queue.map f := by
  have unchanged : ∃ f, Job.Begun f ∧ s.labels.queue = s.labels.queue.map f := ⟨id, fun _ => rfl, (List.map_id _).symm⟩
  obtain ⟨-, drawn, -, same⟩ := s.inOpenOrder_spec printerNumber s.choosers
  unfold State.chooseOnce
  generalize s.inOpenOrder printerNumber s.choosers = x at same ⊢
  obtain ⟨t, _ | ⟨p, ps⟩⟩ := x
  · obtain rfl : t = _ := same
    exact unchanged
  · obtain rfl : t = _ := same
    dsimp only
    split
    · exact unchanged
    · next j hj =>
      refine ⟨fun x => if x.number = j.number then { x with state := .printing p, attempts := x.attempts + 1 } else x,
        fun x => ?_, rfl⟩
      dsimp only
      split <;> rfl

/-- R127: the arbiters begin jobs and leave the queue in its order. -/
theorem State.arbitrate_queue (s : State) : ∃ f, Job.Begun f ∧ s.arbitrate.labels.queue = s.labels.queue.map f := by
  obtain ⟨f, hf, first⟩ := s.chooseOnce_queue
  obtain ⟨g, hg, second⟩ := s.chooseOnce.chooseOnce_queue
  refine ⟨fun j => g (f j), hf.comp hg, ?_⟩
  show s.chooseOnce.chooseOnce.labels.queue = _
  rw [second, first, List.map_map]
  rfl

/-- R119: a job as the queue takes it in. -/
def LabelUnit.entry (l : LabelUnit) (j : Job) : Job :=
  { j with number := l.nextJob, stamp := l.nextStamp, state := .queued, attempts := 0 }

/-- R119: the queue after a job was taken in, up to what the arbiters begin. -/
theorem State.takeJob_queue (s : State) (j : Job) : ∃ f, Job.Begun f ∧
    (s.takeJob j).labels.queue = (insertByKey Job.key (s.labels.entry j) s.labels.queue).map f :=
  (s.onLabels (·.takeIn j)).arbitrate_queue

/-- R119: the queue is one longer. -/
theorem State.takeJob_length (s : State) (j : Job) : (s.takeJob j).labels.queue.length = s.labels.queue.length + 1 := by
  obtain ⟨f, -, queue⟩ := s.takeJob_queue j
  rw [queue, List.length_map, (insertByKey_perm _ _ _).length_eq, List.length_cons]

/-- R119: the job stands in the queue, begun or not. -/
theorem State.takeJob_mem (s : State) (j : Job) : ∃ x ∈ (s.takeJob j).labels.queue,
    x = { s.labels.entry j with state := x.state, attempts := x.attempts } := by
  obtain ⟨f, begun, queue⟩ := s.takeJob_queue j
  rw [queue]
  exact ⟨f (s.labels.entry j), List.mem_map_of_mem ((insertByKey_perm _ _ _).mem_iff.2 List.mem_cons_self), begun _⟩

/-- R119: every other job of the queue stood there, with its number and producer. -/
theorem State.takeJob_origin {s : State} {j x : Job} (h : x ∈ (s.takeJob j).labels.queue) :
    x.link = j.link ∨ ∃ y ∈ s.labels.queue, y.number = x.number ∧ y.link = x.link := by
  obtain ⟨f, begun, queue⟩ := s.takeJob_queue j
  rw [queue] at h
  obtain ⟨y, hy, rfl⟩ := List.mem_map.1 h
  rw [begun y]
  rcases List.mem_cons.1 ((insertByKey_perm _ _ _).mem_iff.1 hy) with rfl | old
  · exact .inl rfl
  · exact .inr ⟨y, old, rfl, rfl⟩

/-! ## Examinations (R136) -/

/-- What examinations at whatever stations leave: the blocks that a label job, a cleared selection and the end of a run do not reach; and
every job of the label queue that no prepack run made stood there. -/
structure Examined (s t : State) : Prop where
  parts : t = { s with freeCount := t.freeCount, ports := t.ports, channels := t.channels, price := t.price, labels := t.labels,
                       printers := t.printers, runs := t.runs, totals := t.totals, link := { s.link with flags := t.link.flags } }
  jobs : ∀ x ∈ t.labels.queue, (∃ serial, x.link = .prepack serial) ∨ ∃ y ∈ s.labels.queue, y.number = x.number ∧ y.link = x.link

/-- Nothing happened. -/
theorem Examined.same (s : State) : Examined s s := ⟨rfl, fun x hx => .inr ⟨x, hx, rfl, rfl⟩⟩

/-- One examination after another. -/
theorem Examined.trans {s t u : State} (h : Examined s t) (g : Examined t u) : Examined s u := by
  refine ⟨by rw [g.parts, h.parts], fun x hx => ?_⟩
  rcases g.jobs x hx with made | ⟨y, hy, number, link⟩
  · exact .inl made
  · rcases h.jobs y hy with made | ⟨z, hz, number', link'⟩
    · exact .inl (link ▸ made)
    · exact .inr ⟨z, hz, number'.trans number, link'.trans link⟩

/-- An operation at one station leaves the label queue. -/
theorem StationStep.labels {s t : State} {st : Station} (h : StationStep s t st) : t.labels = s.labels := by rw [h.parts]

/-- R137: a trigger makes one prepack job. -/
theorem State.trigger_labels (s : State) (st : Station) (v : PluVersion) (price : Nat) :
    ∃ (job : Job) (serial : Nat), job.link = .prepack serial ∧ (s.trigger st v price).labels = (s.takeJob job).labels := by
  obtain ⟨job, hjob⟩ : ∃ job, job = newJob .prepack s.channels[st].config (.prepack (s.runs[st].serial.getD 0))
    (s.packContent st v price) := ⟨_, rfl⟩
  obtain ⟨u, hu⟩ : ∃ u, u = ((s.takeJob job).onChannel st fun c => { c with armed := false }).onRun st
    (Run.count s.labels.nextJob s.channels[st].shownWeight price (v.mode == .byWeight)) := ⟨_, rfl⟩
  have triggered : s.trigger st v price =
      if (u.stopWaiting st).runs[st].remaining = 0 then (u.stopWaiting st).endRun st .count else u.stopWaiting st := by
    rw [hu, hjob]
    rfl
  have link : job.link = .prepack (s.runs[st].serial.getD 0) := by
    rw [hjob]
    rfl
  have labels : u.labels = (s.takeJob job).labels := by
    generalize s.takeJob job = j at hu
    rw [hu]
    rfl
  refine ⟨job, _, link, ?_⟩
  rw [triggered, ← labels]
  have waited : (u.stopWaiting st).labels = u.labels := (u.stopWaiting_spec st).1.labels
  split
  · exact ((u.stopWaiting st).endRun_spec st .count).1.labels.trans waited
  · exact waited

/-- R136: an examination makes at most one job, a prepack one. -/
theorem State.examine_labels (s : State) (st : Station) : (s.examine st).labels = s.labels ∨
    ∃ (job : Job) (serial : Nat), job.link = .prepack serial ∧ (s.examine st).labels = (s.takeJob job).labels := by
  unfold State.examine
  split
  · split
    · exact .inl (s.stopWaiting_spec st).1.labels
    · split
      · exact .inr (s.trigger_labels st _ _)
      · exact .inl rfl
  · exact .inl rfl

/-- R136: one examination. -/
theorem State.examine_examined (s : State) (st : Station) : Examined s (s.examine st) := by
  refine ⟨(s.examine_examination st).1.parts, fun x hx => ?_⟩
  rcases s.examine_labels st with same | ⟨job, serial, link, taken⟩
  · rw [same] at hx
    exact .inr ⟨x, hx, rfl, rfl⟩
  · rw [taken] at hx
    exact (State.takeJob_origin hx).imp_left fun made => ⟨serial, made.trans link⟩

/-- R136: examinations at the stations of a list. -/
theorem State.foldl_examine_examined : ∀ (order : List Station) (s : State), Examined s (order.foldl State.examine s)
  | [], s => .same s
  | st :: order, s => (s.examine_examined st).trans (State.foldl_examine_examined order _)

/-- R136: the examination of every run. -/
theorem State.examineAll_examined (s : State) : Examined s s.examineAll := by
  unfold State.examineAll
  obtain ⟨-, drawn, -, same⟩ := s.inOpenOrder_spec stationNumber (stations.filter fun st => (s.triggerPrice st).isSome)
  dsimp only
  generalize s.inOpenOrder stationNumber (stations.filter fun st => (s.triggerPrice st).isSome) = x at same ⊢
  obtain ⟨t, order⟩ := x
  obtain rfl : t = _ := same
  exact Examined.trans (t := { s with freeCount := s.freeCount + drawn }) ⟨rfl, fun x hx => .inr ⟨x, hx, rfl, rfl⟩⟩ (State.foldl_examine_examined _ _)

/-- R120: with no job gone no run is examined. -/
theorem State.afterDepartures_none {s old : State} (h : ¬s.labels.queue.length < old.labels.queue.length) : s.afterDepartures old = s :=
  if_neg h

/-- R120: with a job gone every run is examined. -/
theorem State.afterDepartures_some {s old : State} (h : s.labels.queue.length < old.labels.queue.length) :
    s.afterDepartures old = s.examineAll := if_pos h

/-- R120: the examinations that departures call for. -/
theorem State.afterDepartures_examined (s old : State) : Examined s (s.afterDepartures old) := by
  unfold State.afterDepartures
  split
  · exact s.examineAll_examined
  · exact .same s

/-- R120: a job that stands in the queue leaves it shorter. -/
theorem LabelUnit.remove_shorter {l : LabelUnit} {n : Nat} {j : Job} (h : l.job n = some j) :
    (l.remove n).queue.length < l.queue.length := by
  have stands : j ∈ l.queue := List.mem_of_find?_eq_some h
  have number : j.number = n := by simpa using List.find?_some h
  exact List.length_filter_lt_length_iff_exists.2 ⟨j, stands, by simp [number]⟩

/-- A run that is not ACTIVE: the display alone follows. -/
theorem State.decided_not_active {s : State} {st : Station} (h : s.runs[st].state ≠ .active) : s.decided st = s.refresh st := by
  unfold State.decided
  refine State.examine_not_active ?_
  rw [(s.refresh_spec st).1]
  exact h

end Sys2Proof.Machine
end

section
/-! SUPPORT. The basket keys (R102 to R108). -/

namespace Sys2Proof.Machine

/-! ## The current basket -/

/-- R97: a clerk's current basket is an open record of the pool, with the serial the clerk holds. -/
theorem State.current_some {s : State} {c : Clerk} {b : Basket} (h : s.current c = some b) :
    b ∈ s.pool.records ∧ b.state = .opened ∧ ∃ serial, b.serial = some serial := by
  obtain ⟨serial, -, found⟩ := Option.bind_eq_some_iff.1 h
  have open_serial := List.find?_some found
  rw [Bool.and_eq_true, beq_iff_eq, beq_iff_eq] at open_serial
  exact ⟨List.mem_of_find?_eq_some found, open_serial.1, serial, open_serial.2⟩

/-- R102: a basket key with no current basket. -/
theorem State.withBasket_no_basket {s : State} {st : Station} {c : Clerk} (hc : s.service.clerkAt st = some c)
    (h : s.current c = none) (f : Clerk → Basket → Except Message State) : s.withBasket st f = .error .noBasket := by
  unfold State.withBasket
  rw [hc]
  dsimp only
  rw [h]

/-- R102: a basket key with a current basket. -/
theorem State.withBasket_some {s : State} {st : Station} {c : Clerk} {b : Basket} (hc : s.service.clerkAt st = some c)
    (h : s.current c = some b) (f : Clerk → Basket → Except Message State) : s.withBasket st f = f c b := by
  unfold State.withBasket
  rw [hc]
  dsimp only
  rw [h]

/-! ## PARK and RECALL_BASKET (R106, R107) -/

/-- R107: the first parked basket becomes the current one, which goes to the tail. -/
theorem State.recallBasketKey_parked {s : State} {st : Station} {c : Clerk} {h : Nat} {rest : List Nat}
    (hc : s.service.clerkAt st = some c) (hp : c.parked = h :: rest) : s.recallBasketKey st =
      .ok ((s.onService (·.updateClerk c.number fun x => { x with current := some h, parked := rest ++ c.current.toList })).refresh
        st) := by
  unfold State.recallBasketKey
  rw [hc]
  dsimp only
  rw [hp]

/-- R107: nothing is parked. -/
theorem State.recallBasketKey_none {s : State} {st : Station} {c : Clerk} (hc : s.service.clerkAt st = some c)
    (hp : c.parked = []) : s.recallBasketKey st = .error .notFound := by
  unfold State.recallBasketKey
  rw [hc]
  dsimp only
  rw [hp]

/-- R106: PARK, with room in the clerk's list and without. -/
theorem State.parkKey_basket {s : State} {st : Station} {c : Clerk} {b : Basket} (hc : s.service.clerkAt st = some c)
    (hb : s.current c = some b) :
    (c.parked.length < 2 → s.parkKey st = .ok ((s.onService (·.updateClerk c.number fun x =>
      { x with current := none, parked := x.parked ++ b.serial.toList })).refresh st)) ∧
    (2 ≤ c.parked.length → s.parkKey st = .error .basketsFull) := by
  unfold State.parkKey
  rw [State.withBasket_some hc hb]
  exact ⟨fun h => if_neg (Nat.not_le.2 h), fun h => if_pos h⟩

/-! ## VOID_LAST (R105) -/

/-- R105: the line is voided and its price taken back. -/
def State.voidLine (s : State) (b : Basket) (l : Line) : State :=
  s.onBasket b fun x => { (x.onLine l.number fun y => { y with voided := true }) with total := x.total - l.price }

/-- R105: VOID_LAST of a basket with an unvoided line. -/
theorem State.voidKey_newest {s : State} {st : Station} {c : Clerk} {b : Basket} {l : Line} (hc : s.service.clerkAt st = some c)
    (hb : s.current c = some b) (hl : b.newest = some l) : s.voidKey st =
      .ok (((s.voidLine b l).cancelLineJob (b.serial.getD 0) l).afterDepartures s) := by
  unfold State.voidKey
  rw [State.withBasket_some hc hb]
  dsimp only
  rw [hl]
  rfl

/-- R105, R108: a basket without an unvoided line. -/
theorem State.voidKey_none {s : State} {st : Station} {c : Clerk} {b : Basket} (hc : s.service.clerkAt st = some c)
    (hb : s.current c = some b) (hl : b.newest = none) : s.voidKey st = .error .notFound ∧ s.reprintKey st = .error .notFound := by
  unfold State.voidKey State.reprintKey
  rw [State.withBasket_some hc hb, State.withBasket_some hc hb]
  dsimp only
  rw [hl]
  exact ⟨rfl, rfl⟩

/-- R105: the line's latest job, still QUEUED, is cancelled. -/
theorem State.cancelLineJob_queued {s : State} {serial n : Nat} {l : Line} {j : Job} (latest : l.latestJob = some n)
    (job : s.labels.job n = some j) (link : j.link = .item serial l.number) (queued : j.state = .queued) :
    s.cancelLineJob serial l = s.endJob j .cancelled := by
  unfold State.cancelLineJob
  rw [latest, Option.bind_some, job]
  exact if_pos ⟨link, queued⟩

/-- R105: the line has no latest job that is still QUEUED. -/
theorem State.cancelLineJob_passed {s : State} {serial : Nat} {l : Line} (h : ∀ n j, l.latestJob = some n →
    s.labels.job n = some j → j.link = .item serial l.number → j.state ≠ .queued) : s.cancelLineJob serial l = s := by
  unfold State.cancelLineJob
  split
  · rfl
  · next j found =>
    obtain ⟨n, latest, job⟩ := Option.bind_eq_some_iff.1 found
    exact if_neg fun hj => h n j latest job hj.1 hj.2

/-- R104: the outcome of a job of an open basket. -/
theorem Basket.takeOutcome_own {serial : Nat} {b : Basket} (h : b.state = .opened ∧ b.serial = some serial) (line job : Nat)
    (o : JobOutcome) : b.takeOutcome serial line job o =
      { b with lines := b.lines.map fun l =>
          if l.number = line ∧ l.latestJob = some job then { l with labelState := o.labelState } else l } := if_pos h

/-- R104: what the outcome of a job leaves of a basket. -/
theorem Basket.takeOutcome_fields (serial line job : Nat) (o : JobOutcome) (b : Basket) :
    let d := b.takeOutcome serial line job o
    d.slot = b.slot ∧ d.state = b.state ∧ d.serial = b.serial ∧ d.total = b.total ∧ d.lines.length = b.lines.length ∧
    ∀ y ∈ d.lines, ∃ z ∈ b.lines, y = { z with labelState := y.labelState } := by
  intro d
  by_cases own : b.state = .opened ∧ b.serial = some serial
  · have taken : d = _ := Basket.takeOutcome_own own line job o
    rw [taken]
    refine ⟨rfl, rfl, rfl, rfl, List.length_map _, fun y hy => ?_⟩
    obtain ⟨z, hz, rfl⟩ := List.mem_map.1 hy
    refine ⟨z, hz, ?_⟩
    split <;> rfl
  · have same : d = b := if_neg own
    rw [same]
    exact ⟨rfl, rfl, rfl, rfl, rfl, fun y hy => ⟨y, hy, rfl⟩⟩

/-- R104: in the basket the job is of, the line whose latest job it was has the outcome's label state. -/
theorem Basket.takeOutcome_line {serial line job : Nat} {o : JobOutcome} {b : Basket} {y : Line}
    (opened : (b.takeOutcome serial line job o).state = .opened) (own : (b.takeOutcome serial line job o).serial = some serial)
    (hy : y ∈ (b.takeOutcome serial line job o).lines) (number : y.number = line) (latest : y.latestJob = some job) :
    y.labelState = o.labelState := by
  obtain ⟨-, state, serial', -⟩ := b.takeOutcome_fields serial line job o
  rw [Basket.takeOutcome_own ⟨state.symm.trans opened, serial'.symm.trans own⟩] at hy
  obtain ⟨z, -, rfl⟩ := List.mem_map.1 hy
  by_cases hz : z.number = line ∧ z.latestJob = some job
  · rw [if_pos hz]
  · rw [if_neg hz] at number latest
    exact absurd ⟨number, latest⟩ hz

/-- R105: the cancelled job leaves the queue and the line's label state is NONE; no item job of its number stands in the queue after the
examinations. -/
theorem State.voidLine_cancelled {s : State} {b : Basket} {l : Line} {serial n : Nat} {j : Job} (hs : b.serial = some serial)
    (job : s.labels.job n = some j) (link : j.link = .item (b.serial.getD 0) l.number) :
    let u := (s.voidLine b l).endJob j .cancelled
    u.labels = { s.labels with queue := s.labels.queue.filter fun x => x.number != n } ∧
    (∀ x ∈ u.pool.records, x.state = .opened → x.serial = b.serial → ∀ y ∈ x.lines, y.number = l.number →
      y.latestJob = some n → y.labelState = .none) ∧
    u.afterDepartures s = u.examineAll ∧ ∀ x ∈ u.examineAll.labels.queue, x.link = j.link → x.number ≠ n := by
  intro u
  have number : j.number = n := by simpa using List.find?_some job
  have serial_line : b.serial.getD 0 = serial := by rw [hs, Option.getD_some]
  rw [serial_line] at link
  have ended : u = _ := State.endJob_item link
  have labels : u.labels = s.labels.remove n := by
    rw [ended, number]
    rfl
  have shorter : u.labels.queue.length < s.labels.queue.length := by
    rw [labels]
    exact LabelUnit.remove_shorter job
  refine ⟨labels, fun x hx opened own y hy line latest => ?_, State.afterDepartures_some shorter, fun x hx made => ?_⟩
  · rw [ended] at hx
    obtain ⟨z, -, rfl⟩ := List.mem_map.1 hx
    rw [number] at opened own hy
    exact Basket.takeOutcome_line opened (own.trans hs) hy line latest
  · rcases u.examineAll_examined.jobs x hx with ⟨run, prepack⟩ | ⟨y, hy, same, -⟩
    · rw [made, link] at prepack
      cases prepack
    · rw [labels] at hy
      rw [← same]
      simpa using (List.mem_filter.1 hy).2

/-- R105: the record of the basket after its newest line was voided and the job, if it was QUEUED, cancelled. -/
theorem State.voidLine_record {s : State} {b : Basket} {l : Line} (hb : b ∈ s.pool.records) (serial : Nat) :
    let t := (s.voidLine b l).cancelLineJob serial l
    (∃ x ∈ t.pool.records, x.slot = b.slot ∧ x.serial = b.serial ∧ x.total = b.total - l.price ∧
      x.lines.length = b.lines.length ∧ ∀ y ∈ x.lines, y.number = l.number → y.voided = true) ∧
    t = { s with pool := t.pool, labels := t.labels } := by
  intro t
  obtain ⟨d, hd⟩ : ∃ d : Basket, d = { (b.onLine l.number fun y => { y with voided := true }) with total := b.total - l.price } :=
    ⟨_, rfl⟩
  have voided : d ∈ (s.voidLine b l).pool.records :=
    List.mem_map.2 ⟨b, hb, by rw [hd]; exact if_pos rfl⟩
  have lines : ∀ y ∈ d.lines, y.number = l.number → y.voided = true := fun y hy number => by
    rw [hd] at hy
    obtain ⟨z, -, rfl⟩ := List.mem_map.1 hy
    by_cases hz : z.number = l.number
    · rw [if_pos hz]
    · rw [if_neg hz] at number
      exact absurd number hz
  have slot : d.slot = b.slot := by rw [hd]; rfl
  have serial' : d.serial = b.serial := by rw [hd]; rfl
  have total : d.total = b.total - l.price := by rw [hd]
  have length : d.lines.length = b.lines.length := by rw [hd]; exact List.length_map _
  by_cases cancels : ∃ n j, l.latestJob = some n ∧ s.labels.job n = some j ∧ j.link = .item serial l.number ∧ j.state = .queued
  · obtain ⟨n, j, latest, job, link, queued⟩ := cancels
    have ended : t = _ :=
      (State.cancelLineJob_queued (s := s.voidLine b l) latest job link queued).trans (State.endJob_item link)
    obtain ⟨slot', -, serial'', total', length', lines'⟩ := d.takeOutcome_fields serial l.number j.number .cancelled
    refine ⟨⟨d.takeOutcome serial l.number j.number .cancelled, ?_, slot'.trans slot, serial''.trans serial', total'.trans total,
      length'.trans length, fun y hy number => ?_⟩, ?_⟩
    · rw [ended]
      exact List.mem_map_of_mem voided
    · obtain ⟨z, hz, kept⟩ := lines' y hy
      rw [kept] at number ⊢
      exact lines z hz number
    · rw [ended]
      rfl
  · have passed : t = s.voidLine b l := State.cancelLineJob_passed fun n j latest job link queued =>
      cancels ⟨n, j, latest, job, link, queued⟩
    rw [passed]
    exact ⟨⟨d, voided, slot, serial', total, length, lines⟩, rfl⟩

/-! ## REPRINT (R108) -/

/-- R119: room for one job. -/
theorem LabelUnit.room_iff (l : LabelUnit) : (l.room = true ↔ l.queue.length < 32) ∧ (l.room = false ↔ 32 ≤ l.queue.length) :=
  ⟨decide_eq_true_iff, decide_eq_false_iff_not.trans Nat.not_lt⟩

/-- R108: the reprint counted, its job the line's latest. -/
def State.countReprint (s : State) (b : Basket) (l : Line) : State :=
  s.onBasket b (·.onLine l.number fun y =>
    { y with reprints := y.reprints + 1, latestJob := some s.labels.nextJob, labelState := .queued })

/-- R108: REPRINT of the newest unvoided line, and its refusals. -/
theorem State.reprintKey_newest {s : State} {st : Station} {c : Clerk} {b : Basket} {l : Line} (hc : s.service.clerkAt st = some c)
    (hb : s.current c = some b) (hl : b.newest = some l) :
    (9 ≤ l.reprints → s.reprintKey st = .error .notFound) ∧
    (l.reprints < 9 → 32 ≤ s.labels.queue.length → s.reprintKey st = .error .labelsFull) ∧
    (l.reprints < 9 → s.labels.queue.length < 32 →
      s.reprintKey st = .ok ((s.countReprint b l).takeJob (s.itemJob st b l))) := by
  unfold State.reprintKey
  rw [State.withBasket_some hc hb]
  dsimp only
  rw [hl]
  dsimp only
  refine ⟨fun h => if_pos h, fun h full => ?_, fun h room => ?_⟩
  · rw [if_neg (Nat.not_le.2 h), if_pos ((LabelUnit.room_iff _).2.2 full)]
  · rw [if_neg (Nat.not_le.2 h), if_neg (Bool.not_eq_false _ ▸ (LabelUnit.room_iff _).1.2 room)]
    rfl

/-- R104: the item job of a line, as the queue holds it. -/
theorem State.takeJob_itemJob {s u : State} {st : Station} {b : Basket} {l : Line} (h : u.labels = s.labels) :
    ∃ j ∈ (u.takeJob (s.itemJob st b l)).labels.queue, j.number = s.labels.nextJob ∧ j.cls = .item ∧
      j.preferred = s.channels[st].config.boundPrinter ∧ j.fallback = s.channels[st].config.fallback ∧
      j.link = .item (b.serial.getD 0) l.number ∧ j.content = itemContent b l := by
  obtain ⟨j, hj, entry⟩ := u.takeJob_mem (s.itemJob st b l)
  refine ⟨j, hj, ?_⟩
  rw [entry, h]
  exact ⟨rfl, rfl, rfl, rfl, rfl, rfl⟩

/-- R108: what an accepted REPRINT leaves. -/
theorem State.reprint_spec (s : State) (st : Station) (b : Basket) (l : Line) :
    let t := (s.countReprint b l).takeJob (s.itemJob st b l)
    t.pool = (s.countReprint b l).pool ∧ t.labels.queue.length = s.labels.queue.length + 1 ∧
    (∃ j ∈ t.labels.queue, j.number = s.labels.nextJob ∧ j.cls = .item ∧ j.preferred = s.channels[st].config.boundPrinter ∧
      j.fallback = s.channels[st].config.fallback ∧ j.link = .item (b.serial.getD 0) l.number ∧ j.content = itemContent b l) ∧
    t = { s with freeCount := t.freeCount, ports := t.ports, pool := t.pool, labels := t.labels, printers := t.printers } := by
  intro t
  have taken : t = _ := (s.countReprint b l).takeJob_eq (s.itemJob st b l)
  refine ⟨(congrArg State.pool taken).trans rfl, (s.countReprint b l).takeJob_length _, State.takeJob_itemJob rfl, ?_⟩
  clear_value t
  rw [taken]
  rfl

/-! ## ADD (R102, R103) -/

/-- R102: ADD before its channel is looked at. -/
theorem State.addKey_basket {s : State} {st : Station} {c : Clerk} (hc : s.service.clerkAt st = some c) :
    (s.runs[st].state ≠ .idle → s.addKey st = .error .runActive) ∧
    (s.runs[st].state = .idle → s.current c = none → s.addKey st = .error .noBasket) ∧
    (s.runs[st].state = .idle → ∀ b, s.current c = some b → s.addKey st = s.addChecked st b) := by
  unfold State.addKey
  rw [hc]
  dsimp only
  refine ⟨fun h => if_pos h, fun h none => ?_, fun h b hb => ?_⟩
  · rw [if_neg (not_not_intro h), State.withBasket_no_basket hc none]
  · rw [if_neg (not_not_intro h), State.withBasket_some hc hb]

/-- R102: ADD without a selection. -/
theorem State.addChecked_no_selection {s : State} {st : Station} (h : s.channels[st].selection = none) (b : Basket) :
    s.addChecked st b = .error .noPlu := by
  unfold State.addChecked
  dsimp only
  rw [h]

/-- R102: ADD of a selection, up to the pricing outcome. -/
theorem State.addChecked_selection {s : State} {st : Station} {sel : Selection} (h : s.channels[st].selection = some sel)
    (b : Basket) :
    (sel.version.mode = .byWeight → s.channels[st].state ≠ .stable → s.addChecked st b = .error .notStable) ∧
    ((sel.version.mode = .byWeight → s.channels[st].state = .stable) →
      (s.channels[st].armed = false → s.addChecked st b = .error .zeroReturn) ∧
      (s.channels[st].armed = true → (∀ p, s.channels[st].outcome ≠ .priced p) → s.addChecked st b = .error .notPriceable) ∧
      ∀ price : Nat, s.channels[st].armed = true → s.channels[st].outcome = .priced price → s.addChecked st b =
        if s.clockUnset sel.version then .error .clockUnset
        else if 40 ≤ b.lines.length then .error .basketFull
        else if s.channels[st].config.itemLabels ∧ s.labels.room = false then .error .labelsFull
        else .ok (s.addLine st b sel price)) := by
  unfold State.addChecked
  dsimp only
  rw [h]
  dsimp only
  refine ⟨fun mode state => if_pos ⟨mode, state⟩, fun state => ?_⟩
  rw [if_neg fun g => g.2 (state g.1)]
  refine ⟨fun armed => if_pos armed, fun armed unpriced => ?_, fun price armed priced => ?_⟩
  · rw [if_neg (by rw [armed]; nofun)]
    split
    · next p hp => exact absurd hp (unpriced p)
    · rfl
  · rw [if_neg (by rw [armed]; nofun), priced]
    rfl

/-- R73: CLOCK_UNSET. -/
theorem State.clockUnset_iff (s : State) (v : PluVersion) :
    (s.clockUnset v = true ↔ v.shelfLife.isSome = true ∧ s.link.clock = none) ∧
    (s.clockUnset v = false ↔ v.shelfLife = none ∨ s.link.clock ≠ none) := by
  unfold State.clockUnset State.clock
  cases v.shelfLife <;> cases s.link.clock <;> simp

/-- R74: the use-by date, by the clock. -/
theorem State.useByDate_eq (s : State) (shelfLife : Option Nat) : s.useByDate shelfLife =
    match shelfLife, s.link.clock with
    | some n, some d => some (d.date.addDays n)
    | _, _ => none := by
  unfold State.useByDate State.packedDate State.clock
  cases shelfLife <;> cases s.link.clock <;> rfl

/-- R31, R34: a successful ADD clears armed and, with tare hold off, the tare. -/
theorem Channel.afterAdd_eq {c : Channel} {sel : Selection} (h : c.selection = some sel) : c.afterAdd =
    (let c1 : Channel := { c with armed := false, returnClear := true }
     if c.config.tareHold then c1 else Channel.reprice (Channel.retare
       { c1 with keyedTare := none, selection := some { sel with presetTare := 0 } })) := by
  unfold Channel.afterAdd Channel.clearTare
  dsimp only
  rw [h]
  rfl

/-- R103: the effects of an accepted ADD, with the station's run IDLE. -/
theorem State.addLine_spec {s : State} {st : Station} (idle : s.runs[st].state = .idle) (b : Basket) (sel : Selection) (price : Nat) :
    let t := s.addLine st b sel price
    let l := s.newLine st b sel price
    let added := s.onBasket b fun x => { x with lines := x.lines ++ [l], total := x.total + price }
    t.pool = added.pool ∧ t.channels = modAt s.channels st (·.afterAdd) ∧
    t.service = (if b.isEmpty then s.service.serve (b.serial.getD 0) else s.service) ∧
    t.labels = (if s.channels[st].config.itemLabels then (added.takeJob (s.itemJob st b l)).labels else s.labels) ∧
    t = { s with freeCount := t.freeCount, ports := t.ports, channels := t.channels, service := t.service, pool := t.pool,
                 labels := t.labels, printers := t.printers } := by
  intro t l added
  obtain ⟨u, hu⟩ : ∃ u, u = if s.channels[st].config.itemLabels then added.takeJob (s.itemJob st b l) else added := ⟨_, rfl⟩
  have taken : u = { added with freeCount := u.freeCount, labels := u.labels, printers := u.printers } := by
    rw [hu]
    split
    · exact added.takeJob_eq _
    · rfl
  have labels : u.labels = if s.channels[st].config.itemLabels then (added.takeJob (s.itemJob st b l)).labels else s.labels := by
    rw [hu]
    split <;> rfl
  obtain ⟨v, hv⟩ : ∃ v, v = if b.isEmpty then u.onService (·.serve (b.serial.getD 0)) else u := ⟨_, rfl⟩
  have served : v = { u with service := if b.isEmpty then s.service.serve (b.serial.getD 0) else s.service } := by
    have service : u.service = s.service := by rw [taken]; rfl
    rw [hv]
    split
    · rw [← service]
      rfl
    · rw [← service]
  have decided : t = (v.onChannel st (·.afterAdd)).refresh st := by
    have effect : t = (v.onChannel st (·.afterAdd)).decided st := by rw [hv, hu]; rfl
    rw [effect]
    refine State.decided_not_active ?_
    rw [served, taken]
    show s.runs[st].state ≠ .active
    rw [idle]
    nofun
  have refreshed := (v.onChannel st (·.afterAdd)).refresh_spec st |>.1
  rw [← decided] at refreshed
  clear_value t
  rw [← labels]
  rw [refreshed, served, taken]
  exact ⟨rfl, rfl, rfl, rfl, rfl⟩

/-- R102, R103: an accepted ADD with the checks passed. -/
theorem State.addChecked_priced {s : State} {st : Station} {sel : Selection} {b : Basket} {price : Nat}
    (h : s.addChecked st b = if s.clockUnset sel.version then .error .clockUnset
      else if 40 ≤ b.lines.length then .error .basketFull
      else if s.channels[st].config.itemLabels ∧ s.labels.room = false then .error .labelsFull
      else .ok (s.addLine st b sel price)) :
    ((sel.version.shelfLife.isSome = true ∧ s.link.clock = none) → s.addChecked st b = .error .clockUnset) ∧
    ((sel.version.shelfLife = none ∨ s.link.clock ≠ none) →
      (40 ≤ b.lines.length → s.addChecked st b = .error .basketFull) ∧
      (b.lines.length < 40 → s.channels[st].config.itemLabels = true → 32 ≤ s.labels.queue.length →
        s.addChecked st b = .error .labelsFull) ∧
      (b.lines.length < 40 → (s.channels[st].config.itemLabels = true → s.labels.queue.length < 32) →
        s.addChecked st b = .ok (s.addLine st b sel price))) := by
  rw [h]
  obtain ⟨unset, set⟩ := s.clockUnset_iff sel.version
  obtain ⟨room, full⟩ := s.labels.room_iff
  refine ⟨fun g => if_pos (unset.2 g), fun g => ?_⟩
  rw [if_neg (by rw [set.2 g]; nofun)]
  refine ⟨fun lines => if_pos lines, fun lines labels queue => ?_, fun lines labels => ?_⟩
  · rw [if_neg (Nat.not_le.2 lines), if_pos ⟨labels, full.2 queue⟩]
  · rw [if_neg (Nat.not_le.2 lines), if_neg fun g => absurd (labels g.1) (Nat.not_lt.2 (full.1 g.2))]

/-- Settles O48: each key found at the clerk's current basket. -/
theorem basketKeysChangeTheCurrentBasket : Obligations.BasketKeysChangeTheCurrentBasket := by
  unfold Obligations.BasketKeysChangeTheCurrentBasket
  intro s st c hk clerk itemLabel
  have key : ∀ {f : State → Except Message State} {t : State}, f (accepted s st) = .ok t →
      s.event (fun s => s.takeKey st f) = .next (t.finish s) := State.takeKey_accepted hk
  have refused : ∀ {f : State → Except Message State} {m : Message}, f (accepted s st) = .error m →
      s.event (fun s => s.takeKey st f) = .next ((s.refuseKey st m).finish s) := State.takeKey_refused hk
  have clerkU : (accepted s st).service.clerkAt st = some c := clerk
  obtain ⟨runActive, noBasket, addBasket⟩ := State.addKey_basket clerkU
  refine ⟨fun h rest hp => key (State.recallBasketKey_parked clerkU hp), fun hp => refused (State.recallBasketKey_none clerkU hp),
    fun busy => refused (runActive busy), fun none => ⟨fun idle => refused (noBasket idle none), ?_, ?_, ?_⟩, fun b hb => ?_⟩
  · exact refused (State.withBasket_no_basket clerkU none _)
  · exact refused (State.withBasket_no_basket clerkU none _)
  · exact refused (State.withBasket_no_basket clerkU none _)
  have basket : (accepted s st).current c = some b := hb
  obtain ⟨stands, opened, serial, hserial⟩ := State.current_some basket
  obtain ⟨park, parkFull⟩ := State.parkKey_basket clerkU basket
  refine ⟨fun room => key (park room), fun full => refused (parkFull full), fun l hl => ?_, fun l hl => ?_,
    fun l hl few room => ?_, fun hl => ?_, fun l hl => ?_, fun idle => ?_⟩
  · have void := key (State.voidKey_newest clerkU basket hl)
    intro voided
    refine ⟨fun n j latest job link queued => ?_, fun passed => ?_⟩
    · obtain ⟨labels, line, departed, gone⟩ := State.voidLine_cancelled (s := accepted s st) (l := l) hserial job link
      have cancelled : ((accepted s st).voidLine b l).cancelLineJob (b.serial.getD 0) l = _ :=
        State.cancelLineJob_queued latest job link queued
      rw [cancelled, departed] at void
      refine ⟨void, labels, line, _, void, ?_⟩
      simpa using gone
    · have kept : ((accepted s st).voidLine b l).cancelLineJob (b.serial.getD 0) l = (accepted s st).voidLine b l :=
        State.cancelLineJob_passed passed
      have stays : ¬((accepted s st).voidLine b l).labels.queue.length < (accepted s st).labels.queue.length := Nat.lt_irrefl _
      rw [kept, State.afterDepartures_none stays] at void
      exact void
  · have void := key (State.voidKey_newest clerkU basket hl)
    obtain ⟨record, parts⟩ := State.voidLine_record (l := l) stands (b.serial.getD 0)
    generalize ((accepted s st).voidLine b l).cancelLineJob (b.serial.getD 0) l = u at *
    have examined := (u.afterDepartures_examined (accepted s st)).parts
    generalize u.afterDepartures (accepted s st) = t at *
    obtain ⟨x, hx, slot, serial', total, length, lines⟩ := record
    have pool : t.pool = u.pool := by rw [examined]
    refine ⟨_, void, x, ?_, slot, serial', total, length, lines, ?_⟩
    · simpa [pool] using hx
    · rw [parts, ← pool] at examined
      exact State.finish_of_eq examined
  · have room' : (accepted s st).labels.queue.length < 32 := room
    have reprint := key ((State.reprintKey_newest clerkU basket hl).2.2 few room')
    obtain ⟨pool, length, job, parts⟩ := State.reprint_spec (accepted s st) st b l
    generalize ((accepted s st).countReprint b l).takeJob ((accepted s st).itemJob st b l) = t at *
    exact ⟨_, reprint, pool, length, job, State.finish_of_eq parts⟩
  · obtain ⟨void, reprint⟩ := State.voidKey_none clerkU basket hl
    exact ⟨refused void, refused reprint⟩
  · obtain ⟨often, full, -⟩ := State.reprintKey_newest clerkU basket hl
    exact ⟨fun h => refused (often h), fun h queue => refused (full h queue)⟩
  · have add : State.addKey st (accepted s st) = (accepted s st).addChecked st b := addBasket idle b basket
    have refuse : ∀ {m : Message}, (accepted s st).addChecked st b = .error m →
        exec (.add st) s = .next (State.finish (s.refuseKey st m) s) := fun h => refused (add.trans h)
    have accept : ∀ {t : State}, (accepted s st).addChecked st b = .ok t → exec (.add st) s = .next (State.finish t s) :=
      fun h => key (add.trans h)
    intro refused' ch
    refine ⟨fun none => refuse (State.addChecked_no_selection (s := accepted s st) none b), fun sel hsel => ?_⟩
    obtain ⟨unstable, stable⟩ := State.addChecked_selection (s := accepted s st) hsel b
    refine ⟨fun mode state => refuse (unstable mode state), fun state => ?_⟩
    obtain ⟨unarmed, unpriced, priced⟩ := stable state
    refine ⟨fun armed => refuse (unarmed armed), fun armed outcome => refuse (unpriced armed outcome),
      fun price armed outcome => ?_⟩
    obtain ⟨unset, set⟩ := State.addChecked_priced (priced price armed outcome)
    refine ⟨fun clock => refuse (unset clock), fun clock => ?_⟩
    obtain ⟨lines, labels, passed⟩ := set clock
    refine ⟨fun full => refuse (lines full), fun room on queue => refuse (labels room on queue),
      fun room queue => ?_⟩
    have added := accept (passed room queue)
    obtain ⟨pool, channels, service, labels, parts⟩ := State.addLine_spec (s := accepted s st) idle b sel price
    generalize (accepted s st).addLine st b sel price = t at *
    refine ⟨t.finish s, (accepted s st).newLine st b sel price, added, pool, ?_, fun on => ?_, ?_, ?_, fun x hx => ?_, ?_, ?_⟩
    · exact congrArg (fun day => { (accepted s st).newLine st b sel price with useBy := day })
        ((accepted s st).useByDate_eq sel.version.shelfLife)
    · obtain ⟨j, hj, job⟩ := State.takeJob_itemJob (s := accepted s st) (st := st) (b := b)
        (l := (accepted s st).newLine st b sel price) (u := (accepted s st).onBasket b fun x =>
          { x with lines := x.lines ++ [(accepted s st).newLine st b sel price], total := x.total + price }) rfl
      rw [if_pos (show (accepted s st).channels[st].config.itemLabels = true from on)] at labels
      rw [← labels] at hj
      exact ⟨j, hj, job⟩
    · show t.channels[st] = _
      rw [channels, modAt_same]
      exact Channel.afterAdd_eq hsel
    · show t.service = _
      rw [service]
      unfold Basket.isEmpty
      simp only [List.isEmpty_iff]
      rfl
    · show t.channels[x] = _
      rw [channels, modAt_other _ _ _ _ hx]
      rfl
    · show t.labels.queue.length = _
      rw [labels]
      have on : (accepted s st).channels[st].config = s.channels[st].config := rfl
      rw [on]
      split
      · exact State.takeJob_length _ _
      · rfl
    · exact State.finish_of_eq parts

end Sys2Proof.Machine
end

section
/-! SUPPORT. What a calibration fault, STORE_FAULT and the hand-over of the calibration records leave (R19, R159, R160). -/

namespace Sys2Proof.Machine

/-! ## What an examination leaves beside its station -/

/-- What an operation at a station leaves: the channels, ports and runs of the others, the calibration status, and the commits that
wait, at the front of the queue. -/
structure StationLeft (s t : State) (st : Station) : Prop where
  others : ∀ x : Station, x ≠ st → t.channels[x] = s.channels[x] ∧ t.ports[x] = s.ports[x] ∧ t.runs[x] = s.runs[x]
  calStatus : t.channels[st].calStatus = s.channels[st].calStatus
  commits : s.totals.commits <+: t.totals.commits

/-- Nothing happened. -/
theorem StationLeft.same (s : State) (st : Station) : StationLeft s s st := ⟨fun _ _ => ⟨rfl, rfl, rfl⟩, rfl, List.prefix_rfl⟩

/-- One such operation after another. -/
theorem StationLeft.trans {s t u : State} {st : Station} (h : StationLeft s t st) (g : StationLeft t u st) : StationLeft s u st := by
  refine ⟨fun x hx => ?_, g.calStatus.trans h.calStatus, h.commits.trans g.commits⟩
  obtain ⟨channels, ports, runs⟩ := h.others x hx
  obtain ⟨channels', ports', runs'⟩ := g.others x hx
  exact ⟨channels'.trans channels, ports'.trans ports, runs'.trans runs⟩

/-- R140: the end of a run hands over at most one commit. -/
theorem RunEnded.commits {s t : State} {st : Station} {reason : EndReason} (h : RunEnded s t st reason) :
    s.totals.commits <+: t.totals.commits := by
  by_cases active : s.runs[st].state = .active
  · obtain ⟨-, totals, -⟩ := h.2 active
    rw [totals]
    split
    · exact List.prefix_append ..
    · exact List.prefix_rfl
  · rw [(h.1 active).2]

/-- R138: a wait for room that ends. -/
theorem State.stopWaiting_left (s : State) (st : Station) : StationLeft s (s.stopWaiting st) st := by
  obtain ⟨step, -, channels, totals, -⟩ := s.stopWaiting_spec st
  exact ⟨step.others, by rw [channels], by rw [totals]⟩

/-- R140: the end of a run. -/
theorem State.endRun_left (s : State) (st : Station) (reason : EndReason) : StationLeft s (s.endRun st reason) st := by
  obtain ⟨step, ended, -, -, channel, -⟩ := s.endRun_spec st reason
  unfold Channel.ofRunEnd at channel
  exact ⟨step.others, by rw [channel], ended.commits⟩

/-- R137: a trigger. -/
theorem State.trigger_left (s : State) (st : Station) (v : PluVersion) (price : Nat) :
    StationLeft s (s.trigger st v price) st := by
  obtain ⟨job, hjob⟩ : ∃ job, job =
    newJob .prepack s.channels[st].config (.prepack (s.runs[st].serial.getD 0)) (s.packContent st v price) := ⟨_, rfl⟩
  obtain ⟨u, hu⟩ : ∃ u, u = ((s.takeJob job).onChannel st fun c => { c with armed := false }).onRun st
    (Run.count s.labels.nextJob s.channels[st].shownWeight price (v.mode == .byWeight)) := ⟨_, rfl⟩
  have triggered : s.trigger st v price =
      if (u.stopWaiting st).runs[st].remaining = 0 then (u.stopWaiting st).endRun st .count else u.stopWaiting st := by
    rw [hu, hjob]; rfl
  have taken := s.takeJob_eq job
  generalize s.takeJob job = j at hu taken
  have counted : StationLeft s u st := by
    rw [hu, taken]
    refine ⟨fun x hx => ⟨modAt_other _ _ _ _ hx, rfl, modAt_other _ _ _ _ hx⟩, ?_, List.prefix_rfl⟩
    show (modAt s.channels st _)[st].calStatus = _
    rw [modAt_same]
  have waited := counted.trans (u.stopWaiting_left st)
  rw [triggered]
  split
  · exact waited.trans ((u.stopWaiting st).endRun_left st .count)
  · exact waited

/-- R136, R138: an examination. -/
theorem State.examine_left (s : State) (st : Station) : StationLeft s (s.examine st) st := by
  unfold State.examine
  split
  · split
    · exact s.stopWaiting_left st
    · split
      · exact s.trigger_left st _ _
      · refine ⟨fun x hx => ⟨rfl, modAt_other _ _ _ _ hx, modAt_other _ _ _ _ hx⟩, rfl, List.prefix_rfl⟩
  · exact .same ..

/-! ## A calibration status that becomes FAULT (R19) -/

/-- R19: what a fault of a station's calibration leaves. -/
structure FaultStep (s t : State) (st : Station) : Prop where
  entered : CalFaultEntered s t st
  kept : CounterKept s t
  store : t.store = s.store
  others : ∀ x : Station, x ≠ st → t.channels[x] = s.channels[x] ∧ t.ports[x] = s.ports[x] ∧ t.runs[x] = s.runs[x]
  commits : s.totals.commits <+: t.totals.commits

/-- What an examination leaves of the store and of what no store operation changes. -/
theorem ExaminationStep.kept {s t : State} {st : Station} (h : ExaminationStep s t st) : CounterKept s t ∧ t.store = s.store := by
  rw [h.parts]
  exact ⟨⟨rfl, rfl, rfl, rfl, rfl⟩, rfl⟩

/-- R136: the examination of a channel that is not STABLE leaves the channels. -/
theorem State.examine_channels_of_not_stable {s : State} {st : Station} (h : s.channels[st].state ≠ .stable) :
    (s.examine st).channels = s.channels := by
  rw [State.examine_of_not_stable h]
  split
  · exact (s.stopWaiting_spec st).2.2.1
  · rfl

/-- R19: a fault is the channel's, its display, and one examination. -/
theorem State.calFault_step (s : State) (st : Station) : FaultStep s (s.calFault st) st := by
  obtain ⟨u, hu⟩ : ∃ u, u = s.onChannel st fun c => c.calibrationFault (s.ports[st].state == .present) := ⟨_, rfl⟩
  obtain ⟨v, hv⟩ : ∃ v, v = u.refresh st := ⟨_, rfl⟩
  have fault : s.calFault st = v.examine st := by rw [hv, hu]; rfl
  obtain ⟨refreshed, -⟩ := u.refresh_spec st
  have refreshStep := StationStep.refresh u st
  rw [← hv] at refreshed refreshStep
  have channels : v.channels = u.channels := by rw [refreshed]
  have totals : v.totals = s.totals := by rw [refreshed, hu]; rfl
  have runs : v.runs = s.runs := by rw [refreshed, hu]; rfl
  have channel : v.channels[st] = s.channels[st].calibrationFault (s.ports[st].state == .present) := by
    rw [channels, hu]; exact modAt_same _ _ _
  have displayed : ExaminationStep s v st :=
    ExaminationStep.trans (t := u) (by rw [hu]; exact ⟨rfl, rfl⟩) (refreshStep.examination (by rw [refreshed]))
  obtain ⟨examined, weighed⟩ := v.examine_examination st
  have left := v.examine_left st
  obtain ⟨kept, store⟩ := (displayed.trans examined).kept
  rw [fault]
  refine ⟨⟨?_, ?_, fun present => ?_, fun absent idle => ?_⟩, kept, store, fun x hx => ?_, ?_⟩
  · rw [left.calStatus, channel]
    unfold Channel.calibrationFault
    split <;> rfl
  · rw [weighed.cal, channel]
    unfold Channel.calibrationFault
    split <;> rfl
  · have faulted : v.channels[st] = s.channels[st].calibrationFault true := by
      rw [channel, present]; rfl
    rw [State.examine_channels_of_not_stable (by rw [faulted]; nofun), faulted]
    exact ⟨rfl, rfl⟩
  · rw [State.examine_not_active (by rw [runs]; exact idle), channel, beq_eq_false_iff_ne.2 absent]
    rfl
  · obtain ⟨a, b, c⟩ := left.others x hx
    obtain ⟨d, e, f⟩ := refreshStep.others x hx
    rw [a, b, c, d, e, f, hu]
    exact ⟨modAt_other _ _ _ _ hx, rfl, rfl⟩
  · rw [← totals]
    exact left.commits

/-- `CalFaultEntered` speaks of the station's port state, its run and its channel alone. -/
theorem CalFaultEntered.congr {s s' t t' : State} {st : Station} (h : CalFaultEntered s t st)
    (port : s'.ports[st].state = s.ports[st].state) (run : s'.runs[st].state = s.runs[st].state)
    (before : s'.channels[st] = s.channels[st]) (after : t'.channels[st] = t.channels[st]) : CalFaultEntered s' t' st := by
  unfold CalFaultEntered at h ⊢
  rw [port, run, before, after]
  exact h

/-! ## The records handed over, one station after another (R19, R160) -/

/-- R19: what the record that was found makes of a station's channel. -/
def CalHanded (s t : State) (x : Station × CalFound) : Prop :=
  (∀ r, x.2 = .valid r → t.channels[x.1] = { s.channels[x.1] with calStatus := .valid, cal := some r }) ∧
  (x.2 = .missing ∨ x.2 = .damaged → CalFaultEntered s t x.1)

/-- What was found of a station's record speaks of that station alone. -/
theorem CalHanded.congr {s s' t t' : State} {x : Station × CalFound} (h : CalHanded s t x)
    (port : s'.ports[x.1].state = s.ports[x.1].state) (run : s'.runs[x.1].state = s.runs[x.1].state)
    (before : s'.channels[x.1] = s.channels[x.1]) (after : t'.channels[x.1] = t.channels[x.1]) : CalHanded s' t' x := by
  refine ⟨fun r hr => ?_, fun fault => (h.2 fault).congr port run before after⟩
  rw [after, before]
  exact h.1 r hr

/-- What the hand-over of records leaves of the part, the stations apart. -/
structure HandedOver (s t : State) : Prop where
  kept : CounterKept s t
  store : t.store = s.store
  commits : s.totals.commits <+: t.totals.commits

/-- Nothing was handed over. -/
theorem HandedOver.same (s : State) : HandedOver s s := ⟨⟨rfl, rfl, rfl, rfl, rfl⟩, rfl, List.prefix_rfl⟩

/-- What no store operation changes, over two steps. -/
theorem CounterKept.trans {s t u : State} (h : CounterKept s t) (g : CounterKept t u) : CounterKept s u := by
  obtain ⟨a, b, c, d, e⟩ := h
  obtain ⟨a', b', c', d', e'⟩ := g
  exact ⟨a'.trans a, b'.trans b, c'.trans c, d'.trans d, e'.trans e⟩

/-- One hand-over after another. -/
theorem HandedOver.trans {s t u : State} (h : HandedOver s t) (g : HandedOver t u) : HandedOver s u :=
  ⟨h.kept.trans g.kept, g.store.trans h.store, h.commits.trans g.commits⟩

/-- R19: one record. -/
theorem State.handCal_spec (s : State) (x : Station × CalFound) :
    HandedOver s (s.handCal x) ∧ CalHanded s (s.handCal x) x ∧
    ∀ y : Station, y ≠ x.1 → (s.handCal x).channels[y] = s.channels[y] ∧ (s.handCal x).ports[y] = s.ports[y] ∧
      (s.handCal x).runs[y] = s.runs[y] := by
  obtain ⟨st, found⟩ := x
  have fault := s.calFault_step st
  cases found with
  | valid r =>
    refine ⟨⟨⟨rfl, rfl, rfl, rfl, rfl⟩, rfl, List.prefix_rfl⟩, ⟨fun r' h => ?_, nofun⟩,
      fun y hy => ⟨modAt_other _ _ _ _ hy, rfl, rfl⟩⟩
    obtain rfl : r = r' := by injection h
    exact modAt_same _ _ _
  | missing => exact ⟨⟨fault.kept, fault.store, fault.commits⟩, ⟨nofun, fun _ => fault.entered⟩, fault.others⟩
  | damaged => exact ⟨⟨fault.kept, fault.store, fault.commits⟩, ⟨nofun, fun _ => fault.entered⟩, fault.others⟩

/-- R160, stage 3: records of different stations, each as its own hand-over. -/
theorem State.foldl_handCal_spec : ∀ (xs : List (Station × CalFound)) (s : State), (xs.map Prod.fst).Nodup →
    HandedOver s (xs.foldl State.handCal s) ∧ (∀ x ∈ xs, CalHanded s (xs.foldl State.handCal s) x) ∧
    ∀ y : Station, y ∉ xs.map Prod.fst → (xs.foldl State.handCal s).channels[y] = s.channels[y]
  | [], s, _ => ⟨.same s, nofun, fun _ _ => rfl⟩
  | x :: xs, s, distinct => by
    obtain ⟨fresh, distinct⟩ := List.nodup_cons.1 distinct
    obtain ⟨one, handed, others⟩ := s.handCal_spec x
    obtain ⟨more, rest, untouched⟩ := State.foldl_handCal_spec xs (s.handCal x) distinct
    rw [List.foldl_cons]
    refine ⟨one.trans more, fun y hy => ?_, fun y hy => ?_⟩
    · rcases List.mem_cons.1 hy with rfl | hy
      · exact handed.congr rfl rfl rfl (untouched _ fresh)
      · have other : y.1 ≠ x.1 := fun same => fresh (same ▸ List.mem_map_of_mem hy)
        obtain ⟨channel, port, run⟩ := others y.1 other
        exact (rest y hy).congr (by rw [port]) (by rw [run]) channel.symm rfl
    · rw [List.map_cons, List.mem_cons, not_or] at hy
      rw [untouched y hy.2, (others y hy.1).1]

/-! ## STORE_FAULT (R159) -/

/-- R173: the reply of the request in execution takes its place. -/
theorem HostLink.answer_replies (l : HostLink) (payload : List Byte) :
    (l.answer payload).replies = fillAnswer payload false l.replies := by
  unfold HostLink.answer HostLink.beginNext
  split
  · rfl
  · split <;> rfl

/-- R159: the request that waits for a store read is refused. -/
theorem HostLink.refuseWaiting_waiting {l : HostLink} {r : Request} (h : l.executing = some r) (waiting : r.waiting = true) :
    l.refuseWaiting = l.answer [14] := by
  unfold HostLink.refuseWaiting
  rw [h]
  exact if_pos waiting

/-- R159: what STORE_FAULT leaves. -/
theorem State.storeFault_spec (u : State) :
    CounterKept u u.storeFault ∧ (∀ st : Station, CalFaultEntered u u.storeFault st) ∧
    u.storeFault.store = { u.store with state := .storeFault, op := none, waiting := [] } ∧
    (∀ r, u.link.executing = some r → r.waiting = true → u.storeFault.link.replies = fillAnswer [14] false u.link.replies) ∧
    u.totals.commits <+: u.storeFault.totals.commits := by
  obtain ⟨v, hv⟩ : ∃ v, v = u.onStore fun m => { m with state := .storeFault, op := none, waiting := [] } := ⟨_, rfl⟩
  obtain ⟨w, hw⟩ : ∃ w, w = stations.foldl State.calFault v := ⟨_, rfl⟩
  have fault : u.storeFault = w.onLink (·.refuseWaiting) := by rw [hw, hv]; rfl
  have handed : w = (stations.map fun st => (st, CalFound.missing)).foldl State.handCal v := by
    rw [hw, List.foldl_map]
    rfl
  obtain ⟨left, each, -⟩ := State.foldl_handCal_spec (stations.map fun st => (st, CalFound.missing)) v (by decide)
  rw [← handed] at left each
  have quiet : calm w = calm v := by rw [hw]; exact calm_fold calm_calFault ..
  have executing : w.link.executing = u.link.executing := (congrArg Calm.executing quiet).trans (by rw [hv]; rfl)
  have replies : w.link.replies = u.link.replies := (congrArg Calm.replies quiet).trans (by rw [hv]; rfl)
  obtain ⟨kept, store, commits⟩ := left
  rw [fault]
  refine ⟨?_, fun st => ?_, ?_, fun r hr waiting => ?_, ?_⟩
  · rw [hv] at kept
    exact kept
  · have present : (st, CalFound.missing) ∈ stations.map fun st => (st, CalFound.missing) := by
      exact List.mem_map.2 ⟨st, by revert st; decide, rfl⟩
    have entered := (each _ present).2 (.inl rfl)
    rw [hv] at entered
    exact entered
  · exact store.trans (by rw [hv]; rfl)
  · show w.link.refuseWaiting.replies = _
    rw [HostLink.refuseWaiting_waiting (executing.trans hr) waiting, HostLink.answer_replies, replies]
  · rw [hv] at commits
    exact commits

end Sys2Proof.Machine
end

section
/-! SUPPORT. Store operations that complete (R150, R153, R155, R162 to R169), and a FRAM that stops answering (R158, R159). -/

namespace Sys2Proof.Machine

/-! ## A write or read in progress completes -/

/-- A command that is an event which can happen. -/
theorem State.event_of {s t : State} {f : State → Option State} {o : Host.Outcome State Fault Refusal} (hp : s.powered = true)
    (event : o = s.event f) (happens : f s = some t) : o = .next (t.finish s) :=
  event.trans (State.event_some hp happens)

/-- The port becomes free. -/
theorem State.clearOp_eq (s : State) : s.clearOp = onPortOf s none := rfl

/-- R174: NOT_FOUND. -/
theorem refusal_notFound : refusal .notFound = [5] := rfl

/-- R162: a raise completes. -/
theorem State.raiseMark_complete {s : State} (hp : s.powered = true) (op : s.store.op = some .raiseMark) :
    s.opPass = s.pass.writeMark (raisedMark s.store.highMark) ∧
    exec .highMarkRaiseComplete s = .next (State.finish { afterPass s s.opPass with
      store := { (afterPass s s.opPass).store with op := none, highMark := raisedMark s.store.highMark } } s) := by
  have pass : s.opPass = s.pass.writeMark (raisedMark s.store.highMark) := by unfold State.opPass; rw [op]
  have done : exec .highMarkRaiseComplete s = .next (s.markRaised.finish s) :=
    State.event_of (o := execHighMarkRaiseComplete s) hp rfl (by rw [op])
  refine ⟨pass, done.trans ?_⟩
  unfold State.markRaised
  rw [State.takePass_eq, ← pass]
  rfl

/-- R167: a calibration write completes. -/
theorem State.calWrite_complete {s : State} {w : CalWrite} (hp : s.powered = true) (op : s.store.op = some (.calWrite w)) :
    s.opPass = s.pass.writeCal w ∧
    exec .calibrationWriteComplete s = .next (State.finish { afterPass s s.opPass with
      store := { (afterPass s s.opPass).store with
        op := none, eventCounters := modAt s.store.eventCounters w.channel fun _ => w.counter } } s) := by
  have pass : s.opPass = s.pass.writeCal w := by unfold State.opPass; rw [op]
  have done : exec .calibrationWriteComplete s = .next ((s.calWritten w).finish s) :=
    State.event_of (o := execCalibrationWriteComplete s) hp rfl (by rw [op])
  refine ⟨pass, done.trans ?_⟩
  unfold State.calWritten
  rw [State.takePass_eq, ← pass]
  rfl

/-- R169: a read of a calibration record completes. -/
theorem State.readCalibration_complete {s : State} {st : Station} (hp : s.powered = true)
    (op : s.store.op = some (.readCalibration st)) :
    let x := readCalPass s.pass st
    let t := onPortOf (afterPass s s.opPass) none
    s.opPass = x.1 ∧
    (x.1.failed = true → exec .calibrationReadComplete s = .next (t.storeFault.finish s)) ∧
    (x.1.failed = false → exec .calibrationReadComplete s =
      .next (answered s (if x.2.1 = .damaged then t.calFault st else t) (0 :: (x.2.1.bytes ++ u4 x.2.2)))) := by
  intro x t
  have pass : s.opPass = x.1 := by unfold State.opPass; rw [op]
  have done : exec .calibrationReadComplete s = .next ((s.calRead st).finish s) :=
    State.event_of (o := execCalibrationReadComplete s) hp rfl (by rw [op])
  have read : s.calRead st = if x.1.failed then t.storeFault
      else (if x.2.1 = .damaged then t.calFault st else t).onLink (·.answer (0 :: (x.2.1.bytes ++ u4 x.2.2))) := by
    show s.calRead st = if x.1.failed then (onPortOf (afterPass s s.opPass) none).storeFault else _
    have reads : readCalPass s.pass st = x := rfl
    unfold State.calRead
    dsimp only
    rw [reads, State.takePass_eq, ← pass, State.clearOp_eq, okReply_eq]
    clear_value x
    rfl
  refine ⟨pass, fun failed => ?_, fun good => ?_⟩
  · rw [done, read, if_pos failed]
  · rw [done, read, if_neg (ne_true_of_eq_false good)]
    rfl

/-- R155: a read of the last-period record completes. -/
theorem State.readLastPeriod_complete {s : State} (hp : s.powered = true) (op : s.store.op = some .readLastPeriod) :
    let x := s.pass.readLastPeriod .totalsRead
    s.opPass = x.1 ∧
    exec .lastPeriodReadComplete s =
      .next (answered s (onPortOf (afterPass s s.opPass) none) (if x.2.z = 0 then [5] else 0 :: x.2.bytes)) := by
  intro x
  have pass : s.opPass = x.1 := by unfold State.opPass; rw [op]
  have done : exec .lastPeriodReadComplete s = .next (s.lastPeriodRead.finish s) :=
    State.event_of (o := execLastPeriodReadComplete s) hp rfl (by rw [op])
  refine ⟨pass, done.trans ?_⟩
  have read : s.pass.readLastPeriod .totalsRead = x := rfl
  unfold State.lastPeriodRead
  dsimp only
  rw [read, State.takePass_eq, ← pass, State.clearOp_eq, okReply_eq, refusal_notFound]
  clear_value x
  rfl

/-- R150: a commit's write completes. -/
theorem State.commit_complete {s : State} {j : CommitJournal} {phase : CommitPhase} {written : List (Nat × Acc)}
    (hp : s.powered = true) (op : s.store.op = some (.commit j phase written)) :
    s.opPass = commitPass j phase s.pass ∧
    exec .commitWriteComplete s = .next ((s.commitWritten j phase written).finish s) :=
  ⟨by unfold State.opPass; rw [op], State.event_of (o := execCommitWriteComplete s) hp rfl (by rw [op])⟩

/-- R150, stage 4: the images hold what was written. -/
theorem State.commitComplete_eq (s : State) (j : CommitJournal) (written : List (Nat × Acc)) :
    s.commitComplete j written = State.offerAll { s with
      totals := { s.totals with
        images := s.totals.images.map fun i => { i with 
          accs := written.foldl (fun xs (w : Nat × Acc) => setAcc xs (accAt w.1) w.2) i.accs },
        commits := s.totals.commits.tail, lastCompleted := j.applyNumber },
      store := { s.store with op := none } } := by
  have images : (s.totals.images.map fun i =>
        { i with accs := written.foldl (fun xs (w : Nat × Acc) => setAcc xs (accAt w.1) w.2) s.totals.accs }) =
      s.totals.images.map fun i => { i with accs := written.foldl (fun xs (w : Nat × Acc) => setAcc xs (accAt w.1) w.2) i.accs } := by
    unfold Totals.accs
    cases s.totals.images <;> rfl
  rw [← images]
  rfl

/-- R150, stage 1: the entry of a commit stands in the journal. -/
theorem State.commit_journal_complete {s : State} {j : CommitJournal} {written : List (Nat × Acc)} (hp : s.powered = true)
    (op : s.store.op = some (.commit j .journal written)) :
    s.opPass = s.pass.writeJournal j.kind.journal j.applyNumber j.content ∧
    exec .commitWriteComplete s = .next (State.finish { afterPass s s.opPass with
      totals := { s.totals with journalApply := j.applyNumber },
      store := { (afterPass s s.opPass).store with
        op := some (.commit j (if j.entries = [] then .done else .apply j.entries) written) } } s) := by
  obtain ⟨pass, done⟩ := State.commit_complete hp op
  refine ⟨pass, done.trans ?_⟩
  unfold State.commitWritten
  dsimp only
  rw [State.takePass_eq, ← pass, applyNext_eq]
  rfl

/-- R150, stage 2: a touched accumulator is applied. -/
theorem State.commit_apply_complete {s : State} {j : CommitJournal} {e : DeltaEntry} {rest : List DeltaEntry}
    {written : List (Nat × Acc)} (hp : s.powered = true) (op : s.store.op = some (.commit j (.apply (e :: rest)) written)) :
    let y := applyEntry s.pass j.applyNumber e
    s.opPass = y.1 ∧
    exec .commitWriteComplete s = .next (State.finish (onPortOf (afterPass s s.opPass)
      (some (.commit j (if rest = [] then .done else .apply rest) (written ++ [(e.acc.index, y.2)])))) s) := by
  intro y
  obtain ⟨pass, done⟩ := State.commit_complete hp op
  refine ⟨pass, done.trans ?_⟩
  unfold State.commitWritten
  dsimp only
  rw [State.takePass_eq, ← pass, applyNext_eq]
  rfl

/-- R150, stages 3 and 4: the DONE mark of a commit stands in the journal. -/
theorem State.commit_done_complete {s : State} {j : CommitJournal} {phase : CommitPhase} {written : List (Nat × Acc)}
    (hp : s.powered = true) (op : s.store.op = some (.commit j phase written)) (last : phase = .done ∨ phase = .apply []) :
    s.opPass = s.pass.doneJournal j.kind.journal j.applyNumber j.content ∧
    exec .commitWriteComplete s = .next ((afterPass s s.opPass).commitComplete j written |>.finish s) := by
  obtain ⟨pass, done⟩ := State.commit_complete hp op
  rcases last with rfl | rfl
  all_goals
    refine ⟨pass, done.trans ?_⟩
    unfold State.commitWritten
    dsimp only
    rw [State.takePass_eq, ← pass]

/-- R153: a write of a period close completes. -/
theorem State.close_complete {s : State} {j : CloseJournal} {phase : ClosePhase} {grand : Grand} (hp : s.powered = true)
    (op : s.store.op = some (.close j phase grand)) :
    s.opPass = closePass j phase s.pass ∧
    exec .periodCloseWriteComplete s = .next ((s.closeWritten j phase grand).finish s) :=
  ⟨by unfold State.opPass; rw [op], State.event_of (o := execPeriodCloseWriteComplete s) hp rfl (by rw [op])⟩

/-- R153: what each phase of a period close goes on with. -/
theorem State.closeWritten_cases {s : State} {j : CloseJournal} {phase : ClosePhase} {grand : Grand}
    (pass : s.opPass = closePass j phase s.pass) :
    let t := afterPass s s.opPass
    (phase = .journal → s.closeWritten j phase grand = onPortOf t (some (.close j .lastPeriod grand))) ∧
    (phase = .lastPeriod → s.closeWritten j phase grand = onPortOf t (some (.close j .grand grand))) ∧
    (phase = .grand → (∀ g, (closeGrand s.pass j).2 = some g →
        s.closeWritten j phase grand = onPortOf t (some (.close j .zeroing g))) ∧
      ((closeGrand s.pass j).2 = none → s.closeWritten j phase grand = t.storeFault)) ∧
    (phase = .zeroing → s.closeWritten j phase grand = onPortOf t (some (.close j .done grand))) ∧
    (phase = .done → s.closeWritten j phase grand = t.closeComplete j grand) := by
  intro t
  have taken : s.takePass (closePass j phase s.pass) = t := by rw [State.takePass_eq, ← pass]
  unfold State.closeWritten
  dsimp only
  rw [taken]
  refine ⟨?_, ?_, ?_, ?_, ?_⟩
  all_goals rintro rfl
  · rfl
  · rfl
  · refine ⟨fun g found => ?_, fun none => ?_⟩
    · dsimp only
      rw [found]
      rfl
    · dsimp only
      rw [none]
  · rfl
  · rfl

/-- R153, stage 3: the grand total as both copies give it, and as the close leaves it. -/
theorem closeGrand_cases (p : Pass) (j : CloseJournal) :
    let x := p.readPair .periodClose 42 2 parseGrand Grand.bytes largerGrand
    (x.2 = none → closeGrand p j = (x.1, none)) ∧
    (∀ g, x.2 = some g → j.period.z ≤ g.z → closeGrand p j = (x.1, some g)) ∧
    (∀ g, x.2 = some g → g.z < j.period.z →
      let new := Grand.close g.value g.saturated j.period.value j.period.z
      closeGrand p j = (x.1.writeGrand new, some new)) := by
  intro x
  have read : p.readPair .periodClose grandWord 2 parseGrand Grand.bytes largerGrand = x := rfl
  unfold closeGrand
  rw [read]
  clear_value x
  obtain ⟨q, found⟩ := x
  refine ⟨?_, ?_, ?_⟩
  · rintro rfl
    rfl
  · rintro g rfl least
    exact if_neg (Nat.not_lt.2 least)
  · rintro g rfl less
    exact if_pos less

/-- R166: a clear completes. -/
theorem State.clear_complete {s : State} (hp : s.powered = true) (op : s.store.op = some .clear) :
    s.opPass = (s.pass.writeJournal 5 s.totals.journalApply []).clearRest ∧
    exec .clearComplete s = .next (State.finish (State.raise { afterPass s s.opPass with
      totals := { s.totals with
        images := s.totals.images.map fun i => { i with accs := [] }, journalApply := 0, lastCompleted := 0 },
      store := { (afterPass s s.opPass).store with op := none, state := .verified, clearAccepted := false } }
      .storeReady [0]) s) := by
  have pass : s.opPass = clearPass s.totals.journalApply s.pass := by unfold State.opPass; rw [op]
  have done : exec .clearComplete s = .next (s.clearStoreComplete.finish s) :=
    State.event_of (o := execClearComplete s) hp rfl (by rw [op])
  refine ⟨pass, done.trans ?_⟩
  unfold State.clearStoreComplete
  rw [State.takePass_eq, ← pass]
  rfl

/-! ## A FRAM that stops answering (R158, R159) -/

/-- R159, log 56: with an operation in flight its write is cut short and the store faults. -/
theorem State.framNotAnswering_inFlight {s : State} (hp : s.powered = true) (op : s.store.op.isSome = true) (after : Bool) :
    exec (.framNotAnswering after) s = .next ((s.cutWrites.storeFault.onStore fun m => { m with framAnswers := after }).finish s) :=
  State.event_of (o := execFramNotAnswering after s) hp rfl (by dsimp only; rw [if_pos op])

/-- R159: with none in flight later status reads alone are answered or not. -/
theorem State.framNotAnswering_idle {s : State} (hp : s.powered = true) (op : s.store.op = none) (after : Bool) :
    exec (.framNotAnswering after) s = .next ((s.onStore fun m => { m with framAnswers := after }).finish s) :=
  State.event_of (o := execFramNotAnswering after s) hp rfl (by dsimp only; rw [op]; rfl)

/-- R159, log 56: what a FRAM that stops answering leaves of an operation in flight. -/
theorem State.cutWrites_storeFault_spec (s : State) :
    CounterKept s s.cutWrites.storeFault ∧ (∀ st : Station, CalFaultEntered s s.cutWrites.storeFault st) ∧
    s.cutWrites.storeFault.store =
      { s.store with fram := s.cutWrites.store.fram, state := .storeFault, op := none, waiting := [] } ∧
    (∀ r, s.link.executing = some r → r.waiting = true →
      s.cutWrites.storeFault.link.replies = fillAnswer [14] false s.link.replies) ∧
    s.totals.commits <+: s.cutWrites.storeFault.totals.commits :=
  s.cutWrites.storeFault_spec

/-- Settles O54: each completion is its pass and what the operation was for; a fault is one of every channel. -/
theorem storeOperationsCompleteOrFault : Obligations.StoreOperationsCompleteOrFault := by
  unfold Obligations.StoreOperationsCompleteOrFault
  refine ⟨fun s hp => ?_, fun u st => ?_, fun u => ?_, fun s after hp => ⟨fun op => ?_, fun op => ?_⟩⟩
  · refine ⟨fun op => State.raiseMark_complete hp op, fun w op => ?_, fun st op => ?_, fun op => State.readLastPeriod_complete hp op,
      fun j written op => State.commit_journal_complete hp op, fun j e rest written op => State.commit_apply_complete hp op,
      fun j phase written op last => ?_, fun j phase grand op => ?_, fun op => State.clear_complete hp op⟩
    · rw [show 25 + 2 * w.channel.val = 24 + 2 * w.channel.val + 1 by omega]
      exact State.calWrite_complete hp op
    · obtain ⟨pass, failed, read⟩ := State.readCalibration_complete hp op
      refine ⟨pass, failed, fun good => ⟨fun r found => ?_, fun found => ?_, fun found => ?_⟩⟩
      all_goals rw [read good, found]
      · rfl
      · rfl
      · rfl
    · obtain ⟨pass, done⟩ := State.commit_done_complete hp op last
      refine ⟨pass, ?_⟩
      rw [State.commitComplete_eq] at done
      exact done
    · obtain ⟨pass, done⟩ := State.close_complete hp op
      obtain ⟨journal, lastPeriod, grandTotal, zeroing, last⟩ := State.closeWritten_cases (grand := grand) pass
      obtain ⟨unread, kept, summed⟩ := closeGrand_cases s.pass j
      have completes : ∀ {u : State}, s.closeWritten j phase grand = u →
          exec .periodCloseWriteComplete s = .next (u.finish s) := fun h => h ▸ done
      refine ⟨fun h => ?_, fun h => ?_, fun h => ?_, fun h => ?_, fun h => ?_⟩
      · exact ⟨by rw [pass, h]; rfl, completes (journal h)⟩
      · exact ⟨by rw [pass, h]; rfl, completes (lastPeriod h)⟩
      · have grandPass : s.opPass = (closeGrand s.pass j).1 := by rw [pass, h]; rfl
        refine ⟨fun none => ?_, fun g found least => ?_, fun g found less => ?_⟩
        · have effect := unread none
          exact ⟨by rw [grandPass, effect], completes ((grandTotal h).2 (by rw [effect]))⟩
        · have effect := kept g found least
          exact ⟨by rw [grandPass, effect], completes ((grandTotal h).1 g (by rw [effect]))⟩
        · have effect := summed g found less
          rw [Grand.close_eq] at effect
          exact ⟨by rw [grandPass, effect]; rfl, completes ((grandTotal h).1 _ (congrArg Prod.snd effect))⟩
      · exact ⟨by rw [pass, h]; rfl, completes (zeroing h)⟩
      · exact ⟨by rw [pass, h]; rfl, completes (last h)⟩
  · obtain ⟨entered, kept, store, others, -⟩ := u.calFault_step st
    exact ⟨entered, kept, store, others⟩
  · obtain ⟨kept, entered, store, replies, -⟩ := u.storeFault_spec
    exact ⟨kept, entered, store, replies⟩
  · exact State.framNotAnswering_idle hp op after
  · obtain ⟨kept, entered, store, replies, commits⟩ := s.cutWrites_storeFault_spec
    have done := State.framNotAnswering_inFlight hp op after
    obtain ⟨fram, hfram⟩ : ∃ fram, fram = s.cutWrites.store.fram := ⟨_, rfl⟩
    generalize s.cutWrites.storeFault = t at *
    have cut : ((t.onStore fun m => { m with framAnswers := after }).finish s).store.fram = s.cutWrites.store.fram := by
      show t.store.fram = _
      rw [store]
    refine ⟨_, done, kept, ?_, ?_, fun wf a outside => ?_, fun wf w write a outside => ?_, fun wf => ?_, ?_, entered,
      fun r request waiting => ?_⟩
    · show t.store.state = _
      rw [store]
    · show { t.store with framAnswers := after } = { s.store with
        fram := t.store.fram, framAnswers := after, state := .storeFault, op := none, waiting := [] }
      rw [store]
    · rw [cut]
      exact (State.cutWrites_fram wf).2 a outside
    · rw [cut]
      refine State.cutWrites_calWrite wf write ?_
      unfold counterWord
      omega
    · rw [cut]
      obtain ⟨word, apart⟩ := word_cutShort s.cutTrace (m := s.store.fram) (c := Config.cutWord s.freeCount)
        (Config.wordsDone s.freeCount) wf
      exact ⟨word, fun w room other => (apart w room other).imp_right State.cutTrace_subset⟩
    · exact (List.prefix_iff_eq_take.1 commits).symm
    · exact (congrArg Calm.replies (calm_finish (t.onStore fun m => { m with framAnswers := after }) s)).trans
        (replies r request waiting)

end Sys2Proof.Machine
end

section
/-! SUPPORT. The calibration record as it is stored (R168), and what reading the store's records gives (R160, R163). -/

namespace Sys2Proof.Machine

/-! ## Numbers written back (R182) -/

/-- The bytes of the number that bytes hold. -/
theorem leBytes_leNat : ∀ bs : List Byte, leBytes bs.length (leNat bs) = bs
  | [] => rfl
  | b :: bs => by
    have front : BitVec.ofNat 8 (leNat (b :: bs)) = b := by
      apply BitVec.eq_of_toNat_eq
      rw [BitVec.toNat_ofNat, leNat]
      omega
    have back : leNat (b :: bs) / 256 = leNat bs := by
      rw [leNat]
      omega
    rw [List.length_cons, leBytes, front, back, leBytes_leNat bs]

/-- The number that bytes hold fits them. -/
theorem leNat_lt : ∀ bs : List Byte, leNat bs < 256 ^ bs.length
  | [] => Nat.one_pos
  | b :: bs => by
    have back := leNat_lt bs
    rw [leNat, List.length_cons, Nat.pow_succ]
    omega

/-- A number read off the front stood there. -/
theorem num_some {k n : Nat} {bs rest : List Byte} (h : num k bs = some (n, rest)) : bs = leBytes k n ++ rest ∧ n < 256 ^ k := by
  unfold num at h
  split at h
  · cases h
  · next long =>
    have length : (bs.take k).length = k := List.length_take_of_le (Nat.not_lt.1 long)
    obtain ⟨rfl, rfl⟩ : leNat (bs.take k) = n ∧ bs.drop k = rest := by simpa using h
    have written := leBytes_leNat (bs.take k)
    have fits := leNat_lt (bs.take k)
    rw [length] at written fits
    rw [written, List.take_append_drop]
    exact ⟨rfl, fits⟩

/-- A signed number of four bytes read off the front stood there. -/
theorem snum_some {i : Int} {bs rest : List Byte} (h : snum 4 bs = some (i, rest)) : bs = i4 i ++ rest := by
  unfold snum at h
  split at h
  · cases h
  · next n r read =>
    obtain ⟨rfl, fits⟩ := num_some read
    obtain ⟨rfl, rfl⟩ : signedOf 4 n = i ∧ r = rest := by simpa using h
    have back : (signedOf 4 n % (256 ^ 4 : Nat)).toNat = n := by
      have width : (256 ^ 4 : Nat) = 4294967296 := rfl
      rw [width] at fits ⊢
      unfold signedOf
      rw [width]
      split <;> omega
    unfold i4 leInt
    rw [back]

/-- Two readings in a row. -/
theorem both_some {α β : Type} {p : Parser α} {q : Parser β} {x : α × β} {bs rest : List Byte} (h : both p q bs = some (x, rest)) :
    ∃ mid, p bs = some (x.1, mid) ∧ q mid = some (x.2, rest) := by
  unfold both at h
  split at h
  · cases h
  · next a r first =>
    split at h
    · cases h
    · next b r' second =>
      obtain ⟨rfl, rfl⟩ : (a, b) = x ∧ r' = rest := by simpa using h
      exact ⟨r, first, second⟩

/-! ## The calibration record (R168) -/

/-- R168: the fields of a record are read off the front. -/
theorem calRecord_bytes {c : CalRecord} (h : c.fits) (rest : List Byte) : calRecord (c.bytes ++ rest) = some (c, rest) := by
  obtain ⟨low, high, span, max, rangeMode, e1, e2, max1⟩ := h
  simp only [both, calRecord, mapP, CalRecord.bytes, List.append_assoc, snum_i4 low high,
    u4, u2, u1, num_leBytes (k := 4) span, num_leBytes (k := 2) max, num_leBytes (k := 1) rangeMode, num_leBytes (k := 1) e1,
    num_leBytes (k := 1) e2, num_leBytes (k := 2) max1]

/-- R168: a record that was read stood at the front. -/
theorem calRecord_some {c : CalRecord} {bs rest : List Byte} (h : calRecord bs = some (c, rest)) : bs = c.bytes ++ rest := by
  unfold calRecord mapP at h
  split at h
  · cases h
  · next x r fields =>
    obtain ⟨rfl, rfl⟩ : _ = c ∧ r = rest := by simpa using h
    obtain ⟨_, zc, fields⟩ := both_some fields
    obtain ⟨_, span, fields⟩ := both_some fields
    obtain ⟨_, max, fields⟩ := both_some fields
    obtain ⟨_, rangeMode, fields⟩ := both_some fields
    obtain ⟨_, e1, fields⟩ := both_some fields
    obtain ⟨_, e2, max1⟩ := both_some fields
    rw [snum_some zc, (num_some span).1, (num_some max).1, (num_some rangeMode).1, (num_some e1).1, (num_some e2).1,
      (num_some max1).1]
    simp only [CalRecord.bytes, u4, u2, u1, List.append_assoc]

/-- R168: the fields of a valid record fit their bytes. -/
theorem CalRecord.fits_of_valid {c : CalRecord} (h : c.valid = true) : c.fits := by
  obtain ⟨low, high, -, span, -, max, division, range⟩ := c.valid_iff.1 h
  have e1 : c.e1 ≤ 20 := by
    simp only [List.mem_cons, List.not_mem_nil, or_false] at division
    omega
  have upper : c.rangeMode < 256 ∧ c.e2 < 256 ∧ c.max1 < 65536 := by
    rcases range with ⟨mode, e2, max1⟩ | ⟨mode, pair, -, max1⟩
    · omega
    · simp only [List.mem_cons, List.not_mem_nil, Prod.mk.injEq, or_false] at pair
      omega
  exact ⟨by omega, by omega, by omega, by omega, upper.1, by omega, upper.2⟩

/-- R168: a record takes 15 bytes and its check two. -/
theorem CalRecord.length_bytes (c : CalRecord) : c.bytes.length = 15 ∧ c.stored.length = 17 := by
  constructor <;> simp [CalRecord.stored, CalRecord.bytes, i4, leInt, u4, u2, u1]

/-- R168: the record check fits two bytes. -/
theorem recordCheck_lt (bs : List Byte) : recordCheck bs < 65536 := Nat.mod_lt _ (by decide)

/-- R168: a valid record is read back. -/
theorem parseCal_stored {c : CalRecord} (h : c.valid = true) (rest : List Byte) : parseCal (c.stored ++ rest) = some c := by
  have bytes : (c.stored ++ rest).take 15 = c.bytes := by
    rw [CalRecord.stored, List.append_assoc]
    exact List.take_left' c.length_bytes.1
  have check : leNat ((u2 (recordCheck c.bytes) ++ rest).take 2) = recordCheck c.bytes := by
    have front : (u2 (recordCheck c.bytes) ++ rest).take 2 = leBytes 2 (recordCheck c.bytes) := List.take_left' (length_leBytes 2 _)
    rw [front, leNat_leBytes]
    exact Nat.mod_eq_of_lt (recordCheck_lt _)
  have fields : calRecord (c.stored ++ rest) = some (c, u2 (recordCheck c.bytes) ++ rest) := by
    rw [CalRecord.stored, List.append_assoc]
    exact calRecord_bytes (CalRecord.fits_of_valid h) _
  unfold parseCal
  rw [fields, bytes]
  exact if_pos ⟨h, check⟩

/-- R168: a record that was read is valid and stood there with its check. -/
theorem parseCal_some {c : CalRecord} {bs : List Byte} (long : 17 ≤ bs.length) (h : parseCal bs = some c) :
    c.valid = true ∧ c.stored = bs.take 17 := by
  unfold parseCal at h
  split at h
  · cases h
  · next r rest fields =>
    split at h
    · next good =>
      obtain rfl : r = c := Option.some.inj h
      obtain ⟨valid, check⟩ := good
      have stands := calRecord_some fields
      have bytes : bs.take 15 = r.bytes := by
        rw [stands]
        exact List.take_left' r.length_bytes.1
      have enough : (rest.take 2).length = 2 := by
        rw [stands, List.length_append, r.length_bytes.1] at long
        exact List.length_take_of_le (by omega)
      have checkBytes := leBytes_leNat (rest.take 2)
      rw [enough, check, bytes] at checkBytes
      refine ⟨valid, ?_⟩
      show r.bytes ++ leBytes 2 (recordCheck r.bytes) = _
      rw [checkBytes, stands, List.take_append, List.take_of_length_le (l := r.bytes) (by rw [r.length_bytes.1]; decide),
        r.length_bytes.1]
    · cases h

end Sys2Proof.Machine
end

section
/-! SUPPORT. What reading the store's records gives, case by case (R160, R163, R164), and the stages of the verify. -/

namespace Sys2Proof.Machine

/-! ## Words and records read -/

/-- A record that can be read has eight bytes for each of its words. -/
theorem length_recordBytes : ∀ {ws : List (Option (BitVec 64))} {bs : List Byte}, recordBytes ws = some bs →
    bs.length = 8 * ws.length
  | [], bs, h => by
    obtain rfl : [] = bs := Option.some.inj h
    rfl
  | none :: ws, bs, h => by cases h
  | some d :: ws, bs, h => by
    unfold recordBytes at h
    split at h
    · cases h
    · next more rest =>
      obtain rfl : dataBytes d ++ more = bs := Option.some.inj h
      rw [List.length_append, length_recordBytes rest, dataBytes, length_leBytes, List.length_cons]
      omega

/-- R158: n words are read. -/
theorem Pass.length_readWords : ∀ (n : Nat) (p : Pass) (w : Nat), (p.readWords w n).2.words.length = n
  | 0, _, _ => rfl
  | n + 1, p, w => congrArg (· + 1) (Pass.length_readWords n (p.readOne w).1 (w + 1))

/-- R158: a record of n words that can be read. -/
theorem Pass.length_read {p : Pass} {r : Requester} {w n : Nat} {bs : List Byte} (h : (p.read r w n).2 = some bs) :
    bs.length = 8 * n := by
  have words := length_recordBytes (ws := (p.readWords w n).2.words) h
  rwa [Pass.length_readWords] at words

/-- R160, stage 2: the log record loaded or rewritten, then its own errors. -/
theorem Pass.loadLog_cases (p : Pass) :
    let one := p.readWords 10824 2
    (recordBytes one.2.words = none → p.loadLog =
      one.2.errors.foldl (Pass.capture .startupScan) (Pass.write { one.1 with log := .reset } 10824 2 MemLog.reset.bytes)) ∧
    (∀ bs, recordBytes one.2.words = some bs →
      p.loadLog = one.2.errors.foldl (Pass.capture .startupScan) { one.1 with log := parseLog bs }) := by
  intro one
  have read : p.readWords logWord logWords = one := rfl
  unfold Pass.loadLog
  rw [read]
  clear_value one
  refine ⟨fun h => ?_, fun bs h => ?_⟩
  all_goals
    dsimp only
    rw [h]
  rfl

/-- R163: an accumulator that cannot be read is written as damaged, with zero figures. -/
theorem Pass.readAcc_cases (p : Pass) (r : Requester) (a : AccId) (plu : Option Nat) :
    let one := p.read r a.word (a.bodyWords + 1)
    (one.2 = none → p.readAcc r a plu =
      (one.1.writeAcc a { a.zero with damaged := true, plu := plu }, { a.zero with damaged := true, plu := plu })) ∧
    ∀ bs, one.2 = some bs → p.readAcc r a plu = (one.1, parseAcc a bs) := by
  intro one
  have read : p.read r a.word (a.bodyWords + 1) = one := rfl
  unfold Pass.readAcc
  rw [read]
  clear_value one
  obtain ⟨q, found⟩ := one
  refine ⟨?_, ?_⟩
  · rintro rfl
    rfl
  · rintro bs rfl
    rfl

/-- R163: two copies: what one that can be read gives the other, and which of two is taken. -/
theorem Pass.readPair_cases (p : Pass) {α : Type} [DecidableEq α] (r : Requester) (w n : Nat) (parse : List Byte → α)
    (bytes : α → List Byte) (larger : α → α → α) :
    let one := p.read r w n
    let two := one.1.read r (w + n) n
    let pair := p.readPair r w n parse bytes larger
    (one.2 = none → two.2 = none → pair = ({ two.1 with failed := true }, none)) ∧
    (∀ bs, one.2 = some bs → two.2 = none → pair = (two.1.write (w + n) n (bytes (parse bs)), some (parse bs))) ∧
    (∀ bs, one.2 = none → two.2 = some bs → pair = (two.1.write w n (bytes (parse bs)), some (parse bs))) ∧
    ∀ as bs, one.2 = some as → two.2 = some bs →
      let v := larger (parse as) (parse bs)
      let p1 := if parse as = v then two.1 else two.1.write w n (bytes v)
      pair = (if parse bs = v then p1 else p1.write (w + n) n (bytes v), some v) := by
  intro one two pair
  have read : pair = match agreed larger (one.2.map parse) (two.2.map parse) with
      | none => ({ two.1 with failed := true }, none)
      | some v =>
        let p1 := if one.2.map parse = some v then two.1 else two.1.write w n (bytes v)
        (if two.2.map parse = some v then p1 else p1.write (w + n) n (bytes v), some v) := rfl
  rw [read]
  clear_value two
  clear_value one
  obtain ⟨q, found⟩ := one
  obtain ⟨q2, found2⟩ := two
  refine ⟨?_, ?_, ?_, ?_⟩
  · rintro rfl rfl
    rfl
  · rintro bs rfl rfl
    exact congrArg (·, some (parse bs)) ((if_neg nofun).trans (congrArg (Pass.write · _ _ _) (if_pos rfl)))
  · rintro bs rfl rfl
    exact congrArg (·, some (parse bs)) ((if_pos rfl).trans (if_neg nofun))
  · rintro as bs rfl rfl
    simp only [Option.map_some, agreed, Option.some.injEq]

/-- R164: the words of a journal entry, read as long as its fields go on. -/
theorem Pass.readEntry_cases (next : Pass → Nat → Pass × Option (List Byte)) (p : Pass) (fuel w : Nat) (bs : List Byte) :
    let entry := Pass.readEntry next (fuel + 1) p w bs
    (journalNeed bs ≤ bs.length → entry = (p, some bs)) ∧
    (bs.length < journalNeed bs →
      ((next p w).2 = none → entry = ((List.range fuel).foldl (fun q i => (next q (w + 1 + i)).1) (next p w).1, none)) ∧
      ∀ more, (next p w).2 = some more → entry = Pass.readEntry next fuel (next p w).1 (w + 1) (bs ++ more)) := by
  intro entry
  have read : entry = Pass.readEntry next (fuel + 1) p w bs := rfl
  clear_value entry
  unfold Pass.readEntry at read
  refine ⟨fun whole => read.trans (if_pos whole), fun short => ?_⟩
  rw [if_neg (Nat.not_le.2 short)] at read
  generalize next p w = one at *
  obtain ⟨q, found⟩ := one
  refine ⟨?_, ?_⟩
  · rintro rfl
    exact read
  · rintro more rfl
    exact read

/-- R160, stage 5: the journal entry. -/
theorem Pass.readJournal_eq (p : Pass) :
    let entry := Pass.readEntry (fun q w => q.read .startupScan w 1) 1024 p 256 []
    p.readJournal .startupScan = (entry.1, (entry.2.map parseJournal).getD .uncorrectable) := by
  intro entry
  have read : Pass.readEntry (fun q w => q.read .startupScan w 1) journalWords p journalWord [] = entry := rfl
  unfold Pass.readJournal
  rw [read]
  clear_value entry
  obtain ⟨q, found⟩ := entry
  cases found <;> rfl

/-- R168: a calibration record: damaged, valid or missing. -/
theorem Pass.readCal_cases (p : Pass) (r : Requester) (st : Station) :
    let one := p.read r (3 * st.val) 3
    (one.2 = none → p.readCal r st = (one.1, .damaged)) ∧
    (∀ c rest, one.2 = some (c.stored ++ rest) → c.valid = true → p.readCal r st = (one.1, .valid c)) ∧
    ∀ bs, one.2 = some bs → (∀ c : CalRecord, c.valid = true → c.stored ≠ bs.take 17) → p.readCal r st = (one.1, .missing) := by
  intro one
  have length : ∀ bs, one.2 = some bs → bs.length = 24 := fun bs h => Pass.length_read h
  have read : p.read r (calWord st) 3 = one := rfl
  unfold Pass.readCal
  rw [read]
  clear_value one
  obtain ⟨q, found⟩ := one
  refine ⟨?_, ?_, ?_⟩
  · rintro rfl
    rfl
  · rintro c rest rfl valid
    dsimp only
    rw [parseCal_stored valid]
  · rintro bs rfl missing
    have unread : parseCal bs = none := by
      cases found : parseCal bs with
      | none => rfl
      | some c =>
        obtain ⟨valid, stored⟩ := parseCal_some (by rw [length bs rfl]; decide) found
        exact absurd stored (missing c valid)
    dsimp only
    rw [unread]

/-- R160, stage 4: one accumulator after another. -/
theorem Pass.readAccs_cons (p : Pass) (accs : List (Nat × Acc)) (n i : Nat) (rest : List Nat) :
    let one := p.readAcc .startupScan (accAt i) none
    p.readAccs accs n (i :: rest) = one.1.readAccs (setAcc accs (accAt i) one.2) (max n one.2.lastApplied) rest := by
  intro one
  conv_lhs => unfold Pass.readAccs

/-- R160, stage 3: one calibration record after another. -/
theorem Pass.readCals_cons (p : Pass) (st : Station) (rest : List Station) :
    let cal := p.readCal .startupScan st
    p.readCals (st :: rest) = ((cal.1.readCals rest).1, cal.2 :: (cal.1.readCals rest).2) := by
  intro cal
  rw [Pass.readCals]

/-- R160, stage 3: one event counter after another, as long as one of its copies can be read. -/
theorem Pass.readCounters_cons (p : Pass) (st : Station) (rest : List Station) :
    let counter := p.readPair .startupScan (24 + 2 * st.val) 1 parseCount u4 max
    p.readCounters (st :: rest) = if counter.1.failed then (counter.1, [counter.2])
      else ((counter.1.readCounters rest).1, counter.2 :: (counter.1.readCounters rest).2) := by
  intro counter
  have read : p.readPair .startupScan (counterWord st) 1 parseCount u4 max = counter := rfl
  rw [Pass.readCounters, read]

/-- R159, R160: stage 3 ends where both copies of a value are uncorrectable. -/
theorem Pass.readLegal_eq (p : Pass) :
    let cals := p.readCals stations
    let counters := cals.1.readCounters stations
    let mark := counters.1.readPair .startupScan 40 1 parseCount u4 max
    let grand := mark.1.readPair .startupScan 42 2 parseGrand Grand.bytes largerGrand
    p.readLegal =
      if counters.1.failed then (counters.1, { cals := cals.2, counters := counters.2, mark := none, grand := none })
      else if mark.1.failed then (mark.1, { cals := cals.2, counters := counters.2, mark := mark.2, grand := none })
      else (grand.1, { cals := cals.2, counters := counters.2, mark := mark.2, grand := grand.2 }) := by
  intro cals counters mark grand
  have readCals : p.readCals stations = cals := rfl
  have readCounters : cals.1.readCounters stations = counters := rfl
  have readMark : counters.1.readPair .startupScan highMarkWord 1 parseCount u4 max = mark := rfl
  have readGrand : mark.1.readPair .startupScan grandWord 2 parseGrand Grand.bytes largerGrand = grand := rfl
  rw [Pass.readLegal, readCals]
  dsimp only
  rw [readCounters, readMark, readGrand]

/-! ## The stages of the verify (R160) -/

/-- R160: a stage completes. -/
theorem State.verifyStage_complete {s : State} {stage : VerifyStage} {d : VerifyData} (hp : s.powered = true)
    (op : s.store.op = some (.verify stage d)) :
    s.opPass = (verifyPass stage d s.pass).1 ∧
    exec .verifyStageComplete s = .next ((s.stageComplete stage d).finish s) :=
  ⟨by unfold State.opPass; rw [op], State.event_of (o := execVerifyStageComplete s) hp rfl (by rw [op])⟩

/-- R159, R160: the first stage asks whether the FRAM answers. -/
theorem State.stageComplete_presence (s : State) (d : VerifyData) :
    (s.store.framAnswers = false → s.stageComplete .presence d = s.storeFault) ∧
    (s.store.framAnswers = true → s.stageComplete .presence d = onPortOf s (some (.verify .log d))) := by
  unfold State.stageComplete
  dsimp only
  refine ⟨fun silent => if_pos ⟨rfl, silent⟩, fun answers => ?_⟩
  rw [if_neg (fun h => by rw [answers] at h; cases h.2), State.takePass_eq]
  rfl

/-- R159: a later stage that fails, and one that goes on. -/
theorem State.stageComplete_later {s : State} {stage : VerifyStage} (d : VerifyData) (later : stage ≠ .presence) :
    let x := verifyPass stage d s.pass
    let t := afterPass s x.1
    (x.1.failed = true → s.stageComplete stage d = t.storeFault) ∧
    (x.1.failed = false → s.stageComplete stage d =
      (if stage = .legal then t.takeLegal s.pass.readLegal.2 else t).nextStage stage x.2) := by
  intro x t
  have complete : s.stageComplete stage d = if x.1.failed then t.storeFault
      else if stage = .legal then (t.takeLegal s.pass.readLegal.2).nextStage stage x.2 else t.nextStage stage x.2 := by
    unfold State.stageComplete
    dsimp only
    rw [if_neg fun h => later h.1, State.takePass_eq]
  refine ⟨fun failed => ?_, fun good => ?_⟩
  · rw [complete, if_pos failed]
  · rw [complete, if_neg (ne_true_of_eq_false good)]
    split <;> rfl

/-- A station's place in the list of stations. -/
theorem stations_getElem? (st : Station) : stations[st.val]? = some st := by
  revert st
  decide

/-- R160, stage 3: the records handed over, and the event counters known. -/
theorem State.takeLegal_spec (u : State) {l : Legal} (eight : l.cals.length = 8) :
    let t := u.takeLegal l
    t.store = { u.store with eventCounters := t.store.eventCounters } ∧ CounterKept u t ∧
    ∀ st : Station, t.store.eventCounters[st] = (l.counters.getD st.val none).getD 0 ∧
      ∀ found, l.cals[st.val]? = some found → CalHanded u t (st, found) := by
  intro t
  have firsts : (stations.zip l.cals).map Prod.fst = stations := List.map_fst_zip (by rw [eight]; decide)
  obtain ⟨left, each, -⟩ := State.foldl_handCal_spec (stations.zip l.cals) u (by rw [firsts]; decide)
  have taken : t = ((stations.zip l.cals).foldl State.handCal u).onStore fun m =>
      { m with eventCounters := Vector.ofFn fun st => (l.counters.getD st.val none).getD 0 } := rfl
  generalize (stations.zip l.cals).foldl State.handCal u = v at *
  rw [taken]
  refine ⟨?_, left.kept, fun st => ⟨?_, fun found h => ?_⟩⟩
  · rw [← left.store]
    rfl
  · exact Vector.getElem_ofFn ..
  · refine (each (st, found) ?_).congr rfl rfl rfl rfl
    exact List.mem_of_getElem? (List.getElem?_zip_eq_some.2 ⟨stations_getElem? st, h⟩)

/-- R161: one touched accumulator of the entry, passed by or written. -/
theorem replayEntry_cases (n : Nat) (p : Pass) (accs : List (Nat × Acc)) (e : DeltaEntry) :
    let image := accOf accs e.acc
    let new := Acc.addDelta e.acc { image with figures := e.before } e.plu e.delta n
    (n ≤ image.lastApplied → replayEntry n (p, accs) e = (p, accs)) ∧
    (image.lastApplied < n → replayEntry n (p, accs) e = (p.writeAcc e.acc new, setAcc accs e.acc new)) :=
  ⟨fun applied => if_neg (Nat.not_lt.2 applied), fun behind => if_pos behind⟩

/-- R161: a PENDING period close. -/
theorem replay_close {d : VerifyData} {j : CloseJournal} (p : Pass) (h : d.journal = .close j) :
    let sum := j.beforeValue + j.period.figures.getD 2 0
    let grand : Grand := if d.grand.z < j.period.z then
      { value := min sum 281474976710655, z := j.period.z, saturated := d.grand.saturated || decide (281474976710655 < sum) }
      else d.grand
    let p1 := p.write 10816 8 j.period.bytes
    let p2 := if d.grand.z < j.period.z then (p1.write 42 2 grand.bytes).write 44 2 grand.bytes else p1
    replay p d = (p2.zeroAll.doneJournal 4 j.applyNumber j.content,
      { d with accs := [], grand := grand, replayed := 4, closedZ := some j.period.z, applyNumber := j.applyNumber }) := by
  intro sum grand p1 p2
  have total : (if d.grand.z < j.period.z then Grand.close j.beforeValue d.grand.saturated j.period.value j.period.z else d.grand)
      = grand := by
    rw [Grand.close_eq]
    rfl
  have replayed : replay p d = replayClose p d j := by
    unfold replay
    rw [h]
  rw [replayed]
  unfold replayClose
  dsimp only
  rw [total]
  rfl

/-- R161: what the replay makes of the journal by its kind, a PENDING period close apart. -/
theorem replay_cases (p : Pass) (d : VerifyData) :
    (d.journal = .nothing → replay p d = (p, { d with applyNumber := 0 })) ∧
    (∀ n, d.journal = .done n → replay p d = (p, { d with applyNumber := n })) ∧
    (∀ j, d.journal = .commit j →
      let x := j.entries.foldl (replayEntry j.applyNumber) (p, d.accs)
      replay p d = (x.1.doneJournal j.kind.journal j.applyNumber j.content,
        { d with accs := x.2, replayed := j.kind.journal, applyNumber := j.applyNumber })) ∧
    (d.journal = .clear → replay p d = (p.clearRest, { d with accs := [], replayed := 5, applyNumber := 0 })) ∧
    (d.journal = .uncorrectable →
      replay p d = (p.doneJournal 6 d.highest [], { d with replayed := 6, applyNumber := d.highest })) := by
  unfold replay
  refine ⟨fun h => ?_, fun n h => ?_, fun j h => ?_, fun h => ?_, fun h => ?_⟩
  all_goals rw [h]
  all_goals rfl

end Sys2Proof.Machine
end

section
/-! SUPPORT. The port arbiter (R159): what begins next, by rank, and what each beginning does. -/

namespace Sys2Proof.Machine

/-! ## What begins next -/

/-- R159: nothing of the first three ranks waits. -/
def State.LastRankNext (s : State) : Prop := s.store.raiseWaiting = false ∧ s.store.calWrites = [] ∧ s.store.waiting = []

/-- R159: this waits for the port, and nothing of a higher rank does. -/
def State.Heads (s : State) : Waiting → Prop
  | .raise => s.store.raiseWaiting = true
  | .calibration w => s.store.raiseWaiting = false ∧ ∃ ws, s.store.calWrites = w :: ws
  | .access a => s.store.raiseWaiting = false ∧ s.store.calWrites = [] ∧ ∃ rest, s.store.waiting = a :: rest
  | .commit c => s.LastRankNext ∧ ∃ cs, s.totals.commits = c :: cs
  | .close z => s.LastRankNext ∧ s.totals.commits = [] ∧ s.totals.closing = some z
  | .clear => s.LastRankNext ∧ s.totals.commits = [] ∧ s.totals.closing = none ∧ s.store.clearAccepted = true

/-- R159: this operation can begin. -/
structure State.Begins (s : State) (w : Waiting) : Prop where
  free : s.store.op = none
  noFault : s.store.state ≠ .storeFault
  heads : s.Heads w

/-- R159: the fourth rank. -/
theorem State.lastRank_iff {s : State} (h : s.LastRankNext) (w : Waiting) : s.lastRank = some w ↔ s.Heads w := by
  obtain ⟨raise, writes, waiting⟩ := h
  unfold State.lastRank
  cases commits : s.totals.commits with
  | cons c cs => cases w <;> simp [State.Heads, State.LastRankNext, raise, writes, waiting, commits]
  | nil =>
    cases closing : s.totals.closing with
    | some z => cases w <;> simp [State.Heads, State.LastRankNext, raise, writes, waiting, commits, closing]
    | none =>
      cases accepted : s.store.clearAccepted <;> cases w <;>
        simp [State.Heads, State.LastRankNext, raise, writes, waiting, commits, closing, accepted]

/-- R159: the arbiter begins what stands highest. -/
theorem State.nextOp_iff (s : State) (w : Waiting) : s.nextOp = some w ↔ s.Begins w := by
  unfold State.nextOp
  by_cases busy : s.store.op.isSome ∨ s.store.state = .storeFault
  · rw [if_pos busy]
    refine ⟨nofun, fun h => ?_⟩
    rcases busy with op | fault
    · rw [h.free] at op
      cases op
    · exact absurd fault h.noFault
  · rw [if_neg busy]
    obtain ⟨op, noFault⟩ := not_or.1 busy
    have free : s.store.op = none := by simpa using op
    have begins : s.Begins w ↔ s.Heads w := ⟨State.Begins.heads, fun h => ⟨free, noFault, h⟩⟩
    rw [begins]
    cases raise : s.store.raiseWaiting with
    | true => cases w <;> simp [State.Heads, State.LastRankNext, raise]
    | false =>
      rw [if_neg nofun]
      cases writes : s.store.calWrites with
      | cons x xs => cases w <;> simp [State.Heads, State.LastRankNext, raise, writes]
      | nil =>
        cases waiting : s.store.waiting with
        | cons a rest => cases w <;> simp [State.Heads, State.LastRankNext, raise, writes, waiting]
        | nil => exact State.lastRank_iff ⟨raise, writes, waiting⟩ w

/-! ## The commands -/

/-- R159: a command whose operation does not stand highest does nothing, and otherwise its operation begins. -/
theorem State.begin_command {s : State} (hp : s.powered = true) {o : Host.Outcome State Fault Refusal} {f : State → Option State}
    {α : Type} {mine : α → Waiting} {start : α → State} (event : o = s.event f)
    (none : (∀ a, s.nextOp ≠ some (mine a)) → f s = none) (some : ∀ a, s.nextOp = some (mine a) → f s = some (start a)) :
    ((∀ a, ¬s.Begins (mine a)) → o = .next s) ∧ ∀ a, s.Begins (mine a) → o = .next ((start a).finish s) :=
  ⟨fun h => event.trans (State.event_none hp (none fun a ha => h a ((s.nextOp_iff _).1 ha))),
    fun a h => event.trans (State.event_some hp (some a ((s.nextOp_iff _).2 h)))⟩

/-- R162: a raise begins. -/
theorem State.highMarkRaiseBegin_cases {s : State} (hp : s.powered = true) :
    (¬s.Begins .raise → exec .highMarkRaiseBegin s = .next s) ∧
    (s.Begins .raise → exec .highMarkRaiseBegin s = .next (State.finish
      (s.begin { s with store := { s.store with raiseWaiting := false, op := some .raiseMark } }) s)) := by
  have command := State.begin_command (o := execHighMarkRaiseBegin s) hp (mine := fun _ : Unit => .raise)
    (start := fun _ => s.begin { s with store := { s.store with raiseWaiting := false, op := some .raiseMark } }) rfl
    (fun h => by split; exacts [absurd ‹_› (h ()), rfl]) (fun _ h => by rw [h]; rfl)
  exact ⟨fun h => command.1 fun _ => h, command.2 ()⟩

/-- R167: a calibration write begins. -/
theorem State.calibrationWriteBegin_cases {s : State} (hp : s.powered = true) :
    ((∀ w, ¬s.Begins (.calibration w)) → exec .calibrationWriteBegin s = .next s) ∧
    ∀ w, s.Begins (.calibration w) → exec .calibrationWriteBegin s = .next (State.finish
      (s.begin { s with store := { s.store with calWrites := s.store.calWrites.tail, op := some (.calWrite w) } }) s) :=
  State.begin_command (o := execCalibrationWriteBegin s) hp rfl
    (fun h => by split; exacts [absurd ‹_› (h _), rfl]) (fun _ h => by rw [h]; rfl)

/-- R169: a read of a calibration record begins. -/
theorem State.calibrationReadBegin_cases {s : State} (hp : s.powered = true) :
    ((∀ st, ¬s.Begins (.access (.readCalibration st))) → exec .calibrationReadBegin s = .next s) ∧
    ∀ st, s.Begins (.access (.readCalibration st)) → exec .calibrationReadBegin s = .next (State.finish
      (s.begin { s with store := { s.store with waiting := s.store.waiting.tail, op := some (.readCalibration st) } }) s) :=
  State.begin_command (o := execCalibrationReadBegin s) hp rfl
    (fun h => by split; exacts [absurd ‹_› (h _), rfl]) (fun _ h => by rw [h]; rfl)

/-- R155: a read of the last-period record begins. -/
theorem State.lastPeriodReadBegin_cases {s : State} (hp : s.powered = true) :
    (¬s.Begins (.access .readLastPeriod) → exec .lastPeriodReadBegin s = .next s) ∧
    (s.Begins (.access .readLastPeriod) → exec .lastPeriodReadBegin s = .next (State.finish
      (s.begin { s with store := { s.store with waiting := s.store.waiting.tail, op := some .readLastPeriod } }) s)) := by
  have command := State.begin_command (o := execLastPeriodReadBegin s) hp (mine := fun _ : Unit => .access .readLastPeriod)
    (start := fun _ => s.begin { s with store := { s.store with waiting := s.store.waiting.tail, op := some .readLastPeriod } })
    rfl (fun h => by split; exacts [absurd ‹_› (h ()), rfl]) (fun _ h => by rw [h]; rfl)
  exact ⟨fun h => command.1 fun _ => h, command.2 ()⟩

/-- R165: a log write begins. -/
theorem State.memoryLogWriteBegin_cases {s : State} (hp : s.powered = true) :
    (¬s.Begins (.access .writeLog) → exec .memoryLogWriteBegin s = .next s) ∧
    (s.Begins (.access .writeLog) → exec .memoryLogWriteBegin s = .next (State.finish
      (s.begin { s with store := { s.store with waiting := s.store.waiting.tail, op := some .writeLog } }) s)) := by
  have command := State.begin_command (o := execMemoryLogWriteBegin s) hp (mine := fun _ : Unit => .access .writeLog)
    (start := fun _ => s.begin { s with store := { s.store with waiting := s.store.waiting.tail, op := some .writeLog } })
    rfl (fun h => by split; exacts [absurd ‹_› (h ()), rfl]) (fun _ h => by rw [h]; rfl)
  exact ⟨fun h => command.1 fun _ => h, command.2 ()⟩

/-- R150: the head commit begins. -/
theorem State.commitApplyBegin_cases {s : State} (hp : s.powered = true) :
    ((∀ c, ¬s.Begins (.commit c)) → exec .commitApplyBegin s = .next s) ∧
    ∀ c, s.Begins (.commit c) → exec .commitApplyBegin s = .next (State.finish (s.begin (s.beginCommit c)) s) :=
  State.begin_command (o := execCommitApplyBegin s) hp rfl
    (fun h => by split; exacts [absurd ‹_› (h _), rfl]) (fun _ h => by rw [h])

/-- R153: the accepted close begins. -/
theorem State.periodCloseBegin_cases {s : State} (hp : s.powered = true) :
    ((∀ z, ¬s.Begins (.close z)) → exec .periodCloseBegin s = .next s) ∧
    ∀ z, s.Begins (.close z) → exec .periodCloseBegin s = .next (State.finish (s.begin (s.beginClose z)) s) :=
  State.begin_command (o := execPeriodCloseBegin s) hp rfl
    (fun h => by split; exacts [absurd ‹_› (h _), rfl]) (fun _ h => by rw [h])

/-- R166: the accepted clear begins. -/
theorem State.clearOperationBegin_cases {s : State} (hp : s.powered = true) :
    (¬s.Begins .clear → exec .clearOperationBegin s = .next s) ∧
    (s.Begins .clear → exec .clearOperationBegin s = .next (State.finish
      (s.begin { s with store := { s.store with op := some .clear } }) s)) := by
  have command := State.begin_command (o := execClearOperationBegin s) hp (mine := fun _ : Unit => .clear)
    (start := fun _ => s.begin { s with store := { s.store with op := some .clear } }) rfl
    (fun h => by split; exacts [absurd ‹_› (h ()), rfl]) (fun _ h => by rw [h]; rfl)
  exact ⟨fun h => command.1 fun _ => h, command.2 ()⟩

/-- R150, stage 1: the head commit with its apply number, deltas and slots. -/
theorem State.beginCommit_eq (s : State) (c : Commit) :
    let formed := c.form s.totals.accs
    let n := s.totals.nextApply
    s.beginCommit c = { s with
      totals := { s.totals with commits := { c with applyNumber := some n } :: s.totals.commits.tail },
      store := { s.store with op := some (.commit
        { kind := c.kind, applyNumber := n, serial := c.serial, entries := formed.entries } .journal []) },
      link := { s.link with flags := raisedFlags s.link.flags (formed.others.map fun plu => (Flag.otherUsed, u2 plu)) } } := by
  unfold State.beginCommit
  dsimp only
  rw [State.raiseOthers_eq]
  rfl

/-- R153, stage 1: the summary read and the entry formed. -/
theorem State.beginClose_eq (s : State) (z : Nat) :
    let x := s.pass.readAcc .periodClose .summary none
    s.beginClose z = onPortOf (afterPass s x.1) (some (.close
      { applyNumber := s.totals.journalApply,
        period := { z := z, closedAt := s.link.clock, figures := x.2.figures, saturated := x.2.saturated, damaged := x.2.damaged },
        beforeValue := s.totals.grand.value, beforeZ := s.totals.grand.z } .journal s.totals.grand)) := by
  unfold State.beginClose
  dsimp only
  rw [State.takePass_eq]
  rfl

end Sys2Proof.Machine
end

section
/-! SUPPORT. The start-up verify and the arbiter as one statement (R159 to R163), and READ_LAST_PERIOD's wait (R155). -/

namespace Sys2Proof.Machine

/-! ## READ_LAST_PERIOD (R155) -/

/-- R155: a store that is not VERIFIED refuses; of a VERIFIED store the request waits for the read. -/
theorem State.exec_readLastPeriod {s : State} (he : Executing s 0x51 []) :
    (s.store.state ≠ .verified → exec .readLastPeriod s = .next (answered s s [14])) ∧
    (s.store.state = .verified → exec .readLastPeriod s = .next (State.finish { s with
      store := { s.store with waiting := s.store.waiting ++ [.readLastPeriod] },
      link := { s.link with executing := some { kind := 0x51, payload := [], waiting := true } } } s)) := by
  have request : exec .readLastPeriod s = .next (match State.readLastPeriod [] s with
      | (t, some p) => answered s t p
      | (t, none) => (t.onLink HostLink.markWaiting).finish s) := State.request_executing he State.readLastPeriod
  have read : State.readLastPeriod [] s =
      if s.store.state ≠ .verified then (s, some [14]) else (s.awaitAccess .readLastPeriod, none) := rfl
  rw [request, read]
  refine ⟨fun unready => by rw [if_pos unready], fun verified => ?_⟩
  rw [if_neg (not_not_intro verified)]
  have marked : s.link.markWaiting = { s.link with executing := some { kind := 0x51, payload := [], waiting := true } } := by
    have executing : s.link.markWaiting.executing = some { kind := 0x51, payload := [], waiting := true } := by
      unfold HostLink.markWaiting
      rw [he.2]
      rfl
    rw [← executing]
    rfl
  rw [← marked]
  rfl

/-! ## The stages (R160) -/

/-- R160, stage 4: every accumulator is read. -/
theorem verifyPass_accumulators_eq (d : VerifyData) (p : Pass) :
    let y := p.readAccs [] 0 (List.range 1082)
    verifyPass .accumulators d p = (y.1, { d with accs := y.2.1, highest := y.2.2 }) := by
  intro y
  have read : p.readAccs [] 0 (List.range accCount) = y := rfl
  rw [verifyPass_accumulators, read]
  clear_value y
  rfl

/-- R160, stage 5: the journal and the last-period record are read. -/
theorem verifyPass_journal_eq (d : VerifyData) (p : Pass) :
    let y := p.readJournal .startupScan
    verifyPass .journal d p = ((y.1.readLastPeriod .startupScan).1, { d with journal := y.2 }) := by
  intro y
  have read : p.readJournal .startupScan = y := rfl
  rw [verifyPass_journal]
  unfold Pass.readRecords
  rw [read]

/-- R158: a pass over the FRAM leaves the totals. -/
theorem afterPass_totals (s : State) (p : Pass) : (afterPass s p).totals = s.totals := rfl

/-- R160, R162: the verify completes. -/
theorem State.verified_eq (t : State) (d : VerifyData) :
    let u := State.raise { t with
      totals := { t.totals with
        images := some { accs := d.accs, grand := d.grand }, journalApply := d.applyNumber, lastCompleted := d.applyNumber },
      store := { t.store with
        state := .verified, op := none, nextSerial := some (d.highMark + 1),
        highMark := raisedMark d.highMark } } .storeReady (u1 d.replayed)
    t.verified d = match d.closedZ with | none => u | some z => u.raise .periodClosed (u4 z) := by
  unfold State.verified
  dsimp only
  cases d.closedZ <;> rfl

/-- R160, R162: a stage after the first that does not fail goes on with the next, or completes the verify. -/
theorem State.verifyStage_goesOn {s : State} {stage : VerifyStage} {d : VerifyData}
    (complete : exec .verifyStageComplete s = .next ((s.stageComplete stage d).finish s))
    (good : (verifyPass stage d s.pass).1.failed = false) :
    let x := verifyPass stage d s.pass
    let t := afterPass s x.1
    let done := fun (u : State) => exec .verifyStageComplete s = .next (State.finish u s)
    let goOn := fun (u : State) (next : VerifyStage) => done (onPortOf u (some (.verify next x.2)))
    (stage = .log → x = (s.pass.loadLog, d) ∧ goOn t .legal) ∧
    (stage = .legal →
      x = (s.pass.readLegal.1,
        { d with highMark := s.pass.readLegal.2.mark.getD 0, grand := s.pass.readLegal.2.grand.getD .zero }) ∧
      goOn (t.takeLegal s.pass.readLegal.2) .accumulators) ∧
    (stage = .accumulators →
      let y := s.pass.readAccs [] 0 (List.range 1082)
      x = (y.1, { d with accs := y.2.1, highest := y.2.2 }) ∧ goOn t .journal) ∧
    (stage = .journal →
      let y := s.pass.readJournal .startupScan
      x = ((y.1.readLastPeriod .startupScan).1, { d with journal := y.2 }) ∧ goOn t .replay) ∧
    (stage = .replay → x = replay s.pass d ∧ goOn t .serials) ∧
    (stage = .serials →
      let mark := min (d.highMark + 64) 4294967295
      let u := State.raise { t with
        totals := { s.totals with
          images := some { accs := d.accs, grand := d.grand }, journalApply := d.applyNumber, lastCompleted := d.applyNumber },
        store := { t.store with
          state := .verified, op := none, nextSerial := some (d.highMark + 1), highMark := mark } } .storeReady (u1 d.replayed)
      x = ((s.pass.write 40 1 (u4 mark)).write 41 1 (u4 mark), d) ∧
      done (match d.closedZ with | none => u | some z => u.raise .periodClosed (u4 z))) := by
  intro x t done goOn
  have goes : stage ≠ .presence → done ((if stage = .legal then t.takeLegal s.pass.readLegal.2 else t).nextStage stage x.2) :=
    fun later => by
      have effect := (State.stageComplete_later d later).2 good
      rw [effect] at complete
      exact complete
  refine ⟨?_, ?_, ?_, ?_, ?_, ?_⟩
  all_goals
    rintro rfl
    refine ⟨?_, (goes nofun).trans ?_⟩
  · exact verifyPass_log d s.pass
  · rfl
  · exact verifyPass_legal d s.pass
  · rfl
  · exact verifyPass_accumulators_eq d s.pass
  · rfl
  · exact verifyPass_journal_eq d s.pass
  · rfl
  · exact verifyPass_replay d s.pass
  · rfl
  · exact verifyPass_serials d s.pass
  · have data : x.2 = d := congrArg Prod.snd (verifyPass_serials d s.pass)
    have last : t.nextStage .serials d = t.verified d := rfl
    have totals : s.totals = t.totals := (afterPass_totals s x.1).symm
    have mark : min (d.highMark + 64) 4294967295 = raisedMark d.highMark := rfl
    rw [data, if_neg nofun, last, State.verified_eq, totals, mark]

/-! ## The arbiter (R159) -/

/-- R159, log 3: in STORE_FAULT, or with an operation in flight, nothing begins. -/
theorem State.begins_nothing {s : State} (hp : s.powered = true) (h : s.store.op ≠ none ∨ s.store.state = .storeFault) :
    ∀ c ∈ [Instr.highMarkRaiseBegin, .calibrationWriteBegin, .calibrationReadBegin, .lastPeriodReadBegin, .memoryLogWriteBegin,
      .commitApplyBegin, .periodCloseBegin, .clearOperationBegin], exec c s = .next s := by
  have never : ∀ w, ¬s.Begins w := fun w begins => h.elim (fun op => op begins.free) begins.noFault
  simp only [List.forall_mem_cons, List.not_mem_nil, false_implies, implies_true, and_true]
  exact ⟨(State.highMarkRaiseBegin_cases hp).1 (never _), (State.calibrationWriteBegin_cases hp).1 fun _ => never _,
    (State.calibrationReadBegin_cases hp).1 fun _ => never _, (State.lastPeriodReadBegin_cases hp).1 (never _),
    (State.memoryLogWriteBegin_cases hp).1 (never _), (State.commitApplyBegin_cases hp).1 fun _ => never _,
    (State.periodCloseBegin_cases hp).1 fun _ => never _, (State.clearOperationBegin_cases hp).1 (never _)⟩

/-- R159: a higher rank waits, or the access at the head is another one. -/
theorem State.not_begins_access {s : State} {a : WaitingAccess}
    (h : (s.store.raiseWaiting = true ∨ s.store.calWrites ≠ []) ∨ s.store.waiting.head? ≠ some a) : ¬s.Begins (.access a) := by
  rintro ⟨-, -, raise, writes, rest, waiting⟩
  rw [raise, writes, waiting] at h
  simp at h

/-- R159: something of the first three ranks waits. -/
theorem State.not_lastRankNext {s : State}
    (h : (s.store.raiseWaiting = true ∨ s.store.calWrites ≠ []) ∨ s.store.waiting ≠ []) : ¬s.LastRankNext := by
  rintro ⟨raise, writes, waiting⟩
  rw [raise, writes, waiting] at h
  simp at h

/-- R159, log 3: with a higher rank waiting, or with none of its own, an operation does not begin. -/
theorem State.begins_not_out_of_rank {s : State} (hp : s.powered = true) :
    let second := s.store.raiseWaiting = true
    let third := second ∨ s.store.calWrites ≠ []
    let fourth := third ∨ s.store.waiting ≠ []
    (s.store.raiseWaiting = false → exec .highMarkRaiseBegin s = .next s) ∧
    (second ∨ s.store.calWrites = [] → exec .calibrationWriteBegin s = .next s) ∧
    (third ∨ (∀ st, s.store.waiting.head? ≠ some (.readCalibration st)) → exec .calibrationReadBegin s = .next s) ∧
    (third ∨ s.store.waiting.head? ≠ some .readLastPeriod → exec .lastPeriodReadBegin s = .next s) ∧
    (third ∨ s.store.waiting.head? ≠ some .writeLog → exec .memoryLogWriteBegin s = .next s) ∧
    (fourth ∨ s.totals.commits = [] → exec .commitApplyBegin s = .next s) ∧
    (fourth ∨ s.totals.commits ≠ [] ∨ s.totals.closing = none → exec .periodCloseBegin s = .next s) ∧
    (fourth ∨ s.totals.commits ≠ [] ∨ s.totals.closing ≠ none ∨ s.store.clearAccepted = false →
      exec .clearOperationBegin s = .next s) := by
  intro second third fourth
  refine ⟨fun h => (State.highMarkRaiseBegin_cases hp).1 ?_, fun h => (State.calibrationWriteBegin_cases hp).1 ?_,
    fun h => (State.calibrationReadBegin_cases hp).1 fun st => State.not_begins_access (h.imp_right fun h => h st),
    fun h => (State.lastPeriodReadBegin_cases hp).1 (State.not_begins_access h),
    fun h => (State.memoryLogWriteBegin_cases hp).1 (State.not_begins_access h),
    fun h => (State.commitApplyBegin_cases hp).1 ?_, fun h => (State.periodCloseBegin_cases hp).1 ?_,
    fun h => (State.clearOperationBegin_cases hp).1 ?_⟩
  · rintro ⟨-, -, raise⟩
    rw [State.Heads, h] at raise
    cases raise
  · rintro w ⟨-, -, raise, ws, writes⟩
    rcases h with second | none
    · exact ne_true_of_eq_false raise second
    · rw [none] at writes
      cases writes
  · rintro c ⟨-, -, last, cs, commits⟩
    rcases h with higher | none
    · exact State.not_lastRankNext higher last
    · rw [none] at commits
      cases commits
  · rintro z ⟨-, -, last, commits, closing⟩
    rcases h with higher | waits | none
    · exact State.not_lastRankNext higher last
    · exact waits commits
    · rw [none] at closing
      cases closing
  · rintro ⟨-, -, last, commits, closing, accepted⟩
    rcases h with higher | waits | closes | unasked
    · exact State.not_lastRankNext higher last
    · exact waits commits
    · exact closes closing
    · exact ne_true_of_eq_false unasked accepted

/-- R150: the apply number of a commit, as long as 32 bits hold it. -/
theorem Totals.nextApply_eq {t : Totals} (h : t.journalApply < 4294967295) : t.nextApply = t.journalApply + 1 := if_pos h

/-- R159: with the port free the operation of the highest rank begins. -/
theorem State.begins_in_rank {s : State} (hp : s.powered = true) (free : s.store.op = none) (noFault : s.store.state ≠ .storeFault) :
    let begun := fun (t : State) => State.finish (if s.store.framAnswers then t else s.storeFault) s
    (s.store.raiseWaiting = true → exec .highMarkRaiseBegin s = .next (begun { s with
      store := { s.store with raiseWaiting := false, op := some .raiseMark } })) ∧
    (s.store.raiseWaiting = false →
      (∀ w ws, s.store.calWrites = w :: ws → exec .calibrationWriteBegin s = .next (begun { s with
        store := { s.store with calWrites := ws, op := some (.calWrite w) } })) ∧
      (s.store.calWrites = [] →
        (∀ st rest, s.store.waiting = .readCalibration st :: rest → exec .calibrationReadBegin s = .next (begun { s with
          store := { s.store with waiting := rest, op := some (.readCalibration st) } })) ∧
        (∀ rest, s.store.waiting = .readLastPeriod :: rest → exec .lastPeriodReadBegin s = .next (begun { s with
          store := { s.store with waiting := rest, op := some .readLastPeriod } })) ∧
        (∀ rest, s.store.waiting = .writeLog :: rest → exec .memoryLogWriteBegin s = .next (begun { s with
          store := { s.store with waiting := rest, op := some .writeLog } })) ∧
        (s.store.waiting = [] →
          (∀ c cs, s.totals.commits = c :: cs →
            let formed := c.form s.totals.accs
            ∃ n : Nat, (s.totals.journalApply < 4294967295 → n = s.totals.journalApply + 1) ∧
            exec .commitApplyBegin s = .next (begun { s with
              totals := { s.totals with commits := { c with applyNumber := some n } :: cs },
              store := { s.store with op := some (.commit
                { kind := c.kind, applyNumber := n, serial := c.serial, entries := formed.entries } .journal []) },
              link := { s.link with
                flags := raisedFlags s.link.flags (formed.others.map fun plu => (Flag.otherUsed, u2 plu)) } })) ∧
          (s.totals.commits = [] →
            (∀ z, s.totals.closing = some z →
              let x := s.pass.readAcc .periodClose .summary none
              exec .periodCloseBegin s = .next (begun (onPortOf (afterPass s x.1) (some (.close
                { applyNumber := s.totals.journalApply,
                  period := { z := z, closedAt := s.link.clock, figures := x.2.figures, saturated := x.2.saturated,
                              damaged := x.2.damaged },
                  beforeValue := s.totals.grand.value, beforeZ := s.totals.grand.z } .journal s.totals.grand))))) ∧
            (s.totals.closing = none → s.store.clearAccepted = true → exec .clearOperationBegin s = .next (begun { s with
              store := { s.store with op := some .clear } })))))) := by
  intro begun
  have begins : ∀ {w : Waiting}, s.Heads w → s.Begins w := fun heads => ⟨free, noFault, heads⟩
  refine ⟨fun raise => (State.highMarkRaiseBegin_cases hp).2 (begins raise), fun raise => ⟨fun w ws writes => ?_, fun writes =>
    ⟨fun st rest waiting => ?_, fun rest waiting => ?_, fun rest waiting => ?_, fun waiting => ⟨fun c cs commits => ?_,
      fun commits => ⟨fun z closing => ?_, fun closing accepted => ?_⟩⟩⟩⟩⟩
  · have effect := (State.calibrationWriteBegin_cases hp).2 w (begins ⟨raise, ws, writes⟩)
    rw [writes] at effect
    exact effect
  · have effect := (State.calibrationReadBegin_cases hp).2 st (begins ⟨raise, writes, rest, waiting⟩)
    rw [waiting] at effect
    exact effect
  · have effect := (State.lastPeriodReadBegin_cases hp).2 (begins ⟨raise, writes, rest, waiting⟩)
    rw [waiting] at effect
    exact effect
  · have effect := (State.memoryLogWriteBegin_cases hp).2 (begins ⟨raise, writes, rest, waiting⟩)
    rw [waiting] at effect
    exact effect
  · have effect := (State.commitApplyBegin_cases hp).2 c (begins ⟨⟨raise, writes, waiting⟩, cs, commits⟩)
    rw [State.beginCommit_eq, commits] at effect
    exact ⟨s.totals.nextApply, Totals.nextApply_eq, effect⟩
  · have effect := (State.periodCloseBegin_cases hp).2 z (begins ⟨⟨raise, writes, waiting⟩, commits, closing⟩)
    rw [State.beginClose_eq] at effect
    exact effect
  · exact (State.clearOperationBegin_cases hp).2 (begins ⟨⟨raise, writes, waiting⟩, commits, closing, accepted⟩)

/-- Settles O53: each stage by its pass, each record by its reading, and the beginnings by `nextOp_iff`. -/
theorem storeVerifiesThenBeginsInRankOrder : Obligations.StoreVerifiesThenBeginsInRankOrder := by
  unfold Obligations.StoreVerifiesThenBeginsInRankOrder
  refine ⟨fun s stage d hp op => ?_, fun p => ?_, largerGrand_eq, fun u l eight => ?_, fun p d => ?_, fun s hp =>
    ⟨State.exec_readLastPeriod, State.begins_nothing hp, State.begins_not_out_of_rank hp, State.begins_in_rank hp⟩⟩
  · obtain ⟨pass, complete⟩ := State.verifyStage_complete hp op
    refine ⟨pass, fun presence => ?_, fun later failed => ?_, State.verifyStage_goesOn complete⟩
    · subst presence
      obtain ⟨silent, answers⟩ := s.stageComplete_presence d
      exact ⟨fun h => silent h ▸ complete, fun h => answers h ▸ complete⟩
    · exact (State.stageComplete_later d later).1 failed ▸ complete
  · exact ⟨p.loadLog_cases, p.readAcc_cases, fun accs n i rest => ⟨rfl, p.readAccs_cons accs n i rest⟩,
      fun α _ => p.readPair_cases, Pass.readEntry_cases _ p, p.readJournal_eq, p.readCal_cases, fun st rest =>
        ⟨rfl, rfl, p.readCals_cons st rest, p.readCounters_cons st rest⟩, p.readLegal_eq⟩
  · obtain ⟨store, kept, each⟩ := u.takeLegal_spec eight
    refine ⟨store, kept, fun st => ?_⟩
    obtain ⟨counter, handed⟩ := each st
    exact ⟨counter, fun r found => (handed _ found).1 r rfl, fun found => found.elim
      (fun missing => (handed _ missing).2 (.inl rfl)) fun damaged => (handed _ damaged).2 (.inr rfl)⟩
  · obtain ⟨nothing, done, commit, clear, uncorrectable⟩ := replay_cases p d
    exact ⟨nothing, done, commit, fun n accs e => replayEntry_cases n p accs e, fun j => replay_close p, clear, uncorrectable⟩

end Sys2Proof.Machine
end

section
/-! SUPPORT. The calendar counted in days (R75). -/

namespace Sys2Proof.Machine

/-! ## The months of a year -/

theorem length_monthLengths (year : Nat) : (monthLengths year).length = 12 := rfl

theorem sum_monthLengths (year : Nat) : (monthLengths year).sum = if year % 4 = 0 then 366 else 365 := by
  unfold monthLengths
  split <;> rfl

/-- The model's table of month lengths is the list of R75. -/
theorem monthLengths_getD (year : Nat) {month : Nat} (low : 1 ≤ month) (high : month ≤ 12) :
    (monthLengths year).getD (month - 1) 0 = monthLength year month := by
  unfold monthLengths monthLength isLeap
  interval_cases month <;> simp

/-- Every month has a first day. -/
theorem monthLengths_getD_pos (year : Nat) {month : Nat} (low : 1 ≤ month) (high : month ≤ 12) :
    1 ≤ (monthLengths year).getD (month - 1) 0 := by
  have nonempty : ∀ days ∈ monthLengths year, 1 ≤ days := by
    unfold monthLengths
    split <;> decide
  have inside : month - 1 < (monthLengths year).length := by rw [length_monthLengths]; omega
  rw [List.getD_eq_getElem _ 0 inside]
  exact nonempty _ (List.getElem_mem inside)

/-- The days before a month and the days of the month are the days before the month after it. -/
theorem monthLengths_take (year : Nat) {month : Nat} (low : 1 ≤ month) (high : month ≤ 12) :
    ((monthLengths year).take month).sum =
      ((monthLengths year).take (month - 1)).sum + (monthLengths year).getD (month - 1) 0 := by
  have inside : month - 1 < (monthLengths year).length := by rw [length_monthLengths]; omega
  have step := List.sum_take_succ (monthLengths year) (month - 1) inside
  rwa [Nat.sub_add_cancel low, ← List.getD_eq_getElem _ 0 inside] at step

/-- The days up to the end of a month are days of the year. -/
theorem monthLengths_take_le (year month : Nat) : ((monthLengths year).take month).sum ≤ if year % 4 = 0 then 366 else 365 := by
  rw [← sum_monthLengths]
  exact (List.take_sublist month _).sum_le_sum fun _ _ => Nat.zero_le _

/-! ## The day after (R75) -/

/-- The last date of the range. -/
abbrev Date.last : Date := { year := 2099, month := 12, day := 31 }

theorem Date.last_number : Date.last.number = 36525 := rfl

/-- R75: the day after, by the month lengths of the rule. -/
theorem Date.next_eq {d : Date} (legal : d.legal) : d.next =
    if d.day < (monthLengths d.year).getD (d.month - 1) 0 then { d with day := d.day + 1 }
    else if d.month < 12 then { year := d.year, month := d.month + 1, day := 1 }
    else if d.year < 2099 then { year := d.year + 1, month := 1, day := 1 } else d := by
  obtain ⟨-, -, low, high, -, -⟩ := legal
  rw [monthLengths_getD d.year low high]
  rfl

/-- The dates of a year are numbered from the end of the year before up to the end of the year. -/
theorem Date.number_in_year {d : Date} (legal : d.legal) :
    365 * (d.year - 2000) + (d.year - 2000 + 3) / 4 < d.number ∧
    d.number ≤ 365 * (d.year + 1 - 2000) + (d.year + 1 - 2000 + 3) / 4 := by
  obtain ⟨from2000, -, low, high, first, inMonth⟩ := legal
  have monthEnd := monthLengths_take d.year low high
  have yearEnd := monthLengths_take_le d.year d.month
  unfold Date.number
  split at yearEnd <;> omega

/-- The last date has the greatest number. -/
theorem Date.number_le_last {d : Date} (legal : d.legal) : d.number ≤ Date.last.number := by
  have inYear := (Date.number_in_year legal).2
  obtain ⟨-, to2099, -⟩ := legal
  rw [Date.last_number]
  omega

/-- A month that ends has its last day as the date's, and with it the days of the year up to then. -/
theorem Date.number_at_month_end {d : Date} (legal : d.legal) (atEnd : ¬d.day < (monthLengths d.year).getD (d.month - 1) 0) :
    d.day = (monthLengths d.year).getD (d.month - 1) 0 ∧
    d.number = 365 * (d.year - 2000) + (d.year - 2000 + 3) / 4 + ((monthLengths d.year).take d.month).sum := by
  obtain ⟨-, -, low, high, -, inMonth⟩ := legal
  have monthEnd := monthLengths_take d.year low high
  have lastDay := Nat.le_antisymm inMonth (Nat.not_lt.1 atEnd)
  unfold Date.number
  exact ⟨lastDay, by omega⟩

/-- R75: the day after is the date with the next number, or the last date stays. -/
theorem Date.next_cases {d : Date} (legal : d.legal) :
    (d = Date.last ∧ d.next = d) ∨ (d.next.legal ∧ d.next.number = d.number + 1) := by
  rw [Date.next_eq legal]
  have ⟨from2000, to2099, low, high, _, _⟩ := legal
  split
  · next more => exact .inr ⟨⟨from2000, to2099, low, high, Nat.succ_pos _, more⟩, (Nat.add_assoc _ _ _).symm⟩
  next atMonthEnd =>
  obtain ⟨lastDay, number⟩ := Date.number_at_month_end legal atMonthEnd
  rw [number]
  split
  · next more =>
    exact .inr ⟨⟨from2000, to2099, Nat.succ_pos _, more, Nat.le_refl 1, monthLengths_getD_pos d.year (Nat.succ_pos _) more⟩, rfl⟩
  next atYearEnd =>
  obtain ⟨year, month, day⟩ := d
  obtain rfl : month = 12 := by dsimp only at high atYearEnd; omega
  obtain rfl : day = 31 := lastDay
  split
  · next more =>
    have wholeYear : ((monthLengths year).take 12).sum = if year % 4 = 0 then 366 else 365 := sum_monthLengths year
    have january : Date.number { year := year + 1, month := 1, day := 1 } =
      365 * (year + 1 - 2000) + (year + 1 - 2000 + 3) / 4 + 0 + 1 := rfl
    refine .inr ⟨⟨Nat.le_succ_of_le from2000, more, Nat.le_refl 1, (by decide : 1 ≤ 12), Nat.le_refl 1,
      (by decide : 1 ≤ 31)⟩, ?_⟩
    dsimp only at from2000 ⊢
    rw [january, wholeYear]
    split <;> omega
  · next atEnd =>
    obtain rfl : year = 2099 := Nat.le_antisymm to2099 (Nat.not_lt.1 atEnd)
    exact .inl ⟨rfl, rfl⟩

/-- No other date has the last date's number. -/
theorem Date.eq_last_of_number {d : Date} (legal : d.legal) (h : Date.last.number ≤ d.number) : d = Date.last := by
  obtain ⟨last, -⟩ | ⟨legalNext, number⟩ := Date.next_cases legal
  · exact last
  · have bound := Date.number_le_last legalNext
    omega

/-! ## Days added (R75) -/

/-- R75: the date n days later, clamped to the last date. -/
theorem Date.addDays_spec (n : Nat) {d : Date} (legal : d.legal) :
    (d.addDays n).legal ∧ (d.addDays n).number = min (d.number + n) Date.last.number := by
  induction n generalizing d with
  | zero =>
    rw [Date.addDays, Nat.add_zero, Nat.min_eq_left (Date.number_le_last legal)]
    exact ⟨legal, rfl⟩
  | succ n ih =>
    obtain ⟨rfl, stays⟩ | ⟨legalNext, number⟩ := Date.next_cases legal
    · have later := ih legal
      rw [Date.addDays, stays]
      exact ⟨later.1, later.2.trans (by omega)⟩
    · have later := ih legalNext
      rw [number] at later
      rw [Date.addDays]
      exact ⟨later.1, later.2.trans (by omega)⟩

/-- R75: where the days go past the end of the range, the date is the last one. -/
theorem Date.addDays_clamped {n : Nat} {d : Date} (legal : d.legal) (passes : Date.last.number < d.number + n) :
    d.addDays n = Date.last := by
  obtain ⟨legalLater, number⟩ := Date.addDays_spec n legal
  rw [Nat.min_eq_right passes.le] at number
  exact Date.eq_last_of_number legalLater number.ge

/-- R75: only a date of 2099 lies within 365 days of the end of the range. -/
theorem Date.year_of_passing {d : Date} (legal : d.legal) {n : Nat} (passes : Date.last.number < d.number + n) (h : n ≤ 365) :
    d.year = 2099 := by
  have inYear := (Date.number_in_year legal).2
  obtain ⟨-, to2099, -⟩ := legal
  rw [Date.last_number] at passes
  omega

/-- Settles O7: each day added is the next number or the last date again, by `Date.next_cases`. -/
theorem useByDateFollowsTheCalendar : Obligations.UseByDateFollowsTheCalendar := by
  unfold Obligations.UseByDateFollowsTheCalendar
  refine ⟨fun s t n set => ?_, fun d n legal => ?_⟩
  · rw [State.useByDate_eq, set]
  · obtain ⟨legalLater, number⟩ := Date.addDays_spec n legal
    exact ⟨legalLater, number, fun passes => ⟨Date.addDays_clamped legal passes, Date.year_of_passing legal passes⟩,
      Date.next_eq legal⟩

end Sys2Proof.Machine
end

section
/-! SUPPORT. The pricing outcome of a channel stage by stage (R63 to R70), and the decimal digits of the code strings (R77, R118). -/

namespace Sys2Proof.Machine

/-! ## The pricing outcome (R63, R64) -/

/-- R64: the count and the minimum weighing are judged in their own modes. -/
theorem priceVersion_cases (v : PluVersion) (n w : Int) (e1 : Nat) (count : Option Nat) :
    (v.mode = .byWeight → priceVersion v n w e1 count =
      if n < ((200 * e1 : Nat) : Int) then .netLow
      else limitPrice v.zeroAllowed (finalPrice (basePriceByWeight w.toNat v.unitPrice) v.markdown v.step)) ∧
    (v.mode = .byCount → count = none → priceVersion v n w e1 count = .noCount) ∧
    (∀ q, v.mode = .byCount → count = some q → priceVersion v n w e1 count =
      limitPrice v.zeroAllowed (finalPrice (q * v.unitPrice) v.markdown v.step)) ∧
    (v.mode = .fixed → priceVersion v n w e1 count =
      limitPrice v.zeroAllowed (finalPrice v.unitPrice v.markdown v.step)) := by
  unfold priceVersion basePrice
  refine ⟨fun mode => ?_, fun mode absent => ?_, fun q mode present => ?_, fun mode => ?_⟩
  · simp [mode]
  · simp [mode, absent]
  · simp [mode, present]
  · simp [mode]

theorem Channel.price_no_selection {c : Channel} (h : c.selection = none) : c.price = .noSelection := by
  unfold Channel.price
  rw [h]

/-- R64: a version that is not sold by weight is priced in any weight state. -/
theorem Channel.price_any_state {c : Channel} {sel : Selection} (h : c.selection = some sel) (mode : sel.version.mode ≠ .byWeight) :
    c.price = priceVersion sel.version 0 0 0 sel.count := by
  unfold Channel.price
  rw [h]
  exact if_neg mode

/-- R64: a version sold by weight is priced from a STABLE weighing. -/
theorem Channel.price_stable {c : Channel} {sel : Selection} {w : Weighing} {r : CalRecord} (h : c.selection = some sel)
    (mode : sel.version.mode = .byWeight) (stable : c.state = .stable) (last : c.last = some w) (cal : c.cal = some r) :
    c.price = priceVersion sel.version w.net w.weight r.e1 sel.count := by
  unfold Channel.price
  rw [h, stable, last, cal]
  exact if_pos mode

theorem Channel.price_not_stable {c : Channel} {sel : Selection} (h : c.selection = some sel)
    (mode : sel.version.mode = .byWeight) (moving : c.state ≠ .stable) : c.price = .notStable := by
  unfold Channel.price
  rw [h]
  dsimp only
  rw [if_pos mode]
  split
  · next stable _ _ => exact absurd stable moving
  · rfl

/-! ## Decimal digits (R77, R118) -/

theorem digit_toNat (n : Nat) : (digit n).toNat = 48 + n % 10 := by
  unfold digit
  rw [BitVec.toNat_ofNat]
  omega

theorem length_digits (k n : Nat) : (digits k n).length = k := by
  induction k generalizing n with
  | zero => rfl
  | succ k ih => rw [digits, List.length_append, ih, List.length_singleton]

/-- Every byte of a digit string is an ASCII digit. -/
theorem digits_ascii (k n : Nat) : ∀ b ∈ digits k n, 48 ≤ b.toNat ∧ b.toNat ≤ 57 := by
  induction k generalizing n with
  | zero => exact fun b h => absurd h List.not_mem_nil
  | succ k ih =>
    intro b h
    rcases List.mem_append.1 h with h | h
    · exact ih _ b h
    · rw [List.mem_singleton.1 h, digit_toNat]
      omega

/-- The number read so far, with one more decimal digit read. -/
def readDigit (n : Nat) (b : Byte) : Nat := 10 * n + (b.toNat - 48)

/-- Reading the last k digits of n after a number moves that number up k places. -/
theorem foldl_digits (k n start : Nat) : (digits k n).foldl readDigit start = start * 10 ^ k + n % 10 ^ k := by
  induction k generalizing n with
  | zero => rw [digits, List.foldl_nil, Nat.pow_zero, Nat.mod_one, Nat.mul_one, Nat.add_zero]
  | succ k ih =>
    have places : n % 10 ^ (k + 1) = n % 10 + 10 * (n / 10 % 10 ^ k) := by rw [Nat.pow_succ', Nat.mod_mul]
    have up : start * 10 ^ (k + 1) = 10 * (start * 10 ^ k) := by rw [Nat.pow_succ]; ring
    rw [digits, List.foldl_append, ih, List.foldl_cons, List.foldl_nil, readDigit, digit_toNat, places, up]
    omega

/-- Three digit strings in a row, one, i and j digits long. -/
theorem code_string (i j a b c : Nat) :
    (digits 1 a ++ digits i b ++ digits j c).length = 1 + i + j ∧
    (∀ x ∈ digits 1 a ++ digits i b ++ digits j c, 48 ≤ x.toNat ∧ x.toNat ≤ 57) ∧
    (digits 1 a ++ digits i b ++ digits j c).foldl readDigit 0 = (a % 10 * 10 ^ i + b % 10 ^ i) * 10 ^ j + c % 10 ^ j := by
  refine ⟨?_, fun x h => ?_, ?_⟩
  · simp only [List.length_append, length_digits]
  · simp only [List.mem_append] at h
    rcases h with (h | h) | h <;> exact digits_ascii _ _ x h
  · simp only [List.foldl_append, foldl_digits]
    simp only [Nat.zero_mul, Nat.zero_add, Nat.pow_one]

/-- R77: the item code string. -/
theorem itemCode_spec {plu price : Nat} (hplu : plu ≤ 9999) (hprice : price ≤ 9999999) :
    (itemCode plu price).length = 12 ∧ (∀ b ∈ itemCode plu price, 48 ≤ b.toNat ∧ b.toNat ≤ 57) ∧
    (itemCode plu price).foldl readDigit 0 = 200000000000 + plu * 10000000 + price := by
  obtain ⟨length, ascii, value⟩ := code_string 4 7 2 plu price
  exact ⟨length, ascii, value.trans (by omega)⟩

/-- R118: the summary code string. -/
theorem summaryCode_spec {ticket : Option Nat} (hticket : ticket.getD 0 ≤ 99) (serial : Nat) :
    (summaryCode ticket serial).length = 12 ∧ (∀ b ∈ summaryCode ticket serial, 48 ≤ b.toNat ∧ b.toNat ≤ 57) ∧
    (summaryCode ticket serial).foldl readDigit 0 = 900000000000 + ticket.getD 0 * 1000000000 + serial % 1000000000 := by
  obtain ⟨length, ascii, value⟩ := code_string 2 9 9 (ticket.getD 0) serial
  exact ⟨length, ascii, value.trans (by omega)⟩

/-- Settles O38: the outcome by the selection's mode, the code strings by the value of three digit strings. -/
theorem pricingOutcomeAndCodeStrings : Obligations.PricingOutcomeAndCodeStrings := by
  unfold Obligations.PricingOutcomeAndCodeStrings
  refine ⟨fun c => ⟨Channel.price_no_selection, fun sel held => ?_⟩, fun plu price => itemCode_spec, fun ticket serial small =>
    summaryCode_spec ?_ serial⟩
  · have anyState := Channel.price_any_state held
    obtain ⟨-, noCount, counted, fixed⟩ := priceVersion_cases sel.version 0 0 0 sel.count
    refine ⟨Channel.price_not_stable held, fun w r mode stable last cal => ?_, fun mode absent => ?_, fun q mode count => ?_,
      fun mode => ?_⟩
    · exact (Channel.price_stable held mode stable last cal).trans ((priceVersion_cases _ _ _ _ _).1 mode)
    · exact (anyState (by rw [mode]; decide)).trans (noCount mode absent)
    · exact (anyState (by rw [mode]; decide)).trans (counted q mode count)
    · exact (anyState (by rw [mode]; decide)).trans (fixed mode)
  · cases ticket with
    | none => exact Nat.zero_le 99
    | some k => exact small k rfl

end Sys2Proof.Machine
end

section
/-! SUPPORT. The queue port and the ticket numbers (R84, R85, R92 to R95). -/

namespace Sys2Proof.Machine

/-- R172: a request without arguments is answered with what `f` makes of the part. -/
theorem State.request_noArgs {s : State} {kind : Nat} (h : Executing s kind []) (f : State → State × List Byte) :
    s.request kind (noArgs f) = .next (answered s (f s).1 (f s).2) := State.request_executing h (noArgs f)

/-! ## The line of the queue port (R92 to R94) -/

/-- Each command of the queue line is one event. -/
theorem exec_queueLine (s : State) (serial : BitVec 32) (model condition press : Byte) :
    exec (.dispenserHello serial model) s = s.event (fun s => some (s.dispenserSpeaks serial model).pumpQueue) ∧
    exec (.dispenserState condition) s = s.event (fun s => if s.queuePort.state = .present then
      some (s.onQueuePort fun q => { q with rollLow := condition.getLsbD 0, frameTimer := true }) else none) ∧
    exec (.take press) s = s.event (fun s => if s.queuePort.state = .present then some (s.takeTicket press).pumpQueue else none) ∧
    exec .dispenserTimeout s =
      s.event (fun s => if s.queuePort.state = .present ∧ s.queuePort.frameTimer then some s.loseDispenser else none) ∧
    exec .signRefresh s = s.event (fun s => some (s.onQueuePort fun q => { q with signOwed := true }).pumpQueue) ∧
    exec .queuePortFrameEnd s = s.event (fun s => if s.queuePort.sending.isSome then
      some (s.onQueuePort fun q => { q with sending := none }).pumpQueue else none) := ⟨rfl, rfl, rfl, rfl, rfl, rfl⟩

/-- R93: a HELLO, by the state of the port and the serial it knows. -/
theorem State.dispenserSpeaks_cases (s : State) (serial : BitVec 32) (model : Byte) :
    (s.queuePort.state ≠ .present → s.dispenserSpeaks serial model = s.acceptDispenser serial model) ∧
    (s.queuePort.state = .present → s.queuePort.serial = some serial → s.dispenserSpeaks serial model =
      { s with queuePort := { s.queuePort with owed := s.queuePort.owed ++ [.accept serial], frameTimer := true } }) ∧
    (s.queuePort.state = .present → s.queuePort.serial ≠ some serial →
      s.dispenserSpeaks serial model = s.loseDispenser.acceptDispenser serial model) := by
  unfold State.dispenserSpeaks
  refine ⟨fun h => if_neg h, fun h same => ?_, fun h other => ?_⟩
  · rw [if_pos h, if_pos same]
    rfl
  · rw [if_pos h, if_neg other]

/-- Settles O46: each event of the queue line, by the branches of its meaning. -/
theorem queuePortActsOnItsEvents : Obligations.QueuePortActsOnItsEvents := by
  unfold Obligations.QueuePortActsOnItsEvents
  intro s hp
  have acts : ∀ {i : Instr} {f : State → Option State} {t : State}, exec i s = s.event f → f s = some t →
      exec i s = .next (t.finish s) := fun arm h => arm.trans (State.event_some hp h)
  have discarded : ∀ {i : Instr} {f : State → Option State}, exec i s = s.event f → f s = none → exec i s = .next s :=
    fun arm h => arm.trans (State.event_none hp h)
  have arms := exec_queueLine s
  obtain ⟨-, -, -, timeout, refresh, frameEnd⟩ := arms 0 0 0 0
  refine ⟨fun serial model => ?_, fun condition present => ?_, fun absent => ⟨fun condition => ?_, ?_⟩,
    fun present timer => acts timeout (if_pos ⟨present, timer⟩), acts refresh rfl, fun busy => acts frameEnd (if_pos busy),
    fun t => rfl⟩
  · obtain ⟨arrives, again, replaced⟩ := s.dispenserSpeaks_cases serial model
    have hello : ∀ {t : State}, s.dispenserSpeaks serial model = t →
        exec (.dispenserHello serial model) s = .next (t.pumpQueue.finish s) := fun h => by
      obtain ⟨arm, -⟩ := arms serial model 0 0
      exact acts arm (by rw [h])
    exact ⟨fun h => hello (arrives h), fun h same => hello (again h same), fun h other => hello (replaced h other)⟩
  · obtain ⟨-, condition, -⟩ := arms 0 0 condition 0
    exact acts condition (if_pos present)
  · obtain ⟨-, condition, -⟩ := arms 0 0 condition 0
    exact discarded condition (if_neg absent)
  · exact discarded timeout (if_neg fun h => absent h.1)

/-! ## The numbers of the tickets (R84, R85, R94) -/

/-- R85: the k-th number after n, cyclically through 1 to 99. -/
def ticketNumber (n k : Nat) : Nat := (n + k - 1) % 99 + 1

/-- R85: one number after another. -/
theorem ticketAfter_ticketNumber {n k : Nat} (h : n ≤ 99) :
    ticketAfter n = ticketNumber n 1 ∧ (1 ≤ k → ticketAfter (ticketNumber n k) = ticketNumber n (k + 1)) := by
  unfold ticketAfter ticketNumber
  refine ⟨?_, fun hk => ?_⟩ <;> split <;> omega

/-- R85: the search from a number on passes the live numbers and stops at the first that is not live, or runs out. -/
theorem firstFree_ticketNumber {n : Nat} (live : List Nat) : ∀ (fuel k : Nat) (start : Nat),
    ticketAfter start = ticketNumber n (k + 1) → (n ≤ 99) →
    (∀ j ≤ fuel, 1 ≤ j → ticketNumber n (k + j) ∉ live → (∀ i, 1 ≤ i → i < j → ticketNumber n (k + i) ∈ live) →
      firstFree live fuel start = some (ticketNumber n (k + j))) ∧
    ((∀ j ≤ fuel, 1 ≤ j → ticketNumber n (k + j) ∈ live) → firstFree live fuel start = none)
  | 0, _, _, _, _ => ⟨fun j hj one => absurd (one.trans hj) (by decide), fun _ => rfl⟩
  | fuel + 1, k, start, after, hn => by
    obtain ⟨found, none⟩ := firstFree_ticketNumber live fuel (k + 1) (ticketNumber n (k + 1))
      ((ticketAfter_ticketNumber hn).2 (Nat.le_add_left 1 k)) hn
    have shift : ∀ j, k + 1 + j = k + (j + 1) := fun j => by omega
    simp only [shift] at found none
    unfold firstFree
    rw [after]
    refine ⟨fun j hj one free passed => ?_, fun all => ?_⟩
    · obtain ⟨i, rfl⟩ : ∃ i, j = i + 1 := ⟨j - 1, by omega⟩
      by_cases first : i = 0
      · subst first
        exact if_neg (by simpa using free)
      · rw [if_pos (List.contains_iff_mem.2 (passed 1 (Nat.le_refl 1) (by omega)))]
        exact found i (by omega) (by omega) free fun m hm less => passed (m + 1) (by omega) (by omega)
    · rw [if_pos (List.contains_iff_mem.2 (all 1 (by omega) (Nat.le_refl 1)))]
      exact none fun j hj one => all (j + 1) (by omega) (by omega)

/-- R85: the ticket issued next, and no ticket with 99 live. -/
theorem Service.issue_cases {v : Service} (h : v.lastIssued ≤ 99) :
    (∀ k, 1 ≤ k → k ≤ 99 → ticketNumber v.lastIssued k ∉ v.live → (∀ j, 1 ≤ j → j < k → ticketNumber v.lastIssued j ∈ v.live) →
      v.issue = some ({ v with waiting := v.waiting ++ [ticketNumber v.lastIssued k], lastIssued := ticketNumber v.lastIssued k },
        ticketNumber v.lastIssued k)) ∧
    ((∀ n, 1 ≤ n → n ≤ 99 → n ∈ v.live) → v.issue = none) := by
  obtain ⟨found, none⟩ := firstFree_ticketNumber v.live 99 0 v.lastIssued (ticketAfter_ticketNumber (k := 0) h).1 h
  simp only [Nat.zero_add] at found none
  unfold Service.issue
  refine ⟨fun k one high free passed => ?_, fun all => ?_⟩
  · rw [found k high one free passed]
  · rw [none fun j _ _ => all _ (by unfold ticketNumber; omega) (by unfold ticketNumber; omega)]

/-- R85: ISSUE_TICKET, by what is issued. -/
theorem State.issueTicket_cases (s : State) :
    (s.service.issue = none → s.issueTicket = (s, [6])) ∧
    ∀ v n, s.service.issue = some (v, n) → s.issueTicket = ({ s with service := v }, [0, BitVec.ofNat 8 n]) := by
  unfold State.issueTicket
  refine ⟨fun none => ?_, fun v n issued => ?_⟩
  · rw [none]
    rfl
  · rw [issued]
    rfl

/-- R94: a TAKE with a new press number, by what is issued, and a repeated one. -/
theorem State.takeTicket_cases (s : State) (press : Byte) :
    (s.queuePort.lastPress ≠ some press → s.service.issue = none →
      s.takeTicket press = s.onQueuePort (·.answerTake press (.refuse press))) ∧
    (∀ v n, s.queuePort.lastPress ≠ some press → s.service.issue = some (v, n) →
      s.takeTicket press = { s with service := v, queuePort := s.queuePort.answerTake press (.issue press n) }) ∧
    (∀ answer, s.queuePort.lastPress = some press → s.queuePort.lastAnswer = some answer →
      s.takeTicket press =
        { s with queuePort := { s.queuePort with owed := s.queuePort.owed ++ [answer], frameTimer := true } }) := by
  unfold State.takeTicket
  refine ⟨fun new none => ?_, fun v n new issued => ?_, fun answer again last => ?_⟩
  · rw [if_neg new, none]
  · rw [if_neg new, issued]
    rfl
  · have answers : s.queuePort.lastAnswer.toList = [answer] := by rw [last]; rfl
    rw [if_pos again, ← answers]
    rfl

/-- Settles O44: the search for a free number, then ISSUE_TICKET and TAKE by what it finds. -/
theorem ticketIsTheNextNumberNotLive : Obligations.TicketIsTheNextNumberNotLive := by
  unfold Obligations.TicketIsTheNextNumberNotLive
  intro s last number
  obtain ⟨found, full⟩ := Service.issue_cases last
  obtain ⟨refuse, issue⟩ := s.issueTicket_cases
  have request : ∀ {t : State} {reply : List Byte}, s.issueTicket = (t, reply) → Executing s 0x32 [] →
      exec .issueTicket s = .next (answered s t reply) := fun h he => by
    have answer := State.request_noArgs he State.issueTicket
    rw [h] at answer
    exact answer
  have take : ∀ {press : Byte} {t : State}, s.powered = true → s.queuePort.state = .present → s.takeTicket press = t →
      exec (.take press) s = .next (t.pumpQueue.finish s) := fun {press} _ hp present h => by
    obtain ⟨-, -, arm, -⟩ := exec_queueLine s 0 0 0 press
    exact arm.trans (State.event_some hp ((if_pos present).trans (by rw [h])))
  refine ⟨fun k one high free passed => ?_, fun all => ?_, fun press answer hp present again lastAnswer => ?_,
    fun press absent => ?_⟩
  · intro issued
    have next : s.service.issue = some (issued, number k) := found k one high free passed
    refine ⟨request (issue _ _ next), fun press hp present new => ?_⟩
    obtain ⟨-, issues, -⟩ := s.takeTicket_cases press
    exact take hp present (issues _ _ new next)
  · refine ⟨request (refuse (full all)), fun press hp present new => ?_⟩
    obtain ⟨refuses, -⟩ := s.takeTicket_cases press
    exact take hp present (refuses new (full all))
  · obtain ⟨-, -, repeats⟩ := s.takeTicket_cases press
    exact take hp present (repeats answer again lastAnswer)
  · obtain ⟨-, -, arm, -⟩ := exec_queueLine s 0 0 0 press
    cases hp : s.powered with
    | true => exact arm.trans (State.event_none hp (if_neg absent))
    | false => exact arm.trans (State.event_unpowered hp _)

/-! ## RESET_NUMBERING (R95) -/

/-- R84: no ticket is live when none is in any of the lists. -/
theorem Service.live_eq_nil (v : Service) : v.live = [] ↔ v.waiting = [] ∧ v.bound = [] ∧ v.recallList = [] := by
  unfold Service.live
  rw [List.append_eq_nil_iff, List.append_eq_nil_iff, List.map_eq_nil_iff, and_assoc]

/-- R94: what the line of the queue port does with an owed SIGN. -/
theorem QueuePort.pump_sign (signs : List CallSign) (q : QueuePort) (owed : q.signOwed = true) :
    (q.sending = none → q.owed = [] → q.pump signs = { q with sending := some (.sign signs), signOwed := false }) ∧
    (q.sending.isSome = true → q.pump signs = q) ∧
    (∀ f rest, q.sending = none → q.owed = f :: rest → q.pump signs = { q with sending := some f, owed := rest }) := by
  unfold QueuePort.pump
  refine ⟨fun free empty => ?_, fun busy => if_pos busy, fun f rest free first => ?_⟩
  · rw [free, empty]
    exact if_pos owed
  · rw [free, first]
    rfl

/-- Settles O45: the reset, and what the line then does with the owed SIGN. -/
theorem resetNumberingStartsFromOne : Obligations.ResetNumberingStartsFromOne := by
  unfold Obligations.ResetNumberingStartsFromOne
  intro s he
  have request : ∀ {t : State} {reply : List Byte}, s.resetNumbering = (t, reply) →
      exec .resetNumbering s = .next (answered s t reply) := fun h => by
    have answer := State.request_noArgs he State.resetNumbering
    rw [h] at answer
    exact answer
  have reset : s.resetNumbering = if s.service.live = [] then
      (State.pumpQueue { s with service := { s.service with lastIssued := 0, callSigns := [] },
                                queuePort := { s.queuePort with signOwed := true } }, [0])
      else (s, [7]) := rfl
  refine ⟨fun live => request (reset.trans (if_neg fun none => ?_)), fun waiting bound recalled => ?_⟩
  · obtain ⟨waiting, bound, recalled⟩ := s.service.live_eq_nil.1 none
    simp [waiting, bound, recalled] at live
  · have live : s.service.live = [] := s.service.live_eq_nil.2 ⟨waiting, bound, recalled⟩
    obtain ⟨free, busy, owed⟩ := QueuePort.pump_sign [] { s.queuePort with signOwed := true } rfl
    refine ⟨_, request (reset.trans (if_pos live)), rfl, ?_, ⟨free, busy, owed⟩, by decide, rfl⟩
    obtain ⟨v, hv⟩ : ∃ v, v = { s.service with lastIssued := 0, callSigns := [] } := ⟨_, rfl⟩
    have last : v.lastIssued = 0 := by rw [hv]
    have none : v.live = [] := by rw [hv]; exact live
    obtain ⟨issued, -⟩ := Service.issue_cases (v := v) (by omega)
    have first := issued 1 (Nat.le_refl 1) (by decide) (by rw [none]; nofun) fun j _ _ => by omega
    rw [last, hv] at first
    exact congrArg (Option.map Prod.snd) first

end Sys2Proof.Machine
end

section
/-! SUPPORT. The clerk table (R78 to R82). -/

namespace Sys2Proof.Machine

/-! ## The table (R78) -/

/-- R78: the clerk table is ascending with no two clerks on one channel. -/
def ClerksConsistent (clerks : List Clerk) : Prop :=
  clerks.Pairwise fun c d => c.number < d.number ∧ (c.channel = none ∨ c.channel ≠ d.channel)

/-- R78: the part of the tables' consistency that speaks of the clerks. -/
theorem TablesConsistent.clerks {s : State} (h : TablesConsistent s) : ClerksConsistent s.service.clerks := And.left h

/-- R78: one clerk at most stands on a channel. -/
theorem ClerksConsistent.eq_of_channel {clerks : List Clerk} (h : ClerksConsistent clerks) {c d : Clerk} {st : Station}
    (hc : c ∈ clerks) (hd : d ∈ clerks) (cs : c.channel = some st) (ds : d.channel = some st) : c = d := by
  have apart := List.pairwise_iff_getElem.1 h
  obtain ⟨i, hi, rfl⟩ := List.getElem_of_mem hc
  obtain ⟨j, hj, rfl⟩ := List.getElem_of_mem hd
  rcases Nat.lt_trichotomy i j with less | rfl | more
  · have := (apart i j hi hj less).2
    simp [cs, ds] at this
  · rfl
  · have := (apart j i hj hi more).2
    simp [cs, ds] at this

/-- R78: changes that keep numbers and channels keep the table consistent. -/
theorem ClerksConsistent.map {clerks : List Clerk} (h : ClerksConsistent clerks) {g : Clerk → Clerk}
    (number : ∀ x, (g x).number = x.number) (channel : ∀ x, (g x).channel = x.channel) : ClerksConsistent (clerks.map g) := by
  unfold ClerksConsistent at h ⊢
  rw [List.pairwise_map]
  simpa only [number, channel] using h

/-- R78: a clerk that is found is in the table under that number. -/
theorem Service.clerk_some {v : Service} {n : Nat} {c : Clerk} (h : v.clerk n = some c) : c ∈ v.clerks ∧ c.number = n :=
  ⟨List.mem_of_find?_eq_some h, by simpa using List.find?_some h⟩

/-- R78: a channel's clerk is in the table. -/
theorem Service.clerkAt_some {v : Service} {st : Station} {c : Clerk} (h : v.clerkAt st = some c) :
    c ∈ v.clerks ∧ c.channel = some st :=
  ⟨List.mem_of_find?_eq_some h, by simpa using List.find?_some h⟩

/-- R78: a clerk who stands on a channel is that channel's clerk. -/
theorem Service.clerkAt_of_clerk {v : Service} {n : Nat} {c : Clerk} {st : Station} (h : ClerksConsistent v.clerks)
    (hc : v.clerk n = some c) (cs : c.channel = some st) : v.clerkAt st = some c := by
  obtain ⟨member, -⟩ := Service.clerk_some hc
  cases found : v.clerkAt st with
  | none => exact absurd (List.find?_eq_none.1 found c member) (by simp [cs])
  | some d =>
    obtain ⟨member', ds⟩ := Service.clerkAt_some found
    rw [h.eq_of_channel member' member ds cs]

/-- R78: a change of every clerk that keeps the numbers, seen at one number. -/
theorem Service.clerk_map (v : Service) {g : Clerk → Clerk} (number : ∀ x, (g x).number = x.number) (m : Nat) :
    Service.clerk { v with clerks := v.clerks.map g } m = (v.clerk m).map g := by
  unfold Service.clerk
  rw [List.find?_map]
  simp only [Function.comp_def, number]

/-- R78: a change of the clerks of one number, seen at another. -/
theorem Service.clerk_updateClerk (v : Service) (n : Nat) {f : Clerk → Clerk} (number : ∀ x, (f x).number = x.number) (m : Nat) :
    (v.updateClerk n f).clerk m = if m = n then (v.clerk n).map f else v.clerk m := by
  have all : (v.updateClerk n f).clerk m = (v.clerk m).map fun x => if x.number = n then f x else x :=
    v.clerk_map (fun x => by split <;> simp [number]) m
  rw [all]
  cases found : v.clerk m with
  | none => split <;> simp_all
  | some c =>
    obtain ⟨-, rfl⟩ := Service.clerk_some found
    split <;> simp_all

/-- R79: a new clerk takes its place in the table, and nobody else's. -/
theorem find_insertByKey_clerk (x : Clerk) (m : Nat) : ∀ clerks : List Clerk, clerks.find? (fun c => c.number == x.number) = none →
    (insertByKey Clerk.number x clerks).find? (fun c => c.number == m) =
      if m = x.number then some x else clerks.find? fun c => c.number == m
  | [], _ => by
    by_cases h : m = x.number
    · simp [insertByKey, h]
    · simp [insertByKey, h, Ne.symm h]
  | y :: ys, absent => by
    have other : y.number ≠ x.number := by simpa using List.find?_eq_none.1 absent y List.mem_cons_self
    have rest : ys.find? (fun c => c.number == x.number) = none := by
      rwa [List.find?_cons_of_neg (by simpa using other)] at absent
    have inserted := find_insertByKey_clerk x m ys rest
    unfold insertByKey
    by_cases h : m = x.number
    · subst h
      split
      · simp
      · rw [List.find?_cons_of_neg (by simpa using other), inserted, if_pos rfl, if_pos rfl]
    · rw [if_neg h] at inserted ⊢
      split
      · rw [List.find?_cons_of_neg (by simpa using Ne.symm h)]
      · rw [List.find?_cons, inserted, List.find?_cons]

/-- R79: the table after a definition. -/
theorem Service.clerk_define (v : Service) (a : ClerkArgs) (m : Nat) : (v.define a).clerk m =
    if m = a.number then
      some (match v.clerk a.number with
        | none => a.newClerk
        | some c => { c with name := a.name, enabled := a.enable == 1 })
    else v.clerk m := by
  unfold Service.define
  cases found : v.clerk a.number with
  | none => exact find_insertByKey_clerk a.newClerk m v.clerks found
  | some c =>
    rw [if_pos Option.isSome_some, v.clerk_updateClerk a.number (by intro; rfl), found]
    rfl

/-- R79: a definition leaves the rest of the queue, and the table consistent when the clerk was defined before. -/
theorem Service.define_parts (v : Service) (a : ClerkArgs) :
    v.define a = { v with clerks := (v.define a).clerks } ∧
    ∀ c, v.clerk a.number = some c → ClerksConsistent v.clerks → ClerksConsistent (v.define a).clerks := by
  unfold Service.define
  refine ⟨by split <;> rfl, fun c found consistent => ?_⟩
  rw [found]
  exact consistent.map (fun x => by split <;> rfl) (fun x => by split <;> rfl)

/-! ## A clerk logged off (R82) -/

/-- R82: the clerk of this number has been logged off this station. -/
structure LoggedOff (s t : State) (st : Station) (n : Nat) : Prop where
  left : ClerkLeft s t st
  cleared : s.runs[st].holds = false → t.channels[st].selection = none
  held : s.runs[st].holds = true → t.channels = s.channels
  service : t.service = { s.service with
    clerks := s.service.clerks.map fun x => if x.number = n then { x with channel := none } else x }
  nobody : ClerksConsistent s.service.clerks → t.service.clerkAt st = none
  parts : t = { s with ports := t.ports, channels := t.channels, price := t.price, service := t.service,
                       link := { s.link with flags := t.link.flags } }

/-- R82: the display of the station shows nobody. -/
theorem LoggedOff.display {s t : State} {st : Station} {n : Nat} (h : LoggedOff s t st n)
    (consistent : ClerksConsistent s.service.clerks) (present : s.ports[st].state = .present) :
    t.ports[st].image.clerk = none ∧ t.ports[st].image.ticket = none := by
  obtain ⟨-, -, -, refreshed, port, -, -⟩ := h.left
  refine State.refresh_no_clerk refreshed ?_ (h.nobody consistent)
  rw [port]
  exact present

/-- A station's channel and the others' are all channels. -/
theorem channels_ext {v w : Vector Channel 8} {st : Station} (own : v[st] = w[st]) (others : ∀ x : Station, x ≠ st → v[x] = w[x]) :
    v = w := by
  refine Vector.ext fun i hi => ?_
  by_cases h : (⟨i, hi⟩ : Station) = st
  · rw [← h] at own
    exact own
  · exact others ⟨i, hi⟩ h

/-- R82: the logoff of a station's clerk. -/
theorem State.logOffAt_loggedOff {s : State} {st : Station} {c : Clerk} (h : s.service.clerkAt st = some c) :
    LoggedOff s (s.logOffAt st) st c.number := by
  obtain ⟨step, left, runs, totals, service⟩ := s.logOffAt_left st c h
  have clerks : loggedOff s.service st =
      s.service.clerks.map fun x => if x.number = c.number then { x with channel := none } else x := by
    unfold loggedOff
    rw [h]
    simp only [Option.map_some, Option.some.injEq, eq_comm]
  have parts := step.parts
  rw [runs, totals] at parts
  refine ⟨left, fun free => ?_, fun holds => ?_, by rw [service, clerks], fun consistent => ?_, parts⟩
  · obtain ⟨-, cleared, -⟩ := left
    rw [(cleared free).1]
  · obtain ⟨kept, -, -, -, -, -, others⟩ := left
    exact channels_ext (kept holds) fun x hx => (others x hx).1
  · rw [service]
    exact clerkAt_loggedOff consistent

/-- R79, R80: the logoff of a clerk who stands nowhere, or at a station. -/
theorem State.logOffClerk_cases (s : State) (n : Nat) :
    ((∀ c, s.service.clerk n = some c → c.channel = none) → s.logOffClerk n = s) ∧
    ∀ c st, ClerksConsistent s.service.clerks → s.service.clerk n = some c → c.channel = some st →
      LoggedOff s (s.logOffClerk n) st n := by
  unfold State.logOffClerk
  refine ⟨fun nowhere => ?_, fun c st consistent found stands => ?_⟩
  · cases found : s.service.clerk n with
    | none => rfl
    | some c => rw [Option.bind_some, nowhere c found]
  · obtain ⟨-, number⟩ := Service.clerk_some found
    rw [found, Option.bind_some, stands, ← number]
    exact State.logOffAt_loggedOff (Service.clerkAt_of_clerk consistent found stands)

/-! ## DEFINE_CLERK and REMOVE_CLERK (R79, R80) -/

/-- A text with its length byte is read off the front. -/
theorem text_encText {t : Text} (h : t.length < 256) (rest : List Byte) : text (encText t ++ rest) = some (t, rest) := by
  unfold text encText u1
  rw [List.append_assoc, num_leBytes (k := 1) h]
  simp [rawBytes]

/-- R79: the arguments of DEFINE_CLERK. -/
theorem parseClerk_bytes {n enable : Nat} {name : Text} (number : n < 256) (length : name.length < 256) (flag : enable < 256) :
    parseClerk (u1 n ++ encText name ++ u1 enable) = some { number := n, name := name, enable := enable } := by
  simp only [parseClerk, parseAll, mapP, both, List.append_assoc, u1, num_leBytes (k := 1) number, text_encText length,
    num_leBytes_all (k := 1) flag]

/-- R79: the ranges of DEFINE_CLERK. -/
theorem ClerkArgs.inRange_iff (a : ClerkArgs) : a.inRange = true ↔ 1 ≤ a.number ∧ a.number ≤ 32 ∧ 1 ≤ a.name.length ∧
    a.name.length ≤ 12 ∧ a.enable ≤ 1 ∧ ∀ b ∈ a.name, 0x20 ≤ b.toNat ∧ b.toNat ≤ 0xFE := by
  unfold ClerkArgs.inRange printable
  simp [and_assoc]

/-- R79: a definition in range, of a clerk who stays where he is, or who is logged off his station. -/
theorem State.defineClerk_cases {a : ClerkArgs} (h : a.inRange = true) (s : State) :
    ((a.enable = 1 ∨ ∀ c, s.service.clerk a.number = some c → c.channel = none) →
      State.defineClerk a s = ({ s with service := s.service.define a }, [0])) ∧
    ∀ c st, TablesConsistent s → s.service.clerk a.number = some c → c.channel = some st → a.enable = 0 →
      ∃ t, State.defineClerk a s = (t, [0]) ∧ LoggedOff { s with service := s.service.define a } t st a.number := by
  have effect : State.defineClerk a s = (if a.enable = 0 then State.logOffClerk { s with service := s.service.define a } a.number
      else { s with service := s.service.define a }, [0]) := if_pos h
  have defined := (s.service.clerk_define a a.number).trans (if_pos rfl)
  obtain ⟨nowhere, stands⟩ := State.logOffClerk_cases { s with service := s.service.define a } a.number
  rw [effect]
  refine ⟨fun stays => ?_, fun c st consistent found at_st disabled => ?_⟩
  · by_cases disabled : a.enable = 0
    · rw [if_pos disabled, nowhere]
      intro d hd
      obtain rfl := Option.some.inj (defined.symm.trans hd)
      cases found : s.service.clerk a.number with
      | none => rfl
      | some c => exact (stays.resolve_left (by omega)) c found
    · rw [if_neg disabled]
  · refine ⟨_, rfl, ?_⟩
    rw [if_pos disabled]
    rw [found] at defined
    exact stands _ st ((s.service.define_parts a).2 c found consistent.clerks) defined at_st


/-- R172: a request with arguments is answered with what is known of `f` at them. -/
theorem State.request_args_eq {α : Type} {s t : State} {kind : Nat} {payload reply : List Byte} {parse : List Byte → Option α} {a : α}
    {f : α → State → State × List Byte} (h : Executing s kind payload) (parsed : parse payload = some a) (hf : f a s = (t, reply)) :
    s.request kind (withArgs parse f) = .next (answered s t reply) := by
  rw [State.request_args h parsed, hf]

/-- R79: the clerk as a definition leaves it. -/
def Clerk.defined (n : Nat) (name : Text) (enable : Bool) : Option Clerk → Clerk
  | none => { number := n, name := name, enabled := enable, channel := none, current := none, parked := [] }
  | some c => { c with name := name, enabled := enable, channel := if enable then c.channel else none }

/-- R79, R82: what the definition of a clerk leaves of the table, once a disabled one is logged off. -/
theorem clerk_after_definition {v w : Service} {a : ClerkArgs} {enable : Bool} (flag : a.enable = if enable then 1 else 0)
    (h : ((enable = true ∨ ∀ c, v.clerk a.number = some c → c.channel = none) ∧ w = v.define a) ∨
      (w = { v.define a with clerks := (v.define a).clerks.map fun x => if x.number = a.number then { x with channel := none } else x }
        ∧ enable = false)) :
    w.clerk a.number = some (Clerk.defined a.number a.name enable (v.clerk a.number)) ∧
    ∀ m : Nat, m ≠ a.number → w.clerk m = v.clerk m := by
  have enabled : (a.enable == 1) = enable := by rw [flag]; cases enable <;> rfl
  have defined := v.clerk_define a
  rcases h with ⟨stays, rfl⟩ | ⟨rfl, disabled⟩
  · refine ⟨?_, fun m hm => (defined m).trans (if_neg hm)⟩
    rw [defined, if_pos rfl, ← enabled]
    cases found : v.clerk a.number with
    | none => rfl
    | some c =>
      have channel : (if (a.enable == 1) = true then c.channel else none) = c.channel := by
        rcases stays with on | nowhere
        · rw [enabled, on, if_pos rfl]
        · rw [nowhere c found, ite_self]
      unfold Clerk.defined
      simp only [channel]
  · have table := Service.clerk_map (v.define a) (g := fun x => if x.number = a.number then { x with channel := none } else x)
      (fun x => by split <;> rfl)
    refine ⟨?_, fun m hm => ?_⟩
    · rw [table, defined, if_pos rfl, ← enabled]
      cases found : v.clerk a.number with
      | none => exact congrArg some (if_pos rfl)
      | some c =>
        obtain ⟨-, number⟩ := Service.clerk_some found
        rw [← enabled] at disabled
        unfold Clerk.defined
        simp [disabled, number]
    · rw [table, defined, if_neg hm]
      cases found : v.clerk m with
      | none => rfl
      | some c =>
        obtain ⟨-, rfl⟩ := Service.clerk_some found
        exact congrArg some (if_neg hm)

/-- R80: REMOVE_CLERK, refused. -/
theorem State.removeClerk_refused (s : State) (n : Nat) :
    (n = 0 ∨ 32 < n → State.removeClerk n s = (s, [3])) ∧
    (1 ≤ n → n ≤ 32 → s.service.clerk n = none → State.removeClerk n s = (s, [5])) ∧
    ∀ c, 1 ≤ n → n ≤ 32 → s.service.clerk n = some c → (c.current.isSome = true ∨ c.parked ≠ []) →
      State.removeClerk n s = (s, [7]) := by
  unfold State.removeClerk
  refine ⟨fun h => if_pos (by omega), fun low high none => ?_, fun c low high found baskets => ?_⟩
  · rw [if_neg (by omega), none]
    rfl
  · have some_open : 0 < c.openCount := by
      unfold Clerk.openCount
      rcases baskets with current | parked
      · rw [if_pos current]
        omega
      · have := List.length_pos_iff.2 parked
        omega
    rw [if_neg (by omega), found]
    exact if_pos some_open

/-- R80: REMOVE_CLERK of a clerk without baskets. -/
theorem State.removeClerk_accepted {s : State} {n : Nat} {c : Clerk} (low : 1 ≤ n) (high : n ≤ 32) (found : s.service.clerk n = some c)
    (current : c.current = none) (parked : c.parked = []) : State.removeClerk n s =
      ((s.logOffClerk n).onService fun v => { v with clerks := v.clerks.filter fun x => x.number != n }, [0]) := by
  have none_open : ¬0 < c.openCount := by simp [Clerk.openCount, current, parked]
  unfold State.removeClerk
  rw [if_neg (by omega), found]
  exact if_neg none_open

/-- R80: the table without the clerk of a number, his channel taken before or not. -/
theorem find_removed_clerk (clerks : List Clerk) (n m : Nat) {g : Clerk → Clerk}
    (hg : ∀ x, (g x).number = x.number ∧ (x.number ≠ n → g x = x)) :
    ((clerks.map g).filter fun x => x.number != n).find? (fun c => c.number == m) =
      if m = n then none else clerks.find? fun c => c.number == m := by
  rw [List.find?_filter]
  split
  · next h =>
    subst h
    rw [List.find?_eq_none]
    intro x _
    simp
  · next h =>
    have at_number : ∀ x : Clerk, decide ((x.number != n) = true ∧ (x.number == m) = true) = (x.number == m) := fun x => by
      by_cases hx : x.number = m <;> simp [hx, h]
    simp only [List.find?_map, Function.comp_def, (hg _).1, at_number]
    cases found : clerks.find? fun c => c.number == m with
    | none => rfl
    | some x =>
      have number : x.number = m := by simpa using List.find?_some found
      exact congrArg some ((hg x).2 (by rw [number]; exact h))

end Sys2Proof.Machine
end

section
/-! SUPPORT. CLERK and LOGOFF, and the clerk table as one statement (R78 to R82). -/

namespace Sys2Proof.Machine

/-! ## CLERK and LOGOFF (R81, R82) -/

/-- R15: the head that sent the accepted key is PRESENT still. -/
theorem KeyTaken.accepted_present {s : State} {st : Station} (h : KeyTaken s st) : (accepted s st).ports[st].state = .present := by
  obtain ⟨-, present, -⟩ := h
  exact (congrArg Port.state (modAt_same s.ports st _)).trans present

/-- R81: CLERK of an enabled clerk, who stands on the channel already or moves to it. -/
theorem State.clerkKey_enabled {s : State} {st : Station} {n : Nat} {c : Clerk} (low : 1 ≤ n) (high : n ≤ 32)
    (found : s.service.clerk n = some c) (enabled : c.enabled = true) :
    (c.channel = some st → s.clerkKey st n = .ok s) ∧ (c.channel ≠ some st → s.clerkKey st n = .ok (s.logOn st n c.channel)) := by
  have enabled' : ¬c.enabled = false := by rw [enabled]; nofun
  have key : s.clerkKey st n = if c.channel = some st then .ok s else .ok (s.logOn st n c.channel) := by
    unfold State.clerkKey
    rw [if_neg (by omega), found]
    exact if_neg enabled'
  exact ⟨fun h => key.trans (if_pos h), fun h => key.trans (if_neg h)⟩

/-- R82: LOGOFF of a station's clerk. -/
theorem State.logoffKey_clerk {s : State} {st : Station} {c : Clerk} (h : s.service.clerkAt st = some c) :
    s.logoffKey st = .ok (s.logOffAt st) := by
  unfold State.logoffKey
  rw [h]
  rfl

/-- R81: where a logon of clerk n at a station leaves a clerk. -/
def Clerk.movedTo (st : Station) (n : Nat) (x : Clerk) : Clerk :=
  if x.number = n then { x with channel := some st } else if x.channel = some st then { x with channel := none } else x

/-- R81: the clerk who logged on is the station's clerk. -/
theorem Service.clerkAt_movedTo {v : Service} {n : Nat} {c : Clerk} (found : v.clerk n = some c) (st : Station) :
    Service.clerkAt { v with clerks := v.clerks.map (Clerk.movedTo st n) } st = some { c with channel := some st } := by
  obtain ⟨-, number⟩ := Service.clerk_some found
  have stands : ∀ x : Clerk, ((Clerk.movedTo st n x).channel == some st) = (x.number == n) := fun x => by
    unfold Clerk.movedTo
    split
    · next h => simp [h]
    · next h => split <;> simp_all
  unfold Service.clerk at found
  unfold Service.clerkAt
  simp only [List.find?_map, Function.comp_def, stands, found]
  exact congrArg some (if_pos number)

/-- R81: the station that the clerk left has no clerk. -/
theorem Service.clerkAt_moved_from {v : Service} {n : Nat} {c : Clerk} {st old : Station} (consistent : ClerksConsistent v.clerks)
    (found : v.clerk n = some c) (stood : c.channel = some old) (other : old ≠ st) :
    Service.clerkAt { v with clerks := v.clerks.map (Clerk.movedTo st n) } old = none := by
  obtain ⟨member, number⟩ := Service.clerk_some found
  unfold Service.clerkAt
  rw [List.find?_eq_none]
  intro y hy
  obtain ⟨x, hx, rfl⟩ := List.mem_map.1 hy
  have elsewhere : (Clerk.movedTo st n x).channel ≠ some old := by
    unfold Clerk.movedTo
    split
    · exact fun h => other (Option.some.inj h).symm
    · next another =>
      split
      · nofun
      · exact fun stands => another ((consistent.eq_of_channel hx member stands stood) ▸ number)
  simpa using elsewhere

/-- R78, R83: what the display of a station shows of its clerk. -/
theorem State.image_of_clerk {t : State} {st : Station} {c : Clerk} (refreshed : t.refresh st = t)
    (present : t.ports[st].state = .present) (found : t.service.clerkAt st = some c) :
    t.ports[st].image.clerk = some c.number ∧ t.ports[st].image.ticket = (t.current c).bind (·.ticket) := by
  rw [(State.refresh_iff t st).1 refreshed present]
  unfold State.imageOf State.shownTicket
  rw [found]
  exact ⟨rfl, rfl⟩

/-- The display fields agree with their owners also once the next frames have begun. -/
theorem State.refresh_finish {t : State} {st : Station} (h : t.refresh st = t) (old : State) :
    (t.finish old).refresh st = t.finish old := by
  rw [State.refresh_iff] at h ⊢
  exact h

/-! ## DEFINE_CLERK and REMOVE_CLERK (R79, R80) -/

/-- R79, R80: what a definition or a removal of clerk n leaves beside that clerk: the station the clerk was logged off, when it was, and
the rest as it was. -/
structure ClerkChanged (s t : State) (n : Nat) (off : Prop) : Prop where
  others : ∀ m : Nat, m ≠ n → t.service.clerk m = s.service.clerk m
  loggedOff : ∀ c st, s.service.clerk n = some c → c.channel = some st → off →
    (s.runs[st].holds = false → t.channels[st].selection = none) ∧ (s.runs[st].holds = true → t.channels = s.channels) ∧
    ClerkLeft s t st ∧ (s.ports[st].state = .present → t.ports[st].image.clerk = none ∧ t.ports[st].image.ticket = none)
  stays : (¬off ∨ ∀ c, s.service.clerk n = some c → c.channel = none) → t.channels = s.channels ∧ t.ports = s.ports
  parts : t = { s with ports := t.ports, channels := t.channels, price := t.price,
                       service := { s.service with clerks := t.service.clerks }, link := { s.link with flags := t.link.flags } }

/-- R79: DEFINE_CLERK in range. -/
theorem State.defineClerk_changed {s : State} {a : ClerkArgs} {enable : Bool} (flag : a.enable = if enable then 1 else 0)
    (inRange : a.inRange = true) (consistent : TablesConsistent s) :
    ∃ t, State.defineClerk a s = (t, [0]) ∧
      t.service.clerk a.number = some (Clerk.defined a.number a.name enable (s.service.clerk a.number)) ∧
      ClerkChanged s t a.number (enable = false) := by
  obtain ⟨nobody, off⟩ := State.defineClerk_cases inRange s
  obtain ⟨define, consistent'⟩ := s.service.define_parts a
  by_cases stays : enable = true ∨ ∀ c, s.service.clerk a.number = some c → c.channel = none
  · obtain ⟨own, others⟩ := clerk_after_definition flag (w := s.service.define a) (.inl ⟨stays, rfl⟩)
    refine ⟨{ s with service := s.service.define a }, nobody (stays.imp_left fun h => by rw [flag, h]; rfl), own, others,
      fun c st hc at_st disabled => ?_, fun _ => ⟨rfl, rfl⟩, congrArg (fun v => { s with service := v }) define⟩
    rcases stays with on | nowhere
    · exact absurd (on.symm.trans disabled) (by decide)
    · exact absurd (at_st.symm.trans (nowhere c hc)) (by nofun)
  · obtain ⟨on, stands⟩ := not_or.1 stays
    have disabled : enable = false := by simpa using on
    obtain ⟨c, hc, channel⟩ : ∃ c, s.service.clerk a.number = some c ∧ c.channel ≠ none := by simpa using stands
    obtain ⟨st, at_st⟩ := Option.ne_none_iff_exists'.1 channel
    obtain ⟨t, defined, logged⟩ := off c st consistent hc at_st (by rw [flag, disabled]; rfl)
    obtain ⟨own, others⟩ := clerk_after_definition flag (.inr ⟨logged.service, disabled⟩)
    refine ⟨t, defined, own, others, fun d x hd at_x _ => ?_, fun h => ?_, ?_⟩
    · obtain rfl : d = c := Option.some.inj (hd.symm.trans hc)
      obtain rfl : x = st := Option.some.inj (at_x.symm.trans at_st)
      exact ⟨logged.cleared, logged.held, logged.left, logged.display (consistent' d hc consistent.clerks)⟩
    · exact absurd (h.imp_left fun h => by simpa using h) stays
    · have service := logged.service
      have parts := logged.parts
      rw [define] at service
      rw [service] at parts ⊢
      exact parts

/-- R80: REMOVE_CLERK of a clerk without baskets. -/
theorem State.removeClerk_changed {s : State} {n : Nat} {c : Clerk} (low : 1 ≤ n) (high : n ≤ 32) (found : s.service.clerk n = some c)
    (current : c.current = none) (parked : c.parked = []) (consistent : TablesConsistent s) :
    ∃ t, State.removeClerk n s = (t, [0]) ∧ t.service.clerk n = none ∧ ClerkChanged s t n True := by
  have removed := State.removeClerk_accepted low high found current parked
  have table : ∀ (v : Service) {g : Clerk → Clerk}, (∀ x, (g x).number = x.number ∧ (x.number ≠ n → g x = x)) →
      v.clerks = s.service.clerks.map g → ∀ m, Service.clerk { v with clerks := v.clerks.filter fun x => x.number != n } m =
        if m = n then none else s.service.clerk m := fun v g hg hv m => by
    unfold Service.clerk
    rw [hv]
    exact find_removed_clerk s.service.clerks n m hg
  obtain ⟨nowhere, stands⟩ := s.logOffClerk_cases n
  refine ⟨_, removed, ?_⟩
  cases channel : c.channel with
  | none =>
    have same : s.logOffClerk n = s := nowhere fun d hd => by rw [Option.some.inj (hd.symm.trans found), channel]
    rw [same]
    have left := table s.service (g := id) (fun x => ⟨rfl, fun _ => rfl⟩) (List.map_id _).symm
    refine ⟨(left n).trans (if_pos rfl), fun m hm => (left m).trans (if_neg hm), fun d st hd at_st _ => ?_, fun _ => ⟨rfl, rfl⟩, rfl⟩
    rw [Option.some.inj (hd.symm.trans found), channel] at at_st
    cases at_st
  | some st =>
    have logged := stands c st consistent.clerks found channel
    generalize s.logOffClerk n = t at logged
    have left := table t.service (g := fun x => if x.number = n then { x with channel := none } else x)
      (fun x => ⟨by split <;> rfl, fun h => if_neg h⟩) (by rw [logged.service])
    obtain ⟨u, hu⟩ : ∃ u, u = t.onService fun v => { v with clerks := v.clerks.filter fun x => x.number != n } := ⟨_, rfl⟩
    have nobody : u.service.clerkAt st = none := by
      have before := logged.nobody consistent.clerks
      unfold Service.clerkAt at before ⊢
      rw [List.find?_eq_none] at before ⊢
      rw [hu]
      exact fun x hx => before x (List.mem_of_mem_filter hx)
    rw [← hu]
    refine ⟨by rw [hu]; exact (left n).trans (if_pos rfl), fun m hm => by rw [hu]; exact (left m).trans (if_neg hm),
      fun d x hd at_x _ => ?_, fun h => ?_, ?_⟩
    · obtain rfl : d = c := Option.some.inj (hd.symm.trans found)
      obtain rfl : x = st := Option.some.inj (at_x.symm.trans channel)
      have display := logged.display consistent.clerks
      have clerkLeft : ClerkLeft s u x := logged.left.congr (by rw [hu]; rfl) (by rw [hu]; rfl) (by rw [hu]; rfl) (by rw [hu]; rfl)
        (.inr ⟨nobody, logged.nobody consistent.clerks⟩) (by rw [hu]; rfl) (by rw [hu]; rfl)
      rw [hu] at clerkLeft ⊢
      exact ⟨logged.cleared, logged.held, clerkLeft, display⟩
    · rcases h with h | h
      · exact absurd trivial h
      · rw [h c found] at channel
        cases channel
    · rw [hu]
      have service : t.service = { s.service with clerks := t.service.clerks } := by rw [logged.service]
      conv_lhs => rw [logged.parts, service]
      rfl

/-! ## The obligation -/

/-- Settles O43: each command by the cases of its meaning; what a lost or moved clerk leaves is `LoggedOff` and `logOn_spec`. -/
theorem clerksAreDefinedAndMoved : Obligations.ClerksAreDefinedAndMoved := by
  unfold Obligations.ClerksAreDefinedAndMoved
  intro s
  refine ⟨fun n name enable low high short long chars consistent he => ?_, fun n enable name hn henable hname he bad => ?_,
    fun n he => ?_, fun st number c hk low high found enabled => ?_, fun st c hk found => ?_⟩
  · obtain ⟨a, ha⟩ : ∃ a : ClerkArgs, a = { number := n, name := name, enable := if enable then 1 else 0 } := ⟨_, rfl⟩
    have flag : a.enable = if enable then 1 else 0 := by rw [ha]
    have parsed : parseClerk (u1 n ++ encText name ++ [if enable then 1 else 0]) = some a := by
      rw [ha, ← parseClerk_bytes (by omega) (by omega) (by split <;> omega)]
      cases enable <;> rfl
    have inRange : a.inRange = true := by
      rw [ClerkArgs.inRange_iff, flag, ha]
      exact ⟨low, high, short, long, by split <;> omega, chars⟩
    obtain ⟨t, defined, own, changed⟩ := State.defineClerk_changed flag inRange consistent
    have answer : exec .defineClerk s = .next (answered s t [0]) := State.request_args_eq he parsed defined
    rw [ha] at own changed
    refine ⟨t, answer, own.trans ?_, changed.others, changed.loggedOff, fun h => changed.stays (h.imp_left (by simp)), changed.parts⟩
    unfold Clerk.defined
    cases s.service.clerk n <;> rfl
  · have out : ({ number := n, name := name, enable := enable } : ClerkArgs).inRange = false := by
      rw [← Bool.not_eq_true, ClerkArgs.inRange_iff]
      rintro ⟨low, high, short, long, flag, chars⟩
      dsimp only at *
      rcases bad with h | h | rfl | h | ⟨b, hb, h⟩ | h
      · omega
      · omega
      · exact absurd short (by decide)
      · omega
      · have := chars b hb
        omega
      · omega
    exact State.request_args_eq he (parseClerk_bytes hn hname henable) (if_neg (by rw [out]; nofun))
  · have answer : ∀ {t : State} {reply : List Byte}, State.removeClerk n.toNat s = (t, reply) →
        exec .removeClerk s = .next (answered s t reply) := State.request_args_eq he (parseNumber1_byte n)
    obtain ⟨bad, unknown, busy⟩ := s.removeClerk_refused n.toNat
    refine ⟨fun h => answer (bad (h.imp_left fun h => by rw [h]; rfl)), fun low high none => answer (unknown low high none),
      fun c low high found baskets => answer (busy c low high found baskets),
      fun c low high found current parked consistent => ?_⟩
    obtain ⟨t, removed, gone, changed⟩ := State.removeClerk_changed low high found current parked consistent
    exact ⟨t, answer removed, gone, changed.others, fun st channel => changed.loggedOff c st found channel trivial,
      fun channel => changed.stays (.inr fun d hd => by rw [Option.some.inj (hd.symm.trans found), channel]), changed.parts⟩
  · have key : ∀ {t : State}, State.clerkKey st number.toNat (accepted s st) = .ok t →
        exec (.clerk st number) s = .next (t.finish s) := State.takeKey_accepted hk
    obtain ⟨stands, moves⟩ := State.clerkKey_enabled (s := accepted s st) low high found enabled
    refine ⟨fun h => key (stands h), fun h => ?_⟩
    have moved := key (moves h)
    obtain ⟨service, price, pinned, flag, cleared, kept, others, ports, left, parts⟩ :=
      (accepted s st).logOn_spec st number.toNat c.channel h
    generalize (accepted s st).logOn st number.toNat c.channel = t at *
    have state : ∀ x : Station, x = st ∨ c.channel = some x → t.ports[x].state = (accepted s st).ports[x].state := fun x hx => by
      obtain ⟨-, port, -⟩ := ports x hx
      rw [port]
    have elsewhere : ∀ x : Station, x ≠ st → (accepted s st).ports[x] = s.ports[x] := fun x hx => modAt_other _ _ _ _ hx
    have present : t.ports[st].state = .present := by
      rw [state st (.inl rfl)]
      exact hk.accepted_present
    have clerkAt : t.service.clerkAt st = some { c with channel := some st } := by
      rw [service]
      exact Service.clerkAt_movedTo found st
    have pool : t.pool = s.pool := by rw [parts]; rfl
    obtain ⟨shownClerk, shownTicket⟩ := State.image_of_clerk (ports st (.inl rfl)).1 present clerkAt
    obtain ⟨-, number⟩ := Service.clerk_some found
    refine ⟨t.finish s, moved, service, ⟨price, pinned, fun x y => ?_⟩, fun x y => ⟨?_, cleared x y⟩, kept, fun x hx hx' => ?_,
      fun x hx => ?_, fun old hold => ?_, ?_, ?_, ?_⟩
    · simpa using flag x y
    · have selection := (cleared x y).1
      show t.channels[st].selection = none
      rw [selection]
    · obtain ⟨channel, port⟩ := others x hx hx'
      exact ⟨channel, port.trans (elsewhere x hx)⟩
    · obtain ⟨refreshed, port, message⟩ := ports x hx
      exact ⟨State.refresh_finish refreshed s, port, message⟩
    · obtain ⟨free, held⟩ := left old hold
      have other : old ≠ st := fun e => h (hold.trans (congrArg some e))
      refine ⟨free, held, fun consistent hp => ?_⟩
      refine State.refresh_no_clerk (t := t) (ports old (.inr hold)).1 ?_ ?_
      · rw [state old (.inr hold), elsewhere old other]
        exact hp
      · rw [service]
        exact Service.clerkAt_moved_from consistent.clerks found hold other
    · exact shownClerk.trans (congrArg some number)
    · refine shownTicket.trans ?_
      unfold State.current
      rw [pool]
    · exact State.finish_of_eq parts
  · have key := State.takeKey_accepted hk (State.logoffKey_clerk (s := accepted s st) found)
    have logged := State.logOffAt_loggedOff (s := accepted s st) found
    generalize (accepted s st).logOffAt st = t at key logged
    have left : ClerkLeft (accepted s st) (t.finish s) st := logged.left.congr rfl rfl rfl rfl (.inl rfl) rfl (by simp)
    exact ⟨t.finish s, key, logged.service, logged.cleared, logged.held, left,
      fun consistent => logged.display consistent.clerks hk.accepted_present, State.finish_of_eq logged.parts⟩

end Sys2Proof.Machine
end

section
/-! SUPPORT. What jobs taken in and examinations leave of the label queue, the commits and the ports (R119, R127, R136). -/

namespace Sys2Proof.Machine

/-! ## The jobs of the label queue (R119, R127) -/

/-- R119, R127: every job of the queue stays, and one that is PRINTING does not return to QUEUED; a job that did not stand there was
made for a producer of `made`. -/
structure JobsKept (made : JobLink → Prop) (old new : List Job) : Prop where
  kept : ∀ j ∈ old, ∃ y ∈ new, y.number = j.number ∧ y.link = j.link ∧ (j.state ≠ .queued → y.state ≠ .queued)
  origin : ∀ y ∈ new, made y.link ∨
    ∃ j ∈ old, j.number = y.number ∧ j.link = y.link ∧ (y.state = .queued → j.state = .queued)

/-- Nothing happened. -/
theorem JobsKept.same (made : JobLink → Prop) (jobs : List Job) : JobsKept made jobs jobs :=
  ⟨fun j hj => ⟨j, hj, rfl, rfl, id⟩, fun y hy => .inr ⟨y, hy, rfl, rfl, id⟩⟩

/-- One such operation after another. -/
theorem JobsKept.trans {made : JobLink → Prop} {a b c : List Job} (h : JobsKept made a b) (g : JobsKept made b c) :
    JobsKept made a c := by
  refine ⟨fun j hj => ?_, fun y hy => ?_⟩
  · obtain ⟨x, hx, number, link, printing⟩ := h.kept j hj
    obtain ⟨y, hy, number', link', printing'⟩ := g.kept x hx
    exact ⟨y, hy, number'.trans number, link'.trans link, printing' ∘ printing⟩
  · rcases g.origin y hy with new | ⟨x, hx, number, link, queued⟩
    · exact .inl new
    · rcases h.origin x hx with new | ⟨j, hj, number', link', queued'⟩
      · exact .inl (link ▸ new)
      · exact .inr ⟨j, hj, number'.trans number, link'.trans link, queued' ∘ queued⟩

/-- R127: one choice of the arbiters. -/
theorem State.chooseOnce_jobs (made : JobLink → Prop) (s : State) : JobsKept made s.labels.queue s.chooseOnce.labels.queue := by
  obtain ⟨-, drawn, -, same⟩ := s.inOpenOrder_spec printerNumber s.choosers
  unfold State.chooseOnce
  generalize s.inOpenOrder printerNumber s.choosers = x at same ⊢
  obtain ⟨t, _ | ⟨p, ps⟩⟩ := x
  · obtain rfl : t = _ := same
    exact .same ..
  · obtain rfl : t = _ := same
    dsimp only
    split
    · exact .same ..
    · next j _ =>
      obtain ⟨begin, hbegin⟩ : ∃ begin : Job → Job, begin = fun x =>
        if x.number = j.number then { x with state := .printing p, attempts := x.attempts + 1 } else x := ⟨_, rfl⟩
      have fields : ∀ x, (begin x).number = x.number ∧ (begin x).link = x.link ∧ ((begin x).state = .queued → x.state = .queued) :=
        fun x => by
          rw [hbegin]
          dsimp only
          split
          · exact ⟨rfl, rfl, nofun⟩
          · exact ⟨rfl, rfl, id⟩
      have queue : (State.startJob { s with freeCount := s.freeCount + drawn } p j).labels.queue = s.labels.queue.map begin := by
        rw [hbegin]
        rfl
      rw [queue]
      refine ⟨fun x hx => ⟨begin x, List.mem_map_of_mem hx, ?_⟩, fun y hy => ?_⟩
      · obtain ⟨number, link, queued⟩ := fields x
        exact ⟨number, link, mt queued⟩
      · obtain ⟨x, hx, rfl⟩ := List.mem_map.1 hy
        obtain ⟨number, link, queued⟩ := fields x
        exact .inr ⟨x, hx, number.symm, link.symm, queued⟩

/-- R119: a job taken in. -/
theorem State.takeJob_jobs (s : State) (job : Job) :
    JobsKept (fun link => link = job.link) s.labels.queue (s.takeJob job).labels.queue := by
  have entered : JobsKept (fun link => link = job.link) s.labels.queue (s.onLabels (·.takeIn job)).labels.queue := by
    have perm := insertByKey_perm Job.key (s.labels.entry job) s.labels.queue
    refine ⟨fun j hj => ⟨j, perm.mem_iff.2 (List.mem_cons_of_mem _ hj), rfl, rfl, id⟩, fun y hy => ?_⟩
    rcases List.mem_cons.1 (perm.mem_iff.1 hy) with rfl | stood
    · exact .inl rfl
    · exact .inr ⟨y, stood, rfl, rfl, id⟩
  exact (entered.trans (State.chooseOnce_jobs _ _)).trans (State.chooseOnce_jobs _ _)

/-! ## Examinations (R136, R140) -/

/-- What examinations leave of the ports, the commits and the jobs: the ports but for the image; prepack commits taken in behind the
others; prepack jobs taken in. -/
structure RunsExamined (s t : State) : Prop where
  ports : ∀ x : Station, t.ports[x] = { s.ports[x] with image := t.ports[x].image }
  commits : ∃ more, t.totals = { s.totals with commits := s.totals.commits ++ more } ∧ ∀ x ∈ more, x.kind = .prepack
  jobs : JobsKept (fun link => ∃ serial, link = .prepack serial) s.labels.queue t.labels.queue

/-- No ports, commits or jobs changed, but the images. -/
theorem RunsExamined.of_same {s t : State} (ports : ∀ x : Station, t.ports[x] = { s.ports[x] with image := t.ports[x].image })
    (totals : t.totals = s.totals) (labels : t.labels = s.labels) : RunsExamined s t :=
  ⟨ports, ⟨[], by rw [totals, List.append_nil], nofun⟩, by rw [labels]; exact .same ..⟩

/-- One examination after another. -/
theorem RunsExamined.trans {s t u : State} (h : RunsExamined s t) (g : RunsExamined t u) : RunsExamined s u := by
  refine ⟨fun x => by rw [g.ports, h.ports], ?_, h.jobs.trans g.jobs⟩
  obtain ⟨more, totals, prepack⟩ := h.commits
  obtain ⟨more', totals', prepack'⟩ := g.commits
  refine ⟨more ++ more', by rw [totals', totals, List.append_assoc], fun x hx => ?_⟩
  rcases List.mem_append.1 hx with hx | hx
  exacts [prepack x hx, prepack' x hx]

/-- R140: the end of a run hands over no commit or a prepack one. -/
theorem RunEnded.prepack_commits {s t : State} {st : Station} {reason : EndReason} (h : RunEnded s t st reason) :
    ∃ more, t.totals = { s.totals with commits := s.totals.commits ++ more } ∧ ∀ x ∈ more, x.kind = .prepack := by
  by_cases active : s.runs[st].state = .active
  · obtain ⟨-, totals, -⟩ := h.2 active
    rw [totals]
    split
    · refine ⟨_, rfl, fun x hx => ?_⟩
      rw [List.mem_singleton.1 hx]
    · exact ⟨[], by rw [List.append_nil], nofun⟩
  · exact ⟨[], by rw [(h.1 active).2, List.append_nil], nofun⟩

/-- R137: a trigger hands over no commit or, as the run's last, a prepack one. -/
theorem State.trigger_commits (s : State) (st : Station) (v : PluVersion) (price : Nat) :
    ∃ more, (s.trigger st v price).totals = { s.totals with commits := s.totals.commits ++ more } ∧ ∀ x ∈ more, x.kind = .prepack := by
  obtain ⟨job, hjob⟩ : ∃ job, job =
    newJob .prepack s.channels[st].config (.prepack (s.runs[st].serial.getD 0)) (s.packContent st v price) := ⟨_, rfl⟩
  obtain ⟨u, hu⟩ : ∃ u, u = ((s.takeJob job).onChannel st fun c => { c with armed := false }).onRun st
    (Run.count s.labels.nextJob s.channels[st].shownWeight price (v.mode == .byWeight)) := ⟨_, rfl⟩
  have triggered : s.trigger st v price =
      if (u.stopWaiting st).runs[st].remaining = 0 then (u.stopWaiting st).endRun st .count else u.stopWaiting st := by
    rw [hu, hjob]
    rfl
  have taken := s.takeJob_eq job
  generalize s.takeJob job = j at hu taken
  have totals : (u.stopWaiting st).totals = s.totals := by
    obtain ⟨-, -, -, waited, -⟩ := u.stopWaiting_spec st
    rw [waited, hu, taken]
    rfl
  rw [triggered, ← totals]
  split
  · obtain ⟨-, ended, -⟩ := (u.stopWaiting st).endRun_spec st .count
    exact ended.prepack_commits
  · exact ⟨[], by rw [List.append_nil], nofun⟩

/-- R136: an examination. -/
theorem State.examine_runsExamined (s : State) (st : Station) : RunsExamined s (s.examine st) := by
  refine ⟨fun x => ?_, ?_, ?_⟩
  · by_cases h : x = st
    · obtain ⟨examined, -⟩ := s.examine_examination st
      rw [h]
      exact examined.port
    · obtain ⟨-, port, -⟩ := (s.examine_left st).others x h
      rw [port]
  · unfold State.examine
    split
    · split
      · obtain ⟨-, -, -, totals, -⟩ := s.stopWaiting_spec st
        exact ⟨[], by rw [totals, List.append_nil], nofun⟩
      · split
        · exact s.trigger_commits st _ _
        · exact ⟨[], by rw [List.append_nil]; rfl, nofun⟩
    · exact ⟨[], by rw [List.append_nil], nofun⟩
  · rcases s.examine_labels st with same | ⟨job, serial, link, taken⟩
    · rw [same]
      exact .same ..
    · rw [taken]
      obtain ⟨kept, origin⟩ := s.takeJob_jobs job
      exact ⟨kept, fun y hy => (origin y hy).imp_left fun h => ⟨serial, h.trans link⟩⟩

/-- R136: examinations at the stations of a list. -/
theorem State.foldl_examine_runsExamined : ∀ (order : List Station) (s : State), RunsExamined s (order.foldl State.examine s)
  | [], _ => .of_same (fun _ => rfl) rfl rfl
  | st :: order, s => (s.examine_runsExamined st).trans (State.foldl_examine_runsExamined order _)

/-- R120, R136: the examinations that departures call for. -/
theorem State.afterDepartures_runsExamined (s old : State) : RunsExamined s (s.afterDepartures old) := by
  unfold State.afterDepartures
  split
  · unfold State.examineAll
    obtain ⟨-, drawn, -, same⟩ := s.inOpenOrder_spec stationNumber (stations.filter fun st => (s.triggerPrice st).isSome)
    dsimp only
    generalize s.inOpenOrder stationNumber (stations.filter fun st => (s.triggerPrice st).isSome) = x at same ⊢
    obtain ⟨t, order⟩ := x
    obtain rfl : t = _ := same
    exact RunsExamined.trans (t := { s with freeCount := s.freeCount + drawn }) (.of_same (fun _ => rfl) rfl rfl)
      (State.foldl_examine_runsExamined _ _)
  · exact .of_same (fun _ => rfl) rfl rfl

end Sys2Proof.Machine
end

section
/-! SUPPORT. Baskets cancelled and closed (R109 to R113). -/

namespace Sys2Proof.Machine

/-! ## The item jobs of a basket (R104, R112) -/

/-- R104, R112: the outcome CANCELLED of a list of item jobs, written into a record. -/
def Basket.takeCancelled (serial : Nat) (jobs : List Job) (b : Basket) : Basket :=
  jobs.foldl (fun b j => b.takeOutcome serial j.link.line j.number .cancelled) b

/-- R104: what the outcomes leave of a record. -/
theorem Basket.takeCancelled_fields (serial : Nat) : ∀ (jobs : List Job) (b : Basket),
    (b.takeCancelled serial jobs).slot = b.slot ∧ (b.takeCancelled serial jobs).state = b.state ∧
    (b.takeCancelled serial jobs).serial = b.serial
  | [], _ => ⟨rfl, rfl, rfl⟩
  | j :: jobs, b => by
    obtain ⟨slot, state, own, -⟩ := b.takeOutcome_fields serial j.link.line j.number .cancelled
    obtain ⟨slot', state', own'⟩ := (b.takeOutcome serial j.link.line j.number .cancelled).takeCancelled_fields serial jobs
    exact ⟨slot'.trans slot, state'.trans state, own'.trans own⟩

/-- R104: in the open basket the jobs are of, a line whose latest job is among them has label state NONE. -/
theorem Basket.takeCancelled_own {serial : Nat} : ∀ (jobs : List Job) {b : Basket}, b.state = .opened → b.serial = some serial →
    b.takeCancelled serial jobs = { b with lines := b.lines.map fun l =>
      if ∃ j ∈ jobs, j.link.line = l.number ∧ l.latestJob = some j.number then { l with labelState := .none } else l }
  | [], b, _, _ => by simp [Basket.takeCancelled]
  | j :: jobs, b, opened, own => by
    have first := Basket.takeOutcome_own ⟨opened, own⟩ j.link.line j.number .cancelled
    have rest := (b.takeOutcome serial j.link.line j.number .cancelled).takeCancelled_own (serial := serial) jobs
      (by rw [first]; exact opened) (by rw [first]; exact own)
    refine Eq.trans rest ?_
    rw [first]
    simp only [List.map_map, Basket.mk.injEq, true_and, and_true]
    refine List.map_congr_left fun l _ => ?_
    simp only [Function.comp_def, List.mem_cons, exists_eq_or_imp]
    by_cases here : l.number = j.link.line ∧ l.latestJob = some j.number
    · simp [here, JobOutcome.labelState]
    · have there : ¬(j.link.line = l.number ∧ l.latestJob = some j.number) := fun h => here ⟨h.1.symm, h.2⟩
      rw [if_neg here]
      simp only [there, false_or]

/-- R112, R120: item jobs of one basket that end. -/
theorem State.endJobs_items {serial : Nat} : ∀ (jobs : List Job) (s : State), (∀ j ∈ jobs, ∃ line, j.link = .item serial line) →
    (jobs.foldl (fun t j => t.endJob j .cancelled) s) = { s with
      labels := (jobs.foldl (fun t j => t.endJob j .cancelled) s).labels,
      pool := { s.pool with records := s.pool.records.map (Basket.takeCancelled serial jobs) } }
  | [], s, _ => by
    have same : s.pool.records.map (Basket.takeCancelled serial []) = s.pool.records := List.map_id _
    rw [same]
    rfl
  | j :: jobs, s, items => by
    obtain ⟨line, link⟩ := items j List.mem_cons_self
    have rest := State.endJobs_items jobs (s.endJob j .cancelled) fun x hx => items x (List.mem_cons_of_mem _ hx)
    have ended := State.endJob_item (s := s) (o := .cancelled) link
    have records : (s.pool.records.map (Basket.takeOutcome serial line j.number .cancelled)).map (Basket.takeCancelled serial jobs) =
        s.pool.records.map (Basket.takeCancelled serial (j :: jobs)) := by
      rw [List.map_map]
      refine List.map_congr_left fun b _ => ?_
      show _ = Basket.takeCancelled serial jobs (b.takeOutcome serial j.link.line j.number .cancelled)
      rw [link]
      rfl
    rw [List.foldl_cons, ← records]
    generalize List.foldl (fun t j => t.endJob j .cancelled) (s.endJob j .cancelled) jobs = t at rest ⊢
    rw [ended] at rest
    exact rest

/-- The item jobs of a basket that are still QUEUED. -/
def State.queuedItems (s : State) (serial : Nat) : List Job := s.labels.queue.filter (Job.isQueuedItemOf serial)

/-- R112: what the cancelling of a basket's item jobs leaves. -/
theorem State.cancelItemJobs_eq (s : State) (serial : Nat) : s.cancelItemJobs serial = { s with
    labels := { s.labels with queue := s.labels.queue.filter fun x => !((s.queuedItems serial).map Job.number).contains x.number },
    pool := { s.pool with records := s.pool.records.map (Basket.takeCancelled serial (s.queuedItems serial)) } } := by
  have ended := State.endJobs_items (serial := serial) (s.queuedItems serial) s fun j hj => by
    obtain ⟨-, item⟩ := List.mem_filter.1 hj
    exact (Job.isQueuedItemOf_iff.1 item).2
  have labels := s.cancelItemJobs_labels serial
  unfold State.cancelItemJobs at labels ⊢
  unfold State.queuedItems at ended
  rw [labels] at ended
  exact ended

/-! ## A basket cancelled (R111 to R113) -/

/-- R112: the part right after a cancel taken at channel st: its item jobs gone from the queue, its record CANCELLED and free, its
ticket at the recall list or free, and its commit, when it held lines, at the tail. -/
def State.cancelRecord (s : State) (b : Basket) (st : Station) : State :=
  let serial := b.serial.getD 0
  { s with
    labels := { s.labels with queue := s.labels.queue.filter fun x => !((s.queuedItems serial).map Job.number).contains x.number },
    pool :=
      { records := (s.pool.records.map (Basket.takeCancelled serial (s.queuedItems serial))).map fun x =>
          if x.slot = b.slot then { x with state := .cancelled, endedAt := s.link.clock } else x,
        free := s.pool.free ++ [b.slot] },
    service := (s.service.dropBasket serial).endTicket b b.isEmpty,
    totals := { s.totals with commits := s.totals.commits ++ if b.isEmpty then [] else [s.basketCommit b .cancel st] } }

/-- R112: a cancel is `cancelRecord`; then the clerk's display follows, and the runs are examined when a job departed. -/
theorem State.cancelOpen_eq (s : State) (b : Basket) (st : Station) :
    s.cancelOpen b st = ((s.cancelRecord b st).refreshClerk b).afterDepartures s := by
  unfold State.cancelOpen State.cancelRecord
  dsimp only
  rw [State.cancelItemJobs_eq]
  cases b.isEmpty with
  | true =>
    simp only [if_true, List.append_nil]
    rfl
  | false => rfl

/-- R83, R112, R120: what follows a cancel: the ports but for their images, and what examinations leave. -/
theorem State.cancelOpen_left (s : State) (b : Basket) (st : Station) :
    Examined (s.cancelRecord b st) (s.cancelOpen b st) ∧ RunsExamined (s.cancelRecord b st) (s.cancelOpen b st) := by
  rw [State.cancelOpen_eq]
  generalize s.cancelRecord b st = u
  have shown : Examined u (u.refreshClerk b) ∧ RunsExamined u (u.refreshClerk b) := by
    unfold State.refreshClerk
    split
    · exact ⟨.same u, .of_same (fun _ => rfl) rfl rfl⟩
    · next x _ =>
      have step := StationStep.refresh u x
      have fields := (u.refresh_spec x).1
      have labels := step.labels
      refine ⟨⟨(step.examination (by rw [fields])).parts, fun j hj => .inr ⟨j, labels ▸ hj, rfl, rfl⟩⟩,
        .of_same (fun y => ?_) (by rw [fields]) labels⟩
      by_cases h : y = x
      · rw [h]
        exact step.port
      · rw [(step.others y h).2.1]
  exact ⟨shown.1.trans (State.afterDepartures_examined _ s), shown.2.trans (State.afterDepartures_runsExamined _ s)⟩

/-- R83, R86, R87: the clerks' lists and the tickets after a basket ended. -/
theorem Service.endBasket_eq (v : Service) (b : Basket) {recallable : Bool} {p : Prop} [Decidable p] (h : recallable = true ↔ p) :
    (v.dropBasket (b.serial.getD 0)).endTicket b recallable = { v with
      clerks := v.clerks.map fun x =>
        { x with current := if x.current = some (b.serial.getD 0) then none else x.current,
                 parked := x.parked.filter fun n => n != b.serial.getD 0 },
      bound := if b.ticket.isSome then v.bound.filter fun x => some x.serial != b.serial else v.bound,
      recallList := match b.ticket with
        | none => v.recallList
        | some k => if p then (k :: v.recallList).take 8 else v.recallList } := by
  unfold Service.endTicket
  cases b.ticket with
  | none => rfl
  | some k =>
    dsimp only
    by_cases hp : p
    · rw [h.2 hp, if_pos hp]
      rfl
    · have not_recallable : recallable = false := by simpa using mt h.1 hp
      rw [not_recallable, if_neg hp]
      rfl

/-- R110: a basket that never held a line. -/
theorem Basket.isEmpty_iff (b : Basket) : b.isEmpty = true ↔ b.lines = [] := List.isEmpty_iff

/-- R97: a basket's open record is in the pool under a serial. -/
structure OpenRecord (s : State) (b : Basket) (serial : Nat) : Prop where
  member : b ∈ s.pool.records
  opened : b.state = .opened
  own : b.serial = some serial

/-- R83: a clerk's current basket is an open record. -/
theorem State.current_open {s : State} {c : Clerk} {b : Basket} (h : s.current c = some b) : ∃ serial, OpenRecord s b serial := by
  obtain ⟨member, opened, serial, own⟩ := State.current_some h
  exact ⟨serial, member, opened, own⟩

/-- R97: a serial's open basket is an open record. -/
theorem Pool.openBasket_some {s : State} {serial : Nat} {b : Basket} (h : s.pool.openBasket serial = some b) :
    OpenRecord s b serial := by
  have found := List.find?_some h
  rw [Bool.and_eq_true, beq_iff_eq, beq_iff_eq] at found
  exact ⟨List.mem_of_find?_eq_some h, found.1, found.2⟩

/-- R97 to R113: the basket has ended in this state, at `t`. -/
def BasketEnded (s t : State) (b : Basket) (state : BasketState) : Prop :=
  t.service = { s.service with
    clerks := s.service.clerks.map fun x =>
      { x with current := if x.current = some (b.serial.getD 0) then none else x.current,
               parked := x.parked.filter fun n => n != b.serial.getD 0 },
    bound := if b.ticket.isSome then s.service.bound.filter fun x => some x.serial != b.serial else s.service.bound,
    recallList := match b.ticket with
      | none => s.service.recallList
      | some k => if (state = .cancelled ∧ b.lines = []) then (k :: s.service.recallList).take 8 else s.service.recallList } ∧
  t.pool.free = s.pool.free ++ [b.slot] ∧ ∃ x ∈ t.pool.records, x.slot = b.slot ∧ x.state = state ∧ x.serial = b.serial ∧
    x.endedAt = s.link.clock ∧ x.total = b.total ∧
    x.lines = (if state = .cancelled then b.lines.map fun l =>
        if ∃ j ∈ s.labels.queue, j.state = .queued ∧ j.link = .item (b.serial.getD 0) l.number ∧ l.latestJob = (some j.number) then
          { l with labelState := .none } else l
      else b.lines) ∧
    (JobNumbersDistinct s → ∀ j ∈ s.labels.queue,
      (state = .cancelled → j.state = .queued → (∃ n, j.link = .item (b.serial.getD 0) n) →
        ∀ y ∈ t.labels.queue, y.link = j.link → y.number ≠ j.number) ∧
      (state = .closed ∨ j.state ≠ .queued ∨ (∀ n, j.link ≠ .item (b.serial.getD 0) n) →
        ∃ y ∈ t.labels.queue, y.number = j.number ∧ y.link = j.link ∧ (j.state ≠ .queued → y.state ≠ .queued))) ∧
    (state = .cancelled → ∀ y ∈ t.labels.queue, y.state = .queued → ∀ n, y.link ≠ .item (b.serial.getD 0) n) ∧
    t = { s with freeCount := t.freeCount, ports := t.ports, headLines := t.headLines, channels := t.channels, price := t.price,
                 service := t.service, pool := t.pool, labels := t.labels, printers := t.printers, runs := t.runs,
                 totals := t.totals, link := t.link }

/-- R147: these commits were taken in, and behind them those of prepack runs that found room. -/
def BasketHandedOver (s t : State) (first : List Commit) : Prop :=
  ∃ more, t.totals = { s.totals with commits := s.totals.commits ++ first ++ more } ∧ ∀ x ∈ more, x.kind = .prepack

/-- R112: the record of a basket that is cancelled at `s`. -/
def State.cancelledBasket (s : State) (b : Basket) : Basket :=
  { b with
    state := .cancelled, endedAt := s.link.clock,
    lines := b.lines.map fun l =>
      if ∃ j ∈ s.labels.queue, j.state = .queued ∧ j.link = .item (b.serial.getD 0) l.number ∧ l.latestJob = (some j.number) then
        { l with labelState := .none } else l }

/-- R112: the cancelled record is in the pool. -/
theorem State.cancelRecord_record {s : State} {b : Basket} {serial : Nat} (h : OpenRecord s b serial) (st : Station) :
    s.cancelledBasket b ∈ (s.cancelRecord b st).pool.records := by
  have number : b.serial.getD 0 = serial := by rw [h.own, Option.getD_some]
  have slot := (b.takeCancelled_fields serial (s.queuedItems serial)).1
  refine List.mem_map.2 ⟨b.takeCancelled serial (s.queuedItems serial), List.mem_map.2 ⟨b, h.member, by rw [number]⟩, ?_⟩
  rw [if_pos slot, Basket.takeCancelled_own _ h.opened h.own]
  simp only [State.cancelledBasket, Basket.mk.injEq, true_and, and_true]
  refine List.map_congr_left fun l _ => if_congr ?_ rfl rfl
  rw [number]
  unfold State.queuedItems
  simp only [List.mem_filter, Job.isQueuedItemOf_iff]
  constructor
  · rintro ⟨j, ⟨stands, queued, line, link⟩, same, latest⟩
    rw [link] at same
    exact ⟨j, stands, queued, by rw [link]; exact congrArg _ same, latest⟩
  · rintro ⟨j, stands, queued, link, latest⟩
    exact ⟨j, ⟨stands, queued, _, link⟩, by rw [link]; rfl, latest⟩

/-- R112, R121: of the jobs, those cancelled are gone and the others stand, with the numbers distinct. -/
theorem State.cancelRecord_jobs {s : State} {b : Basket} {st : Station} {j : Job} (distinct : JobNumbersDistinct s)
    (stands : j ∈ s.labels.queue) : (j.state ≠ .queued ∨ ∀ n, j.link ≠ .item (b.serial.getD 0) n) →
      j ∈ (s.cancelRecord b st).labels.queue := by
  intro passed
  refine List.mem_filter.2 ⟨stands, ?_⟩
  rw [Bool.not_eq_true', ← Bool.not_eq_true, List.contains_iff_mem, List.mem_map]
  rintro ⟨x, hx, number⟩
  obtain ⟨hx, item⟩ := List.mem_filter.1 hx
  obtain ⟨queued, line, link⟩ := Job.isQueuedItemOf_iff.1 item
  obtain rfl : x = j := List.inj_on_of_nodup_map distinct.1 hx stands number
  rcases passed with printing | other
  exacts [printing queued, other line link]

/-- R112: a job that was cancelled stands no more under its number, and no QUEUED item job of the basket stands. -/
theorem State.cancelRecord_gone {s : State} {b : Basket} {st : Station} {y : Job} (hy : y ∈ (s.cancelRecord b st).labels.queue) :
    (∀ j ∈ s.labels.queue, j.isQueuedItemOf (b.serial.getD 0) = true → y.number ≠ j.number) ∧
    y.isQueuedItemOf (b.serial.getD 0) = false := by
  obtain ⟨stands, kept⟩ := List.mem_filter.1 hy
  rw [Bool.not_eq_true', ← Bool.not_eq_true, List.contains_iff_mem, List.mem_map] at kept
  refine ⟨fun j hj item same => kept ⟨j, List.mem_filter.2 ⟨hj, item⟩, same.symm⟩, ?_⟩
  rw [← Bool.not_eq_true]
  exact fun item => kept ⟨y, List.mem_filter.2 ⟨stands, item⟩, rfl⟩

/-- R111 to R113: a cancelled basket has ended, and its commit, when it held lines, is handed over. -/
theorem State.cancelOpen_ended {s : State} {b : Basket} {serial : Nat} (h : OpenRecord s b serial) (st : Station) :
    BasketEnded s (s.cancelOpen b st) b .cancelled ∧
    BasketHandedOver s (s.cancelOpen b st) (if b.isEmpty then [] else [s.basketCommit b .cancel st]) := by
  obtain ⟨examined, left⟩ := s.cancelOpen_left b st
  have service : (s.cancelRecord b st).service = _ :=
    s.service.endBasket_eq b (p := (BasketState.cancelled = .cancelled ∧ b.lines = [])) (by rw [b.isEmpty_iff]; simp)
  have record := State.cancelRecord_record h st
  generalize s.cancelOpen b st = t at *
  have parts := examined.parts
  have service' : t.service = (s.cancelRecord b st).service := by rw [parts]
  have pool : t.pool = (s.cancelRecord b st).pool := by rw [parts]
  refine ⟨⟨service'.trans service, by rw [pool]; rfl, s.cancelledBasket b, by rw [pool]; exact record, rfl, rfl, rfl, rfl, rfl,
    (if_pos rfl).symm,
    fun distinct j hj => ⟨fun _ queued item y hy link => ?_, fun passed => ?_⟩, fun _ y hy queued n link => ?_, ?_⟩, ?_⟩
  · rcases left.jobs.origin y hy with ⟨run, made⟩ | ⟨x, hx, number, -, -⟩
    · obtain ⟨n, item⟩ := item
      rw [link, item] at made
      cases made
    · rw [← number]
      exact (State.cancelRecord_gone hx).1 j hj (Job.isQueuedItemOf_iff.2 ⟨queued, item⟩)
  · exact left.jobs.kept j (State.cancelRecord_jobs distinct hj (passed.resolve_left (by nofun)))
  · rcases left.jobs.origin y hy with ⟨run, made⟩ | ⟨x, hx, -, same, stays⟩
    · rw [link] at made
      cases made
    · have item : x.isQueuedItemOf (b.serial.getD 0) = true := Job.isQueuedItemOf_iff.2 ⟨stays queued, n, same.trans link⟩
      rw [(State.cancelRecord_gone hx).2] at item
      cases item
  · rw [parts]
    rfl
  · obtain ⟨more, totals, prepack⟩ := left.commits
    refine ⟨more, ?_, prepack⟩
    rw [totals]
    rfl

end Sys2Proof.Machine
end

section
/-! SUPPORT. TOTAL and CANCEL_BASKET (R109 to R113). -/

namespace Sys2Proof.Machine

/-! ## A basket closed (R110) -/

/-- R110: the summary job of a basket that closes at channel st. -/
def State.summaryJob (s : State) (st : Station) (b : Basket) : Job :=
  newJob .summary s.channels[st].config (.summary (b.serial.getD 0)) (s.summaryContent st b)

/-- R110: the part right after a close at channel st: the summary job taken in, the record CLOSED and free, the ticket's number free, the
commit at the tail. -/
def State.closeRecord (s : State) (st : Station) (b : Basket) : State :=
  let queued := s.takeJob (s.summaryJob st b)
  { s with
    freeCount := queued.freeCount, labels := queued.labels, printers := queued.printers,
    pool :=
      { records := s.pool.records.map fun x =>
          if x.slot = b.slot then { x with state := .closed, endedAt := s.link.clock } else x,
        free := s.pool.free ++ [b.slot] },
    service := (s.service.dropBasket (b.serial.getD 0)).endTicket b false,
    totals := { s.totals with commits := s.totals.commits ++ [s.basketCommit b .basket st] } }

/-- R83: the display of a basket's clerk follows, and nothing else. -/
theorem State.refreshClerk_eq (s : State) (b : Basket) : s.refreshClerk b = { s with ports := (s.refreshClerk b).ports } := by
  unfold State.refreshClerk
  split
  · rfl
  · next x _ => exact (s.refresh_spec x).1

/-- R110: a close is `closeRecord`; then the clerk's display follows. -/
theorem State.closeBasket_eq (s : State) (st : Station) (b : Basket) : s.closeBasket st b = (s.closeRecord st b).refreshClerk b := by
  have taken := s.takeJob_eq (s.summaryJob st b)
  have closed : s.closeBasket st b =
      ((((s.takeJob (s.summaryJob st b)).pushCommit (s.basketCommit b .basket st)).freeRecord b .closed).onService fun v =>
        (v.dropBasket (b.serial.getD 0)).endTicket b false).refreshClerk b := rfl
  rw [closed]
  unfold State.closeRecord
  dsimp only
  generalize s.takeJob (s.summaryJob st b) = t at taken ⊢
  rw [taken]
  rfl

/-- R110: a closed basket has ended; its commit is at the tail, and its summary job in the queue. -/
theorem State.closeBasket_ended {s : State} {b : Basket} {serial : Nat} (h : OpenRecord s b serial) (st : Station) :
    let t := s.closeBasket st b
    BasketEnded s t b .closed ∧ t.totals = { s.totals with commits := s.totals.commits ++ [s.basketCommit b .basket st] } ∧
    t.labels.queue.length = s.labels.queue.length + 1 ∧
    (∃ j ∈ t.labels.queue, j.number = s.labels.nextJob ∧ j.cls = .summary ∧ j.link = .summary (b.serial.getD 0) ∧
      j.preferred = s.channels[st].config.boundPrinter ∧ j.fallback = s.channels[st].config.fallback ∧
      j.content = s.summaryContent st b) ∧
    t.channels = s.channels ∧ t.runs = s.runs ∧ t.price = s.price := by
  intro t
  have parts : t = { s.closeRecord st b with ports := t.ports } := by
    have shown := (s.closeRecord st b).refreshClerk_eq b
    rw [← State.closeBasket_eq] at shown
    exact shown
  clear_value t
  have labels : t.labels = (s.takeJob (s.summaryJob st b)).labels := by rw [parts]; rfl
  have service := s.service.endBasket_eq b (recallable := false) (p := (BasketState.closed = .cancelled ∧ b.lines = [])) (by simp)
  refine ⟨⟨?_, by rw [parts]; rfl, { b with state := .closed, endedAt := s.link.clock }, ?_, rfl, rfl, rfl, rfl, rfl, rfl,
    fun _ j hj => ⟨nofun, fun _ => ?_⟩, nofun, ?_⟩, by rw [parts]; rfl, ?_, ?_, by rw [parts]; rfl, by rw [parts]; rfl,
    by rw [parts]; rfl⟩
  · rw [parts]
    exact service
  · rw [parts]
    exact List.mem_map.2 ⟨b, h.member, if_pos rfl⟩
  · rw [labels]
    exact (s.takeJob_jobs _).kept j hj
  · rw [parts]
    rfl
  · rw [labels]
    exact s.takeJob_length _
  · obtain ⟨j, hj, entry⟩ := s.takeJob_mem (s.summaryJob st b)
    rw [labels]
    refine ⟨j, hj, ?_⟩
    rw [entry]
    exact ⟨rfl, rfl, rfl, rfl, rfl, rfl⟩

/-! ## The checks (R109, R111, R113) -/

/-- R147: room for a commit. -/
theorem State.commitRoom_iff (s : State) : s.commitRoom = true ↔ s.totals.commits.length < 8 ∧ s.totals.closing = none := by
  unfold State.commitRoom
  rw [Bool.and_eq_true, decide_eq_true_eq, Option.isNone_iff_eq_none]
  rfl

/-- R147: no room for a commit. -/
theorem State.commitRoom_false {s : State} (h : 8 ≤ s.totals.commits.length ∨ s.totals.closing.isSome = true) :
    s.commitRoom = false := by
  rw [← Bool.not_eq_true, State.commitRoom_iff]
  rintro ⟨room, opened⟩
  rcases h with full | closing
  · omega
  · rw [opened] at closing
    cases closing

/-- R109: the unvoided lines of a basket. -/
theorem Basket.unvoided_eq_nil (b : Basket) : b.unvoided = [] ↔ ∀ l ∈ b.lines, l.voided = true := by
  unfold Basket.unvoided
  simp

/-- R109, R111: TOTAL, by its checks in order. -/
theorem State.totalKey_basket {s : State} {st : Station} {c : Clerk} {b : Basket} (hc : s.service.clerkAt st = some c)
    (hb : s.current c = some b) :
    (b.lines = [] → s.totalKey st = .ok (s.cancelOpen b st)) ∧
    (b.lines ≠ [] → s.store.state ≠ .verified → s.totalKey st = .error .storeNotReady) ∧
    (b.lines ≠ [] → s.store.state = .verified → s.commitRoom = false → s.totalKey st = .error .totalsBusy) ∧
    (b.lines ≠ [] → s.store.state = .verified → s.commitRoom = true →
      (b.unvoided = [] → s.totalKey st = .ok (s.cancelOpen b st)) ∧
      (b.unvoided ≠ [] → s.labels.room = false → s.totalKey st = .error .labelsFull) ∧
      (b.unvoided ≠ [] → s.labels.room = true → s.totalKey st = .ok (s.closeBasket st b))) := by
  have key : s.totalKey st = if b.isEmpty then .ok (s.cancelOpen b st)
    else if s.store.state ≠ .verified then .error .storeNotReady
    else if s.commitRoom = false then .error .totalsBusy
    else if b.unvoided = [] then .ok (s.cancelOpen b st)
    else if s.labels.room = false then .error .labelsFull
    else .ok (s.closeBasket st b) := State.withBasket_some hc hb _
  have empty := b.isEmpty_iff
  rw [key]
  refine ⟨fun none => if_pos (empty.2 none), fun lines unready => ?_, fun lines ready busy => ?_, fun lines ready room => ?_⟩
  · rw [if_neg (mt empty.1 lines), if_pos unready]
  · rw [if_neg (mt empty.1 lines), if_neg (not_not_intro ready), if_pos busy]
  · rw [if_neg (mt empty.1 lines), if_neg (not_not_intro ready), if_neg (by rw [room]; nofun)]
    refine ⟨fun voided => if_pos voided, fun unvoided full => ?_, fun unvoided free => ?_⟩
    · rw [if_neg unvoided, if_pos full]
    · rw [if_neg unvoided, if_neg (by rw [free]; nofun)]

/-- R113: CANCEL_BASKET, by its checks in order. -/
theorem State.cancelBasket_cases (s : State) (serial : Nat) :
    (s.pool.openBasket serial = none → State.cancelBasket serial s = (s, [5])) ∧
    ∀ b st, s.pool.openBasket serial = some b → b.channel = some st →
      (b.lines ≠ [] → s.store.state ≠ .verified → State.cancelBasket serial s = (s, [14])) ∧
      (b.lines ≠ [] → s.store.state = .verified → s.commitRoom = false → State.cancelBasket serial s = (s, [4])) ∧
      (b.lines = [] ∨ (s.store.state = .verified ∧ s.commitRoom = true) → State.cancelBasket serial s =
        (s.cancelOpen b st, 0 :: (u4 serial ++ u4 b.total ++ u1 b.unvoided.length))) := by
  unfold State.cancelBasket
  refine ⟨fun none => by rw [none]; rfl, fun b st found channel => ?_⟩
  rw [found]
  have empty := b.isEmpty_iff
  have check : s.cancelCheck b = if b.isEmpty then none else if s.store.state ≠ .verified then some .storeNotReady
    else if s.commitRoom = false then some .busy else none := rfl
  dsimp only
  rw [check, channel]
  refine ⟨fun lines unready => ?_, fun lines ready busy => ?_, fun passed => ?_⟩
  · rw [if_neg (mt empty.1 lines), if_pos unready]
    rfl
  · rw [if_neg (mt empty.1 lines), if_neg (not_not_intro ready), if_pos busy]
    rfl
  · by_cases lines : b.lines = []
    · rw [if_pos (empty.2 lines)]
      rfl
    · obtain ⟨ready, room⟩ := passed.resolve_left lines
      rw [if_neg (mt empty.1 lines), if_neg (not_not_intro ready), if_neg (by rw [room]; nofun)]
      rfl

/-! ## The obligation -/

/-- The key that ended the basket was taken: the message field is NONE and the next frames have begun. -/
theorem BasketEnded.finish {s t : State} {st : Station} {b : Basket} {state : BasketState} (h : BasketEnded (accepted s st) t b state) :
    BasketEnded s (t.finish s) b state := by
  obtain ⟨service, free, x, hx, slot, state, serial, endedAt, total, lines, jobs, queued, parts⟩ := h
  exact ⟨service, free, x, hx, slot, state, serial, endedAt, total, lines, jobs, queued, State.finish_of_eq parts⟩

/-- Settles O49: TOTAL and CANCEL_BASKET by their checks; a cancel is `cancelOpen_ended`, a close `closeBasket_ended`. -/
theorem basketsEndWithTheirCommit : Obligations.BasketsEndWithTheirCommit := by
  unfold Obligations.BasketsEndWithTheirCommit
  intro s b commit ended handedOver
  refine ⟨fun st c hk hc none => State.takeKey_refused hk (State.withBasket_no_basket (s := accepted s st) hc none _),
    fun st c hk hc hb => ?_, fun serial fits he => ?_⟩
  · have key : ∀ {t : State}, (accepted s st).totalKey st = .ok t → exec (.total st) s = .next (t.finish s) :=
      State.takeKey_accepted hk
    have refused : ∀ {m : Message}, (accepted s st).totalKey st = .error m →
        exec (.total st) s = .next (State.finish (s.refuseKey st m) s) := State.takeKey_refused hk
    obtain ⟨empty, unready, busy, passed⟩ := State.totalKey_basket (s := accepted s st) hc hb
    obtain ⟨serial, record⟩ := State.current_open (s := accepted s st) hb
    have cancels : ∀ {first : List Commit}, (if b.isEmpty then [] else [(accepted s st).basketCommit b .cancel st]) = first →
        (accepted s st).totalKey st = .ok ((accepted s st).cancelOpen b st) →
        ∃ t : State, exec (.total st) s = .next t ∧ ended t .cancelled ∧ handedOver t first := fun first total => by
      obtain ⟨basket, commits⟩ := State.cancelOpen_ended record st
      rw [first] at commits
      exact ⟨_, key total, basket.finish, commits⟩
    refine ⟨fun none => cancels (if_pos (b.isEmpty_iff.2 none)) (empty none), fun lines h => refused (unready lines h),
      fun lines ready full => refused (busy lines ready (State.commitRoom_false full)), fun lines ready length opened => ?_⟩
    obtain ⟨cancel, labelsFull, close⟩ := passed lines ready ((State.commitRoom_iff _).2 ⟨length, opened⟩)
    obtain ⟨room, full⟩ := (accepted s st).labels.room_iff
    have unvoided : (∃ l ∈ b.lines, l.voided = false) → b.unvoided ≠ [] := fun ⟨l, hl, hv⟩ none => by
      rw [b.unvoided_eq_nil.1 none l hl] at hv
      cases hv
    refine ⟨fun voided => cancels (if_neg (mt b.isEmpty_iff.1 lines)) (cancel (b.unvoided_eq_nil.2 voided)),
      fun line h => refused (labelsFull (unvoided line) (full.2 h)), fun line h => ?_⟩
    obtain ⟨basket, totals, length, job, channels, runs, price⟩ := State.closeBasket_ended record st
    exact ⟨_, key (close (unvoided line) (room.2 h)), basket.finish, totals, length, job, channels, runs, price⟩
  · have answer : ∀ {t : State} {reply : List Byte}, State.cancelBasket serial s = (t, reply) →
        exec .cancelBasket s = .next (answered s t reply) :=
      State.request_args_eq he (parse := parseSerial) (by unfold parseSerial parseAll u4; rw [num_leBytes_all (k := 4) fits])
    obtain ⟨unknown, known⟩ := s.cancelBasket_cases serial
    refine ⟨fun none => answer (unknown none), fun st found channel => ?_⟩
    obtain ⟨unready, busy, cancels⟩ := known b st found channel
    refine ⟨fun lines h => answer (unready lines h), fun lines ready full => answer (busy lines ready (State.commitRoom_false full)),
      fun h => ?_⟩
    obtain ⟨basket, commits⟩ := State.cancelOpen_ended (Pool.openBasket_some found) st
    have first : (if b.isEmpty then [] else [s.basketCommit b .cancel st]) = if b.lines = [] then [] else [commit .cancel st] :=
      if_congr b.isEmpty_iff rfl rfl
    rw [first] at commits
    refine ⟨_, answer (cancels (h.imp_right fun ⟨ready, room⟩ => ⟨ready, s.commitRoom_iff.2 room⟩)), basket, commits⟩

end Sys2Proof.Machine
end

section
/-! SUPPORT. The current basket given up, and the next one opened (R89, R98, R99, R162). -/

namespace Sys2Proof.Machine

/-! ## A serial drawn (R162) -/

/-- R162: a serial can be drawn. -/
theorem Store.canDraw_iff (m : Store) : m.canDraw = true ↔ m.state = .verified ∧ ∃ n, m.nextSerial = some n ∧ n ≤ m.highMark := by
  unfold Store.canDraw
  rw [Bool.and_eq_true, beq_iff_eq, Option.any_eq_true]
  simp only [decide_eq_true_eq]

/-- R162: a raise waits or runs. -/
theorem Store.raising_iff (m : Store) : m.raising = true ↔ m.raiseWaiting = true ∨ m.op = some .raiseMark := by
  unfold Store.raising
  rw [Bool.or_eq_true]
  refine or_congr_right ?_
  split
  · next h => simp [h]
  · next h => exact ⟨nofun, fun g => absurd g h⟩

/-- R162: a draw takes the next serial, and puts a raise to wait when it leaves 32 or fewer. -/
theorem Store.draw_cases (m : Store) : (m.nextSerial = none → m.draw = m) ∧
    ∀ n, m.nextSerial = some n →
      m.draw = { m with nextSerial := some (n + 1), raiseWaiting := m.draw.raiseWaiting } ∧
      (m.draw.raiseWaiting = true ↔ m.raiseWaiting = true ∨ (m.op ≠ some .raiseMark ∧ m.highMark ≤ n + 32)) := by
  refine ⟨fun none => by unfold Store.draw; rw [none], fun n next => ?_⟩
  have drawn : m.draw = { m with
      nextSerial := some (n + 1), raiseWaiting := m.raiseWaiting || (!m.raising && decide (m.highMark - n ≤ 32)) } := by
    unfold Store.draw
    rw [next]
  have raising := m.raising_iff
  have few : m.highMark - n ≤ 32 ↔ m.highMark ≤ n + 32 := by omega
  rw [drawn]
  refine ⟨rfl, ?_⟩
  simp only [Bool.or_eq_true, Bool.and_eq_true, Bool.not_eq_true', decide_eq_true_eq, few, ← Bool.not_eq_true, raising]
  tauto

/-! ## The current basket given up (R89) -/

/-- R89: the current basket, when it never held a line: it is cancelled. -/
def State.givenBasket (s : State) (c : Clerk) : Option Basket := (s.current c).filter fun b => b.lines.isEmpty

/-- R89: the current basket, when it has held a line: it is parked. -/
def State.parkedBasket (s : State) (c : Clerk) : Option Basket := (s.current c).filter fun b => !b.lines.isEmpty

/-- R83: a clerk whose lists a basket has left. -/
def Clerk.without (serial : Nat) (x : Clerk) : Clerk :=
  { x with current := if x.current = some serial then none else x.current, parked := x.parked.filter fun n => n != serial }

/-- R89: what the call of a customer by clerk n into the basket of this serial makes of a clerk. -/
def Clerk.calling (given parked : Option Basket) (n serial : Nat) (x : Clerk) : Clerk :=
  let x :=
    match given with
    | none => x
    | some b => x.without (b.serial.getD 0)
  if x.number = n then { x with current := some serial, parked := x.parked ++ (parked.bind (·.serial)).toList } else x

/-- A called customer changes no clerk's number and channel, and is the caller's current basket. -/
theorem Clerk.calling_fields (given parked : Option Basket) (n serial : Nat) (x : Clerk) :
    (x.calling given parked n serial).number = x.number ∧ (x.calling given parked n serial).channel = x.channel ∧
    (x.number = n → (x.calling given parked n serial).current = some serial) := by
  have left : ∀ y : Clerk, y.number = x.number → y.channel = x.channel →
      let z := if y.number = n then { y with current := some serial, parked := y.parked ++ (parked.bind (·.serial)).toList } else y
      z.number = x.number ∧ z.channel = x.channel ∧ (x.number = n → z.current = some serial) := fun y number channel => by
    dsimp only
    split
    · exact ⟨number, channel, fun _ => rfl⟩
    · next other => exact ⟨number, channel, fun h => absurd (number.trans h) other⟩
  unfold Clerk.calling
  cases given <;> exact left _ rfl rfl

/-- R87, R89: the recall list with the ticket of a cancelled empty basket pushed on it. -/
def recalling (given : Option Basket) (recallList : List Nat) : List Nat :=
  match given.bind (·.ticket) with
  | none => recallList
  | some k => (k :: recallList).take 8

/-- R86, R89: the CALLED and SERVING tickets without that of a cancelled basket. -/
def unbinding (given : Option Basket) (bound : List BoundTicket) : List BoundTicket :=
  match given with
  | none => bound
  | some b => if b.ticket.isSome then bound.filter fun x => some x.serial != b.serial else bound

/-- R89, steps 1 and 2: what is left once clerk c has given up the current basket; the waiting tickets aside. -/
structure GivenUp (s t : State) (c : Clerk) : Prop where
  clerks : ∀ serial : Nat, (t.service.clerks.map fun x => if x.number = c.number then { x with current := some serial } else x) =
    s.service.clerks.map (Clerk.calling (s.givenBasket c) (s.parkedBasket c) c.number serial)
  recallList : t.service.recallList = recalling (s.givenBasket c) s.service.recallList
  bound : t.service.bound = unbinding (s.givenBasket c) s.service.bound
  lastIssued : t.service.lastIssued = s.service.lastIssued
  callSigns : t.service.callSigns = s.service.callSigns
  free : t.pool.free = s.pool.free ++ ((s.givenBasket c).map (·.slot)).toList
  slots : t.pool.records.map (·.slot) = s.pool.records.map (·.slot)
  serials : ∀ x ∈ t.pool.records, ∃ y ∈ s.pool.records, x.serial = y.serial
  parked : ∀ b, s.parkedBasket c = some b → b ∈ t.pool.records
  cancelled : ∀ b, s.givenBasket c = some b → { b with state := .cancelled, endedAt := s.link.clock } ∈ t.pool.records
  commits : ∃ more, t.totals = { s.totals with commits := s.totals.commits ++ more } ∧ ∀ x ∈ more, x.kind = .prepack
  ports : ∀ x : Station, t.ports[x] = { s.ports[x] with image := t.ports[x].image }
  parts : t = { s with freeCount := t.freeCount, ports := t.ports, channels := t.channels, price := t.price, service := t.service,
                       pool := t.pool, labels := t.labels, printers := t.printers, runs := t.runs, totals := t.totals,
                       link := { s.link with flags := t.link.flags } }

/-- R89: the waiting tickets are not looked at. -/
theorem GivenUp.of_waiting {s t : State} {c : Clerk} (h : GivenUp s t c) (waiting : List Nat) :
    GivenUp s (t.onService fun v => { v with waiting := waiting }) c := by
  obtain ⟨clerks, recallList, bound, lastIssued, callSigns, free, slots, serials, parked, cancelled, commits, ports, parts⟩ := h
  refine ⟨clerks, recallList, bound, lastIssued, callSigns, free, slots, serials, parked, cancelled, commits, ports, ?_⟩
  conv_lhs => rw [parts]
  rfl

/-- R83, R89: one current basket at most is cancelled or parked. -/
theorem State.given_parked (s : State) (c : Clerk) :
    (s.current c = none → s.givenBasket c = none ∧ s.parkedBasket c = none) ∧
    ∀ b, s.current c = some b →
      (b.lines = [] → s.givenBasket c = some b ∧ s.parkedBasket c = none) ∧
      (b.lines ≠ [] → s.givenBasket c = none ∧ s.parkedBasket c = some b) := by
  unfold State.givenBasket State.parkedBasket
  refine ⟨fun h => by rw [h]; exact ⟨rfl, rfl⟩, fun b h => ?_⟩
  rw [h]
  refine ⟨fun none => ?_, fun held => ?_⟩
  · simp [none]
  · simp [held]

/-- R89, step 1: an empty current basket is cancelled. -/
theorem State.cancelOpen_givenUp {s : State} {c : Clerk} {b : Basket} (hb : s.current c = some b) (empty : b.lines = [])
    (st : Station) : GivenUp s (s.cancelOpen b st) c := by
  obtain ⟨-, found⟩ := s.given_parked c
  obtain ⟨given, parked⟩ := (found b hb).1 empty
  obtain ⟨serial, record⟩ := State.current_open hb
  obtain ⟨⟨service, free, -⟩, -⟩ := State.cancelOpen_ended record st
  obtain ⟨examined, left⟩ := s.cancelOpen_left b st
  have stands := State.cancelRecord_record record st
  generalize s.cancelOpen b st = t at *
  have parts := examined.parts
  have pool : t.pool = (s.cancelRecord b st).pool := by rw [parts]
  have fields : ∀ y ∈ s.pool.records, ∀ x, x = (let z := y.takeCancelled (b.serial.getD 0) (s.queuedItems (b.serial.getD 0))
      if z.slot = b.slot then { z with state := .cancelled, endedAt := s.link.clock } else z) →
      x.slot = y.slot ∧ x.serial = y.serial := fun y _ x hx => by
    obtain ⟨slot, -, own⟩ := y.takeCancelled_fields (b.serial.getD 0) (s.queuedItems (b.serial.getD 0))
    rw [hx]
    dsimp only
    split <;> exact ⟨slot, own⟩
  refine ⟨fun serial => ?_, ?_, ?_, by rw [service], by rw [service], by rw [free, given]; rfl, ?_, fun x hx => ?_,
    fun d hd => ?_, fun d hd => ?_, ?_, left.ports, ?_⟩
  · rw [service, given, parked, List.map_map]
    refine List.map_congr_left fun x _ => ?_
    simp only [Clerk.calling, Clerk.without, Function.comp_def, Option.bind_none, Option.toList_none, List.append_nil]
  · rw [service, given]
    unfold recalling
    rw [Option.bind_some]
    cases b.ticket with
    | none => rfl
    | some k => exact if_pos ⟨rfl, empty⟩
  · rw [service, given]
    rfl
  · rw [pool]
    show List.map _ (List.map _ (List.map _ _)) = _
    rw [List.map_map, List.map_map]
    exact List.map_congr_left fun y hy => (fields y hy _ rfl).1
  · rw [pool] at hx
    obtain ⟨z, hz, rfl⟩ := List.mem_map.1 hx
    obtain ⟨y, hy, rfl⟩ := List.mem_map.1 hz
    exact ⟨y, hy, (fields y hy _ rfl).2⟩
  · rw [parked] at hd
    cases hd
  · obtain rfl : b = d := Option.some.inj (given.symm.trans hd)
    rw [pool]
    unfold State.cancelledBasket at stands
    simpa only [empty, List.map_nil] using stands
  · obtain ⟨more, totals, prepack⟩ := left.commits
    refine ⟨more, ?_, prepack⟩
    rw [totals]
    have none := b.isEmpty_iff.2 empty
    unfold State.cancelRecord
    rw [none]
    simp
  · rw [parts]
    rfl

/-- R89, step 2: a current basket that has held a line is parked. -/
theorem State.park_givenUp {s : State} {c : Clerk} {b : Basket} (hb : s.current c = some b) (held : b.lines ≠ []) :
    GivenUp s (s.onService (·.updateClerk c.number fun x => { x with current := none, parked := x.parked ++ b.serial.toList })) c := by
  obtain ⟨-, found⟩ := s.given_parked c
  obtain ⟨given, parked⟩ := (found b hb).2 held
  refine ⟨fun serial => ?_, by rw [given]; rfl, by rw [given]; rfl, rfl, rfl, by rw [given]; exact (List.append_nil _).symm, rfl,
    fun x hx => ⟨x, hx, rfl⟩, fun d hd => ?_, fun d hd => ?_, ⟨[], by rw [List.append_nil]; rfl, nofun⟩, fun _ => rfl, rfl⟩
  · rw [given, parked]
    show List.map _ (List.map _ _) = _
    rw [List.map_map]
    refine List.map_congr_left fun x _ => ?_
    by_cases own : x.number = c.number <;> simp [Clerk.calling, own]
  · obtain rfl : b = d := Option.some.inj (parked.symm.trans hd)
    exact (State.current_some hb).1
  · rw [given] at hd
    cases hd

/-- R89, steps 1 and 2. -/
theorem State.giveUp_givenUp (s : State) (st : Station) (c : Clerk) :
    GivenUp s (s.giveUp st c) c ∧ (s.giveUp st c).service.waiting = s.service.waiting := by
  unfold State.giveUp
  cases hb : s.current c with
  | none =>
    obtain ⟨nothing, -⟩ := s.given_parked c
    obtain ⟨given, parked⟩ := nothing hb
    refine ⟨⟨fun serial => ?_, by rw [given]; rfl, by rw [given]; rfl, rfl, rfl, by rw [given]; exact (List.append_nil _).symm, rfl,
      fun x hx => ⟨x, hx, rfl⟩, fun d hd => ?_, fun d hd => ?_, ⟨[], by rw [List.append_nil], nofun⟩, fun _ => rfl, rfl⟩, rfl⟩
    · rw [given, parked]
      refine List.map_congr_left fun x _ => ?_
      simp [Clerk.calling]
    · rw [parked] at hd
      cases hd
    · rw [given] at hd
      cases hd
  | some b =>
    dsimp only
    by_cases empty : b.lines = []
    · obtain ⟨serial, record⟩ := State.current_open hb
      obtain ⟨⟨service, -⟩, -⟩ := State.cancelOpen_ended record st
      rw [if_pos (b.isEmpty_iff.2 empty)]
      exact ⟨State.cancelOpen_givenUp hb empty st, by rw [service]⟩
    · rw [if_neg (mt b.isEmpty_iff.1 empty)]
      exact ⟨State.park_givenUp hb empty, rfl⟩

end Sys2Proof.Machine
end

section
/-! SUPPORT. NEXT and RECALL_TICKET (R88 to R91). -/

namespace Sys2Proof.Machine

/-! ## A basket opened (R99) -/

/-- R99: the record of a basket that opens for clerk n at channel st. -/
def State.newBasket (s : State) (st : Station) (n slot : Nat) (ticket : Option Nat) : Basket :=
  { slot := slot, state := .opened, serial := some s.nextSerial, clerk := some n, ticket := ticket, channel := some st,
    openedAt := s.link.clock, endedAt := none, lines := [], total := 0 }

/-- R89, R99: a basket opens in the first free record. -/
theorem State.openBasket_eq {s : State} {slot : Nat} {rest : List Nat} (free : s.pool.free = slot :: rest) (st : Station) (n : Nat)
    (ticket : Option Nat) : s.openBasket st n ticket = { s with
      store := s.store.draw,
      pool := { records := s.pool.records.map fun b => if b.slot = slot then s.newBasket st n slot ticket else b, free := rest },
      service := { s.service with
        clerks := s.service.clerks.map fun x => if x.number = n then { x with current := some s.nextSerial } else x,
        bound := s.service.bound ++
          (ticket.toList.map fun k => { number := k, serving := false, clerk := n, serial := s.nextSerial }) } } := by
  unfold State.openBasket
  rw [free]
  rfl

/-- R91, R94: the call sign list takes a value, and a change owes a SIGN. -/
theorem State.setSigns_eq (s : State) (signs : List CallSign) : s.setSigns signs = { s with
    service := { s.service with callSigns := signs },
    queuePort := if signs = s.service.callSigns then s.queuePort else { s.queuePort with signOwed := true } } := by
  unfold State.setSigns
  by_cases same : signs = s.service.callSigns
  · rw [if_pos same.symm, if_pos same, same]
  · rw [if_neg (Ne.symm same), if_neg same]
    rfl

/-- R88 to R90: what is left once clerk c was called a customer, or a walk-up, into the basket of this serial at channel st. -/
structure CalledInto (s t : State) (st : Station) (c : Clerk) (serial : Nat) (ticket : Option Nat) : Prop where
  nextSerial : t.store.nextSerial = some (serial + 1)
  clerks : t.service.clerks =
    s.service.clerks.map (Clerk.calling (s.givenBasket c) (s.parkedBasket c) c.number serial)
  recallList : t.service.recallList = recalling (s.givenBasket c) s.service.recallList
  bound : t.service.bound = unbinding (s.givenBasket c) s.service.bound ++
    (ticket.toList.map fun k => { number := k, serving := false, clerk := c.number, serial := serial })
  lastIssued : t.service.lastIssued = s.service.lastIssued
  free : t.pool.free = (s.pool.free ++ ((s.givenBasket c).map (·.slot)).toList).tail
  parked : ∀ b, s.parkedBasket c = some b → b.slot ∉ s.pool.free → b ∈ t.pool.records
  cancelled : ∀ b, s.givenBasket c = some b → b.slot ∉ s.pool.free → s.pool.free ≠ [] →
    { b with state := .cancelled, endedAt := s.link.clock } ∈ t.pool.records
  commits : ∃ more, t.totals = { s.totals with commits := s.totals.commits ++ more } ∧ ∀ x ∈ more, x.kind = .prepack
  queuePort : t.queuePort = (State.pumpQueue { s with
    service := t.service,
    queuePort := if t.service.callSigns = s.service.callSigns then s.queuePort
      else { s.queuePort with signOwed := true } }).queuePort
  refreshed : t.refresh st = t
  present : t.ports[st].state = .present
  fresh : SerialsFresh s → ∃ b, t.pool.openBasket serial = some b ∧ b.ticket = ticket
  record : ∃ b ∈ t.pool.records, b.state = .opened ∧ b.serial = some serial ∧ b.clerk = some c.number ∧ b.ticket = ticket ∧
    b.channel = some st ∧ b.openedAt = s.link.clock ∧ b.lines = [] ∧ b.total = 0
  parts : t = { s with freeCount := t.freeCount, ports := t.ports, headLines := t.headLines, channels := t.channels, price := t.price,
                       service := t.service, queuePort := t.queuePort, pool := t.pool, labels := t.labels, printers := t.printers,
                       runs := t.runs, totals := t.totals, store := s.store.draw, link := t.link }

/-- R83: the caller is the channel's clerk, and the display shows the clerk and the ticket of the new basket. -/
theorem CalledInto.display {s t : State} {st : Station} {c : Clerk} {serial : Nat} {ticket : Option Nat}
    (h : CalledInto s t st c serial ticket) (hc : s.service.clerkAt st = some c) :
    (t.service.clerk c.number).bind (·.current) = some serial ∧ t.ports[st].image.clerk = some c.number ∧
    t.ports[st].image.ticket = (t.pool.openBasket serial).bind (·.ticket) := by
  obtain ⟨g, hg⟩ : ∃ g, g = Clerk.calling (s.givenBasket c) (s.parkedBasket c) c.number serial := ⟨_, rfl⟩
  have clerks := h.clerks
  rw [← hg] at clerks
  have fields : ∀ x, (g x).number = x.number ∧ (g x).channel = x.channel ∧ (x.number = c.number → (g x).current = some serial) :=
    fun x => by
      rw [hg]
      exact x.calling_fields _ _ _ _
  obtain ⟨numbers, rest⟩ := forall_and.1 fields
  obtain ⟨channels, currents⟩ := forall_and.1 rest
  obtain ⟨member, -⟩ := Service.clerkAt_some hc
  have byNumber : t.service.clerk c.number = (s.service.clerk c.number).map g := by
    unfold Service.clerk
    simp only [clerks, List.find?_map, Function.comp_def, numbers]
  have byChannel : t.service.clerkAt st = some (g c) := by
    unfold Service.clerkAt at hc ⊢
    simp only [clerks, List.find?_map, Function.comp_def, channels, hc, Option.map_some]
  obtain ⟨shownClerk, shownTicket⟩ := State.image_of_clerk h.refreshed h.present byChannel
  refine ⟨?_, shownClerk.trans (congrArg some (numbers c)), ?_⟩
  · cases found : s.service.clerk c.number with
    | none => exact absurd (List.find?_eq_none.1 found c member) (by simp)
    | some x =>
      obtain ⟨-, same⟩ := Service.clerk_some found
      rw [byNumber, found]
      exact currents x same
  · rw [shownTicket]
    unfold State.current
    rw [currents c rfl]
    rfl

/-- R98, R99: the first free record once the current basket was given up: a free one when there was one, and one of the pool. -/
theorem GivenUp.firstFree {s v : State} {c : Clerk} {slot : Nat} {rest : List Nat} (h : GivenUp s v c)
    (consistent : TablesConsistent s) (free : v.pool.free = slot :: rest) :
    (s.pool.free ≠ [] → slot ∈ s.pool.free) ∧ ∃ y ∈ v.pool.records, y.slot = slot := by
  obtain ⟨-, slots, inRange⟩ := consistent
  have stands : ∀ {n : Nat}, n ∈ s.pool.records.map (·.slot) → ∃ y ∈ v.pool.records, y.slot = n := fun hn => by
    rw [← h.slots] at hn
    exact List.mem_map.1 hn
  have front := h.free
  rw [free] at front
  cases here : s.pool.free with
  | nil =>
    rw [here, List.nil_append] at front
    cases given : s.givenBasket c with
    | none =>
      rw [given] at front
      cases front
    | some b =>
      rw [given] at front
      obtain ⟨rfl, -⟩ := List.cons.inj front
      obtain ⟨member, -⟩ := State.current_some (Option.filter_eq_some_iff.1 given).1
      exact ⟨fun none => absurd rfl none, stands (List.mem_map_of_mem member)⟩
  | cons n ns =>
    rw [here, List.cons_append] at front
    obtain ⟨rfl, -⟩ := List.cons.inj front
    obtain ⟨low, high⟩ := inRange slot (here ▸ List.mem_cons_self)
    refine ⟨fun _ => List.mem_cons_self, stands ?_⟩
    rw [slots]
    exact List.mem_map.2 ⟨slot - 1, List.mem_range.2 (by omega), by omega⟩

/-- R98: no record carries the serial of the basket that opens, so that serial finds it. -/
theorem openBasket_fresh {records : List Basket} {new : Basket} {slot serial : Nat} (stands : ∃ y ∈ records, y.slot = slot)
    (opened : new.state = .opened) (own : new.serial = some serial) (unused : ∀ y ∈ records, y.serial ≠ some serial) (free : List Nat) :
    Pool.openBasket { records := records.map fun b => if b.slot = slot then new else b, free := free } serial = some new := by
  obtain ⟨y, hy, at_slot⟩ := stands
  have member : new ∈ records.map fun b => if b.slot = slot then new else b := List.mem_map.2 ⟨y, hy, if_pos at_slot⟩
  unfold Pool.openBasket
  cases found : (records.map fun b => if b.slot = slot then new else b).find? fun b => b.state == .opened && b.serial == some serial with
  | none => exact absurd (List.find?_eq_none.1 found new member) (by simp [opened, own])
  | some x =>
    obtain ⟨z, hz, rfl⟩ := List.mem_map.1 (List.mem_of_find?_eq_some found)
    have carries := List.find?_some found
    by_cases at_slot : z.slot = slot
    · rw [if_pos at_slot]
    · rw [if_neg at_slot, Bool.and_eq_true, beq_iff_eq, beq_iff_eq] at carries
      exact absurd carries.2 (unused z hz)

/-- R89: a record that is not the one that opens stays. -/
theorem mem_opened_of_slot_ne {records : List Basket} {b new : Basket} {slot : Nat} (member : b ∈ records) (other : b.slot ≠ slot) :
    b ∈ records.map fun b => if b.slot = slot then new else b := List.mem_map.2 ⟨b, member, if_neg other⟩

/-- The display fields agree with their owners also once the queue line has begun its next frame. -/
theorem State.refresh_pumpQueue {t : State} {st : Station} (h : t.refresh st = t) : t.pumpQueue.refresh st = t.pumpQueue := by
  rw [State.refresh_iff] at h ⊢
  exact h

/-- R89, steps 3 to 5: once clerk c has given up the current basket, the next one opens, the call sign list takes its value, and the
station's display is as its owners give it. -/
theorem GivenUp.calledInto {s v t : State} {st : Station} {c : Clerk} {serial : Nat} {signs : List CallSign} (h : GivenUp s v c)
    (consistent : TablesConsistent s) (next : s.store.nextSerial = some serial)
    (room : s.pool.free ≠ [] ∨ ∃ b, s.current c = some b ∧ b.lines = []) (ticket : Option Nat)
    (opened : t = { (v.openBasket st c.number ticket).setSigns signs with ports := t.ports }) (refreshed : t.refresh st = t)
    (present : t.ports[st].state = .present) (old : State) :
    CalledInto s (t.pumpQueue.finish old) st c serial ticket ∧ (t.pumpQueue.finish old).service.callSigns = signs ∧
    (t.pumpQueue.finish old).service.waiting = v.service.waiting := by
  have left := h.parts
  have store : v.store = s.store := by rw [left]
  have clock : v.link.clock = s.link.clock := by rw [left]
  have queuePort : v.queuePort = s.queuePort := by rw [left]
  have drawn : v.nextSerial = serial := by
    unfold State.nextSerial
    rw [store, next, Option.getD_some]
  have nonempty : v.pool.free ≠ [] := by
    rw [h.free]
    rcases room with free | ⟨b, current, none⟩
    · exact List.append_ne_nil_of_left_ne_nil free _
    · obtain ⟨-, found⟩ := s.given_parked c
      obtain ⟨given, -⟩ := (found b current).1 none
      rw [given]
      exact List.append_ne_nil_of_right_ne_nil _ (by nofun)
  obtain ⟨slot, rest, free⟩ := List.exists_cons_of_ne_nil nonempty
  obtain ⟨wasFree, stands⟩ := h.firstFree consistent free
  rw [State.openBasket_eq free, State.setSigns_eq, drawn, store, queuePort, h.callSigns] at opened
  obtain ⟨new, hnew⟩ : ∃ new, new = v.newBasket st c.number slot ticket := ⟨_, rfl⟩
  have own : new.serial = some serial := by rw [hnew, ← drawn]; rfl
  rw [← hnew] at opened
  have pool : t.pool = { records := v.pool.records.map fun b => if b.slot = slot then new else b, free := rest } := by rw [opened]
  have service : t.service = { v.service with
      clerks := v.service.clerks.map fun x => if x.number = c.number then { x with current := some serial } else x,
      bound := v.service.bound ++ (ticket.toList.map fun k => { number := k, serving := false, clerk := c.number, serial := serial }),
      callSigns := signs } := by rw [opened]
  have other : ∀ {b : Basket}, b.slot ∉ s.pool.free → s.pool.free ≠ [] → b.slot ≠ slot := fun {b} notFree some_free same =>
    notFree (same ▸ wasFree some_free)
  refine ⟨{ nextSerial := ?_, clerks := ?_, recallList := ?_, bound := ?_, lastIssued := ?_, free := ?_, parked := fun b hb notFree => ?_,
            cancelled := fun b hb notFree some_free => ?_, commits := ?_, queuePort := ?_,
            refreshed := ?_, present := present, fresh := fun fresh => ⟨new, ?_, ?_⟩, record := ⟨new, ?_, ?_⟩, parts := ?_ }, ?_, ?_⟩
  · show t.store.nextSerial = _
    rw [opened]
    obtain ⟨-, draws⟩ := s.store.draw_cases
    obtain ⟨drawnStore, -⟩ := draws serial next
    rw [drawnStore]
  · exact (congrArg Service.clerks service).trans (h.clerks serial)
  · exact (congrArg Service.recallList service).trans h.recallList
  · refine (congrArg Service.bound service).trans ?_
    rw [← h.bound]
  · exact (congrArg Service.lastIssued service).trans h.lastIssued
  · refine (congrArg Pool.free pool).trans ?_
    rw [← h.free, free]
    rfl
  · have some_free : s.pool.free ≠ [] := room.resolve_right fun ⟨d, current, empty⟩ => by
      obtain ⟨-, found⟩ := s.given_parked c
      obtain ⟨-, parked⟩ := (found d current).1 empty
      rw [parked] at hb
      cases hb
    show b ∈ t.pool.records
    rw [pool]
    exact mem_opened_of_slot_ne (h.parked b hb) (other notFree some_free)
  · show _ ∈ t.pool.records
    rw [pool]
    exact mem_opened_of_slot_ne (h.cancelled b hb) (other notFree some_free)
  · obtain ⟨more, totals, prepack⟩ := h.commits
    refine ⟨more, ?_, prepack⟩
    show t.totals = _
    rw [opened, ← totals]
  · show t.queuePort.pump t.service.callSigns = QueuePort.pump t.service.callSigns _
    have sent : t.queuePort = if t.service.callSigns = s.service.callSigns then s.queuePort
        else { s.queuePort with signOwed := true } := by
      rw [opened]
    exact congrArg (QueuePort.pump t.service.callSigns) sent
  · exact State.refresh_finish (State.refresh_pumpQueue refreshed) old
  · show t.pool.openBasket serial = _
    rw [pool]
    refine openBasket_fresh stands (by rw [hnew]; rfl) own (fun y hy carries => ?_) rest
    obtain ⟨z, hz, same⟩ := h.serials y hy
    obtain ⟨n, next', less⟩ := fresh.1 z hz serial (same ▸ carries)
    rw [next] at next'
    obtain rfl := Option.some.inj next'
    exact Nat.lt_irrefl _ less
  · rw [hnew]
    rfl
  · obtain ⟨y, hy, at_slot⟩ := stands
    show new ∈ t.pool.records
    rw [pool]
    exact List.mem_map.2 ⟨y, hy, if_pos at_slot⟩
  · refine ⟨by rw [hnew]; rfl, own, by rw [hnew]; rfl, by rw [hnew]; rfl, by rw [hnew]; rfl, ?_, by rw [hnew]; rfl, by rw [hnew]; rfl⟩
    rw [hnew, ← clock]
    rfl
  · have pumped : t.pumpQueue = { s with
        freeCount := t.freeCount, ports := t.ports, headLines := t.headLines, channels := t.channels, price := t.price,
        service := t.service, queuePort := t.pumpQueue.queuePort, pool := t.pool, labels := t.labels, printers := t.printers,
        runs := t.runs, totals := t.totals, store := s.store.draw, link := t.link } := by
      rw [opened, left]
      rfl
    exact State.finish_of_eq pumped
  · show t.service.callSigns = signs
    rw [service]
  · show t.service.waiting = _
    rw [service]

end Sys2Proof.Machine
end

section
/-! SUPPORT. A customer called, as one statement (R88 to R91). -/

namespace Sys2Proof.Machine

/-! ## The basket opened and shown (R89) -/

/-- R99: a basket that opens leaves the ports and the call sign list. -/
theorem State.openBasket_left (s : State) (st : Station) (n : Nat) (ticket : Option Nat) :
    (s.openBasket st n ticket).ports = s.ports ∧ (s.openBasket st n ticket).service.callSigns = s.service.callSigns := by
  unfold State.openBasket
  split <;> exact ⟨rfl, rfl⟩

/-- R91: the call sign list with a ticket called at its head. -/
def calledSigns (signs : List CallSign) (ticket : Nat) (c : Clerk) (st : Station) : List CallSign :=
  ({ ticket := ticket, clerk := c.number, channel := st } :: signs.filter fun x => x.ticket != ticket).take 4

/-- The port of a station whose display is written stays as it is otherwise. -/
theorem State.refresh_port_state (s : State) (st : Station) : (s.refresh st).ports[st].state = s.ports[st].state := by
  rw [(StationStep.refresh s st).port]

section

variable {s v : State} {st : Station} {c : Clerk} {serial : Nat}

/-- The head at the station is PRESENT still once the current basket was given up. -/
theorem GivenUp.present (h : GivenUp s v c) (present : s.ports[st].state = .present) : v.ports[st].state = .present := by
  rw [h.ports st]
  exact present

/-- R89, steps 4 and 5: a ticket called. -/
theorem GivenUp.callTicket (h : GivenUp s v c) (consistent : TablesConsistent s) (next : s.store.nextSerial = some serial)
    (room : s.pool.free ≠ [] ∨ ∃ b, s.current c = some b ∧ b.lines = []) (present : s.ports[st].state = .present) (ticket : Nat)
    (old : State) :
    let t := (v.callTicket st c.number ticket).pumpQueue.finish old
    CalledInto s t st c serial (some ticket) ∧ t.service.callSigns = calledSigns s.service.callSigns ticket c st ∧
    t.service.waiting = v.service.waiting := by
  obtain ⟨ports, signs⟩ := v.openBasket_left st c.number (some ticket)
  obtain ⟨o, ho⟩ : ∃ o, o = (v.openBasket st c.number (some ticket)).setSigns (calledSigns s.service.callSigns ticket c st) := ⟨_, rfl⟩
  have called : v.callTicket st c.number ticket = o.refresh st := by
    rw [ho, ← h.callSigns, ← signs]
    rfl
  have o_ports : o.ports = v.ports := by rw [ho, State.setSigns_eq, ← ports]
  rw [called]
  refine h.calledInto consistent next room (some ticket) ?_ (State.refresh_refresh o st) ?_ old
  · rw [← ho]
    exact (o.refresh_spec st).1
  · rw [State.refresh_port_state, o_ports]
    exact h.present present

/-- R89, step 6: a walk-up basket, with QUEUE_EMPTY shown. -/
theorem GivenUp.walkUp (h : GivenUp s v c) (consistent : TablesConsistent s) (next : s.store.nextSerial = some serial)
    (room : s.pool.free ≠ [] ∨ ∃ b, s.current c = some b ∧ b.lines = []) (present : s.ports[st].state = .present) (old : State) :
    let t := (((v.openBasket st c.number none).refresh st).setMessage st .queueEmpty).pumpQueue.finish old
    CalledInto s t st c serial none ∧ t.service.callSigns = s.service.callSigns ∧ t.service.waiting = v.service.waiting ∧
    t.ports[st].image.message = .queueEmpty := by
  obtain ⟨ports, signs⟩ := v.openBasket_left st c.number none
  obtain ⟨o, ho⟩ : ∃ o, o = v.openBasket st c.number none := ⟨_, rfl⟩
  rw [← ho] at ports signs ⊢
  have unchanged : o.setSigns s.service.callSigns = o := if_pos (signs.trans h.callSigns)
  have shown : ((o.refresh st).setMessage st .queueEmpty).ports[st] =
      { (o.refresh st).ports[st] with image := { (o.refresh st).ports[st].image with message := .queueEmpty } } := modAt_same _ _ _
  obtain ⟨called, signs', waiting⟩ := h.calledInto (t := (o.refresh st).setMessage st .queueEmpty) (signs := s.service.callSigns)
    consistent next room none (by
      rw [← ho, unchanged]
      conv_lhs => rw [(o.refresh_spec st).1]
      rfl) (State.refresh_setMessage _ (State.refresh_refresh o st)) (by
      rw [shown]
      exact (o.refresh_port_state st).trans (by rw [ports]; exact h.present present)) old
  refine ⟨called, signs', waiting, ?_⟩
  show ((o.refresh st).setMessage st .queueEmpty).ports[st].image.message = _
  rw [shown]

end

/-! ## The checks (R88, R90) -/

/-- R88: the checks 2 to 4, in order. -/
theorem State.callCheck_cases (s : State) (c : Clerk) :
    (3 ≤ c.openCount → s.callCheck c = some .basketsFull) ∧
    (c.openCount < 3 → s.store.canDraw = false → s.callCheck c = some .storeNotReady) ∧
    (c.openCount < 3 → s.store.canDraw = true →
      (s.pool.free = [] → (¬∃ b, s.current c = some b ∧ b.lines = []) → s.callCheck c = some .basketsFull) ∧
      (s.pool.free ≠ [] ∨ (∃ b, s.current c = some b ∧ b.lines = []) → s.callCheck c = none)) := by
  have empty : ((s.current c).any (·.isEmpty)) = true ↔ ∃ b, s.current c = some b ∧ b.lines = [] := by
    simp only [Option.any_eq_true, Basket.isEmpty_iff]
  unfold State.callCheck
  refine ⟨fun full => if_pos full, fun few unready => ?_, fun few ready => ⟨fun free held => ?_, fun room => ?_⟩⟩
  · rw [if_neg (by omega), if_pos unready]
  · rw [if_neg (by omega), if_neg (by rw [ready]; nofun), if_pos ⟨free, by rw [← Bool.not_eq_true, empty]; exact held⟩]
  · rw [if_neg (by omega), if_neg (by rw [ready]; nofun), if_neg]
    rintro ⟨free, held⟩
    rw [← Bool.not_eq_true, empty] at held
    exact room.elim (· free) held

/-- R88, R90: NEXT and RECALL_TICKET of a listed ticket, refused. -/
theorem State.callKeys_refused {s : State} {st : Station} {c : Clerk} {m : Message} (hc : s.service.clerkAt st = some c)
    (check : s.callCheck c = some m) :
    s.nextCustomer st = .error m ∧ ∀ n ∈ s.service.recallList, s.recallTicketKey st n = .error m := by
  unfold State.nextCustomer State.recallTicketKey
  rw [hc]
  dsimp only
  rw [check]
  exact ⟨rfl, fun n listed => if_pos (List.contains_iff_mem.2 listed)⟩

/-- R89, R90: NEXT and RECALL_TICKET of a listed ticket, accepted. -/
theorem State.callKeys_accepted {s : State} {st : Station} {c : Clerk} (hc : s.service.clerkAt st = some c)
    (check : s.callCheck c = none) :
    (∀ ticket rest, s.service.waiting = ticket :: rest → s.nextCustomer st =
      .ok (((s.giveUp st c).onService fun v => { v with waiting := rest }).callTicket st c.number ticket).pumpQueue) ∧
    (s.service.waiting = [] → s.nextCustomer st =
      .ok ((((s.giveUp st c).openBasket st c.number none).refresh st).setMessage st .queueEmpty).pumpQueue) ∧
    ∀ n ∈ s.service.recallList, s.recallTicketKey st n =
      .ok (((s.onService fun v => { v with recallList := v.recallList.filter fun x => x != n }).giveUp st c).callTicket st c.number
        n).pumpQueue := by
  obtain ⟨-, waits⟩ := s.giveUp_givenUp st c
  have next : s.nextCustomer st = .ok (s.callNext st c).pumpQueue := by
    unfold State.nextCustomer
    rw [hc]
    dsimp only
    rw [check]
  rw [next]
  unfold State.callNext State.recallTicketKey
  dsimp only
  rw [waits, hc]
  dsimp only
  rw [check]
  refine ⟨fun ticket rest waiting => by rw [waiting], fun none => by rw [none],
    fun n listed => if_pos (List.contains_iff_mem.2 listed)⟩

/-! ## The obligation -/

/-- Settles O47: the draw, then each key by its checks; what an accepted one leaves is `CalledInto`. -/
theorem customerIsCalledIntoANewBasket : Obligations.CustomerIsCalledIntoANewBasket := by
  unfold Obligations.CustomerIsCalledIntoANewBasket
  refine ⟨Store.draw_cases, fun s st c hk consistent hc => ?_⟩
  intro refused openCount drawable emptyCurrent
  have draws : s.store.canDraw = true ↔ drawable := s.store.canDraw_iff
  obtain ⟨full, unready, ready⟩ := (accepted s st).callCheck_cases c
  have refuse : ∀ {f : State → Except Message State} {m : Message}, f (accepted s st) = .error m →
      s.event (fun s => s.takeKey st f) = .next (State.finish (s.refuseKey st m) s) := State.takeKey_refused hk
  have key : ∀ {f : State → Except Message State} {t : State}, f (accepted s st) = .ok t →
      s.event (fun s => s.takeKey st f) = .next (t.finish s) := State.takeKey_accepted hk
  refine ⟨fun i hi => ?_, fun number low high unlisted => ?_, fun serial few verified next below room => ?_⟩
  · have checked : ∀ {m : Message}, (accepted s st).callCheck c = some m → refused i m := fun check => by
      obtain ⟨nextKey, recallKey⟩ := State.callKeys_refused (s := accepted s st) hc check
      rcases hi with rfl | ⟨number, low, high, listed, rfl⟩
      · exact refuse nextKey
      · exact refuse ((State.recallKey_in_range low high st _).trans (recallKey _ listed))
    exact ⟨fun h => checked (full h), fun few h => checked (unready few (by rw [← Bool.not_eq_true]; exact mt draws.1 h)),
      fun few h free held => checked ((ready few (draws.2 h)).1 free held)⟩
  · refine refuse ((State.recallKey_in_range low high st _).trans (State.recallTicketKey_not_listed (s := accepted s st) ?_ unlisted))
    exact fun none => by cases hc.symm.trans none
  · obtain ⟨-, passed⟩ := ready few (draws.2 ⟨verified, serial, next, below⟩)
    obtain ⟨calls, walksUp, recalls⟩ := State.callKeys_accepted (s := accepted s st) hc (passed room)
    intro given parked called announced
    have assemble : ∀ {recallList : List Nat} {t : State} {ticket : Option Nat},
        CalledInto ((accepted s st).onService fun v => { v with recallList := recallList }) t st c serial ticket →
        called t ticket recallList := fun h => by
      obtain ⟨current, clerk, shown⟩ := h.display hc
      obtain ⟨b, hb, opened, own, caller, bound, channel, openedAt, lines, total⟩ := h.record
      refine ⟨h.nextSerial, current, h.clerks, h.recallList, h.bound, h.lastIssued, h.free, h.parked, h.cancelled, h.commits,
        h.queuePort, h.refreshed, clerk, shown, fun fresh => ?_, b, hb, opened, own, caller, bound, channel, openedAt, lines, total,
        h.parts⟩
      obtain ⟨new, found, ticket⟩ := h.fresh fresh
      rw [shown, found]
      exact ticket
    have present := hk.accepted_present
    obtain ⟨givenUp, waits⟩ := (accepted s st).giveUp_givenUp st c
    refine ⟨fun ticket rest waiting => ?_, fun none => ?_, fun number low high listed => ?_⟩
    · obtain ⟨into, signs, left⟩ := (givenUp.of_waiting rest).callTicket (st := st) consistent next room present ticket s
      exact ⟨_, key (calls ticket rest waiting), assemble into, left, signs⟩
    · obtain ⟨into, signs, left, message⟩ := givenUp.walkUp (st := st) consistent next room present s
      exact ⟨_, key (walksUp none), assemble into, left.trans (waits.trans none), message, signs⟩
    · obtain ⟨givenUp, waits⟩ := ((accepted s st).onService fun v =>
        { v with recallList := v.recallList.filter fun x => x != number.toNat }).giveUp_givenUp st c
      obtain ⟨into, signs, left⟩ := givenUp.callTicket (st := st) consistent next room present number.toNat s
      exact ⟨_, key ((State.recallKey_in_range low high st _).trans (recalls _ listed)), assemble into, left.trans waits, signs⟩

end Sys2Proof.Machine
end

section
/-! SUPPORT. A job taken into the label queue (R116, R119). -/

namespace Sys2Proof.Machine

/-! ## Job numbers (R119) -/

/-- R119: a job number is one of the 65,536. -/
theorem nextFree_lt (held : List Nat) : ∀ fuel n, nextFree held fuel n < 65536
  | 0, _ => Nat.mod_lt _ (by decide)
  | fuel + 1, n => by
    unfold nextFree
    split
    · exact nextFree_lt held fuel _
    · exact Nat.mod_lt _ (by decide)

/-- R119: the search for a free number ends at a held one only when every number it passed is held. -/
theorem nextFree_passed {held : List Nat} : ∀ {fuel n : Nat}, nextFree held fuel n ∈ held →
    ∀ i < fuel, (n + (i + 1)) % 65536 ∈ held
  | 0, _, _, _, hi => absurd hi (Nat.not_lt_zero _)
  | fuel + 1, n, ends, i, hi => by
    unfold nextFree at ends
    split at ends
    · next first =>
      cases i with
      | zero => exact List.contains_iff_mem.1 first
      | succ i =>
        have later := nextFree_passed ends i (Nat.lt_of_succ_lt_succ hi)
        rwa [show ((n + 1) % 65536 + (i + 1)) % 65536 = (n + (i + 1 + 1)) % 65536 by omega] at later
    · next first => exact absurd (List.contains_iff_mem.2 ends) first

/-- R119: a search that may pass more numbers than are held ends at a free one, since the numbers it passes are distinct. -/
theorem nextFree_free {held : List Nat} {fuel : Nat} (few : held.length < fuel) (range : fuel ≤ 65536) (n : Nat) :
    nextFree held fuel n ∉ held := fun ends => by
  have distinct : ((List.range fuel).map fun i => (n + (i + 1)) % 65536).Nodup :=
    List.Nodup.map_on (fun i hi k hk same => by
      have := List.mem_range.1 hi
      have := List.mem_range.1 hk
      omega) List.nodup_range
  have passed : ((List.range fuel).map fun i => (n + (i + 1)) % 65536) ⊆ held := fun m hm => by
    obtain ⟨i, hi, rfl⟩ := List.mem_map.1 hm
    exact nextFree_passed ends i (List.mem_range.1 hi)
  have short := (distinct.subperm passed).length_le
  rw [List.length_map, List.length_range] at short
  exact absurd few (Nat.not_lt.2 short)

/-! ## The queue order (R119) -/

/-- Inserting by a key keeps the order of the keys. -/
theorem insertByKey_ordered {α : Type} (key : α → Nat) (x : α) : ∀ {xs : List α}, xs.Pairwise (fun a b => key a ≤ key b) →
    (insertByKey key x xs).Pairwise fun a b => key a ≤ key b
  | [], _ => List.pairwise_singleton _ _
  | y :: ys, ordered => by
    obtain ⟨first, rest⟩ := List.pairwise_cons.1 ordered
    unfold insertByKey
    split
    · next before =>
      exact List.pairwise_cons.2 ⟨List.forall_mem_cons.2 ⟨before, fun z hz => before.trans (first z hz)⟩, ordered⟩
    · next after =>
      refine List.pairwise_cons.2 ⟨fun z hz => ?_, insertByKey_ordered key x rest⟩
      rcases List.mem_cons.1 ((insertByKey_perm key x ys).mem_iff.1 hz) with rfl | old
      · exact Nat.le_of_not_le after
      · exact first z old

/-- R119: the entry stamp of the next job, within 32 bits. -/
theorem LabelUnit.nextStamp_of_lt {l : LabelUnit} (h : l.stamp.toNat < 4294967295) : l.nextStamp = l.stamp + 1 := if_pos h

/-- R119: the queue, the next number and the stamp after a job was taken in. -/
theorem LabelUnit.takeIn_parts (l : LabelUnit) (j : Job) : l.takeIn j =
    { queue := insertByKey Job.key (l.entry j) l.queue,
      nextJob := nextFree ((insertByKey Job.key (l.entry j) l.queue).map Job.number) 33 l.nextJob, stamp := l.nextStamp } := rfl

/-- R119: with room in the queue the number after a job taken in is one that no queued job carries. -/
theorem LabelUnit.takeIn_nextJob_free {l : LabelUnit} (room : l.queue.length < 32) (j : Job) :
    (l.takeIn j).nextJob ∉ (l.takeIn j).queue.map Job.number := by
  rw [LabelUnit.takeIn_parts]
  refine nextFree_free ?_ (by decide) _
  rw [List.length_map, (insertByKey_perm _ _ _).length_eq, List.length_cons]
  omega

end Sys2Proof.Machine
end

section
/-! SUPPORT. The arbiters (R127): what one port sends, which printer chooses, and what a choice leaves. -/

namespace Sys2Proof.Machine

/-! ## One port -/

/-- R124, R128: a line that begins its next frame changes what is sent and owed, and the phase. -/
@[simp] theorem PrinterPort.pump_fields (p : Printer) (q : PrinterPort) :
    (PrinterPort.pump p q).state = q.state ∧ (PrinterPort.pump p q).serial = q.serial ∧ (PrinterPort.pump p q).model = q.model ∧
    (PrinterPort.pump p q).condition = q.condition ∧ (PrinterPort.pump p q).inHand = q.inHand ∧
    (PrinterPort.pump p q).frameTimer = q.frameTimer ∧ (PrinterPort.pump p q).doneTimer = q.doneTimer := by
  unfold PrinterPort.pump
  repeat' split
  all_goals exact ⟨rfl, rfl, rfl, rfl, rfl, rfl, rfl⟩

/-- R128: the phase after a frame was begun. -/
theorem PrinterFrame.phase_after (f : PrinterFrame) (phase : Option Phase) :
    (if f.isField ∧ phase = some .starting then some .sending else phase) =
      match f, phase with
      | .field _ _, some .starting => some .sending
      | _, phase => phase := by
  cases f with
  | field ident value =>
    rcases phase with _ | (_ | _ | _) <;> rfl
  | accept serial p => exact if_neg nofun
  | labelBegin number format cls => exact if_neg nofun
  | labelEnd number => exact if_neg nofun

/-! ## The two printers -/

/-- There are two printers. -/
theorem printer_cases (p q : Printer) : q = p ∨ q = otherPrinter p := by
  revert p q
  decide

/-- The other printer is another. -/
theorem otherPrinter_ne (p : Printer) : otherPrinter p ≠ p := by
  revert p
  decide

/-- The other printer of the other. -/
@[simp] theorem otherPrinter_otherPrinter (p : Printer) : otherPrinter (otherPrinter p) = p := by
  revert p
  decide

/-- Each printer is listed once. -/
theorem filter_allPrinters (p : Printer) : (allPrinters.filter fun q => q == p) = [p] := by
  revert p
  decide

/-! ## Who chooses (R127) -/

/-- R127: a printer is eligible for the QUEUED jobs that prefer it, and for those that fall back to it. -/
theorem State.eligible_iff {s : State} {p : Printer} {j : Job} : s.eligible p j = true ↔
    j.state = .queued ∧ (j.preferred = p ∨ (j.fallback = true ∧ s.printers[j.preferred].state ≠ .ready)) := by
  simp only [State.eligible, Bool.and_eq_true, Bool.or_eq_true, decide_eq_true_eq]

/-- R127: a READY printer that has a job to take. -/
def State.Chooses (s : State) (p : Printer) (j : Job) : Prop := s.printers[p].state = .ready ∧ s.nextJobFor p = some j

/-- R127: the printer's own choice leads from `u` to `t`. -/
def State.Follows (u : State) (p : Printer) (t : State) : Prop :=
  (∀ j, u.Chooses p j → t = u.startJob p j) ∧ ((∀ j, ¬u.Chooses p j) → t = u)

/-- R127: the printers of `choosers` are those that choose. -/
theorem State.mem_choosers {s : State} {p : Printer} : p ∈ s.choosers ↔ ∃ j, s.Chooses p j := by
  have listed : p ∈ allPrinters :=
    List.mem_of_mem_filter (p := (· == p)) (by rw [filter_allPrinters]; exact List.mem_singleton_self p)
  unfold State.choosers State.Chooses
  rw [List.mem_filter, Bool.and_eq_true, decide_eq_true_eq, Option.isSome_iff_exists, exists_and_left]
  exact and_iff_right listed

/-- The printers, filtered by a predicate that says of each whether it chooses. -/
theorem State.choosers_eq_filter {s : State} {f : Printer → Bool} (h : ∀ p, f p = true ↔ ∃ j, s.Chooses p j) :
    s.choosers = allPrinters.filter f := by
  refine List.filter_congr fun p listed => Bool.eq_iff_iff.2 ?_
  rw [h, ← State.mem_choosers, State.choosers, List.mem_filter, and_iff_right listed]

/-- With no printer that chooses there is no chooser. -/
theorem State.choosers_none {s : State} (h : ∀ p j, ¬s.Chooses p j) : s.choosers = [] :=
  List.eq_nil_iff_forall_not_mem.2 fun p hp => let ⟨j, hj⟩ := State.mem_choosers.1 hp; h p j hj

/-- One printer that chooses is the only chooser. -/
theorem State.choosers_one {s : State} {p : Printer} {j : Job} (h : s.Chooses p j) (alone : ∀ k, ¬s.Chooses (otherPrinter p) k) :
    s.choosers = [p] := by
  have only : s.choosers = allPrinters.filter fun q => q == p := State.choosers_eq_filter fun q => by
    rw [beq_iff_eq]
    refine ⟨fun same => ⟨j, same ▸ h⟩, fun ⟨k, hk⟩ => (printer_cases p q).resolve_right fun other => alone k (other ▸ hk)⟩
  rw [only, filter_allPrinters]

/-- Both printers choose. -/
theorem State.choosers_two {s : State} {j k : Job} (h : s.Chooses 0 j) (g : s.Chooses 1 k) : s.choosers = [0, 1] := by
  rw [State.choosers_eq_filter (f := fun _ => true) fun q => ?_]
  · rfl
  · rcases printer_cases 0 q with rfl | rfl
    · exact iff_of_true rfl ⟨j, h⟩
    · exact iff_of_true rfl ⟨k, g⟩

/-! ## What a choice leaves (R127) -/

/-- R127: the printer that took a job is in BUSY_PRINTING. -/
theorem State.startJob_busy (s : State) (p : Printer) (j : Job) : (s.startJob p j).printers[p].state = .busyPrinting := by
  unfold State.startJob
  simp

/-- R127: the other printer's port is as it was. -/
theorem State.startJob_other {s : State} {p q : Printer} (h : q ≠ p) (j : Job) : (s.startJob p j).printers[q] = s.printers[q] :=
  modAt_other _ _ _ _ h

/-- R127: a printer that is not READY does not choose. -/
theorem State.not_chooses {s : State} {p : Printer} (h : s.printers[p].state ≠ .ready) (j : Job) : ¬s.Chooses p j :=
  fun chooses => h chooses.1

/-- R127: a printer that took a job does not choose again. -/
theorem State.startJob_not_ready (s : State) (p : Printer) (j : Job) : (s.startJob p j).printers[p].state ≠ .ready := by
  rw [State.startJob_busy]
  nofun

/-- R127: one choice is made by the first of the order. -/
theorem State.chooseOnce_first {s t : State} {p : Printer} {rest : List Printer} {j : Job}
    (order : s.inOpenOrder printerNumber s.choosers = (t, p :: rest)) (job : t.nextJobFor p = some j) :
    s.chooseOnce = t.startJob p j := by
  unfold State.chooseOnce
  rw [order]
  dsimp only
  rw [job]

/-- R127: with no printer that chooses nothing happens. -/
theorem State.chooseOnce_none {s : State} (h : ∀ p j, ¬s.Chooses p j) : s.chooseOnce = s := by
  unfold State.chooseOnce
  rw [State.choosers_none h]
  rfl

/-- R127: a single printer that chooses takes its job, and no free value is drawn (log 13). -/
theorem State.chooseOnce_one {s : State} {p : Printer} {j : Job} (h : s.Chooses p j) (alone : ∀ k, ¬s.Chooses (otherPrinter p) k) :
    s.chooseOnce = s.startJob p j :=
  State.chooseOnce_first (by rw [State.choosers_one h alone]; rfl) h.2

/-- R127: of two printers that choose one takes its job, in the order that the free value gives (log 13). -/
theorem State.chooseOnce_two {s : State} {j k : Job} (h : s.Chooses 0 j) (g : s.Chooses 1 k) :
    s.chooseOnce = { s with freeCount := s.freeCount + 1 }.startJob 0 j ∨
    s.chooseOnce = { s with freeCount := s.freeCount + 1 }.startJob 1 k := by
  have order : s.inOpenOrder printerNumber s.choosers =
      ({ s with freeCount := s.freeCount + 1 }, openOrder s.freeCount printerNumber [0, 1]) := by
    rw [State.choosers_two h g]
    rfl
  have perm := openOrder_perm s.freeCount printerNumber [(0 : Printer), 1]
  generalize openOrder s.freeCount printerNumber [0, 1] = ps at order perm
  cases ps with
  | nil => exact absurd perm.length_eq (by decide)
  | cons p rest =>
    rcases printer_cases 0 p with rfl | rfl
    · exact .inl (State.chooseOnce_first order h.2)
    · exact .inr (State.chooseOnce_first order g.2)

/-- R127: with one printer that does not choose, the other's choice is the one made. -/
theorem State.chooseOnce_follows {s : State} {p : Printer} (h : ∀ j, ¬s.Chooses p j) : s.Follows (otherPrinter p) s.chooseOnce := by
  refine ⟨fun j hj => State.chooseOnce_one hj (by rwa [otherPrinter_otherPrinter]), fun none => State.chooseOnce_none fun q => ?_⟩
  rcases printer_cases p q with rfl | rfl
  · exact h
  · exact none

/-- R127: after a choice of one printer the other chooses among the rest. -/
theorem State.arbitrate_follows {s u : State} {p : Printer} {j : Job} (first : s.chooseOnce = u.startJob p j) :
    (u.startJob p j).Follows (otherPrinter p) s.arbitrate := by
  unfold State.arbitrate
  rw [first]
  exact State.chooseOnce_follows (State.not_chooses (u.startJob_not_ready p j))

/-- R127: with no printer that chooses the arbiters do nothing. -/
theorem State.arbitrate_none {s : State} (h : ∀ p j, ¬s.Chooses p j) : s.arbitrate = s := by
  unfold State.arbitrate
  rw [State.chooseOnce_none h, State.chooseOnce_none h]

/-- R127: with one printer not READY, the other's choice is all that the arbiters do. -/
theorem State.arbitrate_not_ready {s : State} {p : Printer} (h : s.printers[p].state ≠ .ready) :
    s.Follows (otherPrinter p) s.arbitrate := by
  refine ⟨fun j hj => ?_, fun none => State.arbitrate_none fun q => ?_⟩
  · have follows := State.arbitrate_follows (State.chooseOnce_one hj
      (by rw [otherPrinter_otherPrinter]; exact State.not_chooses h))
    rw [otherPrinter_otherPrinter] at follows
    refine follows.2 (State.not_chooses ?_)
    rwa [State.startJob_other (otherPrinter_ne p).symm]
  · rcases printer_cases p q with rfl | rfl
    · exact State.not_chooses h
    · exact none

/-- R127: a printer that is not READY and the other's choice leave nobody to choose. -/
theorem State.Follows.settled {u t : State} {p : Printer} (h : u.Follows (otherPrinter p) t) (busy : u.printers[p].state ≠ .ready)
    (q : Printer) (k : Job) : ¬t.Chooses q k := by
  by_cases chooses : ∃ j, u.Chooses (otherPrinter p) j
  · obtain ⟨j, hj⟩ := chooses
    rw [h.1 j hj]
    refine State.not_chooses ?_ k
    rcases printer_cases p q with rfl | rfl
    · rwa [State.startJob_other (otherPrinter_ne q).symm]
    · exact State.startJob_not_ready u _ j
  · have none := not_exists.1 chooses
    rw [h.2 none]
    rcases printer_cases p q with rfl | rfl
    · exact State.not_chooses busy k
    · exact none k

/-- R127: the arbiters leave no READY printer with a job to take. -/
theorem State.arbitrate_settled (s : State) : ∀ p j, ¬s.arbitrate.Chooses p j := by
  have taken : ∀ {u : State} {p : Printer} {j : Job}, s.chooseOnce = u.startJob p j → ∀ q k, ¬s.arbitrate.Chooses q k :=
    fun first => (State.arbitrate_follows first).settled (State.startJob_not_ready _ _ _)
  by_cases zero : ∃ j, s.Chooses 0 j <;> by_cases one : ∃ k, s.Chooses 1 k
  · obtain ⟨j, hj⟩ := zero
    obtain ⟨k, hk⟩ := one
    exact (State.chooseOnce_two hj hk).elim taken taken
  · obtain ⟨j, hj⟩ := zero
    exact taken (State.chooseOnce_one hj (not_exists.1 one))
  · obtain ⟨k, hk⟩ := one
    exact taken (State.chooseOnce_one hk (not_exists.1 zero))
  · have nobody : ∀ p j, ¬s.Chooses p j := fun p => by
      rcases printer_cases 0 p with rfl | rfl
      · exact not_exists.1 zero
      · exact not_exists.1 one
    rwa [State.arbitrate_none nobody]

/-- R127: the arbiters change the label queue, the printers and the free values drawn. -/
theorem State.arbitrate_eq (s : State) : s.arbitrate = { s with
    freeCount := s.arbitrate.freeCount, labels := s.arbitrate.labels, printers := s.arbitrate.printers } := by
  have first := s.chooseOnce_eq
  have second := s.chooseOnce.chooseOnce_eq
  unfold State.arbitrate
  rw [first] at second ⊢
  exact second

/-- R127: the order of the numbers in the queue is as it was. -/
theorem State.arbitrate_numbers (s : State) : s.arbitrate.labels.queue.map Job.number = s.labels.queue.map Job.number := by
  obtain ⟨f, begun, queue⟩ := s.arbitrate_queue
  rw [queue, List.map_map]
  refine List.map_congr_left fun j _ => ?_
  rw [Function.comp_apply, begun j]

end Sys2Proof.Machine
end

section
/-! SUPPORT. A job cancelled and a printer port reset by request (R121, R132). -/

namespace Sys2Proof.Machine

/-! ## The requests -/

/-- Two bytes carry a number. -/
theorem parseNumber2_u2 {n : Nat} (h : n < 65536) : parseNumber2 (u2 n) = some n := by
  unfold parseNumber2 parseAll u2
  rw [num_leBytes_all (k := 2) h]

/-- CANCEL_JOB and RESET_PRINTER_PORT are requests for one job and one printer. -/
theorem exec_labelRequests (s : State) :
    exec .cancelJob s = s.request 0x41 (withArgs parseNumber2 State.cancelJob) ∧
    exec .resetPrinterPort s = s.request 0x42 (withArgs parseNumber1 State.resetPrinterPort) := ⟨rfl, rfl⟩

/-- A job found by its number carries it and stands in the queue. -/
theorem LabelUnit.job_some {l : LabelUnit} {n : Nat} {j : Job} (h : l.job n = some j) : j ∈ l.queue ∧ j.number = n :=
  ⟨List.mem_of_find?_eq_some h, by simpa using List.find?_some h⟩

/-- R121: CANCEL_JOB, by its checks in order. -/
theorem State.cancelJob_cases (s : State) (n : Nat) :
    (s.labels.job n = none → State.cancelJob n s = (s, [5])) ∧
    ∀ j, s.labels.job n = some j →
      (j.state ≠ .queued → State.cancelJob n s = (s, [7])) ∧
      (j.state = .queued → State.cancelJob n s = ((s.endJob j .cancelled).examineAll, 0 :: (u1 j.cls.code ++ j.link.bytes))) := by
  unfold State.cancelJob
  refine ⟨fun none => by rw [none]; rfl, fun j found => ?_⟩
  rw [found]
  refine ⟨fun state => if_neg state, fun queued => ?_⟩
  have shorter : (s.endJob j .cancelled).labels.queue.length < s.labels.queue.length := by
    rw [State.endJob_labels, (LabelUnit.job_some found).2]
    exact LabelUnit.remove_shorter found
  refine (if_pos queued).trans ?_
  rw [State.afterDepartures_some shorter]
  rfl

/-- R139: a prepack job that ends is counted at the runs of its serial. -/
theorem State.endJob_run {s : State} {j : Job} {serial : Nat} (h : j.link = .prepack serial) (o : JobOutcome) (st : Station) :
    (s.endJob j o).runs[st] = (s.runs[st]).takeOutcome serial o := by
  unfold State.endJob
  rw [h]
  show (Vector.ofFn _)[st] = _
  simp

/-! ## A port reset (R132) -/

/-- The printer a manual's number names. -/
theorem printerOf_number (p : Printer) : printerOf (p.val + 1) = some p := by
  revert p
  decide

/-- A number of no printer. -/
theorem printerOf_none {n : Nat} (h : n = 0 ∨ 2 < n) : printerOf n = none := by
  unfold printerOf
  rw [dif_neg (by omega)]

/-- R132: an interrupted job back in the queue with its attempt not counted. -/
def Job.returned (j : Job) : Job := { j with state := .queued, attempts := j.attempts - 1 }

/-- R132: the port in WAITING with its job in hand back in the queue, before the arbiters choose. -/
def State.portCleared (s : State) (p : Printer) : State := { s with
  labels := { s.labels with queue := s.labels.queue.map fun x => if s.printers[p].inHand = some x.number then x.returned else x },
  printers := modAt s.printers p fun q => { q.drop .waiting with frameTimer := false, condition := .unknown } }

/-- R132: with no job in hand in the queue none returns. -/
theorem LabelUnit.returned_none {l : LabelUnit} {inHand : Option Nat} (h : inHand.bind l.job = none) :
    (l.queue.map fun x => if inHand = some x.number then x.returned else x) = l.queue := by
  have other : ∀ x ∈ l.queue, inHand ≠ some x.number := fun x hx same => by
    rw [same] at h
    simpa using List.find?_eq_none.1 h x hx
  exact (List.map_congr_left fun x hx => if_neg (other x hx)).trans (List.map_id' _)

/-- R132: the job in hand returns. -/
theorem LabelUnit.returned_some {l : LabelUnit} {inHand : Option Nat} {j : Job} (h : inHand.bind l.job = some j) :
    (l.queue.map fun x => if inHand = some x.number then x.returned else x) = (l.update j.number Job.returned).queue := by
  obtain ⟨n, rfl, found⟩ := Option.bind_eq_some_iff.1 h
  rw [(LabelUnit.job_some found).2]
  exact List.map_congr_left fun x _ => by simp only [Option.some.injEq, eq_comm]

/-- R132: a port reset is the port cleared, and the arbiters choose. -/
theorem State.resetPort_eq (s : State) (p : Printer) : s.resetPort p = (s.portCleared p).arbitrate := by
  unfold State.resetPort State.portCleared
  dsimp only
  cases inHand : s.printers[p].inHand.bind s.labels.job with
  | none => rw [LabelUnit.returned_none inHand]; rfl
  | some j => rw [LabelUnit.returned_some inHand]; rfl

/-- R132: the cleared port. -/
theorem State.portCleared_port (s : State) (p : Printer) : (s.portCleared p).printers[p] =
    { s.printers[p].drop .waiting with frameTimer := false, condition := .unknown } := modAt_same _ _ _

/-- R132: after a port reset the other printer, when it was READY, may have taken a job; nothing else was chosen. -/
theorem State.resetPort_cases (s : State) (p : Printer) : s.resetPort p = s.portCleared p ∨
    ∃ k, s.printers[otherPrinter p].state = .ready ∧ s.resetPort p = (s.portCleared p).startJob (otherPrinter p) k := by
  have follows : (s.portCleared p).Follows (otherPrinter p) (s.resetPort p) := by
    rw [State.resetPort_eq]
    refine State.arbitrate_not_ready ?_
    rw [State.portCleared_port]
    nofun
  by_cases chooses : ∃ k, (s.portCleared p).Chooses (otherPrinter p) k
  · obtain ⟨k, hk⟩ := chooses
    have other : (s.portCleared p).printers[otherPrinter p] = s.printers[otherPrinter p] := modAt_other _ _ _ _ (otherPrinter_ne p)
    exact .inr ⟨k, other ▸ hk.1, follows.1 k hk⟩
  · exact .inl (follows.2 (not_exists.1 chooses))

/-- R132: the port after its reset. -/
theorem State.resetPort_port (s : State) (p : Printer) : (s.resetPort p).printers[p] =
    { s.printers[p].drop .waiting with frameTimer := false, condition := .unknown } := by
  rw [← State.portCleared_port]
  rcases s.resetPort_cases p with same | ⟨k, -, begun⟩
  · rw [same]
  · rw [begun]
    exact State.startJob_other (otherPrinter_ne p).symm k

/-- R132: a port reset changes the label queue, the printers and the free values drawn. -/
theorem State.resetPort_parts (s : State) (p : Printer) : s.resetPort p = { s with
    freeCount := (s.resetPort p).freeCount, labels := (s.resetPort p).labels, printers := (s.resetPort p).printers } := by
  rw [State.resetPort_eq]
  exact (s.portCleared p).arbitrate_eq

/-- R132: the numbers in the queue stay in their order. -/
theorem State.resetPort_numbers (s : State) (p : Printer) :
    (s.resetPort p).labels.queue.map Job.number = s.labels.queue.map Job.number := by
  rw [State.resetPort_eq, State.arbitrate_numbers]
  unfold State.portCleared
  rw [List.map_map]
  refine List.map_congr_left fun x _ => ?_
  dsimp only [Function.comp_apply]
  split <;> rfl

/-- R132: the job in hand is QUEUED again with its attempt not counted, or at once taken by the other printer. -/
theorem State.resetPort_inHand {s : State} {p : Printer} {n : Nat} {j : Job} (inHand : s.printers[p].inHand = some n)
    (found : s.labels.job n = some j) : ∃ x ∈ (s.resetPort p).labels.queue, x.number = n ∧
      ((x.state = .queued ∧ x.attempts = j.attempts - 1) ∨
       (x.state = .printing (otherPrinter p) ∧ x.attempts = j.attempts - 1 + 1 ∧ s.printers[otherPrinter p].state = .ready)) := by
  obtain ⟨stands, number⟩ := LabelUnit.job_some found
  have returned : j.returned ∈ (s.portCleared p).labels.queue :=
    List.mem_map.2 ⟨j, stands, if_pos (inHand.trans (congrArg some number.symm))⟩
  rcases s.resetPort_cases p with same | ⟨k, ready, begun⟩
  · rw [same]
    exact ⟨j.returned, returned, number, .inl ⟨rfl, rfl⟩⟩
  · rw [begun]
    refine ⟨_, List.mem_map_of_mem returned, ?_⟩
    by_cases taken : j.returned.number = k.number
    · rw [if_pos taken]
      exact ⟨number, .inr ⟨rfl, rfl, ready⟩⟩
    · rw [if_neg taken]
      exact ⟨number, .inl ⟨rfl, rfl⟩⟩

/-- R132: with the other printer not READY the job in hand returns, and the rest of the queue stays. -/
theorem State.resetPort_alone {s : State} {p : Printer} (h : s.printers[otherPrinter p].state ≠ .ready) :
    (s.resetPort p).labels = (s.portCleared p).labels := by
  rcases s.resetPort_cases p with same | ⟨-, ready, -⟩
  · rw [same]
  · exact absurd ready h

end Sys2Proof.Machine
end

section
/-! The label queue and its arbiters (R116, R119, R121, R127, R132). -/

namespace Sys2Proof.Machine

/-- R119: a job taken in where there is room. -/
theorem LabelUnit.takeIn_spec {l : LabelUnit} {j : Job} (room : l.queue.length < 32) (stamp : l.stamp.toNat < 4294967295)
    (ordered : l.queue.Pairwise fun x y => x.key ≤ y.key) :
    { j with number := l.nextJob, stamp := l.stamp + 1, state := .queued, attempts := 0 } ∈ (l.takeIn j).queue ∧
    (l.takeIn j).queue.length = l.queue.length + 1 ∧ (∀ x ∈ l.queue, x ∈ (l.takeIn j).queue) ∧
    (l.takeIn j).queue.Pairwise (fun x y => x.key ≤ y.key) ∧ (l.takeIn j).stamp = l.stamp + 1 ∧
    (l.takeIn j).nextJob < 65536 ∧ ∀ x ∈ (l.takeIn j).queue, x.number ≠ (l.takeIn j).nextJob := by
  have perm : (l.takeIn j).queue.Perm (l.entry j :: l.queue) := insertByKey_perm Job.key (l.entry j) l.queue
  refine ⟨?_, perm.length_eq, fun x hx => perm.mem_iff.2 (List.mem_cons_of_mem _ hx), insertByKey_ordered _ _ ordered,
    LabelUnit.nextStamp_of_lt stamp, nextFree_lt _ _ _,
    fun x hx same => LabelUnit.takeIn_nextJob_free room j (same ▸ List.mem_map_of_mem hx)⟩
  rw [← LabelUnit.nextStamp_of_lt stamp]
  exact perm.mem_iff.2 List.mem_cons_self

/-- R124, R128: what a free line begins, by what is owed. -/
theorem PrinterPort.pump_eq (p : Printer) (q : PrinterPort) : PrinterPort.pump p q =
    if q.sending.isSome then q
    else
      match q.owedAccepts, q.toSend with
      | serial :: more, _ => { q with sending := some (.accept serial p), owedAccepts := more }
      | [], [] => q
      | [], f :: rest => { q with
          sending := some f, toSend := rest,
          phase := match f, q.phase with
            | .field _ _, some .starting => some .sending
            | _, phase => phase } := by
  unfold PrinterPort.pump
  cases q.owedAccepts with
  | cons serial more => rfl
  | nil =>
    cases q.toSend with
    | nil => rfl
    | cons f rest =>
      exact congrArg (fun phase => if q.sending.isSome then q else
        { q with sending := some f, owedAccepts := [], toSend := rest, phase := phase }) (f.phase_after q.phase)

/-- R127: the first QUEUED job in queue order for which the printer is eligible. -/
theorem State.nextJobFor_cases (s : State) (p : Printer) :
    ((∀ j ∈ s.labels.queue, ¬s.eligible p j = true) → s.nextJobFor p = none) ∧
    ∀ before j after, s.labels.queue = before ++ j :: after → (∀ x ∈ before, ¬s.eligible p x = true) → s.eligible p j = true →
      s.nextJobFor p = some j := by
  refine ⟨List.find?_eq_none.2, fun before j after queue passed first => ?_⟩
  unfold State.nextJobFor
  rw [queue, List.find?_append, List.find?_eq_none.2 passed, List.find?_cons_of_pos first]
  rfl

/-- R127: a READY printer that the arbiters left is eligible for no job of the queue. -/
theorem State.arbitrate_not_eligible {s : State} {p : Printer} (ready : s.arbitrate.printers[p].state = .ready) :
    ∀ j ∈ s.arbitrate.labels.queue, ¬s.arbitrate.eligible p j = true :=
  List.find?_eq_none.1 (Option.eq_none_iff_forall_ne_some.2 fun j first => s.arbitrate_settled p j ⟨ready, first⟩)

/-- R104, R139: the end of a job, by what it does for its producer. -/
theorem State.endJob_outcome (s : State) (j : Job) (o : JobOutcome) :
    (∀ serial, j.link = .prepack serial → ∀ st : Station, s.runs[st].serial = some serial →
      (s.endJob j o).runs[st] =
        match o with
        | .done => { s.runs[st] with printed := s.runs[st].printed + 1 }
        | .failed => { s.runs[st] with failed := s.runs[st].failed + 1 }
        | .cancelled => { s.runs[st] with cancelled := s.runs[st].cancelled + 1 }) ∧
    (∀ serial line, j.link = .item serial line → (s.endJob j o).pool.records = s.pool.records.map fun b =>
      if b.state = .opened ∧ b.serial = (some serial) then { b with lines := b.lines.map fun l =>
        if l.number = line ∧ l.latestJob = (some j.number) then
          { l with labelState := match o with | .done => .printed | .failed => .failed | .cancelled => .none }
        else l } else b) := by
  refine ⟨fun serial link st run => ?_, fun serial line link => ?_⟩
  · rw [State.endJob_run link]
    exact (if_pos run).trans (by cases o <;> rfl)
  · rw [State.endJob_item link]
    cases o <;> rfl

/-- Settles O50: who chooses, and what the other then does, decide every clause on the arbiters; a port reset is a choice of the other
printer alone. -/
theorem labelJobsAreQueuedAndTaken : Obligations.LabelJobsAreQueuedAndTaken := by
  unfold Obligations.LabelJobsAreQueuedAndTaken
  refine ⟨fun l j room stamp _ _ ordered => LabelUnit.takeIn_spec room stamp ordered, fun s p => ?_, fun s => ?_,
    fun p q _ _ => PrinterPort.pump_eq p q, fun s p ready j hj queued => ?_, fun s n fits he => ?_, fun s j o => ?_,
    fun s n he => ⟨fun none => ?_, fun p number => ?_⟩⟩
  · obtain ⟨none, first⟩ := s.nextJobFor_cases p
    simp only [State.eligible_iff] at none first
    exact ⟨none, first, fun j => rfl⟩
  · exact ⟨State.arbitrate_none, fun p j hj alone => State.arbitrate_follows (State.chooseOnce_one hj alone),
      fun j k hj hk => (State.chooseOnce_two hj hk).imp State.arbitrate_follows State.arbitrate_follows⟩
  · have taken := mt State.eligible_iff.2 (State.arbitrate_not_eligible ready j hj)
    exact ⟨fun own => taken ⟨queued, .inl own⟩, fun fallback => not_not.1 fun away => taken ⟨queued, .inr ⟨fallback, away⟩⟩⟩
  · obtain ⟨none, found⟩ := s.cancelJob_cases n
    have answer : ∀ {t : State} {reply : List Byte}, State.cancelJob n s = (t, reply) →
        exec .cancelJob s = .next (answered s t reply) := State.request_args_eq he (parseNumber2_u2 fits)
    exact ⟨fun h => answer (none h), fun j h state => answer ((found j h).1 state), fun j h queued => answer ((found j h).2 queued)⟩
  · exact ⟨s.endJob_labels j o, s.endJob_outcome j o⟩
  · refine State.request_args_eq he (parseNumber1_byte n) ?_
    unfold State.resetPrinterPort
    rw [printerOf_none (by bv_omega)]
    rfl
  · refine ⟨s.resetPort p, State.request_args_eq he (parseNumber1_byte n) ?_, ?_⟩
    · unfold State.resetPrinterPort
      rw [number, printerOf_number]
      rfl
    · rw [State.resetPort_port]
      exact ⟨rfl, rfl, rfl, rfl, rfl, rfl, s.resetPort_numbers p, fun j n => State.resetPort_inHand, State.resetPort_alone,
        s.resetPort_parts p⟩

end Sys2Proof.Machine
end

section
/-! SUPPORT. Prepack runs: what a trigger, the end of a run and an offer leave (R136 to R141). -/

namespace Sys2Proof.Machine

/-! ## The trigger conditions (R136) -/

/-- R136, condition 3. -/
theorem Channel.stableLoad_iff (c : Channel) : c.stableLoad = true ↔
    c.state = .stable ∧ ∃ w, c.last = some w ∧ ((200 * c.e1 : Nat) : Int) ≤ w.net := by
  unfold Channel.stableLoad
  cases c.last <;> simp

/-- R136: conditions 1 to 5, with the version and the price they give. -/
theorem State.triggerPrice_eq_some {s : State} {st : Station} {v : PluVersion} {price : Nat} :
    s.triggerPrice st = some (v, price) ↔ s.runs[st].state = .active ∧ s.runs[st].version = some v ∧
      s.channels[st].outcome = .priced price ∧ s.channels[st].stableLoad = true ∧ s.channels[st].armed = true ∧
      s.clockUnset v = false := by
  unfold State.triggerPrice
  split
  · next w cost active version outcome =>
    rw [active, version, outcome, Option.ite_none_right_eq_some]
    simp only [Bool.and_eq_true, Bool.not_eq_true', Option.some.injEq, Prod.mk.injEq, PriceOutcome.priced.injEq, true_and, and_assoc]
    constructor
    · rintro ⟨load, armed, clock, rfl, rfl⟩
      exact ⟨rfl, rfl, load, armed, clock⟩
    · rintro ⟨rfl, rfl, load, armed, clock⟩
      exact ⟨load, armed, clock, rfl, rfl⟩
  · next other => exact iff_of_false nofun fun ⟨active, version, outcome, _⟩ => other v price active version outcome

/-- R136: the conditions speak of the run, the channel and the clock alone. -/
theorem State.triggerPrice_congr {s t : State} {st : Station} (run : t.runs[st] = s.runs[st])
    (channel : t.channels[st] = s.channels[st]) (clock : t.link.clock = s.link.clock) : t.triggerPrice st = s.triggerPrice st := by
  have unset : ∀ v, t.clockUnset v = s.clockUnset v := fun v => by
    unfold State.clockUnset State.clock
    rw [clock]
  unfold State.triggerPrice
  rw [run, channel]
  simp only [unset]

/-! ## A trigger (R137) -/

/-- R137: the job of a trigger. -/
def State.packJob (s : State) (st : Station) (v : PluVersion) (price : Nat) : Job :=
  newJob .prepack s.channels[st].config (.prepack (s.runs[st].serial.getD 0)) (s.packContent st v price)

/-- R137, R138: a trigger up to its counters, with no more waiting for room. -/
def State.counted (s : State) (st : Station) (v : PluVersion) (price : Nat) : State :=
  (((s.takeJob (s.packJob st v price)).onChannel st fun c => { c with armed := false }).onRun st
    (Run.count s.labels.nextJob s.channels[st].shownWeight price (v.mode == .byWeight))).stopWaiting st

/-- R137: the last label ends the run. -/
theorem State.trigger_eq (s : State) (st : Station) (v : PluVersion) (price : Nat) : s.trigger st v price =
    if (s.counted st v price).runs[st].remaining = 0 then (s.counted st v price).endRun st .count else s.counted st v price := rfl

/-- R137: what a trigger counts and takes in. -/
theorem State.counted_spec (s : State) (st : Station) (v : PluVersion) (price : Nat) :
    (s.counted st v price).runs[st] = { s.runs[st].count s.labels.nextJob s.channels[st].shownWeight price (v.mode == .byWeight) with
      waitingRoom := false } ∧
    (s.counted st v price).channels[st] = { s.channels[st] with armed := false } ∧
    (s.counted st v price).totals = s.totals ∧ (s.counted st v price).link = s.link ∧
    (s.counted st v price).labels = (s.takeJob (s.packJob st v price)).labels := by
  obtain ⟨u, hu⟩ : ∃ u, u = ((s.takeJob (s.packJob st v price)).onChannel st fun c => { c with armed := false }).onRun st
    (Run.count s.labels.nextJob s.channels[st].shownWeight price (v.mode == .byWeight)) := ⟨_, rfl⟩
  have waited : s.counted st v price = u.stopWaiting st := by rw [hu]; rfl
  obtain ⟨step, run, channels, totals, link, -⟩ := u.stopWaiting_spec st
  rw [waited, run, channels, totals, link, step.labels, hu]
  generalize s.packJob st v price = job
  have taken := s.takeJob_eq job
  generalize s.takeJob job = t at taken
  refine ⟨?_, ?_, ?_, ?_, rfl⟩
  · rw [taken, State.onRun, modAt_same]
    rfl
  · rw [taken, State.onRun, State.onChannel, modAt_same]
  · rw [taken]
    rfl
  · rw [taken]
    rfl

/-! ## Flags that an operation does not raise (R176) -/

/-- R176: another entry than the one raised stays as it is. -/
theorem State.raise_other (s : State) {f : Flag} {n : Fin 50} (h : n ≠ f.entry) (body : List Byte) :
    (s.raise f body).link.flags[n] = s.link.flags[n] := modAt_other _ _ _ _ h

/-- R56: the end of an adoption is no end of a run. -/
theorem prepackDone_ne_adoptionComplete (st : Station) : (Flag.prepackDone st).entry ≠ Flag.adoptionComplete.entry := by
  revert st
  decide

/-- R55: an adoption leaves PREPACK_DONE. -/
theorem State.adoptIfFree_prepackDone (s : State) (st : Station) :
    (s.adoptIfFree st).link.flags[(Flag.prepackDone st).entry] = s.link.flags[(Flag.prepackDone st).entry] := by
  unfold State.adoptIfFree
  split
  · unfold State.adopt State.completeAdoption
    split
    · exact State.raise_other _ (prepackDone_ne_adoptionComplete st) _
    · rfl
  · rfl

/-- R33: a cleared selection leaves PREPACK_DONE. -/
theorem State.clearSelection_prepackDone (s : State) (st : Station) :
    (s.clearSelection st).link.flags[(Flag.prepackDone st).entry] = s.link.flags[(Flag.prepackDone st).entry] := by
  unfold State.clearSelection
  rw [(State.refresh_spec _ st).1]
  exact State.adoptIfFree_prepackDone _ st

/-! ## The end of a run (R140) -/

/-- R140: a complete end leaves no selection, and a silent one leaves PREPACK_DONE. -/
theorem State.completeEnd_left (s : State) (st : Station) : (s.completeEnd st).channels[st].selection = none ∧
    (s.runs[st].silent = true →
      (s.completeEnd st).link.flags[(Flag.prepackDone st).entry] = s.link.flags[(Flag.prepackDone st).entry]) := by
  unfold State.completeEnd
  dsimp only
  generalize hu : s.onRun st (fun r => { r with state := if r.notify then .doneHeld else .idle }) = u
  have link : u.link = s.link := by rw [← hu]; rfl
  generalize hv : (if s.runs[st].silent then u else u.raise (.prepackDone st) s.runs[st].doneBody) = v
  have silent : s.runs[st].silent = true → v.link = s.link := fun silent => by rw [← hv, if_pos silent, link]
  split
  · obtain ⟨⟨cleared, -⟩, -⟩ := v.clearSelection_left st
    refine ⟨by rw [cleared], fun h => ?_⟩
    rw [State.clearSelection_prepackDone, silent h]
  · next none =>
    obtain ⟨-, channel, -⟩ := v.adoptIfFree_spec st
    refine ⟨by rw [channel]; simpa using none, fun h => ?_⟩
    rw [State.adoptIfFree_prepackDone, silent h]

/-- R140: an end with its reason and time, not yet complete. -/
theorem State.ended_spec (s : State) (st : Station) (reason : EndReason) :
    let u := (s.stopWaiting st).onRun st fun r => { r with endReason := some reason, endedAt := s.clock }
    u.runs[st] = { s.runs[st] with endReason := some reason, endedAt := s.link.clock, waitingRoom := false } ∧
    u.channels = s.channels ∧ u.link = s.link ∧ u.commitRoom = s.commitRoom := by
  intro u
  obtain ⟨-, run, channels, totals, link, -⟩ := s.stopWaiting_spec st
  refine ⟨?_, channels, link, ?_⟩
  · show (modAt _ _ _)[st] = _
    rw [modAt_same, run]
    rfl
  · show State.commitRoom (s.stopWaiting st) = _
    unfold State.commitRoom
    rw [totals]

/-- R140: an end that finds room or has no commit is complete; the other one leaves its channel. -/
theorem State.endRun_left_selection {s : State} {st : Station} (active : s.runs[st].state = .active) (reason : EndReason) :
    (s.runs[st].issued = 0 ∨ s.commitRoom = true → (s.endRun st reason).channels[st].selection = none ∧
      (reason = .count → s.runs[st].notify = false →
        (s.endRun st reason).link.flags[(Flag.prepackDone st).entry] = s.link.flags[(Flag.prepackDone st).entry])) ∧
    (s.runs[st].issued ≠ 0 → s.commitRoom = false → (s.endRun st reason).channels[st] = s.channels[st]) := by
  unfold State.endRun
  rw [if_pos active]
  dsimp only
  obtain ⟨run, channels, link, room⟩ := s.ended_spec st reason
  generalize (s.stopWaiting st).onRun st (fun r => { r with endReason := some reason, endedAt := s.clock }) = u at *
  have issued : u.runs[st].issued = s.runs[st].issued := by rw [run]
  have silent : ∀ {w : State}, w.runs[st] = u.runs[st] → reason = .count → s.runs[st].notify = false → w.runs[st].silent = true :=
    fun same count quiet => by rw [same, run, count]; simpa [Run.silent] using quiet
  rw [issued, room]
  refine ⟨fun complete => ?_, fun some full => ?_⟩
  · split
    · obtain ⟨selection, flag⟩ := u.completeEnd_left st
      exact ⟨selection, fun count quiet => by rw [flag (silent rfl count quiet), link]⟩
    · next some =>
      obtain ⟨selection, flag⟩ := (u.pushCommit (u.runs[st].commit st)).completeEnd_left st
      rw [if_pos (complete.resolve_left some)]
      refine ⟨selection, fun count quiet => (flag (silent rfl count quiet)).trans ?_⟩
      show u.link.flags[_] = _
      rw [link]
  · rw [if_neg some, if_neg (by rw [full]; nofun)]
    exact congrArg (·[st]) channels

end Sys2Proof.Machine
end

section
/-! SUPPORT. Prepack runs examined and offered one after another (R136, R138, R141). -/

namespace Sys2Proof.Machine

/-! ## One examination (R136, R138) -/

/-- R136: an ACTIVE run whose conditions fail waits for no room any more. -/
theorem State.examine_fails {s : State} {st : Station} (active : s.runs[st].state = .active) (fails : s.triggerPrice st = none) :
    s.examine st = s.stopWaiting st := by
  unfold State.examine
  rw [if_pos active, fails]

/-- R137: an examination that finds room is a trigger. -/
theorem State.examine_room {s : State} {st : Station} {v : PluVersion} {price : Nat} (wants : s.triggerPrice st = some (v, price))
    (room : s.labels.queue.length < 32) : s.examine st = s.trigger st v price := by
  obtain ⟨active, -⟩ := State.triggerPrice_eq_some.1 wants
  unfold State.examine
  rw [if_pos active, wants]
  exact if_pos (s.labels.room_iff.1.2 room)

/-- R138: an examination that finds no room shows LABELS_FULL. -/
theorem State.examine_full {s : State} {st : Station} {v : PluVersion} {price : Nat} (wants : s.triggerPrice st = some (v, price))
    (full : 32 ≤ s.labels.queue.length) :
    s.examine st = (s.onRun st fun r => { r with waitingRoom := true }).setMessage st .labelsFull := by
  obtain ⟨active, -⟩ := State.triggerPrice_eq_some.1 wants
  unfold State.examine
  rw [if_pos active, wants]
  exact if_neg (by rw [s.labels.room_iff.2.2 full]; nofun)

/-- R138: what an examination without room leaves. -/
theorem State.examine_full_spec {s : State} {st : Station} {v : PluVersion} {price : Nat} (wants : s.triggerPrice st = some (v, price))
    (full : 32 ≤ s.labels.queue.length) :
    (s.examine st).runs[st] = { s.runs[st] with waitingRoom := true } ∧ (s.examine st).ports[st].image.message = .labelsFull ∧
    (s.examine st).labels = s.labels ∧ (s.examine st).channels = s.channels := by
  rw [State.examine_full wants full]
  refine ⟨modAt_same _ _ _, ?_, rfl, rfl⟩
  show (modAt s.ports st _)[st].image.message = _
  rw [modAt_same]

/-- R137: a trigger issues one label and disarms the channel, whether or not it ends the run. -/
theorem State.trigger_spec (s : State) (st : Station) (v : PluVersion) (price : Nat) :
    (s.trigger st v price).runs[st].issued = s.runs[st].issued + 1 ∧ (s.trigger st v price).channels[st].armed = false ∧
    (s.trigger st v price).labels = (s.takeJob (s.packJob st v price)).labels := by
  obtain ⟨run, channel, -, -, labels⟩ := s.counted_spec st v price
  rw [State.trigger_eq]
  generalize s.counted st v price = u at run channel labels ⊢
  split
  · obtain ⟨step, ended, -, -, kept, -⟩ := u.endRun_spec st .count
    refine ⟨?_, ?_, step.labels.trans labels⟩
    · by_cases active : u.runs[st].state = .active
      · rw [(ended.2 active).1, run]
        rfl
      · rw [(ended.1 active).1, run]
        rfl
    · unfold Channel.ofRunEnd at kept
      rw [kept, channel]
  · exact ⟨by rw [run]; rfl, by rw [channel], labels⟩

/-! ## What an examination or an offer leaves of the other stations (R136, R141) -/

/-- What an examination or an offer at another station leaves: the channel, the port, the run, the clock, and every job and commit
that stood in its queue. -/
structure StationStays (s t : State) (x : Station) : Prop where
  channel : t.channels[x] = s.channels[x]
  port : t.ports[x] = s.ports[x]
  run : t.runs[x] = s.runs[x]
  clock : t.link.clock = s.link.clock
  queue : s.labels.queue.length ≤ t.labels.queue.length
  commits : s.totals.commits.length ≤ t.totals.commits.length
  closing : t.totals.closing = s.totals.closing

/-- Nothing happened. -/
theorem StationStays.same (s : State) (x : Station) : StationStays s s x := ⟨rfl, rfl, rfl, rfl, Nat.le_refl _, Nat.le_refl _, rfl⟩

/-- One such operation after another. -/
theorem StationStays.trans {s t u : State} {x : Station} (h : StationStays s t x) (g : StationStays t u x) : StationStays s u x :=
  ⟨g.channel.trans h.channel, g.port.trans h.port, g.run.trans h.run, g.clock.trans h.clock, h.queue.trans g.queue,
    h.commits.trans g.commits, g.closing.trans h.closing⟩

/-- The trigger conditions stay with the station. -/
theorem StationStays.triggerPrice {s t : State} {x : Station} (h : StationStays s t x) : t.triggerPrice x = s.triggerPrice x :=
  State.triggerPrice_congr h.run h.channel h.clock

/-- R136: an examination at another station. -/
theorem State.examine_stays (s : State) {st x : Station} (h : st ≠ x) : StationStays s (s.examine st) x := by
  obtain ⟨channel, port, run⟩ := (s.examine_left st).others x h.symm
  obtain ⟨more, totals, -⟩ := (s.examine_runsExamined st).commits
  refine ⟨channel, port, run, ?_, ?_, ?_, by rw [totals]⟩
  · rw [(s.examine_examined st).parts]
  · rcases s.examine_labels st with same | ⟨job, -, -, taken⟩
    · rw [same]
    · rw [taken, State.takeJob_length]
      omega
  · rw [totals, List.length_append]
    omega

/-- R141: an offer that finds room. -/
theorem State.offer_room {s : State} {st : Station} (ending : s.runs[st].state = .ending) (room : s.commitRoom = true) :
    s.offer st = (s.pushCommit (s.runs[st].commit st)).completeEnd st := if_pos ⟨ending, room⟩

/-- R141: an offer that finds no room. -/
theorem State.offer_full {s : State} {st : Station} (full : s.commitRoom = false) : s.offer st = s :=
  if_neg fun h => by rw [full] at h; exact absurd h.2 nofun

/-- R141: an offer at another station. -/
theorem State.offer_stays (s : State) {st x : Station} (h : st ≠ x) : StationStays s (s.offer st) x := by
  unfold State.offer
  split
  · obtain ⟨step, -, totals, -⟩ := (s.pushCommit (s.runs[st].commit st)).completeEnd_spec st
    obtain ⟨channel, port, run⟩ := step.others x h.symm
    refine ⟨channel, port, run, by rw [step.parts]; rfl, by rw [step.labels]; exact Nat.le_refl _, ?_, by rw [totals]; rfl⟩
    rw [totals]
    simp [State.pushCommit]
  · exact .same s x

/-- Operations at other stations, one after another. -/
theorem StationStays.foldl {f : State → Station → State} {x : Station} (step : ∀ s st, st ≠ x → StationStays s (f s st) x) :
    ∀ (order : List Station) (s : State), x ∉ order → StationStays s (order.foldl f s) x
  | [], s, _ => .same s x
  | st :: order, s, absent => by
    obtain ⟨other, rest⟩ := not_or.1 (mt List.mem_cons.2 absent)
    exact (step s st (Ne.symm other)).trans (StationStays.foldl step order (f s st) rest)

/-- A station has its turn once, with what is its own as it was at the beginning, and afterwards as its turn left it. -/
theorem StationStays.turn {f : State → Station → State} {x : Station} (step : ∀ s st, st ≠ x → StationStays s (f s st) x)
    {order : List Station} (once : order.Nodup) (listed : x ∈ order) (s : State) :
    ∃ u, StationStays s u x ∧ StationStays (f u x) (order.foldl f s) x := by
  obtain ⟨before, after, rfl⟩ := List.append_of_mem listed
  have absent := (List.nodup_cons.1 (List.nodup_middle.1 once)).1
  rw [List.mem_append, not_or] at absent
  refine ⟨before.foldl f s, .foldl step before s absent.1, ?_⟩
  rw [List.foldl_append, List.foldl_cons]
  exact .foldl step after _ absent.2

/-! ## Every run examined (R136) -/

/-- Every station is listed once. -/
theorem stations_complete : stations.Nodup ∧ ∀ st : Station, st ∈ stations := by decide

/-- R136: the runs whose conditions hold are examined before the others, in an open order (log 13). -/
theorem State.examineAll_order (s : State) : ∃ (order : List Station) (drawn : Nat), order.Perm stations ∧
    order.Pairwise (fun x y => (s.triggerPrice y).isSome → (s.triggerPrice x).isSome) ∧ drawn ≤ 1 ∧
    s.examineAll = order.foldl State.examine { s with freeCount := s.freeCount + drawn } := by
  obtain ⟨perm, drawn, few, same⟩ := s.inOpenOrder_spec stationNumber (stations.filter fun st => (s.triggerPrice st).isSome)
  unfold State.examineAll
  dsimp only
  generalize s.inOpenOrder stationNumber (stations.filter fun st => (s.triggerPrice st).isSome) = x at perm same ⊢
  obtain ⟨t, order⟩ := x
  obtain rfl : t = _ := same
  have wanting : ∀ x ∈ order, (s.triggerPrice x).isSome := fun x hx => (List.mem_filter.1 (perm.mem_iff.1 hx)).2
  refine ⟨_, drawn, ?_, ?_, few, rfl⟩
  · have parted := List.filter_append_perm (fun st => (s.triggerPrice st).isSome) stations
    simp only [Option.not_isSome] at parted
    exact (perm.append_right _).trans parted
  · refine List.pairwise_append.2 ⟨List.pairwise_of_forall_mem_list fun x hx _ _ _ => wanting x hx,
      List.pairwise_of_forall_mem_list fun _ _ y hy wants => ?_, fun x hx _ _ _ => wanting x hx⟩
    obtain ⟨-, fails⟩ := List.mem_filter.1 hy
    rw [Option.isNone_iff_eq_none] at fails
    rw [fails] at wants
    cases wants

/-- R136, R138: what an examination of every run makes of one. -/
theorem State.examineAll_run (s : State) (st : Station) :
    (s.runs[st].state ≠ .active → s.examineAll.runs[st] = s.runs[st] ∧ s.examineAll.channels[st] = s.channels[st]) ∧
    (s.runs[st].state = .active → s.triggerPrice st = none →
      s.examineAll.runs[st] = { s.runs[st] with waitingRoom := false } ∧ s.examineAll.channels[st] = s.channels[st]) ∧
    ((s.triggerPrice st).isSome →
      (s.examineAll.runs[st].issued = s.runs[st].issued + 1 ∧ s.examineAll.channels[st].armed = false) ∨
      (s.examineAll.runs[st] = { s.runs[st] with waitingRoom := true } ∧ s.examineAll.channels[st] = s.channels[st] ∧
        s.examineAll.ports[st].image.message = .labelsFull ∧ 32 ≤ s.examineAll.labels.queue.length)) := by
  obtain ⟨order, drawn, perm, -, -, examined⟩ := s.examineAll_order
  obtain ⟨u, before, after⟩ := StationStays.turn (fun s x => State.examine_stays s (st := x) (x := st))
    (perm.nodup_iff.2 stations_complete.1) (perm.mem_iff.2 (stations_complete.2 st)) { s with freeCount := s.freeCount + drawn }
  rw [← examined] at after
  have run : u.runs[st] = s.runs[st] := before.run
  have channel : u.channels[st] = s.channels[st] := before.channel
  have conditions : u.triggerPrice st = s.triggerPrice st := before.triggerPrice
  rw [after.run, after.channel, after.port]
  refine ⟨fun idle => ?_, fun active fails => ?_, fun wants => ?_⟩
  · rw [State.examine_not_active (run ▸ idle), run, channel]
    exact ⟨rfl, rfl⟩
  · obtain ⟨-, waits, channels, -⟩ := u.stopWaiting_spec st
    rw [State.examine_fails (run ▸ active) (conditions.trans fails), waits, channels, run, channel]
    exact ⟨rfl, rfl⟩
  · obtain ⟨⟨v, price⟩, found⟩ := Option.isSome_iff_exists.1 wants
    have found : u.triggerPrice st = some (v, price) := conditions.trans found
    by_cases room : u.labels.queue.length < 32
    · obtain ⟨issued, armed, -⟩ := u.trigger_spec st v price
      rw [State.examine_room found room, issued, run]
      exact .inl ⟨rfl, armed⟩
    · obtain ⟨waits, message, labels, channels⟩ := State.examine_full_spec found (Nat.not_lt.1 room)
      have queue := after.queue
      rw [labels] at queue
      rw [waits, channels, run, channel]
      exact .inr ⟨rfl, rfl, message, (Nat.not_lt.1 room).trans queue⟩

/-! ## Every run in ENDING (R141) -/

/-- R141: the runs in ENDING offer their commits in an open order (log 13). -/
theorem State.offerAll_order (s : State) : ∃ (order : List Station) (drawn : Nat),
    order.Perm (stations.filter fun st => s.runs[st].state == .ending) ∧ drawn ≤ 1 ∧
    s.offerAll = order.foldl State.offer { s with freeCount := s.freeCount + drawn } := by
  obtain ⟨perm, drawn, few, same⟩ := s.inOpenOrder_spec stationNumber (stations.filter fun st => s.runs[st].state == .ending)
  unfold State.offerAll
  generalize s.inOpenOrder stationNumber (stations.filter fun st => s.runs[st].state == .ending) = x at perm same ⊢
  obtain ⟨t, order⟩ := x
  obtain rfl : t = _ := same
  exact ⟨order, drawn, perm, few, rfl⟩

/-- R141: what the offers make of one run. -/
theorem State.offerAll_run (s : State) (st : Station) :
    (s.runs[st].state ≠ .ending → s.offerAll.runs[st] = s.runs[st]) ∧
    (s.runs[st].state = .ending →
      s.offerAll.runs[st] = { s.runs[st] with state := if s.runs[st].notify then .doneHeld else .idle } ∨
      (s.offerAll.runs[st] = s.runs[st] ∧ (8 ≤ s.offerAll.totals.commits.length ∨ s.offerAll.totals.closing.isSome = true))) := by
  obtain ⟨order, drawn, perm, -, offered⟩ := s.offerAll_order
  have listed : st ∈ order ↔ s.runs[st].state = .ending := by
    rw [perm.mem_iff, List.mem_filter, beq_iff_eq]
    exact and_iff_right (stations_complete.2 st)
  have step : ∀ (s : State) (x : Station), x ≠ st → StationStays s (s.offer x) st := fun s x => s.offer_stays
  rw [offered]
  refine ⟨fun other => (StationStays.foldl step order _ (mt listed.1 other)).run, fun ending => ?_⟩
  obtain ⟨u, before, after⟩ := StationStays.turn step (perm.nodup_iff.2 (stations_complete.1.filter _)) (listed.2 ending)
    { s with freeCount := s.freeCount + drawn }
  have run : u.runs[st] = s.runs[st] := before.run
  rw [after.run, after.closing]
  by_cases room : u.commitRoom = true
  · obtain ⟨-, completed, -⟩ := (u.pushCommit (u.runs[st].commit st)).completeEnd_spec st
    rw [State.offer_room (run ▸ ending) room, completed, ← run]
    exact .inl rfl
  · have commits := after.commits
    rw [State.offer_full (Bool.eq_false_iff.2 room)] at commits ⊢
    rw [State.commitRoom_iff, not_and_or, Nat.not_lt, ← ne_eq, ← Option.isSome_iff_ne_none] at room
    exact .inr ⟨run, room.imp_left (·.trans commits)⟩

end Sys2Proof.Machine
end

section
/-! SUPPORT. The requests of prepack runs, and the labels and commits of a run (R117, R135, R137, R140 to R142). -/

namespace Sys2Proof.Machine

/-! ## START_RUN (R135) -/

/-- R135: the arguments of a START_RUN. -/
theorem parseRun_bytes {channel plu count notify : Nat} (hchannel : channel < 256) (hplu : plu < 65536) (hcount : count < 65536)
    (hnotify : notify < 256) : parseRun (u1 channel ++ u2 plu ++ u2 count ++ u1 notify) =
      some { channel := channel, plu := plu, count := count, notify := notify } := by
  simp only [parseRun, parseAll, mapP, both, List.append_assoc, u1, u2, num_leBytes (k := 1) hchannel, num_leBytes (k := 2) hplu,
    num_leBytes (k := 2) hcount, num_leBytes_all (k := 1) hnotify]

/-- R135, check 4: the clerk of the channel serves a basket that has held a line. -/
theorem State.clerkBusy_iff (s : State) (st : Station) : s.clerkBusy st = true ↔
    ∃ c b, s.service.clerkAt st = some c ∧ s.current c = some b ∧ b.lines ≠ [] := by
  unfold State.clerkBusy
  simp only [Option.any_eq_true, Option.bind_eq_some_iff, Bool.not_eq_true', ← Bool.not_eq_true, Basket.isEmpty_iff]
  exact ⟨fun ⟨b, ⟨c, hc, hb⟩, lines⟩ => ⟨c, b, hc, hb, lines⟩, fun ⟨c, b, hc, hb, lines⟩ => ⟨b, ⟨c, hc, hb⟩, lines⟩⟩

/-- R135: the checks 2 to 7, in order. -/
theorem State.runCheck_cases (s : State) (st : Station) (plu : Nat) :
    (s.runs[st].state ≠ .idle → s.runCheck st plu = .error .state) ∧
    (s.runs[st].state = .idle →
      (s.ports[st].state ≠ .present → s.runCheck st plu = .error .state) ∧
      (s.ports[st].state = .present →
        (s.clerkBusy st = true → s.runCheck st plu = .error .state) ∧
        (s.clerkBusy st = false →
          (s.price.lookup s.channels[st].pinned plu = none → s.runCheck st plu = .error .notFound) ∧
          ∀ v, s.price.lookup s.channels[st].pinned plu = some v →
            (v.mode = .byCount → s.runCheck st plu = .error .badArgument) ∧
            (v.mode ≠ .byCount → (s.store.canDraw = false → s.runCheck st plu = .error .storeNotReady) ∧
              (s.store.canDraw = true → s.runCheck st plu = .ok v))))) := by
  unfold State.runCheck
  refine ⟨fun busy => if_pos busy, fun idle => ?_⟩
  rw [if_neg (not_not.2 idle)]
  refine ⟨fun away => if_pos away, fun present => ?_⟩
  rw [if_neg (not_not.2 present)]
  refine ⟨fun serving => if_pos serving, fun free => ?_⟩
  rw [if_neg (by rw [free]; nofun)]
  refine ⟨fun absent => by rw [absent], fun v found => ?_⟩
  rw [found]
  refine ⟨fun count => if_pos count, fun mode => ⟨fun unready => ?_, fun ready => ?_⟩⟩
  · exact (if_neg mode).trans (if_pos unready)
  · exact (if_neg mode).trans (if_neg (by rw [ready]; nofun))

/-- R135, check 1: an argument out of its range. -/
theorem State.startRun_out_of_range {a : RunArgs} (h : a.channel < 1 ∨ 8 < a.channel ∨ a.plu < 1 ∨ 9999 < a.plu ∨ a.count < 1 ∨
    999 < a.count ∨ 1 < a.notify) (s : State) : State.startRun a s = (s, [3]) := by
  unfold State.startRun
  by_cases channel : a.channel = 0 ∨ 8 < a.channel
  · rw [stationOf_none channel]
    rfl
  by_cases flag : 1 < a.notify
  · rw [boolOf_none flag]
    cases stationOf a.channel <;> rfl
  cases stationOf a.channel with
  | none => rfl
  | some st =>
    cases boolOf a.notify with
    | none => rfl
    | some notify => exact if_pos (by omega)

/-- R135: a START_RUN with its arguments in range does what the other checks say. -/
theorem State.startRun_in_range {a : RunArgs} {st : Station} {notify : Bool} (channel : stationOf a.channel = some st)
    (flag : boolOf a.notify = some notify) (plu : 1 ≤ a.plu ∧ a.plu ≤ 9999) (count : 1 ≤ a.count ∧ a.count ≤ 999) (s : State) :
    (∀ status, s.runCheck st a.plu = .error status → State.startRun a s = (s, refusal status)) ∧
    ∀ v, s.runCheck st a.plu = .ok v → State.startRun a s = (s.startRunNow st v a.count notify, okReply (u4 s.nextSerial)) := by
  have range : ¬(a.plu < 1 ∨ 9999 < a.plu ∨ a.count < 1 ∨ 999 < a.count) := by omega
  unfold State.startRun
  rw [channel, flag]
  dsimp only
  rw [if_neg range]
  exact ⟨fun status check => by rw [check], fun v check => by rw [check]⟩

/-- A yes/no value is one of two. -/
theorem boolOf_flag_value {n : Nat} (h : n ≤ 1) : ∃ b, boolOf n = some b := by
  interval_cases n
  · exact ⟨false, rfl⟩
  · exact ⟨true, rfl⟩

/-- R135: a START_RUN that a later check refuses. -/
theorem exec_startRun_refused {s : State} {st : Station} {plu count notify : Nat} {status : Status} {code : Byte}
    (he : Executing s 0x48 (u1 (st.val + 1) ++ u2 plu ++ u2 count ++ u1 notify)) (hplu : 1 ≤ plu ∧ plu ≤ 9999)
    (hcount : 1 ≤ count ∧ count ≤ 999) (hnotify : notify ≤ 1) (check : s.runCheck st plu = .error status)
    (reply : refusal status = [code]) : exec .startRun s = .next (answered s s [code]) := by
  obtain ⟨b, flag⟩ := boolOf_flag_value hnotify
  obtain ⟨refused, -⟩ := State.startRun_in_range (a := { channel := st.val + 1, plu := plu, count := count, notify := notify })
    (stationOf_number st) flag hplu hcount s
  exact State.request_args_eq he (parseRun_bytes (by omega) (by omega) (by omega) (by omega))
    (by rw [refused status check, reply])

/-- R135: no serial can be drawn. -/
theorem Store.canDraw_false {m : Store} (h : m.state ≠ .verified ∨ ∀ n, m.nextSerial = some n → m.highMark < n) :
    m.canDraw = false := by
  rw [← Bool.not_eq_true, Store.canDraw_iff]
  rintro ⟨verified, n, next, below⟩
  rcases h with unverified | spent
  · exact unverified verified
  · exact absurd (spent n next) (Nat.not_lt.2 below)

/-- R135: an accepted START_RUN. -/
theorem exec_startRun_accepted {s : State} {st : Station} {plu count serial : Nat} {notify : Bool} {v : PluVersion}
    (low : 1 ≤ plu) (high : plu ≤ 9999) (few : 1 ≤ count) (many : count ≤ 999) (idle : s.runs[st].state = .idle)
    (present : s.ports[st].state = .present) (free : s.clerkBusy st = false)
    (found : s.price.lookup s.channels[st].pinned plu = some v) (mode : v.mode ≠ .byCount) (verified : s.store.state = .verified)
    (next : s.store.nextSerial = some serial) (below : serial ≤ s.store.highMark)
    (he : Executing s 0x48 (u1 (st.val + 1) ++ u2 plu ++ u2 count ++ [if notify then 1 else 0])) :
    exec .startRun s = .next (answered s (s.startRunNow st v count notify) (0 :: u4 serial)) := by
  have flag : [if notify then 1 else 0] = u1 (if notify then 1 else 0) := by cases notify <;> rfl
  have parsed := parseRun_bytes (channel := st.val + 1) (plu := plu) (count := count) (notify := if notify then 1 else 0)
    (by omega) (by omega) (by omega) (by split <;> omega)
  obtain ⟨-, checks⟩ := s.runCheck_cases st plu
  obtain ⟨-, checks⟩ := checks idle
  obtain ⟨-, checks⟩ := checks present
  obtain ⟨-, checks⟩ := checks free
  obtain ⟨-, passes⟩ := checks v found
  have passed := (passes mode).2 ((Store.canDraw_iff _).2 ⟨verified, serial, next, below⟩)
  obtain ⟨-, started⟩ := State.startRun_in_range
    (a := { channel := st.val + 1, plu := plu, count := count, notify := if notify then 1 else 0 }) (stationOf_number st)
    (notify := notify) (by cases notify <;> rfl) ⟨low, high⟩ ⟨few, many⟩ s
  have serial_next : s.nextSerial = serial := by
    unfold State.nextSerial
    rw [next]
    rfl
  rw [flag] at he
  refine State.request_args_eq he parsed ((started v passed).trans ?_)
  rw [serial_next]
  rfl

/-! ## ABORT_RUN, CLEAR_RUN and CLEAR (R140, R142) -/

/-- R140: ABORT_RUN, by its checks. -/
theorem State.abortRun_cases (s : State) :
    (∀ n, n = 0 ∨ 8 < n → State.abortRun n s = (s, [3])) ∧
    ∀ st : Station,
      (s.runs[st].state = .active → State.abortRun (BitVec.ofNat 8 (st.val + 1)).toNat s =
        (s.endRun st .aborted, 0 :: u2 s.runs[st].issued)) ∧
      (s.runs[st].state ≠ .active → State.abortRun (BitVec.ofNat 8 (st.val + 1)).toNat s = (s, [7])) := by
  unfold State.abortRun
  refine ⟨fun n none => by rw [stationOf_none none]; rfl, fun st => ?_⟩
  rw [stationOf_byte]
  exact ⟨fun active => if_pos active, fun idle => if_neg idle⟩

/-- R142: CLEAR_RUN, by its checks. -/
theorem State.clearRun_cases (s : State) :
    (∀ n, n = 0 ∨ 8 < n → State.clearRun n s = (s, [3])) ∧
    ∀ st : Station,
      (s.runs[st].state = .doneHeld → State.clearRun (BitVec.ofNat 8 (st.val + 1)).toNat s =
        ({ s with runs := modAt s.runs st fun r => { r with state := .idle } }, [0])) ∧
      (s.runs[st].state ≠ .doneHeld → State.clearRun (BitVec.ofNat 8 (st.val + 1)).toNat s = (s, [7])) := by
  unfold State.clearRun
  refine ⟨fun n none => by rw [stationOf_none none]; rfl, fun st => ?_⟩
  rw [stationOf_byte]
  exact ⟨fun held => if_pos held, fun other => if_neg other⟩

/-- R37, R142: CLEAR releases a run in DONE_HELD. -/
theorem exec_clear_doneHeld {s : State} {st : Station} (hk : KeyTaken s st) (held : s.runs[st].state = .doneHeld) :
    ∃ t : State, exec (.clear st) s = .next t ∧ t.runs = modAt s.runs st (fun r => { r with state := .idle }) ∧
      t.channels[st].selection = none ∧ t.totals = s.totals := by
  have unheld : s.runs[st].holds = false := Run.not_holds (by rw [held]; nofun) (by rw [held]; nofun)
  obtain ⟨-, released⟩ := State.clearKey_run_state (s := accepted s st) unheld
  refine ⟨_, State.takeKey_accepted hk (released held), rfl, ?_⟩
  show (if _ then _ else _ : State).channels[st].selection = none ∧ (if _ then _ else _ : State).totals = _
  split
  · next none => exact ⟨none, rfl⟩
  · obtain ⟨⟨cleared, -⟩, -⟩ := (accepted s st).clearSelection_left st
    obtain ⟨-, -, -, totals, -⟩ := (accepted s st).clearSelection_spec st
    exact ⟨by rw [cleared], totals⟩

/-! ## The end of a run (R140, R141) -/

/-- R140: the commit of a run that has a version. -/
theorem Run.commit_version {r : Run} {v : PluVersion} (h : r.version = some v) (st : Station) : r.commit st =
    { kind := .prepack, serial := r.serial.getD 0, clerk := none, channel := st, endedAt := r.endedAt,
      content := .pack v.number v.department v.mode r.issued r.weightSum r.valueSum, applyNumber := none } := by
  unfold Run.commit
  rw [h]

/-- R140: an end without a label issued, or with room for its commit, is complete. -/
theorem State.endRun_complete {s : State} {st : Station} (active : s.runs[st].state = .active) (reason : EndReason)
    (complete : s.runs[st].issued = 0 ∨ (s.totals.commits.length < 8 ∧ s.totals.closing = none)) :
    ((s.endRun st reason).runs[st] = { s.runs[st] with
        state := if s.runs[st].notify then .doneHeld else .idle, endReason := some reason, endedAt := s.link.clock,
        waitingRoom := false } ∧
      (s.endRun st reason).channels[st].selection = none ∧
      ((reason = .count ∧ s.runs[st].notify = false →
          (s.endRun st reason).link.flags[(Flag.prepackDone st).entry] = s.link.flags[(Flag.prepackDone st).entry]) ∧
        (¬(reason = .count ∧ s.runs[st].notify = false) →
          ((s.endRun st reason).link.flags[(Flag.prepackDone st).entry]).pending = true))) ∧
    (s.runs[st].issued = 0 → (s.endRun st reason).totals = s.totals) ∧
    (s.runs[st].issued ≠ 0 → (s.endRun st reason).totals = { s.totals with commits := s.totals.commits ++
      [({ s.runs[st] with endedAt := s.link.clock } : Run).commit st] }) := by
  obtain ⟨-, ended, -⟩ := s.endRun_spec st reason
  obtain ⟨run, totals, flag⟩ := ended.2 active
  obtain ⟨left, -⟩ := State.endRun_left_selection active reason
  obtain ⟨selection, silent⟩ := left (complete.imp_right s.commitRoom_iff.2)
  refine ⟨⟨by rw [run, if_pos complete], selection, fun h => silent h.1 h.2, flag complete⟩, fun none => ?_, fun some => ?_⟩
  · rw [totals, if_neg fun h => h.1 none]
  · rw [totals, if_pos ⟨some, complete.resolve_left some⟩]
    rfl

/-- R141: an end with labels issued and no room for its commit waits in ENDING. -/
theorem State.endRun_waits {s : State} {st : Station} (active : s.runs[st].state = .active) (reason : EndReason)
    (issued : s.runs[st].issued ≠ 0) (full : 8 ≤ s.totals.commits.length ∨ s.totals.closing.isSome = true) :
    (s.endRun st reason).runs[st] = { s.runs[st] with
      state := .ending, endReason := some reason, endedAt := s.link.clock, waitingRoom := false } ∧
    (s.endRun st reason).totals = s.totals ∧ (s.endRun st reason).channels[st] = s.channels[st] := by
  obtain ⟨-, ended, -⟩ := s.endRun_spec st reason
  obtain ⟨run, totals, -⟩ := ended.2 active
  obtain ⟨-, left⟩ := State.endRun_left_selection active reason
  have noRoom := State.commitRoom_false full
  have roomless : ¬(s.totals.commits.length < 8 ∧ s.totals.closing = none) := fun room => by
    rw [s.commitRoom_iff.2 room] at noRoom
    cases noRoom
  refine ⟨?_, ?_, left issued noRoom⟩
  · rw [run, if_neg (not_or.2 ⟨issued, roomless⟩)]
  · rw [totals, if_neg fun h => roomless h.2]

/-- R141: an offer that finds room completes the end. -/
theorem State.offer_spec {s : State} {st : Station} {v : PluVersion} (ending : s.runs[st].state = .ending)
    (version : s.runs[st].version = some v) (room : s.totals.commits.length < 8 ∧ s.totals.closing = none) :
    (s.offer st).runs[st] = { s.runs[st] with state := if s.runs[st].notify then .doneHeld else .idle } ∧
    (s.offer st).channels[st].selection = none ∧
    ((s.runs[st].endReason = some .count ∧ s.runs[st].notify = false) ∨
      ((s.offer st).link.flags[(Flag.prepackDone st).entry]).pending = true) ∧
    (s.offer st).totals = { s.totals with commits := s.totals.commits ++
      [{ kind := .prepack, serial := s.runs[st].serial.getD 0, clerk := none, channel := st, endedAt := s.runs[st].endedAt,
         content := .pack v.number v.department v.mode s.runs[st].issued s.runs[st].weightSum s.runs[st].valueSum,
         applyNumber := none }] } := by
  obtain ⟨-, run, totals, -, -, -, flag⟩ := (s.pushCommit (s.runs[st].commit st)).completeEnd_spec st
  obtain ⟨selection, -⟩ := (s.pushCommit (s.runs[st].commit st)).completeEnd_left st
  rw [State.offer_room ending (s.commitRoom_iff.2 room), ← Run.commit_version version st]
  refine ⟨run, selection, ?_, totals⟩
  by_cases silent : s.runs[st].silent = true
  · exact .inl (by simpa [Run.silent] using silent)
  · exact .inr (flag (Bool.eq_false_iff.2 silent))

/-! ## The labels of a run (R117, R137, R138) -/

/-- R76: the markdown shown on a prepack label. -/
theorem markdownShown_prepack (v : PluVersion) (w : Int) : markdownShown v w none = decide (0 < markdownAmount
    (match v.mode with
      | .byWeight => basePriceByWeight w.toNat v.unitPrice
      | .byCount => 0
      | .fixed => v.unitPrice) v.markdown) := by
  unfold markdownShown basePrice
  cases v.mode
  · rfl
  · rw [Option.getD_none, Nat.zero_mul]
  · rfl

section

variable {s : State} {st : Station} {v : PluVersion} {w : Weighing} {price : Nat}

/-- The displayed weight of the last weighing. -/
theorem Channel.shownWeight_some {c : Channel} (last : c.last = some w) : c.shownWeight = w.weight := by
  unfold Channel.shownWeight
  rw [last]
  rfl

/-- R119: the label of a trigger stands in the queue, begun or not. -/
theorem State.trigger_job (s : State) (st : Station) (v : PluVersion) (price : Nat) :
    ∃ j ∈ (s.trigger st v price).labels.queue, j.number = s.labels.nextJob ∧ j.cls = .prepack ∧
      j.preferred = s.channels[st].config.boundPrinter ∧ j.fallback = s.channels[st].config.fallback ∧
      j.link = .prepack (s.runs[st].serial.getD 0) ∧ j.content = s.packContent st v price := by
  obtain ⟨-, -, labels⟩ := s.trigger_spec st v price
  obtain ⟨j, stands, made⟩ := s.takeJob_mem (s.packJob st v price)
  rw [labels]
  refine ⟨j, stands, ?_⟩
  rw [made]
  exact ⟨rfl, rfl, rfl, rfl, rfl, rfl⟩

/-- R137: a trigger that is not the run's last. -/
theorem State.trigger_more (last : s.channels[st].last = some w) (more : 1 < s.runs[st].remaining) :
    (s.trigger st v price).runs[st] = { s.runs[st] with
      remaining := s.runs[st].remaining - 1, issued := s.runs[st].issued + 1, valueSum := s.runs[st].valueSum + price,
      weightSum := if v.mode = .byWeight then s.runs[st].weightSum + 10 * w.weight else s.runs[st].weightSum,
      waitingRoom := false, jobs := s.runs[st].jobs ++ [s.labels.nextJob] } ∧
    (s.trigger st v price).channels[st] = { s.channels[st] with armed := false } := by
  obtain ⟨run, channel, -⟩ := s.counted_spec st v price
  rw [Channel.shownWeight_some last] at run
  have goesOn : (s.counted st v price).runs[st].remaining ≠ 0 := by
    rw [run]
    exact Nat.sub_ne_zero_of_lt more
  rw [State.trigger_eq, if_neg goesOn, run, channel]
  refine ⟨?_, rfl⟩
  unfold Run.count
  simp only [beq_iff_eq]

/-- R137, R140: the run with its last label counted, and the end COUNT. -/
def State.lastLabel (s : State) (st : Station) (v : PluVersion) (w : Weighing) (price : Nat) : Run :=
  { s.runs[st] with
    remaining := 0, issued := s.runs[st].issued + 1, valueSum := s.runs[st].valueSum + price,
    weightSum := if v.mode = .byWeight then s.runs[st].weightSum + 10 * w.weight else s.runs[st].weightSum,
    waitingRoom := false, jobs := s.runs[st].jobs ++ [s.labels.nextJob], endReason := some .count, endedAt := s.link.clock }

/-- R137, R140, R141: the run's last trigger ends it with COUNT. -/
theorem State.trigger_last (active : s.runs[st].state = .active) (version : s.runs[st].version = some v)
    (last : s.channels[st].last = some w) (one : s.runs[st].remaining = 1) :
    let t := s.trigger st v price
    let run := s.lastLabel st v w price
    (s.totals.commits.length < 8 → s.totals.closing = none →
      t.runs[st] = { run with state := if run.notify then .doneHeld else .idle } ∧
      t.channels[st].selection = none ∧ t.channels[st].armed = false ∧
      (run.notify = false → (t.link.flags[(Flag.prepackDone st).entry]) = s.link.flags[(Flag.prepackDone st).entry]) ∧
      (run.notify = true → (t.link.flags[(Flag.prepackDone st).entry]).pending = true) ∧
      t.totals = { s.totals with commits := s.totals.commits ++
        [{ kind := .prepack, serial := run.serial.getD 0, clerk := none, channel := st, endedAt := s.link.clock,
           content := .pack v.number v.department v.mode run.issued run.weightSum run.valueSum, applyNumber := none }] }) ∧
    ((8 ≤ s.totals.commits.length ∨ s.totals.closing.isSome = true) →
      t.runs[st] = { run with state := .ending } ∧ t.channels[st] = { s.channels[st] with armed := false } ∧
      t.totals = s.totals) := by
  intro t run
  have armed : t.channels[st].armed = false := by
    obtain ⟨-, armed, -⟩ := s.trigger_spec st v price
    exact armed
  obtain ⟨counted, channel, totals, link, -⟩ := s.counted_spec st v price
  have ends : (s.counted st v price).runs[st].remaining = 0 := by
    rw [counted]
    show s.runs[st].remaining - 1 = 0
    rw [one]
  have ended : t = (s.counted st v price).endRun st .count := (s.trigger_eq st v price).trans (if_pos ends)
  have counters : { (s.counted st v price).runs[st] with
      endReason := some .count, endedAt := (s.counted st v price).link.clock, waitingRoom := false } = run := by
    rw [counted, link, Channel.shownWeight_some last]
    show Run.mk .. = Run.mk ..
    simp only [Run.count, beq_iff_eq, one]
  have issued : (s.counted st v price).runs[st].issued ≠ 0 := by rw [counted]; exact Nat.succ_ne_zero _
  have active : (s.counted st v price).runs[st].state = .active := by rw [counted]; exact active
  have version : (s.counted st v price).runs[st].version = some v := by rw [counted]; exact version
  generalize s.counted st v price = u at *
  clear_value t run
  subst ended counters
  rw [← totals]
  refine ⟨fun room opened => ?_, fun full => ?_⟩
  · obtain ⟨⟨complete, selection, silent, raised⟩, -, handed⟩ := State.endRun_complete active .count (.inr ⟨room, opened⟩)
    refine ⟨complete, selection, armed, fun quiet => ?_, fun notify => raised fun h => ?_, ?_⟩
    · rw [silent ⟨rfl, quiet⟩, link]
    · exact absurd (notify.symm.trans h.2) nofun
    · rw [handed issued, Run.commit_version (r := { u.runs[st] with endedAt := u.link.clock }) version st, link]
  · obtain ⟨waits, kept, same⟩ := State.endRun_waits active .count issued full
    exact ⟨waits, same.trans channel, kept⟩

end

end Sys2Proof.Machine
end

section
/-! Prepack runs (R135 to R142). -/

namespace Sys2Proof.Machine

/-- R136: the conditions 1 to 5, each by itself. -/
theorem State.triggerPrice_isSome {s : State} {st : Station} : (s.triggerPrice st).isSome ↔
    s.runs[st].state = .active ∧ s.channels[st].state = .stable ∧ s.channels[st].armed = true ∧
    (∃ w, s.channels[st].last = some w ∧ ((200 * s.channels[st].e1 : Nat) : Int) ≤ w.net) ∧
    (∃ price, s.channels[st].outcome = .priced price) ∧
    ∃ v, s.runs[st].version = some v ∧ (v.shelfLife = none ∨ s.link.clock ≠ none) := by
  rw [Option.isSome_iff_exists, Prod.exists]
  simp only [State.triggerPrice_eq_some, Channel.stableLoad_iff, (s.clockUnset_iff _).2]
  constructor
  · rintro ⟨v, price, active, version, outcome, ⟨stable, load⟩, armed, clock⟩
    exact ⟨active, stable, armed, load, ⟨price, outcome⟩, v, version, clock⟩
  · rintro ⟨active, stable, armed, load, ⟨price, outcome⟩, v, version, clock⟩
    exact ⟨v, price, active, version, outcome, ⟨stable, load⟩, armed, clock⟩

/-- R136: with one condition of an ACTIVE run failing there is no trigger. -/
theorem State.triggerPrice_fails {s : State} {st : Station} {v : PluVersion} (version : s.runs[st].version = some v)
    (fails : (∀ price, s.channels[st].outcome ≠ .priced price) ∨ s.channels[st].state ≠ .stable ∨
      (∀ w, s.channels[st].last = some w → w.net < ((200 * s.channels[st].e1 : Nat) : Int)) ∨ s.channels[st].armed = false ∨
      (v.shelfLife.isSome = true ∧ s.link.clock = none)) : s.triggerPrice st = none := by
  rw [← Option.not_isSome_iff_eq_none, State.triggerPrice_isSome]
  rintro ⟨-, stable, armed, ⟨w, last, load⟩, ⟨price, outcome⟩, v', version', clock⟩
  obtain rfl := Option.some.inj (version'.symm.trans version)
  rcases fails with unpriced | moving | light | disarmed | ⟨life, unset⟩
  · exact unpriced price outcome
  · exact moving stable
  · exact absurd load (Int.not_le.2 (light w last))
  · rw [armed] at disarmed
    cases disarmed
  · rcases clock with none | set
    · rw [none] at life
      cases life
    · exact set unset

/-- R138: an examination whose conditions fail ends a wait for room and its message, and nothing else. -/
theorem State.examine_fails_spec {s : State} {st : Station} (active : s.runs[st].state = .active) (fails : s.triggerPrice st = none) :
    (s.examine st).runs[st] = { s.runs[st] with waitingRoom := false } ∧
    s.examine st = { s with ports := (s.examine st).ports, runs := (s.examine st).runs } ∧
    ∀ x : Station, x ≠ st → (s.examine st).ports[x] = s.ports[x] ∧ (s.examine st).runs[x] = s.runs[x] := by
  obtain ⟨m, waits⟩ := s.stopWaiting_eq st
  rw [State.examine_fails active fails, waits]
  exact ⟨modAt_same _ _ _, rfl, fun x other => ⟨modAt_other _ _ _ _ other, modAt_other _ _ _ _ other⟩⟩

/-- Settles O52: the requests by their checks; an examination is a trigger, a wait for room or the end of one; in an examination of every
run, and in the offers of all, each station has its turn once. -/
theorem prepackRunsStartTriggerAndEnd : Obligations.PrepackRunsStartTriggerAndEnd := by
  unfold Obligations.PrepackRunsStartTriggerAndEnd
  refine ⟨fun s st plu count serial notify v low high few many idle present free found mode verified next below he => ?_,
    fun s channel plu count notify hchannel hplu hcount hnotify he => ?_, fun s st he => ?_, fun s n none => ?_, fun s st he => ?_,
    fun s st => exec_clear_doneHeld, fun s st v w price active version outcome stable last load armed clock => ?_,
    fun s st v active version fails => State.examine_fails_spec active (State.triggerPrice_fails version fails),
    fun s st => State.examine_not_active, fun s st => rfl, fun s => ?_, fun s old => rfl, fun s => ?_,
    fun s st v ending version => ?_, fun s st reason active => ?_⟩
  · rw [exec_startRun_accepted low high few many idle present free found mode verified next below he]
    unfold State.startRunNow State.nextSerial
    rw [next]
    rfl
  · intro refused
    refine ⟨fun range => State.request_args_eq he (parseRun_bytes hchannel hplu hcount hnotify) (State.startRun_out_of_range range s),
      fun st number low high few many flag => ?_⟩
    intro serving
    subst number
    have check : ∀ {status : Status} {code : Byte}, s.runCheck st plu = .error status → refusal status = [code] → refused code :=
      exec_startRun_refused he ⟨low, high⟩ ⟨few, many⟩ flag
    obtain ⟨running, checks⟩ := s.runCheck_cases st plu
    refine ⟨fun h => check (running h) rfl, fun idle => ?_⟩
    obtain ⟨away, checks⟩ := checks idle
    refine ⟨fun h => check (away h) rfl, fun present => ?_⟩
    obtain ⟨busy, checks⟩ := checks present
    refine ⟨fun h => check (busy ((s.clerkBusy_iff st).2 h)) rfl, fun free => ?_⟩
    obtain ⟨absent, checks⟩ := checks (Bool.eq_false_iff.2 (mt (s.clerkBusy_iff st).1 free))
    refine ⟨fun h => check (absent h) rfl, fun v found => ?_⟩
    obtain ⟨byCount, checks⟩ := checks v found
    exact ⟨fun h => check (byCount h) rfl, fun mode unready => check ((checks mode).1 (Store.canDraw_false unready)) rfl⟩
  · obtain ⟨-, cases⟩ := s.abortRun_cases
    obtain ⟨active, other⟩ := cases st
    exact ⟨fun h => State.request_args_eq he (parseNumber1_byte _) (active h),
      fun h => State.request_args_eq he (parseNumber1_byte _) (other h)⟩
  · have outside : n.toNat = 0 ∨ 8 < n.toNat := none.imp_left fun zero => by rw [zero]; rfl
    obtain ⟨abort, -⟩ := s.abortRun_cases
    obtain ⟨clear, -⟩ := s.clearRun_cases
    exact ⟨fun he => State.request_args_eq he (parseNumber1_byte n) (abort _ outside),
      fun he => State.request_args_eq he (parseNumber1_byte n) (clear _ outside)⟩
  · obtain ⟨-, cases⟩ := s.clearRun_cases
    obtain ⟨held, other⟩ := cases st
    exact ⟨fun h => State.request_args_eq he (parseNumber1_byte _) (held h),
      fun h => State.request_args_eq he (parseNumber1_byte _) (other h)⟩
  · have wants : s.triggerPrice st = some (v, price) := State.triggerPrice_eq_some.2
      ⟨active, version, outcome, (Channel.stableLoad_iff _).2 ⟨stable, w, last, load⟩, armed, (s.clockUnset_iff v).2.2 clock⟩
    refine ⟨fun room => ?_, State.examine_full_spec wants, fun room more => ?_, fun room one => ?_⟩
    · rw [State.examine_room wants room]
      obtain ⟨j, stands, number, cls, preferred, fallback, link, content⟩ := s.trigger_job st v price
      refine ⟨j, stands, number, cls, preferred, fallback, link, ?_⟩
      rw [content]
      unfold State.packContent
      rw [Channel.shownWeight_some last]
      dsimp only
      rw [markdownShown_prepack, State.useByDate_eq]
      rfl
    · obtain ⟨run, channel⟩ := State.trigger_more (v := v) (price := price) last more
      obtain ⟨-, -, labels⟩ := s.trigger_spec st v price
      rw [State.examine_room wants room, labels, State.takeJob_length]
      exact ⟨run, channel, rfl⟩
    · obtain ⟨-, -, labels⟩ := s.trigger_spec st v price
      rw [State.examine_room wants room]
      refine ⟨?_, State.trigger_last active version last one⟩
      rw [labels, State.takeJob_length]
  · intro wants t
    have conditions : ∀ st, (s.triggerPrice st).isSome ↔ wants st := fun st => State.triggerPrice_isSome
    obtain ⟨order, drawn, perm, first, few, examined⟩ := s.examineAll_order
    refine ⟨⟨order, drawn, perm, first.imp fun wanted h => (conditions _).1 (wanted ((conditions _).2 h)), few, examined⟩, fun st => ?_⟩
    obtain ⟨idle, fails, triggers⟩ := s.examineAll_run st
    exact ⟨idle, fun active none => fails active (Option.not_isSome_iff_eq_none.1 (mt (conditions st).1 none)),
      fun h => triggers ((conditions st).2 h)⟩
  · exact ⟨s.offerAll_order, s.offerAll_run⟩
  · exact ⟨fun full => State.offer_full (State.commitRoom_false full), fun room opened => State.offer_spec ending version ⟨room, opened⟩⟩
  · have complete := State.endRun_complete active reason
    refine ⟨fun none => ?_, fun issued room opened => ?_, State.endRun_waits active reason⟩
    · obtain ⟨ended, same, -⟩ := complete (.inl none)
      exact ⟨ended, same none⟩
    · obtain ⟨ended, -, handed⟩ := complete (.inr ⟨room, opened⟩)
      exact ⟨ended, handed issued⟩

end Sys2Proof.Machine
end

section
/-! SUPPORT. What follows a printer event (R127, R136): the arbiters and the examinations, and what they leave. -/

namespace Sys2Proof.Machine

/-! ## What a printer event keeps -/

/-- What a printer event and what follows it never change: the command queue, the power, clerks and tickets, the queue port and the
store. -/
def PrinterKept (s t : State) : Prop :=
  t = { s with freeCount := t.freeCount, ports := t.ports, headLines := t.headLines, channels := t.channels, price := t.price,
               pool := t.pool, labels := t.labels, printers := t.printers, runs := t.runs, totals := t.totals, link := t.link }

/-- An operation known to write only those parts. -/
theorem PrinterKept.of_eq {s t : State} {freeCount : Nat} {ports : Vector Port 8} {headLines : Vector HeadLine 8}
    {channels : Vector Channel 8} {price : PriceTable} {pool : Pool} {labels : LabelUnit} {printers : Vector PrinterPort 2}
    {runs : Vector Run 8} {totals : Totals} {link : HostLink}
    (h : t = { s with freeCount := freeCount, ports := ports, headLines := headLines, channels := channels, price := price,
                      pool := pool, labels := labels, printers := printers, runs := runs, totals := totals, link := link }) :
    PrinterKept s t := by
  subst h
  rfl

/-- One such operation after another. -/
theorem PrinterKept.trans {s t u : State} (h : PrinterKept s t) (g : PrinterKept t u) : PrinterKept s u := by
  unfold PrinterKept at *
  rw [g, h]

/-- A change of one printer port. -/
theorem PrinterKept.onPrinter (s : State) (p : Printer) (f : PrinterPort → PrinterPort) : PrinterKept s (s.onPrinter p f) := rfl

/-- R176: a flag raised. -/
theorem PrinterKept.raise (s : State) (f : Flag) (body : List Byte) : PrinterKept s (s.raise f body) := rfl

/-! ## A port that takes no job (R127, R136) -/

/-- A port that is not READY stays as it is, and every pending flag stays pending. -/
structure PortStays (p : Printer) (s t : State) : Prop where
  port : s.printers[p].state ≠ .ready → t.printers[p] = s.printers[p]
  pending : ∀ n : Fin 50, (s.link.flags[n]).pending = true → (t.link.flags[n]).pending = true

/-- The printers and the flags did not change. -/
theorem PortStays.of_same {p : Printer} {s t : State} (printers : t.printers = s.printers) (link : t.link = s.link) : PortStays p s t :=
  ⟨fun _ => by rw [printers], fun n h => by rw [link]; exact h⟩

/-- One such operation after another. -/
theorem PortStays.trans {p : Printer} {s t u : State} (h : PortStays p s t) (g : PortStays p t u) : PortStays p s u :=
  ⟨fun other => (g.port (by rw [h.port other]; exact other)).trans (h.port other), fun n set => g.pending n (h.pending n set)⟩

/-- An operation at one station. -/
theorem StationStep.portStays {s t : State} {st : Station} (h : StationStep s t st) (p : Printer) : PortStays p s t :=
  ⟨fun _ => by rw [h.parts], fun _ => h.pending⟩

/-- R127: the choices of the arbiters. -/
theorem State.arbitrate_portStays (s : State) (p : Printer) : PortStays p s s.arbitrate := by
  refine ⟨fun other => ?_, fun n set => by rw [s.arbitrate_eq]; exact set⟩
  obtain ⟨chosen, left⟩ := State.arbitrate_not_ready other
  by_cases chooses : ∃ j, s.Chooses (otherPrinter p) j
  · obtain ⟨j, hj⟩ := chooses
    rw [chosen j hj]
    exact State.startJob_other (otherPrinter_ne p).symm j
  · rw [left (not_exists.1 chooses)]

/-- R137: a trigger. -/
theorem State.trigger_portStays (s : State) (st : Station) (v : PluVersion) (price : Nat) (p : Printer) :
    PortStays p s (s.trigger st v price) := by
  have taken : PortStays p s (s.takeJob (s.packJob st v price)) :=
    PortStays.trans (t := s.onLabels (·.takeIn (s.packJob st v price))) (.of_same rfl rfl) (State.arbitrate_portStays _ p)
  have counted : PortStays p s (s.counted st v price) := by
    unfold State.counted
    generalize s.takeJob (s.packJob st v price) = t at taken ⊢
    generalize hu : (t.onChannel st _).onRun st _ = u
    have marked : PortStays p t u := by
      rw [← hu]
      exact .of_same rfl rfl
    obtain ⟨waited, -⟩ := u.stopWaiting_spec st
    exact (taken.trans marked).trans (waited.portStays p)
  rw [State.trigger_eq]
  split
  · obtain ⟨ended, -⟩ := (s.counted st v price).endRun_spec st .count
    exact counted.trans (ended.portStays p)
  · exact counted

/-- R136: an examination. -/
theorem State.examine_portStays (s : State) (st : Station) (p : Printer) : PortStays p s (s.examine st) := by
  unfold State.examine
  split
  · split
    · obtain ⟨waited, -⟩ := s.stopWaiting_spec st
      exact waited.portStays p
    · split
      · exact s.trigger_portStays st _ _ p
      · exact .of_same rfl rfl
  · exact .of_same rfl rfl

/-- R136: examinations at the stations of a list. -/
theorem State.foldl_examine_portStays (p : Printer) : ∀ (order : List Station) (s : State),
    PortStays p s (order.foldl State.examine s)
  | [], _ => .of_same rfl rfl
  | st :: order, s => (s.examine_portStays st p).trans (State.foldl_examine_portStays p order _)

/-- R120, R136: the examinations that departures call for. -/
theorem State.afterDepartures_portStays (s old : State) (p : Printer) : PortStays p s (s.afterDepartures old) := by
  unfold State.afterDepartures
  split
  · obtain ⟨order, drawn, -, -, -, examined⟩ := s.examineAll_order
    rw [examined]
    exact PortStays.trans (t := { s with freeCount := s.freeCount + drawn }) (.of_same rfl rfl)
      (State.foldl_examine_portStays p order _)
  · exact .of_same rfl rfl

/-! ## A port that may take a job (R127) -/

/-- R127: the port stays as it is, or takes a job that was QUEUED; the jobs still QUEUED were so before. -/
structure PortChooses (p : Printer) (s t : State) : Prop where
  port : t.printers[p] = s.printers[p] ∨ (t.printers[p].state = .busyPrinting ∧ t.printers[p].phase = some .starting ∧
    t.printers[p].condition = s.printers[p].condition ∧ t.printers[p].frameTimer = s.printers[p].frameTimer ∧
    ∃ j ∈ s.labels.queue, j.state = .queued ∧ t.printers[p].inHand = some j.number)
  queued : ∀ x ∈ t.labels.queue, x.state = .queued → x ∈ s.labels.queue

/-- One choice after another. -/
theorem PortChooses.trans {p : Printer} {s t u : State} (h : PortChooses p s t) (g : PortChooses p t u) : PortChooses p s u := by
  refine ⟨?_, fun x hx state => h.queued x (g.queued x hx state) state⟩
  rcases g.port with same | ⟨state, phase, condition, timer, j, stands, queued, inHand⟩
  · rw [same]
    exact h.port
  · refine .inr ⟨state, phase, ?_, ?_, j, h.queued j stands queued, queued, inHand⟩
    · rcases h.port with same | ⟨-, -, kept, -⟩
      · rw [condition, same]
      · rw [condition, kept]
    · rcases h.port with same | ⟨-, -, -, kept, -⟩
      · rw [timer, same]
      · rw [timer, kept]

/-- R128: LABEL_BEGIN leaves the phase STARTING. -/
theorem PrinterPort.pump_labelBegin {q : PrinterPort} {number format : Nat} {cls : LabelClass} {rest : List PrinterFrame} (p : Printer)
    (first : q.toSend = .labelBegin number format cls :: rest) : (PrinterPort.pump p q).phase = q.phase := by
  have unchanged : (if (PrinterFrame.labelBegin number format cls).isField ∧ q.phase = some .starting then some .sending else q.phase) =
      q.phase := if_neg fun ⟨field, _⟩ => nomatch field
  unfold PrinterPort.pump
  rw [first]
  split
  · rfl
  · split
    · rfl
    · exact unchanged

/-- R127: a printer takes a QUEUED job. -/
theorem State.startJob_portChooses {s : State} {j : Job} (stands : j ∈ s.labels.queue) (queued : j.state = .queued) (p q : Printer) :
    PortChooses p s (s.startJob q j) := by
  refine ⟨?_, fun x hx state => ?_⟩
  · by_cases own : q = p
    · subst own
      refine .inr ?_
      have port : (s.startJob q j).printers[q] = PrinterPort.pump q { s.printers[q] with
          state := .busyPrinting, inHand := some j.number, phase := some .starting,
          toSend := ({ j with state := .printing q, attempts := j.attempts + 1 } : Job).frames } := modAt_same _ _ _
      obtain ⟨state, -, -, condition, inHand, timer, -⟩ := PrinterPort.pump_fields q { s.printers[q] with
          state := .busyPrinting, inHand := some j.number, phase := some .starting,
          toSend := ({ j with state := .printing q, attempts := j.attempts + 1 } : Job).frames }
      rw [port]
      exact ⟨state, PrinterPort.pump_labelBegin q rfl, condition, timer, j, stands, queued, inHand⟩
    · exact .inl (State.startJob_other (Ne.symm own) j)
  · obtain ⟨y, hy, rfl⟩ := List.mem_map.1 hx
    dsimp only at state ⊢
    split at state
    · cases state
    · next other =>
      rw [if_neg other]
      exact hy

/-- R127: one choice of the arbiters. -/
theorem State.chooseOnce_portChooses (s : State) (p : Printer) : PortChooses p s s.chooseOnce := by
  obtain ⟨-, drawn, -, same⟩ := s.inOpenOrder_spec printerNumber s.choosers
  have drew : PortChooses p s { s with freeCount := s.freeCount + drawn } := ⟨.inl rfl, fun _ hx _ => hx⟩
  unfold State.chooseOnce
  generalize s.inOpenOrder printerNumber s.choosers = x at same ⊢
  obtain ⟨t, _ | ⟨q, ps⟩⟩ := x
  · obtain rfl : t = _ := same
    exact drew
  · obtain rfl : t = _ := same
    dsimp only
    split
    · exact drew
    · next j first =>
      obtain ⟨queued, -⟩ := State.eligible_iff.1 (List.find?_some first)
      exact drew.trans (State.startJob_portChooses (List.mem_of_find?_eq_some first) queued p q)

/-- R127: the choices of the arbiters. -/
theorem State.arbitrate_portChooses (s : State) (p : Printer) : PortChooses p s s.arbitrate :=
  (s.chooseOnce_portChooses p).trans (s.chooseOnce.chooseOnce_portChooses p)

/-! ## An event settled -/

/-- What a printer event at `s` whose own effect is `u` leaves: the arbiters have chosen, the room of departed jobs was offered, and free
lines have begun their next frames. -/
def State.settle (s u : State) : State := (u.afterPrinter s).finish s

/-- What follows the event's own effect keeps. -/
theorem State.settle_kept {s u : State} (h : PrinterKept s u) : PrinterKept s (s.settle u) := by
  have chosen : PrinterKept u u.arbitrate := .of_eq u.arbitrate_eq
  have examined : PrinterKept u.arbitrate (u.afterPrinter s) := .of_eq (u.arbitrate.afterDepartures_examined s).parts
  have begun : PrinterKept (u.afterPrinter s) (s.settle u) := .of_eq (State.finish_parts _ _)
  exact ((h.trans chosen).trans examined).trans begun

/-- What follows the event's own effect leaves of a port that is not READY, and of pending flags. -/
theorem State.settle_portStays (s u : State) (p : Printer) : PortStays p u (s.settle u) := by
  have begun : PortStays p (u.afterPrinter s) (s.settle u) :=
    ⟨fun _ => rfl, fun n set => by
      obtain ⟨-, -, -, -, -, -, -, -, -, -, -, -, -, -, flags, -⟩ := (u.afterPrinter s).finish_fields s
      show (((u.afterPrinter s).finish s).link.flags[n]).pending = true
      rw [flags]
      exact set⟩
  exact ((u.arbitrate_portStays p).trans (u.arbitrate.afterDepartures_portStays s p)).trans begun

/-- R127: an event that takes no job from the queue leaves the port as it is, or it takes a job that was QUEUED. -/
theorem State.settle_portChooses {s u : State} (labels : u.labels = s.labels) (p : Printer) : PortChooses p u (s.settle u) := by
  have length := congrArg List.length u.arbitrate_numbers
  rw [List.length_map, List.length_map, labels] at length
  have same : u.afterPrinter s = u.arbitrate := State.afterDepartures_none (by omega)
  have begun : PortChooses p u.arbitrate (u.arbitrate.finish s) := by
    refine ⟨.inl ?_, fun x hx _ => ?_⟩
    · simp only [State.finish_fields]
    · simpa only [State.finish_fields] using hx
  unfold State.settle
  rw [same]
  exact (u.arbitrate_portChooses p).trans begun

end Sys2Proof.Machine
end

section
/-! SUPPORT. What each printer event does by itself (R123 to R131). -/

namespace Sys2Proof.Machine

/-! ## Interrupted jobs (R129, R131) -/

/-- R120: the end of a job leaves the printers and the flags. -/
theorem State.endJob_left (s : State) (j : Job) (o : JobOutcome) :
    PrinterKept s (s.endJob j o) ∧ (s.endJob j o).printers = s.printers ∧ (s.endJob j o).link = s.link := by
  unfold State.endJob
  dsimp only
  split <;> exact ⟨rfl, rfl, rfl⟩

/-- R131: below three attempts, or uncounted, an interrupted job is QUEUED again; at three it is FAILED. -/
theorem State.returnJob_eq (s : State) (p : Printer) (j : Job) (counted : Bool) : s.returnJob p j counted =
    if counted ∧ 3 ≤ j.attempts then (s.endJob j .failed).raise (.jobFailed p) j.failedBody
    else { s with labels := { s.labels with queue := s.labels.queue.map fun x =>
      if x.number = j.number then { x with state := .queued, attempts := if counted then x.attempts else x.attempts - 1 } else x } } := by
  unfold State.returnJob
  cases counted with
  | false => rfl
  | true =>
    refine (if_pos rfl).trans ?_
    by_cases few : j.attempts < 3
    · rw [if_pos few, if_neg fun h : true = true ∧ 3 ≤ j.attempts => absurd h.2 (Nat.not_le.2 few)]
      rfl
    · rw [if_neg few, if_pos (And.intro (rfl : true = true) (Nat.not_lt.1 few))]

/-- R131: what becomes of an interrupted job leaves the printers. -/
theorem State.returnJob_left (s : State) (p : Printer) (j : Job) (counted : Bool) :
    PrinterKept s (s.returnJob p j counted) ∧ (s.returnJob p j counted).printers = s.printers := by
  rw [State.returnJob_eq]
  split
  · obtain ⟨kept, printers, -⟩ := s.endJob_left j .failed
    exact ⟨kept.trans (.raise ..), printers⟩
  · exact ⟨rfl, rfl⟩

/-- R129: an interrupted port. -/
theorem State.interrupt_left (s : State) (p : Printer) (state : PrinterState) : PrinterKept s (s.interrupt p state) ∧
    (s.interrupt p state).printers = modAt s.printers p (PrinterPort.drop state) := by
  unfold State.interrupt
  dsimp only
  split
  · exact ⟨rfl, rfl⟩
  · next j _ =>
    obtain ⟨kept, printers⟩ := (s.onPrinter p (PrinterPort.drop state)).returnJob_left p j (s.printers[p].phase != some .starting)
    exact ⟨(PrinterKept.onPrinter s p _).trans kept, printers⟩

/-! ## Conditions (R125) -/

/-- R125: PAPER_OUT and HEAD_OPEN rise on a change. -/
theorem State.setCondition_eq (s : State) (p : Printer) (c : Condition) (job : Option Nat) : s.setCondition p c job =
    (let t := { s with printers := modAt s.printers p fun q => { q with condition := c } }
     match c with
     | .paperOut => if s.printers[p].condition = .paperOut then t else t.raise (.paperOut p) (encOpt u2 job)
     | .headOpen => if s.printers[p].condition = .headOpen then t else t.raise (.headOpen p) (encOpt u2 job)
     | .ready => t
     | .unknown => t) := by
  unfold State.setCondition conditionFlag
  generalize s.printers[p].condition = old
  cases c <;> cases old <;> rfl

/-- R125: a condition taken. -/
theorem State.setCondition_left (s : State) (p : Printer) (c : Condition) (job : Option Nat) :
    PrinterKept s (s.setCondition p c job) ∧ (s.setCondition p c job).labels = s.labels ∧
    (s.setCondition p c job).printers = modAt s.printers p (fun q => { q with condition := c }) ∧
    (c = .paperOut → s.printers[p].condition ≠ .paperOut →
      ((s.setCondition p c job).link.flags[(Flag.paperOut p).entry]).pending = true) ∧
    (c = .headOpen → s.printers[p].condition ≠ .headOpen →
      ((s.setCondition p c job).link.flags[(Flag.headOpen p).entry]).pending = true) := by
  rw [State.setCondition_eq]
  cases c with
  | ready => exact ⟨rfl, rfl, rfl, nofun, nofun⟩
  | unknown => exact ⟨rfl, rfl, rfl, nofun, nofun⟩
  | paperOut =>
    dsimp only
    split
    · next same => exact ⟨rfl, rfl, rfl, fun _ other => absurd same other, nofun⟩
    · exact ⟨rfl, rfl, rfl, fun _ _ => (State.raise_pending _ _ _).1, nofun⟩
  | headOpen =>
    dsimp only
    split
    · next same => exact ⟨rfl, rfl, rfl, nofun, fun _ other => absurd same other⟩
    · exact ⟨rfl, rfl, rfl, nofun, fun _ _ => (State.raise_pending _ _ _).1⟩

/-! ## Presence (R124, R126) -/

/-- R126: a lost printer. -/
theorem State.losePrinter_left (s : State) (p : Printer) : PrinterKept s (s.losePrinter p) ∧
    (s.losePrinter p).printers[p] = { s.printers[p].drop .lost with frameTimer := false, doneTimer := false, condition := .unknown } ∧
    ((s.losePrinter p).link.flags[(Flag.printerLost p).entry]).pending = true := by
  obtain ⟨kept, printers⟩ := s.interrupt_left p .lost
  refine ⟨(kept.trans (.onPrinter ..)).trans (.raise ..), ?_, (State.raise_pending _ _ _).1⟩
  show (modAt (s.interrupt p .lost).printers p _)[p] = _
  rw [modAt_same, printers, modAt_same]

/-- R124: an accepted printer. -/
theorem State.acceptPrinter_left (s : State) (p : Printer) (serial : BitVec 32) (model : Byte) :
    PrinterKept s (s.acceptPrinter p serial model) ∧
    (s.acceptPrinter p serial model).printers[p] = { s.printers[p] with
      state := .notReady, serial := some serial, model := some model, condition := .unknown, frameTimer := true,
      owedAccepts := s.printers[p].owedAccepts ++ [serial] } ∧
    ((s.acceptPrinter p serial model).link.flags[(Flag.printerFound p).entry]).pending = true ∧
    ∀ n : Fin 50, (s.link.flags[n]).pending = true → ((s.acceptPrinter p serial model).link.flags[n]).pending = true := by
  obtain ⟨found, others⟩ := State.raise_pending (s.onPrinter p fun q =>
    { q with state := .notReady, serial := some serial, model := some model, condition := .unknown, frameTimer := true,
             owedAccepts := q.owedAccepts ++ [serial] }) (.printerFound p) (encSerial serial)
  refine ⟨(PrinterKept.onPrinter ..).trans (.raise ..), modAt_same _ _ _, found, fun n set => ?_⟩
  unfold State.acceptPrinter
  rw [others n set]
  exact set

/-- R124: the recorded printer started afresh. -/
theorem State.printerRestarted_left (s : State) (p : Printer) (serial : BitVec 32) : PrinterKept s (s.printerRestarted p serial) ∧
    (s.printerRestarted p serial).printers[p] =
      { (if s.printers[p].state = .busyPrinting then s.printers[p].drop .notReady else { s.printers[p] with state := .notReady }) with
        condition := .unknown, frameTimer := true, owedAccepts := s.printers[p].owedAccepts ++ [serial] } := by
  unfold State.printerRestarted
  dsimp only
  split
  · obtain ⟨kept, printers⟩ := s.interrupt_left p .notReady
    refine ⟨kept.trans (.onPrinter ..), ?_⟩
    show (modAt (s.interrupt p .notReady).printers p _)[p] = _
    rw [modAt_same, printers, modAt_same]
    rfl
  · refine ⟨rfl, ?_⟩
    show (modAt (s.onPrinter p _).printers p _)[p] = _
    rw [modAt_same, State.onPrinter, modAt_same]

/-- R124: a port that owes an ACCEPT sends it, or the ACCEPT owed before it, on a free line. -/
theorem PrinterPort.pump_owing {p : Printer} {q x : PrinterPort} {serial : BitVec 32} (sending : x.sending = q.sending)
    (owed : x.owedAccepts = q.owedAccepts ++ [serial]) :
    (q.sending.isSome = true → (PrinterPort.pump p x).sending = q.sending ∧
      (PrinterPort.pump p x).owedAccepts = q.owedAccepts ++ [serial]) ∧
    (q.sending = none → (PrinterPort.pump p x).sending = ((q.owedAccepts ++ [serial]).head?.map fun k => .accept k p) ∧
      (PrinterPort.pump p x).owedAccepts = (q.owedAccepts ++ [serial]).tail) := by
  unfold PrinterPort.pump
  rw [sending]
  refine ⟨fun busy => ?_, fun free => ?_⟩
  · rw [if_pos busy]
    exact ⟨sending, owed⟩
  · rw [free, owed]
    cases q.owedAccepts <;> exact ⟨rfl, rfl⟩

/-! ## The commands, by what they do first -/

/-- A command that is an event which cannot happen. -/
theorem State.event_discarded {s : State} {f : State → Option State} {o : Host.Outcome State Fault Refusal} (hp : s.powered = true)
    (event : o = s.event f) (discards : f s = none) : o = .next s :=
  event.trans (State.event_none hp discards)

section

variable {s : State} (hp : s.powered = true) (p : Printer)
include hp

/-- R124: PRINTER_HELLO. -/
theorem exec_printerHello (serial : BitVec 32) (model : Byte) :
    exec (.printerHello p serial model) s = .next (s.settle ((s.printerSpeaks p serial model).pumpPrinter p)) :=
  State.event_of (o := execPrinterHello p serial model s) hp rfl rfl

/-- R125: PRINTER_STATE of a condition of the manual. -/
theorem exec_printerState {condition : Byte} {c : Condition} (known : conditionOf condition.toNat = some c)
    (takes : s.printers[p].takesState = true) :
    exec (.printerState p condition) s = .next (s.settle (s.takePrinterState p c)) :=
  State.event_of (o := execPrinterState p condition s) hp rfl (by rw [known]; exact if_pos takes)

/-- R123: a STATE that the port discards. -/
theorem exec_printerState_discarded (discards : s.printers[p].takesState = false) (condition : Byte) :
    exec (.printerState p condition) s = .next s := by
  refine State.event_discarded (o := execPrinterState p condition s) hp rfl ?_
  cases conditionOf condition.toNat with
  | none => rfl
  | some c => exact if_neg (by rw [discards]; nofun)

/-- R128: PRINTER_DONE, taken or discarded. -/
theorem exec_printerDone (job : BitVec 16) :
    (s.printers[p].state.accepted = true → exec (.printerDone p job) s = .next (s.settle (s.takeDone p job.toNat))) ∧
    (s.printers[p].state.accepted = false → exec (.printerDone p job) s = .next s) :=
  ⟨fun accepted => State.event_of (o := execPrinterDone p job s) hp rfl (if_pos accepted),
    fun discards => State.event_discarded (o := execPrinterDone p job s) hp rfl (if_neg (by rw [discards]; nofun))⟩

/-- R129: PRINTER_FAULT of a cause of the manual. -/
theorem exec_printerFault {cause : Byte} {c : Condition} (known : causeCondition cause.toNat = some c)
    (accepted : s.printers[p].state.accepted = true) (job : BitVec 16) :
    exec (.printerFault p job cause) s = .next (s.settle (s.takeFault p job.toNat c)) :=
  State.event_of (o := execPrinterFault p job cause s) hp rfl (by rw [known]; exact if_pos accepted)

/-- R123: a FAULT that the port discards. -/
theorem exec_printerFault_discarded (discards : s.printers[p].state.accepted = false) (job : BitVec 16) (cause : Byte) :
    exec (.printerFault p job cause) s = .next s := by
  refine State.event_discarded (o := execPrinterFault p job cause s) hp rfl ?_
  cases causeCondition cause.toNat with
  | none => rfl
  | some c => exact if_neg (by rw [discards]; nofun)

/-- R126: PRINTER_FRAME_TIMEOUT, of a printer that is accepted or not. -/
theorem exec_printerFrameTimeout :
    (s.printers[p].state.accepted = true → s.printers[p].frameTimer = true →
      exec (.printerFrameTimeout p) s = .next (s.settle (s.losePrinter p))) ∧
    (s.printers[p].state.accepted = false → exec (.printerFrameTimeout p) s = .next s) := by
  refine ⟨fun accepted timer => State.event_of (o := execPrinterFrameTimeout p s) hp rfl (if_pos ⟨accepted, timer⟩),
    fun discards => State.event_discarded (o := execPrinterFrameTimeout p s) hp rfl (if_neg ?_)⟩
  rintro ⟨accepted, -⟩
  rw [discards] at accepted
  cases accepted

/-- R130: DONE_TIMEOUT. -/
theorem exec_doneTimeout (phase : s.printers[p].phase = some .awaitingDone) (timer : s.printers[p].doneTimer = true) :
    exec (.doneTimeout p) s =
      .next (s.settle ((s.interrupt p .notReady).onPrinter p fun q => { q with condition := .unknown })) :=
  State.event_of (o := execDoneTimeout p s) hp rfl (if_pos ⟨phase, timer⟩)

/-- R128: PRINTER_FRAME_END. -/
theorem exec_printerFrameEnd {f : PrinterFrame} (sending : s.printers[p].sending = some f) :
    exec (.printerFrameEnd p) s = .next ((s.onPrinter p (PrinterPort.frameEnd p f)).finish s) :=
  State.event_of (o := execPrinterFrameEnd p s) hp rfl (by rw [sending])

end

/-! ## The frames of a job (R117, R128) -/

/-- R128: an absent field gives no frame. -/
theorem fieldOf_eq (ident : Nat) (value : Option Text) : fieldOf ident value = value.toList.map fun v => PrinterFrame.field ident v := by
  cases value <;> rfl

/-- R128: the second frame is a FIELD of a higher identifier. -/
def PrinterFrame.Ascends (f g : PrinterFrame) : Prop := ∃ i v k w, f = .field i v ∧ g = .field k w ∧ i < k

/-- Frames that are FIELDs in ascending order, each of an identifier below n. -/
structure FieldsBelow (n : Nat) (fs : List PrinterFrame) : Prop where
  below : ∀ f ∈ fs, ∃ i v, f = .field i v ∧ i < n
  ascending : fs.Pairwise PrinterFrame.Ascends

/-- No frames. -/
theorem FieldsBelow.nil : FieldsBelow 0 [] := ⟨nofun, .nil⟩

/-- A bound that is higher. -/
theorem FieldsBelow.mono {n m : Nat} {fs : List PrinterFrame} (h : FieldsBelow n fs) (le : n ≤ m) : FieldsBelow m fs :=
  ⟨fun f hf => let ⟨i, v, field, lt⟩ := h.below f hf; ⟨i, v, field, lt.trans_le le⟩, h.ascending⟩

/-- A field of a higher identifier, or none, at the end. -/
theorem FieldsBelow.append_field {n ident : Nat} {fs : List PrinterFrame} (h : FieldsBelow n fs) (le : n ≤ ident)
    (value : Option Text) : FieldsBelow (ident + 1) (fs ++ fieldOf ident value) := by
  cases value with
  | none =>
    rw [show fs ++ fieldOf ident none = fs from List.append_nil fs]
    exact h.mono (by omega)
  | some v =>
    refine ⟨fun f hf => ?_, List.pairwise_append.2 ⟨h.ascending, List.pairwise_singleton _ _, fun f hf g hg => ?_⟩⟩
    · rcases List.mem_append.1 hf with before | last
      · exact (h.mono (Nat.le_succ_of_le le)).below f before
      · exact ⟨ident, v, List.mem_singleton.1 last, Nat.lt_succ_self _⟩
    · obtain ⟨i, w, field, lt⟩ := h.below f hf
      exact ⟨i, w, ident, v, field, List.mem_singleton.1 hg, lt.trans_le le⟩

/-- R128: the segments of the extra text. -/
theorem FieldsBelow.append_extra {n : Nat} {fs : List PrinterFrame} (h : FieldsBelow n fs) (le : n ≤ 0x20) (t : Text) :
    FieldsBelow 0x23 (fs ++ extraFields t) := by
  have segment : ∀ (c : Prop) [Decidable c] (ident : Nat) (v : Text),
      (if c then [PrinterFrame.field ident v] else []) = fieldOf ident (if c then some v else none) := fun c _ ident v => by
    split <;> rfl
  have segments : fs ++ extraFields t = fs ++ fieldOf 0x20 (some (t.take 59)) ++
      fieldOf 0x21 (if 59 < t.length then some ((t.drop 59).take 59) else none) ++
      fieldOf 0x22 (if 118 < t.length then some ((t.drop 118).take 59) else none) := by
    unfold extraFields
    rw [segment, segment, ← List.append_assoc, ← List.append_assoc]
    rfl
  rw [segments]
  exact ((h.append_field le _).append_field (Nat.le_refl _) _).append_field (Nat.le_refl _) _

/-- R128: the fields of a label stand in ascending order of identifier. -/
theorem LabelContent.fields_ascending (c : LabelContent) : c.fields.Pairwise PrinterFrame.Ascends := by
  have channel := FieldsBelow.nil.append_field (Nat.zero_le 0x01) (some (decimal (stationNumber c.channel)))
  have first := ((((((((((((channel.append_field (Nat.le_refl _) (c.clerk.map decimal)).append_field (Nat.le_refl _)
    (c.ticket.map decimal)).append_field (Nat.le_refl _) (c.serial.map decimal)).append_field (Nat.le_refl _)
    (c.plu.map decimal)).append_field (Nat.le_refl _) c.name).append_field (Nat.le_refl _)
    (c.netGrams.map decimalInt)).append_field (Nat.le_refl _) (c.quantity.map decimal)).append_field (Nat.le_refl _)
    (c.unitPrice.map decimal)).append_field (Nat.le_refl _) (c.markdownShown.map fun b => [if b then 0x31 else 0x30])).append_field
    (Nat.le_refl _) (some (decimal c.price))).append_field (Nat.le_refl _) (c.lineCount.map decimal)).append_field (Nat.le_refl _)
    (c.packed.map dateText)).append_field (Nat.le_refl _) (c.useBy.map dateText)
  unfold LabelContent.fields
  cases c.extraText with
  | none => exact ((first.append_field (Nat.le_refl _) none).append_field (Nat.le_of_ble_eq_true rfl) _).ascending
  | some t => exact ((first.append_extra (Nat.le_of_ble_eq_true rfl) t).append_field (Nat.le_of_ble_eq_true rfl) _).ascending

end Sys2Proof.Machine
end

section
/-! SUPPORT. What each printer event leaves of its port (R123 to R131). -/

namespace Sys2Proof.Machine

/-! ## The states of a port -/

/-- R126: a printer is accepted. -/
theorem PrinterState.accepted_iff (x : PrinterState) : x.accepted = true ↔ x = .ready ∨ x = .busyPrinting ∨ x = .notReady := by
  cases x <;> simp [PrinterState.accepted]

/-- R123: no printer is accepted. -/
theorem PrinterState.accepted_false {x : PrinterState} (h : x = .waiting ∨ x = .lost) : x.accepted = false := by
  rcases h with rfl | rfl <;> rfl

/-- R123: a STATE is taken. -/
theorem PrinterPort.takesState_iff (q : PrinterPort) : q.takesState = true ↔
    (q.state = .ready ∨ q.state = .busyPrinting ∨ q.state = .notReady) ∨ (q.state = .waiting ∧ q.serial.isSome = true) := by
  unfold PrinterPort.takesState
  rw [Bool.or_eq_true, Bool.and_eq_true, beq_iff_eq, PrinterState.accepted_iff]

/-- 7.3: the conditions that a STATE reports. -/
theorem conditionOf_listed {condition : Byte} {c : Condition} (h : (condition, c) ∈ [(0, .ready), (1, .paperOut), (2, .headOpen)]) :
    conditionOf condition.toNat = some c := by
  simp only [List.mem_cons, Prod.mk.injEq, List.not_mem_nil, or_false] at h
  rcases h with ⟨rfl, rfl⟩ | ⟨rfl, rfl⟩ | ⟨rfl, rfl⟩ <;> rfl

/-- R129: the conditions that the causes of a FAULT give. -/
theorem causeCondition_listed {cause : Byte} {c : Condition}
    (h : (cause, c) ∈ [(1, .paperOut), (2, .headOpen), (3, .unknown), (4, .unknown)]) : causeCondition cause.toNat = some c := by
  simp only [List.mem_cons, Prod.mk.injEq, List.not_mem_nil, or_false] at h
  rcases h with ⟨rfl, rfl⟩ | ⟨rfl, rfl⟩ | ⟨rfl, rfl⟩ | ⟨rfl, rfl⟩ <;> rfl

/-- R129: each of the four causes has its condition. -/
theorem causeCondition_in_range {cause : Byte} (low : 1 ≤ cause.toNat) (high : cause.toNat ≤ 4) :
    causeCondition cause.toNat = some (if cause = 1 then .paperOut else if cause = 2 then .headOpen else .unknown) := by
  have listed : cause = 1 ∨ cause = 2 ∨ cause = 3 ∨ cause = 4 := by bv_omega
  rcases listed with rfl | rfl | rfl | rfl <;> rfl

/-- What an event settled leaves of a port that is not READY. -/
theorem State.settle_port {s u : State} {p : Printer} {x : PrinterPort} (kept : PrinterKept s u) (port : u.printers[p] = x)
    (other : x.state ≠ .ready) : PrinterKept s (s.settle u) ∧ (s.settle u).printers[p] = x ∧
    ∀ n : Fin 50, (u.link.flags[n]).pending = true → ((s.settle u).link.flags[n]).pending = true := by
  obtain ⟨same, pending⟩ := State.settle_portStays s u p
  exact ⟨State.settle_kept kept, (same (by rw [port]; exact other)).trans port, pending⟩

/-! ## HELLO (R124) -/

/-- R124: the port after the HELLO of a printer: in NOT_READY with its serial, and its ACCEPT owed or begun. -/
structure PrinterPort.Greeted (p : Printer) (serial : BitVec 32) (q x : PrinterPort) : Prop where
  state : x.state = .notReady
  own : x.serial = some serial
  condition : x.condition = .unknown
  frameTimer : x.frameTimer = true
  busy : q.sending.isSome = true → x.sending = q.sending ∧ x.owedAccepts = q.owedAccepts ++ [serial]
  free : q.sending = none → x.sending = ((q.owedAccepts ++ [serial]).head?.map fun k => .accept k p) ∧
    x.owedAccepts = (q.owedAccepts ++ [serial]).tail

/-- R124: the line begins what the port owes. -/
theorem PrinterPort.greeted {p : Printer} {serial : BitVec 32} {q y : PrinterPort} (state : y.state = .notReady)
    (own : y.serial = some serial) (condition : y.condition = .unknown) (timer : y.frameTimer = true) (sending : y.sending = q.sending)
    (owed : y.owedAccepts = q.owedAccepts ++ [serial]) : PrinterPort.Greeted p serial q (PrinterPort.pump p y) := by
  obtain ⟨state', serial', -, condition', -, timer', -⟩ := PrinterPort.pump_fields p y
  obtain ⟨busy, free⟩ := PrinterPort.pump_owing (p := p) sending owed
  exact ⟨state'.trans state, serial'.trans own, condition'.trans condition, timer'.trans timer, busy, free⟩

/-- The port whose line began what it owes. -/
theorem State.pumpPrinter_port (s : State) (p : Printer) : (s.pumpPrinter p).printers[p] = PrinterPort.pump p s.printers[p] :=
  modAt_same _ _ _

section

variable (s : State) (p : Printer) (serial : BitVec 32) (model : Byte)

/-- R124: the HELLO of a printer at a port with none accepted. -/
theorem State.hello_first (absent : s.printers[p].state.accepted = false) :
    let u := (s.printerSpeaks p serial model).pumpPrinter p
    PrinterKept s u ∧ PrinterPort.Greeted p serial s.printers[p] u.printers[p] ∧ u.printers[p].model = some model ∧
    (u.link.flags[(Flag.printerFound p).entry]).pending = true := by
  intro u
  obtain ⟨kept, port, found, -⟩ := s.acceptPrinter_left p serial model
  have accepts : u = (s.acceptPrinter p serial model).pumpPrinter p :=
    congrArg (State.pumpPrinter · p) (if_neg (by rw [absent]; nofun))
  obtain ⟨-, -, modelKept, -⟩ := PrinterPort.pump_fields p (s.acceptPrinter p serial model).printers[p]
  rw [accepts, State.pumpPrinter_port, modelKept, port]
  exact ⟨kept.trans (.onPrinter ..), PrinterPort.greeted rfl rfl rfl rfl rfl rfl, rfl, found⟩

/-- R124: the HELLO of the printer that is accepted. -/
theorem State.hello_again (accepted : s.printers[p].state.accepted = true) (own : s.printers[p].serial = some serial) :
    let u := (s.printerSpeaks p serial model).pumpPrinter p
    u = (s.printerRestarted p serial).pumpPrinter p ∧
    PrinterKept s u ∧ PrinterPort.Greeted p serial s.printers[p] u.printers[p] ∧ u.printers[p].model = s.printers[p].model ∧
    u.printers[p].inHand = if s.printers[p].state = .busyPrinting then none else s.printers[p].inHand := by
  intro u
  obtain ⟨kept, port⟩ := s.printerRestarted_left p serial
  have restarts : u = (s.printerRestarted p serial).pumpPrinter p :=
    congrArg (State.pumpPrinter · p) ((if_pos accepted).trans (if_pos own))
  obtain ⟨-, -, modelKept, -, handKept, -⟩ := PrinterPort.pump_fields p (s.printerRestarted p serial).printers[p]
  refine ⟨restarts, ?_⟩
  rw [restarts, State.pumpPrinter_port, modelKept, handKept, port]
  refine ⟨kept.trans (.onPrinter ..), ?_⟩
  split
  · exact ⟨PrinterPort.greeted rfl own rfl rfl rfl rfl, rfl, rfl⟩
  · exact ⟨PrinterPort.greeted rfl own rfl rfl rfl rfl, rfl, rfl⟩

/-- R124: the HELLO of the printer that is accepted, with a job in hand. -/
theorem State.printerRestarted_busy (busy : s.printers[p].state = .busyPrinting) : (s.printerRestarted p serial).pumpPrinter p =
    (s.interrupt p .notReady).onPrinter p fun q => PrinterPort.pump p
      { q with condition := .unknown, frameTimer := true, owedAccepts := q.owedAccepts ++ [serial] } := by
  unfold State.printerRestarted State.pumpPrinter State.onPrinter
  dsimp only
  rw [if_pos busy, modAt_modAt]

/-- R124: the HELLO of another printer than the one that is accepted. -/
theorem State.hello_other (accepted : s.printers[p].state.accepted = true) (other : s.printers[p].serial ≠ some serial) :
    let u := (s.printerSpeaks p serial model).pumpPrinter p
    u = ((s.losePrinter p).acceptPrinter p serial model).pumpPrinter p ∧
    PrinterKept s u ∧ PrinterPort.Greeted p serial s.printers[p] u.printers[p] ∧ u.printers[p].model = some model ∧
    u.printers[p].inHand = none ∧ (u.link.flags[(Flag.printerLost p).entry]).pending = true ∧
    (u.link.flags[(Flag.printerFound p).entry]).pending = true := by
  intro u
  obtain ⟨keptLost, lostPort, lost⟩ := s.losePrinter_left p
  obtain ⟨kept, port, found, pending⟩ := (s.losePrinter p).acceptPrinter_left p serial model
  have replaces : u = ((s.losePrinter p).acceptPrinter p serial model).pumpPrinter p :=
    congrArg (State.pumpPrinter · p) ((if_pos accepted).trans (if_neg other))
  obtain ⟨-, -, modelKept, -, handKept, -⟩ :=
    PrinterPort.pump_fields p ((s.losePrinter p).acceptPrinter p serial model).printers[p]
  refine ⟨replaces, ?_⟩
  rw [replaces, State.pumpPrinter_port, modelKept, handKept, port, lostPort]
  exact ⟨(keptLost.trans kept).trans (.onPrinter ..), PrinterPort.greeted rfl rfl rfl rfl rfl rfl, rfl, rfl, pending _ lost, found⟩

end

/-! ## STATE, FAULT and DONE (R125, R128, R129) -/

/-- R123: the frame timer restarts. -/
theorem State.restartFrameTimer_port (s : State) (p : Printer) :
    (s.restartFrameTimer p).printers[p] = { s.printers[p] with frameTimer := true } := modAt_same _ _ _

/-- R129: the port with its frame timer restarted is interrupted as it stood. -/
theorem State.interrupt_restarted (s : State) (p : Printer) (state : PrinterState) :
    (s.restartFrameTimer p).interrupt p state =
      (match s.printers[p].inHand.bind s.labels.job with
       | none => (s.restartFrameTimer p).onPrinter p (PrinterPort.drop state)
       | some j => ((s.restartFrameTimer p).onPrinter p (PrinterPort.drop state)).returnJob p j (s.printers[p].phase != some .starting)) := by
  unfold State.interrupt
  rw [State.restartFrameTimer_port]
  rfl

/-- R129: the port that a STATE or a FAULT interrupts. -/
theorem State.interrupt_restarted_port (s : State) (p : Printer) : ((s.restartFrameTimer p).interrupt p .notReady).printers[p] =
    { s.printers[p].drop .notReady with frameTimer := true } := by
  obtain ⟨-, printers⟩ := (s.restartFrameTimer p).interrupt_left p .notReady
  rw [printers, modAt_same, State.restartFrameTimer_port]
  rfl

/-- R129: the port interrupted by a STATE or a FAULT, with the condition that it gives. -/
theorem State.interruptedBy_left (s : State) (p : Printer) (c : Condition) (job : Option Nat) :
    let u := ((s.restartFrameTimer p).interrupt p .notReady).setCondition p c job
    PrinterKept s u ∧ u.printers[p] = { s.printers[p].drop .notReady with frameTimer := true, condition := c } ∧
    (c = .paperOut → s.printers[p].condition ≠ .paperOut → (u.link.flags[(Flag.paperOut p).entry]).pending = true) ∧
    (c = .headOpen → s.printers[p].condition ≠ .headOpen → (u.link.flags[(Flag.headOpen p).entry]).pending = true) := by
  intro u
  obtain ⟨kept, -⟩ := (s.restartFrameTimer p).interrupt_left p .notReady
  obtain ⟨kept', -, printers, paper, head⟩ := ((s.restartFrameTimer p).interrupt p .notReady).setCondition_left p c job
  rw [State.interrupt_restarted_port] at paper head
  refine ⟨((PrinterKept.onPrinter s p _).trans kept).trans kept', ?_, paper, head⟩
  rw [printers, modAt_same, State.interrupt_restarted_port]

/-- R125: a STATE in BUSY_PRINTING. -/
theorem State.takePrinterState_busy {s : State} {p : Printer} (busy : s.printers[p].state = .busyPrinting) (c : Condition) :
    (c = .ready → s.takePrinterState p c = (s.restartFrameTimer p).setCondition p .ready none) ∧
    (c ≠ .ready → s.takePrinterState p c =
      ((s.restartFrameTimer p).interrupt p .notReady).setCondition p c s.printers[p].inHand) := by
  unfold State.takePrinterState
  dsimp only
  rw [busy]
  exact ⟨fun ready => by rw [ready]; rfl, fun other => if_neg other⟩

/-- R125: a STATE in another state. -/
theorem State.takePrinterState_other {s : State} {p : Printer} (other : s.printers[p].state ≠ .busyPrinting) (c : Condition) :
    s.takePrinterState p c = ((s.restartFrameTimer p).onPrinter p fun q =>
      { q with state := if c = .ready then .ready else .notReady }).setCondition p c none := by
  unfold State.takePrinterState
  dsimp only
  split
  · next busy => exact absurd busy other
  · rfl

/-- R125: what a STATE leaves of a port that is not in BUSY_PRINTING. -/
theorem State.takePrinterState_other_left {s : State} {p : Printer} (other : s.printers[p].state ≠ .busyPrinting) (c : Condition) :
    let u := s.takePrinterState p c
    PrinterKept s u ∧ u.labels = s.labels ∧
    u.printers[p] = { s.printers[p] with frameTimer := true, state := if c = .ready then .ready else .notReady, condition := c } ∧
    (c = .paperOut → s.printers[p].condition ≠ .paperOut → (u.link.flags[(Flag.paperOut p).entry]).pending = true) ∧
    (c = .headOpen → s.printers[p].condition ≠ .headOpen → (u.link.flags[(Flag.headOpen p).entry]).pending = true) := by
  intro u
  obtain ⟨v, hv⟩ : ∃ v, v = (s.restartFrameTimer p).onPrinter p fun q =>
    { q with state := if c = .ready then .ready else .notReady } := ⟨_, rfl⟩
  have port : v.printers[p] = { s.printers[p] with frameTimer := true, state := if c = .ready then .ready else .notReady } := by
    rw [hv, State.onPrinter, modAt_same, State.restartFrameTimer_port]
  have moved : PrinterKept s v := by
    rw [hv]
    exact (PrinterKept.onPrinter s p _).trans (.onPrinter ..)
  have labels : v.labels = s.labels := by
    rw [hv]
    rfl
  have takes : u = v.setCondition p c none := by
    rw [hv]
    exact State.takePrinterState_other other c
  obtain ⟨kept, same, printers, paper, head⟩ := v.setCondition_left p c none
  rw [port] at paper head
  rw [takes]
  refine ⟨moved.trans kept, same.trans labels, ?_, paper, head⟩
  rw [printers, modAt_same, port]

/-- R129: a FAULT of the job in hand, or of another. -/
theorem State.takeFault_cases (s : State) (p : Printer) (job : Nat) (c : Condition) :
    (s.printers[p].state = .busyPrinting ∧ s.printers[p].inHand = some job → s.takeFault p job c =
      ((s.restartFrameTimer p).interrupt p .notReady).setCondition p c s.printers[p].inHand) ∧
    (¬(s.printers[p].state = .busyPrinting ∧ s.printers[p].inHand = some job) → s.takeFault p job c = s.restartFrameTimer p) :=
  ⟨fun own => if_pos own, fun other => if_neg other⟩

/-- R128: a DONE of the job in hand, or of another. -/
theorem State.takeDone_cases (s : State) (p : Printer) (job : Nat) :
    (∀ j, s.printers[p].inHand = some job → s.printers[p].phase = some .awaitingDone → s.labels.job job = some j →
      s.takeDone p job = State.endJob { s with
        printers := modAt s.printers p fun q =>
          { q with frameTimer := true, state := if q.condition = .ready then .ready else .notReady, inHand := none, phase := none,
                   doneTimer := false, toSend := [] } } j .done) ∧
    (¬(s.printers[p].inHand = some job ∧ s.printers[p].phase = some .awaitingDone) → s.takeDone p job = s.restartFrameTimer p) := by
  refine ⟨fun j inHand phase found => ?_, fun other => if_neg other⟩
  refine (if_pos ⟨inHand, phase⟩).trans ?_
  rw [found]
  unfold State.jobDone State.restartFrameTimer State.onPrinter
  dsimp only
  rw [modAt_modAt]
  rfl

section

variable {s : State} (hp : s.powered = true) {p : Printer} {condition : Byte} {c : Condition}
include hp

/-- R125: what a STATE leaves in BUSY_PRINTING. -/
theorem exec_printerState_busy (known : conditionOf condition.toNat = some c) (busy : s.printers[p].state = .busyPrinting) :
    ∃ t, exec (.printerState p condition) s = .next t ∧ PrinterKept s t ∧
    (c = .ready → t.printers[p] = { s.printers[p] with condition := .ready, frameTimer := true }) ∧
    (c ≠ .ready → t.printers[p] = { s.printers[p].drop .notReady with frameTimer := true, condition := c }) ∧
    (c = .paperOut → s.printers[p].condition ≠ .paperOut → (t.link.flags[(Flag.paperOut p).entry]).pending = true) ∧
    (c = .headOpen → s.printers[p].condition ≠ .headOpen → (t.link.flags[(Flag.headOpen p).entry]).pending = true) := by
  have takes : s.printers[p].takesState = true := (PrinterPort.takesState_iff _).2 (.inl (.inr (.inl busy)))
  refine ⟨_, exec_printerState hp p known takes, ?_⟩
  obtain ⟨stays, interrupts⟩ := State.takePrinterState_busy busy c
  by_cases ready : c = .ready
  · subst ready
    obtain ⟨kept, -, printers, -⟩ := (s.restartFrameTimer p).setCondition_left p .ready none
    have port : ((s.restartFrameTimer p).setCondition p .ready none).printers[p] =
        { s.printers[p] with condition := .ready, frameTimer := true } := by
      rw [printers, modAt_same, State.restartFrameTimer_port]
    obtain ⟨kept', port', -⟩ := State.settle_port ((PrinterKept.onPrinter s p _).trans kept) port
      (fun ready => absurd (busy.symm.trans ready) nofun)
    rw [stays rfl]
    exact ⟨kept', fun _ => port', fun other => absurd rfl other, nofun, nofun⟩
  · obtain ⟨kept, port, paper, head⟩ := s.interruptedBy_left p c s.printers[p].inHand
    obtain ⟨kept', port', pending⟩ := State.settle_port kept port nofun
    rw [interrupts ready]
    exact ⟨kept', fun same => absurd same ready, fun _ => port', fun h old => pending _ (paper h old),
      fun h old => pending _ (head h old)⟩

/-- R125, R127: what a STATE leaves in another state: a READY port may take a job at once. -/
theorem exec_printerState_other (known : conditionOf condition.toNat = some c) (other : s.printers[p].state ≠ .busyPrinting)
    (takes : s.printers[p].takesState = true) :
    ∃ t, exec (.printerState p condition) s = .next t ∧ PrinterKept s t ∧ t.printers[p].condition = c ∧
    t.printers[p].frameTimer = true ∧ (c ≠ .ready → t.printers[p].state = .notReady) ∧
    (c = .ready → (t.printers[p].state = .ready ∧ t.printers[p].inHand = s.printers[p].inHand) ∨
      (t.printers[p].state = .busyPrinting ∧ t.printers[p].phase = some .starting ∧
        ∃ j ∈ s.labels.queue, j.state = .queued ∧ t.printers[p].inHand = some j.number)) ∧
    (c = .paperOut → s.printers[p].condition ≠ .paperOut → (t.link.flags[(Flag.paperOut p).entry]).pending = true) ∧
    (c = .headOpen → s.printers[p].condition ≠ .headOpen → (t.link.flags[(Flag.headOpen p).entry]).pending = true) := by
  refine ⟨_, exec_printerState hp p known takes, ?_⟩
  obtain ⟨kept, labels, port, paper, head⟩ := State.takePrinterState_other_left other c
  generalize s.takePrinterState p c = u at kept labels port paper head ⊢
  by_cases ready : c = .ready
  · subst ready
    obtain ⟨chosen, -⟩ := State.settle_portChooses labels p
    rw [port, labels] at chosen
    refine ⟨State.settle_kept kept, ?_⟩
    rcases chosen with same | ⟨state, phase, condition, timer, job⟩
    · rw [same]
      exact ⟨rfl, rfl, fun h => absurd rfl h, fun _ => .inl ⟨rfl, rfl⟩, nofun, nofun⟩
    · exact ⟨condition, timer, fun h => absurd rfl h, fun _ => .inr ⟨state, phase, job⟩, nofun, nofun⟩
  · rw [if_neg ready] at port
    obtain ⟨kept', port', pending⟩ := State.settle_port kept port nofun
    rw [port']
    exact ⟨kept', rfl, rfl, fun _ => rfl, fun same => absurd same ready, fun h old => pending _ (paper h old),
      fun h old => pending _ (head h old)⟩

end

/-- R128: the body of JOB_FAILED (log 45). -/
theorem Job.failedBody_eq (j : Job) : j.failedBody = u2 j.number ++ u1 (match j.cls with | .summary => 0 | .item => 1 | .prepack => 2) ++
    (match j.link with
     | .item serial line => u4 serial ++ u1 line
     | .summary serial => u4 serial ++ u1 0
     | .prepack serial => u4 serial ++ u1 0) := by
  unfold Job.failedBody
  rw [List.append_assoc]
  cases j.cls <;> cases j.link <;> rfl

/-! ## The end of a frame (R128) -/

/-- R128: the end of LABEL_END begins AWAITING_DONE. -/
theorem PrinterPort.frameEnd_eq (p : Printer) (f : PrinterFrame) (q : PrinterPort) :
    (q.phase = some .sending ∧ q.toSend = [] ∧ (∃ n, q.inHand = some n ∧ f = .labelEnd n) → PrinterPort.frameEnd p f q =
      PrinterPort.pump p { q with sending := none, phase := some .awaitingDone, doneTimer := true }) ∧
    (¬(q.phase = some .sending ∧ q.toSend = [] ∧ ∃ n, q.inHand = some n ∧ f = .labelEnd n) → PrinterPort.frameEnd p f q =
      PrinterPort.pump p { q with sending := none }) := by
  have last : (q.inHand.any fun n => decide (f = .labelEnd n)) = true ↔ ∃ n, q.inHand = some n ∧ f = .labelEnd n := by
    simp only [Option.any_eq_true, decide_eq_true_eq]
  unfold PrinterPort.frameEnd
  rw [← last]
  exact ⟨fun ended => congrArg (PrinterPort.pump p) (if_pos ended), fun goesOn => congrArg (PrinterPort.pump p) (if_neg goesOn)⟩

end Sys2Proof.Machine
end

section
/-! Printer events (R123 to R131). -/

namespace Sys2Proof.Machine

section

variable {s : State} (hp : s.powered = true) {p : Printer}
include hp

/-- R124: what a HELLO leaves at a port with no printer accepted. -/
theorem exec_printerHello_first (absent : s.printers[p].state.accepted = false) (serial : BitVec 32) (model : Byte) :
    ∃ t, exec (.printerHello p serial model) s = .next t ∧ PrinterKept s t ∧
    PrinterPort.Greeted p serial s.printers[p] t.printers[p] ∧ t.printers[p].model = some model ∧
    (t.link.flags[(Flag.printerFound p).entry]).pending = true := by
  obtain ⟨kept, greets, modelTaken, found⟩ := s.hello_first p serial model absent
  obtain ⟨kept', port, pending⟩ := State.settle_port kept rfl (by rw [greets.state]; nofun)
  rw [← port] at greets modelTaken
  exact ⟨_, exec_printerHello hp p serial model, kept', greets, modelTaken, pending _ found⟩

/-- R124: what the HELLO of the accepted printer leaves. -/
theorem exec_printerHello_again (accepted : s.printers[p].state.accepted = true) {serial : BitVec 32}
    (own : s.printers[p].serial = some serial) (model : Byte) :
    ∃ t, exec (.printerHello p serial model) s = .next t ∧ PrinterKept s t ∧
    PrinterPort.Greeted p serial s.printers[p] t.printers[p] ∧ t.printers[p].model = s.printers[p].model ∧
    t.printers[p].inHand = if s.printers[p].state = .busyPrinting then none else s.printers[p].inHand := by
  obtain ⟨-, kept, greets, modelKept, hand⟩ := s.hello_again p serial model accepted own
  obtain ⟨kept', port, -⟩ := State.settle_port kept rfl (by rw [greets.state]; nofun)
  rw [← port] at greets modelKept hand
  exact ⟨_, exec_printerHello hp p serial model, kept', greets, modelKept, hand⟩

/-- R124: what the HELLO of another printer than the accepted one leaves. -/
theorem exec_printerHello_other (accepted : s.printers[p].state.accepted = true) {serial : BitVec 32}
    (other : s.printers[p].serial ≠ some serial) (model : Byte) :
    ∃ t, exec (.printerHello p serial model) s = .next t ∧ PrinterKept s t ∧
    PrinterPort.Greeted p serial s.printers[p] t.printers[p] ∧ t.printers[p].model = some model ∧ t.printers[p].inHand = none ∧
    (t.link.flags[(Flag.printerLost p).entry]).pending = true ∧ (t.link.flags[(Flag.printerFound p).entry]).pending = true := by
  obtain ⟨-, kept, greets, modelTaken, hand, lost, found⟩ := s.hello_other p serial model accepted other
  obtain ⟨kept', port, pending⟩ := State.settle_port kept rfl (by rw [greets.state]; nofun)
  rw [← port] at greets modelTaken hand
  exact ⟨_, exec_printerHello hp p serial model, kept', greets, modelTaken, hand, pending _ lost, pending _ found⟩

/-- R129: what a FAULT of the job in hand leaves. -/
theorem exec_printerFault_own {cause : Byte} {c : Condition} (known : causeCondition cause.toNat = some c)
    (busy : s.printers[p].state = .busyPrinting) {job : BitVec 16} (inHand : s.printers[p].inHand = some job.toNat) :
    ∃ t, exec (.printerFault p job cause) s = .next t ∧ PrinterKept s t ∧
    t.printers[p] = { s.printers[p].drop .notReady with frameTimer := true, condition := c } := by
  obtain ⟨own, -⟩ := s.takeFault_cases p job.toNat c
  obtain ⟨kept, port, -⟩ := s.interruptedBy_left p c s.printers[p].inHand
  rw [← own ⟨busy, inHand⟩] at kept port
  obtain ⟨kept', port', -⟩ := State.settle_port kept port nofun
  exact ⟨_, exec_printerFault hp p known ((PrinterState.accepted_iff _).2 (.inr (.inl busy))) job, kept', port'⟩

/-- R126: what the frame timer of an accepted printer leaves. -/
theorem exec_printerFrameTimeout_expired (accepted : s.printers[p].state.accepted = true) (timer : s.printers[p].frameTimer = true) :
    ∃ t, exec (.printerFrameTimeout p) s = .next t ∧ PrinterKept s t ∧
    t.printers[p] = { s.printers[p].drop .lost with frameTimer := false, doneTimer := false, condition := .unknown } ∧
    (t.link.flags[(Flag.printerLost p).entry]).pending = true := by
  obtain ⟨expires, -⟩ := exec_printerFrameTimeout hp p
  obtain ⟨kept, port, lost⟩ := s.losePrinter_left p
  obtain ⟨kept', port', pending⟩ := State.settle_port kept port nofun
  exact ⟨_, expires accepted timer, kept', port', pending _ lost⟩

/-- R130: what the done timer leaves. -/
theorem exec_doneTimeout_expired (phase : s.printers[p].phase = some .awaitingDone) (timer : s.printers[p].doneTimer = true) :
    ∃ t, exec (.doneTimeout p) s = .next t ∧ PrinterKept s t ∧
    t.printers[p] = { s.printers[p].drop .notReady with condition := .unknown } := by
  obtain ⟨kept, printers⟩ := s.interrupt_left p .notReady
  have port : ((s.interrupt p .notReady).onPrinter p fun q => { q with condition := .unknown }).printers[p] =
      { s.printers[p].drop .notReady with condition := .unknown } := by
    rw [State.onPrinter, modAt_same, printers, modAt_same]
  obtain ⟨kept', port', -⟩ := State.settle_port (kept.trans (.onPrinter ..)) port nofun
  exact ⟨_, exec_doneTimeout hp p phase timer, kept', port'⟩

end

/-- Settles O51: each event by its own effect, and what `settle` leaves of a port that is not READY. -/
theorem printerEventsMoveThePort : Obligations.PrinterEventsMoveThePort := by
  unfold Obligations.PrinterEventsMoveThePort
  intro s p hp q kept present owesAccept after dropped taken conditioned lost
  have after_eq : ∀ u, after u = s.settle u := fun u => rfl
  have dropped_eq : ∀ state, dropped state s = s.interrupt p state := fun state => rfl
  have dropped_taken : ∀ state, dropped state taken = (s.restartFrameTimer p).interrupt p state :=
    fun state => (s.interrupt_restarted p state).symm
  have conditioned_eq : ∀ c job u, u.printers[p].condition = q.condition → conditioned c job u = u.setCondition p c job :=
    fun c job u same => by
      have sets := u.setCondition_eq p c job
      rw [same] at sets
      refine Eq.trans ?_ sets.symm
      cases c <;> rfl
  have lost_eq : lost = s.losePrinter p := rfl
  have taken_eq : taken = s.restartFrameTimer p := rfl
  have kept_iff : ∀ t, kept t ↔ PrinterKept s t := fun t => Iff.rfl
  have accepted : present ↔ s.printers[p].state.accepted = true := (PrinterState.accepted_iff _).symm
  have discarded : ¬present → s.printers[p].state.accepted = false := fun h => Bool.eq_false_iff.2 (mt accepted.2 h)
  have takes : present ∨ (q.state = .waiting ∧ q.serial.isSome = true) ↔ s.printers[p].takesState = true :=
    (PrinterPort.takesState_iff _).symm
  have greeted : ∀ {t : State} {serial : BitVec 32}, PrinterPort.Greeted p serial q t.printers[p] → owesAccept t serial :=
    fun h => ⟨h.busy, h.free⟩
  clear_value after dropped taken conditioned lost kept owesAccept
  have absent : q.state = .waiting ∨ q.state = .lost → s.printers[p].state.accepted = false := PrinterState.accepted_false
  have interrupted : ((s.restartFrameTimer p).interrupt p .notReady).printers[p].condition = q.condition := by
    rw [State.interrupt_restarted_port]
    rfl
  have restarted : (s.restartFrameTimer p).printers[p].condition = q.condition := by rw [State.restartFrameTimer_port]
  refine ⟨fun busy => ?_, fun j => rfl, fun c => ⟨?_, c.fields_ascending⟩, fun away => ?_, fun serial model state => ?_,
    fun serial model h => ?_, fun condition c listed h => ?_, fun busy => ?_, fun condition c listed h => ?_,
    fun job j h inHand phase found => ?_, fun job h other => ?_, fun job cause low high busy inHand => ?_,
    fun job cause low high h other => ?_, fun h timer => ?_, fun phase timer => ?_, fun f sending => ?_, Job.failedBody_eq,
    fun j counted => s.returnJob_eq p j counted⟩
  · have isAccepted : s.printers[p].state.accepted = true := accepted.1 (.inr (.inl busy))
    refine ⟨fun condition c listed => ?_, fun job cause c inHand listed => ?_, fun serial model => ⟨fun own => ?_, fun other => ?_⟩,
      fun timer => ?_, fun phase timer => ?_⟩
    · have known := conditionOf_listed (List.mem_cons_of_mem _ listed)
      have notReady : c ≠ .ready := by
        rintro rfl
        simp at listed
      obtain ⟨-, interrupts⟩ := State.takePrinterState_busy busy c
      rw [after_eq, dropped_taken, conditioned_eq _ _ _ interrupted]
      exact (exec_printerState hp p known (takes.1 (.inl (.inr (.inl busy))))).trans (by rw [interrupts notReady])
    · obtain ⟨own, -⟩ := s.takeFault_cases p job.toNat c
      rw [after_eq, dropped_taken, conditioned_eq _ _ _ interrupted]
      exact (exec_printerFault hp p (causeCondition_listed listed) isAccepted job).trans (by rw [own ⟨busy, inHand⟩])
    · obtain ⟨again, -⟩ := s.hello_again p serial model isAccepted own
      rw [after_eq, dropped_eq, exec_printerHello hp p serial model, again, s.printerRestarted_busy p serial busy]
      rfl
    · obtain ⟨replaces, -⟩ := s.hello_other p serial model isAccepted other
      rw [after_eq, lost_eq, exec_printerHello hp p serial model, replaces]
      rfl
    · obtain ⟨expires, -⟩ := exec_printerFrameTimeout hp p
      rw [after_eq, lost_eq]
      exact expires isAccepted timer
    · rw [after_eq, dropped_eq]
      exact exec_doneTimeout hp p phase timer
  · unfold LabelContent.fields
    simp only [fieldOf_eq]
    rfl
  · have no := discarded away
    exact ⟨fun job => (exec_printerDone hp p job).2 no, exec_printerFault_discarded hp p no, (exec_printerFrameTimeout hp p).2 no,
      fun noState => exec_printerState_discarded hp p (Bool.eq_false_iff.2 (mt takes.2 (not_or.2 ⟨away, noState⟩)))⟩
  · obtain ⟨t, runs, keptHello, greets, modelTaken, found⟩ := exec_printerHello_first hp (absent state) serial model
    exact ⟨t, runs, (kept_iff t).2 keptHello, greets.state, greets.own, modelTaken, greets.condition, greets.frameTimer, greeted greets,
      found⟩
  · by_cases own : q.serial = some serial
    · obtain ⟨t, runs, keptHello, greets, modelKept, hand⟩ := exec_printerHello_again hp (accepted.1 h) own model
      refine ⟨t, runs, (kept_iff t).2 keptHello, greets.state, hand.trans ?_, greets.own, greets.condition, greets.frameTimer,
        greeted greets, modelKept.trans (if_pos own).symm, fun other => absurd own other⟩
      by_cases busy : q.state = .busyPrinting
      · rw [if_pos busy, if_neg fun free => free.2 busy]
      · rw [if_neg busy, if_pos ⟨own, busy⟩]
    · obtain ⟨t, runs, keptHello, greets, modelTaken, hand, flags⟩ := exec_printerHello_other hp (accepted.1 h) own model
      exact ⟨t, runs, (kept_iff t).2 keptHello, greets.state, hand.trans (if_neg fun same => own same.1).symm, greets.own,
        greets.condition, greets.frameTimer, greeted greets, modelTaken.trans (if_neg own).symm, fun _ => flags⟩
  · have known := conditionOf_listed listed
    by_cases busy : q.state = .busyPrinting
    · obtain ⟨t, runs, keptState, ready, interrupts, paper, head⟩ := exec_printerState_busy hp known busy
      by_cases isReady : c = .ready
      · have port := ready isReady
        exact ⟨t, runs, (kept_iff t).2 keptState, by rw [port, isReady], by rw [port], fun other => absurd isReady other,
          fun _ _ => port, fun _ other => absurd busy other, paper, head⟩
      · have port := interrupts isReady
        have notReady : t.printers[p].state = .notReady := by
          rw [port]
          rfl
        exact ⟨t, runs, (kept_iff t).2 keptState, by rw [port], by rw [port], fun _ => notReady, fun same => absurd same isReady,
          fun same => absurd same isReady, paper, head⟩
    · obtain ⟨t, runs, keptState, condition', timer, notReady, ready, paper, head⟩ :=
        exec_printerState_other hp known busy (takes.1 h)
      exact ⟨t, runs, (kept_iff t).2 keptState, condition', timer, notReady, fun _ same => absurd same busy,
        fun isReady _ => ready isReady, paper, head⟩
  · obtain ⟨stays, -⟩ := State.takePrinterState_busy busy .ready
    rw [after_eq, taken_eq, conditioned_eq _ _ _ restarted]
    exact (exec_printerState hp p rfl (takes.1 (.inl (.inr (.inl busy))))).trans (by rw [stays rfl])
  · have other : s.printers[p].state ≠ .busyPrinting := by
      rintro busy
      rcases h with same | same | ⟨same, -⟩ <;> exact absurd (same.symm.trans busy) nofun
    have taking : s.printers[p].takesState = true := by
      rcases h with same | same | same
      · exact takes.1 (.inl (.inl same))
      · exact takes.1 (.inl (.inr (.inr same)))
      · exact takes.1 (.inr same)
    have condition' : ((s.restartFrameTimer p).onPrinter p fun q =>
        { q with state := if c = .ready then .ready else .notReady }).printers[p].condition = q.condition := by
      rw [State.onPrinter, modAt_same, State.restartFrameTimer_port]
    rw [after_eq, taken_eq]
    refine (exec_printerState hp p (conditionOf_listed listed) taking).trans ?_
    rw [State.takePrinterState_other other c, ← conditioned_eq c none _ condition']
    rfl
  · obtain ⟨own, -⟩ := s.takeDone_cases p job.toNat
    rw [after_eq]
    exact ((exec_printerDone hp p job).1 (accepted.1 h)).trans (by rw [own j inHand phase found])
  · obtain ⟨-, others⟩ := s.takeDone_cases p job.toNat
    rw [after_eq, taken_eq]
    exact ((exec_printerDone hp p job).1 (accepted.1 h)).trans (by rw [others other])
  · obtain ⟨t, runs, keptFault, port⟩ := exec_printerFault_own hp (causeCondition_in_range low high) busy inHand
    refine ⟨t, runs, (kept_iff t).2 keptFault, ?_⟩
    rw [port]
    exact ⟨rfl, rfl, rfl, rfl, rfl, rfl⟩
  · obtain ⟨-, others⟩ := s.takeFault_cases p job.toNat (if cause = 1 then .paperOut else if cause = 2 then .headOpen else .unknown)
    rw [after_eq, taken_eq]
    exact (exec_printerFault hp p (causeCondition_in_range low high) (accepted.1 h) job).trans (by rw [others other])
  · obtain ⟨t, runs, keptLost, port, lost⟩ := exec_printerFrameTimeout_expired hp (accepted.1 h) timer
    refine ⟨t, runs, (kept_iff t).2 keptLost, ?_⟩
    rw [port]
    exact ⟨rfl, rfl, rfl, rfl, rfl, lost⟩
  · obtain ⟨t, runs, keptTimeout, port⟩ := exec_doneTimeout_expired hp phase timer
    refine ⟨t, runs, (kept_iff t).2 keptTimeout, ?_⟩
    rw [port]
    exact ⟨rfl, rfl, rfl, rfl⟩
  · obtain ⟨ended, goesOn⟩ := PrinterPort.frameEnd_eq p f s.printers[p]
    refine (exec_printerFrameEnd hp p sending).trans
      (congrArg (fun ports => Host.Outcome.next (State.finish { s with printers := ports } s)) (modAt_congr ?_))
    split
    · next last => exact ended last
    · next other => exact goesOn other

end Sys2Proof.Machine
end

section
/-! SET_CLOCK (R136, R179). -/

namespace Sys2Proof.Machine

/-- R179, R182: the seven bytes of a date and time, valid or not, are the arguments of SET_CLOCK. -/
theorem parseClock_encDateTime {d : DateTime} (year : d.year < 65536) (month : d.month < 256) (day : d.day < 256)
    (hour : d.hour < 256) (minute : d.minute < 256) (second : d.second < 256) : parseClock (encDateTime d) = some d := by
  simp only [parseClock, encDateTime, parseAll, mapP, both, List.append_assoc, u1, u2, num_leBytes (k := 2) year,
    num_leBytes (k := 1) month, num_leBytes (k := 1) day, num_leBytes (k := 1) hour, num_leBytes (k := 1) minute,
    num_leBytes_all (k := 1) second]

/-- R136, R179: the clock takes a valid value and the runs are examined with it set; another value changes nothing. -/
theorem State.setClock_cases (s : State) (d : DateTime) :
    (d.valid = true →
      State.setClock d s = (State.examineAll { s with link := { s.link with clock := some d } }, [0])) ∧
    (d.valid = false → State.setClock d s = (s, [3])) := by
  unfold State.setClock
  refine ⟨fun valid => ?_, fun invalid => ?_⟩
  · rw [if_pos valid]
    rfl
  · rw [if_neg (by rw [invalid]; nofun)]
    rfl

/-- Settles O18: the payload reads back as the value sent, and SET_CLOCK does with it what its validity says. -/
theorem setClockSetsAValidValue : Obligations.SetClockSetsAValidValue := by
  unfold Obligations.SetClockSetsAValidValue
  intro s d year month day hour minute second executing
  have parsed := parseClock_encDateTime year month day hour minute second
  obtain ⟨sets, refuses⟩ := s.setClock_cases d
  exact ⟨fun valid => State.request_args_eq executing parsed (sets valid),
    fun invalid => State.request_args_eq executing parsed (refuses invalid)⟩

end Sys2Proof.Machine
end

section
/-! SUPPORT. CLEAR_STORE and CLOSE_PERIOD (R152, R166). -/

namespace Sys2Proof.Machine

/-- CLEAR_STORE and CLOSE_PERIOD are requests without arguments (R152, R166). -/
theorem exec_quietRequests (s : State) :
    exec .clearStore s = s.request 0x1C (noArgs State.clearStore) ∧
    exec .closePeriod s = s.request 0x52 (noArgs State.closePeriod) := ⟨rfl, rfl⟩

/-- R97: some basket record is OPEN. -/
theorem any_opened_iff (records : List Basket) :
    records.any (fun b => b.state == .opened) = true ↔ ∃ b ∈ records, b.state = .opened := by
  simp only [List.any_eq_true, beq_iff_eq]

/-- R134: some station's run is ACTIVE or in ENDING. -/
theorem State.any_holds_iff (s : State) : stations.any (fun st => s.runs[st].holds) = true ↔
    ∃ st : Station, s.runs[st].state = .active ∨ s.runs[st].state = .ending := by
  simp only [List.any_eq_true, Run.holds, Bool.or_eq_true, beq_iff_eq, stations_complete.2, true_and]

/-- R152, R166: the checks that a period close and a clear share, in order. -/
theorem State.quietCheck_cases (s : State) :
    let opened := ∃ b ∈ s.pool.records, b.state = .opened
    let running := ∃ st : Station, s.runs[st].state = .active ∨ s.runs[st].state = .ending
    let busy := s.totals.commits ≠ [] ∨ s.totals.closing.isSome = true
    (s.store.state ≠ .verified → s.quietCheck = some .storeNotReady) ∧
    (s.store.state = .verified → opened → s.quietCheck = some .basketsOpen) ∧
    (s.store.state = .verified → ¬opened → running → s.quietCheck = some .runActive) ∧
    (s.store.state = .verified → ¬opened → ¬running → busy → s.quietCheck = some .busy) ∧
    (s.store.state = .verified → ¬opened → ¬running → ¬busy → s.quietCheck = none) := by
  unfold State.quietCheck
  rw [← any_opened_iff, ← s.any_holds_iff]
  refine ⟨fun h => if_pos h, fun h opened => ?_, fun h closed running => ?_, fun h closed idle busy => ?_,
    fun h closed idle free => ?_⟩
  · rw [if_neg (not_not_intro h), if_pos opened]
  · rw [if_neg (not_not_intro h), if_neg closed, if_pos running]
  · rw [if_neg (not_not_intro h), if_neg closed, if_neg idle, if_pos busy]
  · rw [if_neg (not_not_intro h), if_neg closed, if_neg idle, if_neg free]

/-- R152, R166: what the shared checks refuse is refused by both requests, and nothing changes. -/
theorem State.quiet_refused {s : State} {status : Status} (check : s.quietCheck = some status) :
    s.clearStore = (s, refusal status) ∧ s.closePeriod = (s, refusal status) := by
  unfold State.clearStore State.closePeriod
  rw [check]
  exact ⟨rfl, rfl⟩

/-- R166: a clear that the checks let pass waits for the port, the store UNVERIFIED. -/
theorem State.clearStore_accepted {s : State} (check : s.quietCheck = none) : s.clearStore =
    ({ s with store := { s.store with state := .unverified, clearAccepted := true } }, [0]) := by
  unfold State.clearStore
  rw [check]
  rfl

/-- R152: a close that the checks let pass: FULL at the last Z number, otherwise the queue closes for the next one. -/
theorem State.closePeriod_accepted {s : State} (check : s.quietCheck = none) : s.closePeriod =
    if s.totals.grand.z = 4294967295 then (s, [6])
    else ({ s with totals := { s.totals with closing := some (s.totals.grand.z + 1) } }, 0 :: u4 (s.totals.grand.z + 1)) := by
  unfold State.closePeriod
  rw [check]
  rfl

/-- Settles O37: the shared checks in their order, and what each request does when they let it pass. -/
theorem clearAndCloseNeedAQuietStore : Obligations.ClearAndCloseNeedAQuietStore := by
  unfold Obligations.ClearAndCloseNeedAQuietStore
  intro s
  obtain ⟨unready, opened, running, busy, quiet⟩ := s.quietCheck_cases
  obtain ⟨clear, close⟩ := exec_quietRequests s
  refine ⟨fun c kind listed executing => ?_, fun ready closed idle free => ?_⟩
  · have refused : ∀ {status : Status} {reply : List Byte}, refusal status = reply → s.quietCheck = some status →
        exec c s = .next (answered s s reply) := by
      intro status reply code check
      obtain ⟨noClear, noClose⟩ := State.quiet_refused check
      simp only [List.mem_cons, Prod.mk.injEq, List.not_mem_nil, or_false] at listed
      obtain ⟨rfl, rfl⟩ | ⟨rfl, rfl⟩ := listed
      · rw [clear, State.request_noArgs executing, noClear, ← code]
      · rw [close, State.request_noArgs executing, noClose, ← code]
    exact ⟨fun h => refused rfl (unready h), fun h o => refused rfl (opened h o), fun h o r => refused rfl (running h o r),
      fun h o r b => refused rfl (busy h o r b)⟩
  · have passes := quiet ready closed idle free
    refine ⟨fun executing => ?_, fun executing => ⟨fun last => ?_, fun next => ?_⟩⟩
    · rw [clear, State.request_noArgs executing, State.clearStore_accepted passes]
    · rw [close, State.request_noArgs executing, State.closePeriod_accepted passes, if_pos last]
    · rw [close, State.request_noArgs executing, State.closePeriod_accepted passes, if_neg next]

end Sys2Proof.Machine
end

section
/-! SUPPORT. The words a pass transfers (R158): the FRAM of a pass is the one it began with, with the words of its trace put in. -/

namespace Sys2Proof.Machine

/-! ## Passes that go on -/

/-- R158: q has gone on from p: its trace names the words transferred since, in order, and its FRAM holds them. -/
structure Pass.Grows (p q : Pass) : Prop where
  words : ∃ new, q.trace = p.trace ++ new ∧ q.fram = new.foldl (fun m x => Memory.putWord m x.1 x.2) p.fram

theorem Pass.Grows.refl (p : Pass) : p.Grows p := ⟨⟨[], (List.append_nil _).symm, rfl⟩⟩

/-- R158: bytes outside the words put in are as before. -/
theorem Memory.byte_putWords {a : Nat} : ∀ {trace : List (Nat × BitVec 72)} {m : List Host.Cell}, Memory.wf m →
    (∀ w v, (w, v) ∈ trace → a < 9 * w ∨ 9 * w + 9 ≤ a) →
    Memory.byte (trace.foldl (fun m x => Memory.putWord m x.1 x.2) m) a = Memory.byte m a
  | [], _, _, _ => rfl
  | x :: rest, m, h, outside => by
    rw [List.foldl_cons, Memory.byte_putWords (Memory.putWord_wf h) fun w v hw => outside w v (List.mem_cons_of_mem _ hw)]
    exact Memory.byte_putWord h (outside x.1 x.2 List.mem_cons_self)

/-- R158: a pass begun over a FRAM leaves every byte outside the words of its trace. -/
theorem Pass.Grows.byte {m : List Host.Cell} {log : MemLog} {q : Pass} (grows : (Pass.start m log).Grows q) (wf : Memory.wf m)
    {a : Nat} (outside : ∀ w v, (w, v) ∈ q.trace → a < 9 * w ∨ 9 * w + 9 ≤ a) : Memory.byte q.fram a = Memory.byte m a := by
  obtain ⟨new, trace, fram⟩ := grows.words
  have begun : q.trace = new := trace
  rw [begun] at outside
  rw [fram]
  exact Memory.byte_putWords wf outside

section
variable {p q : Pass} (h : p.Grows q)
include h

/-- The log, the flags and the failure mark are no words. -/
theorem Pass.Grows.idle {q' : Pass} (trace : q'.trace = q.trace) (fram : q'.fram = q.fram) : p.Grows q' := by
  obtain ⟨new, words⟩ := h.words
  rw [← trace, ← fram] at words
  exact ⟨⟨new, words⟩⟩

theorem Pass.Grows.setLog (log : MemLog) : p.Grows { q with log := log } := h.idle rfl rfl

/-! ## Words written and read -/

theorem Pass.Grows.transfer (w : Nat) (v : BitVec 72) : p.Grows (q.transfer w v) := by
  obtain ⟨new, trace, fram⟩ := h.words
  refine ⟨⟨new ++ [(w, v)], ?_, ?_⟩⟩
  · rw [← List.append_assoc, ← trace]
    rfl
  · rw [List.foldl_append, ← fram]
    rfl

omit h in
theorem Pass.Grows.writeWords : ∀ (ds : List (BitVec 64)) {q : Pass} (_ : p.Grows q) (w : Nat), p.Grows (q.writeWords w ds)
  | [], _, h, _ => h
  | d :: ds, _, h, w => Pass.Grows.writeWords ds (h.transfer w (storedWord d)) (w + 1)

theorem Pass.Grows.write (w n : Nat) (bs : List Byte) : p.Grows (q.write w n bs) := Pass.Grows.writeWords _ h w

theorem Pass.Grows.capture (r : Requester) (e : WordError) : p.Grows (Pass.capture r q e) := by
  unfold Pass.capture
  have logged : p.Grows { q with
      log := q.log.take r e
      raises := match q.log.flagOf e with
        | none => q.raises
        | some f => q.raises ++ [(f, u2 e.word ++ u1 r.code)] } := h.idle rfl rfl
  exact logged.write ..

omit h in
/-- A fold of steps that each go on goes on. -/
theorem Pass.Grows.foldl {α β : Type} {pass : β → Pass} {f : β → α → β}
    (step : ∀ x a, p.Grows (pass x) → p.Grows (pass (f x a))) :
    ∀ (as : List α) {x : β}, p.Grows (pass x) → p.Grows (pass (as.foldl f x))
  | [], _, h => h
  | a :: as, x, h => Pass.Grows.foldl step as (step x a h)

theorem Pass.Grows.captureAll (r : Requester) (es : List WordError) : p.Grows (es.foldl (Pass.capture r) q) :=
  Pass.Grows.foldl (pass := fun q => q) (fun _ e h => h.capture r e) es h

theorem Pass.Grows.readOne (w : Nat) : p.Grows (q.readOne w).1 := by
  unfold Pass.readOne
  split
  · exact h
  · exact h.transfer ..
  · exact h

omit h in
theorem Pass.Grows.readWords : ∀ (n : Nat) {q : Pass} (_ : p.Grows q) (w : Nat), p.Grows (q.readWords w n).1
  | 0, _, h, _ => h
  | n + 1, q, h, w => by
    rw [Pass.readWords]
    exact Pass.Grows.readWords n (h.readOne w) (w + 1)

theorem Pass.Grows.read (r : Requester) (w n : Nat) : p.Grows (q.read r w n).1 := by
  unfold Pass.read
  exact (Pass.Grows.readWords n h w).captureAll ..

/-! ## Records -/

theorem Pass.Grows.writeAcc (a : AccId) (x : Acc) : p.Grows (q.writeAcc a x) := (h.write ..).write ..

theorem Pass.Grows.writeGrand (g : Grand) : p.Grows (q.writeGrand g) := (h.write ..).write ..

theorem Pass.Grows.writeMark (n : Nat) : p.Grows (q.writeMark n) := (h.write ..).write ..

theorem Pass.Grows.writeCal (w : CalWrite) : p.Grows (q.writeCal w) := ((h.write ..).write ..).write ..

theorem Pass.Grows.writeLastPeriod (l : LastPeriod) : p.Grows (q.writeLastPeriod l) := h.write ..

theorem Pass.Grows.writeJournal (kind number : Nat) (content : List Byte) : p.Grows (q.writeJournal kind number content) :=
  (h.write ..).write ..

theorem Pass.Grows.doneJournal (kind number : Nat) (content : List Byte) : p.Grows (q.doneJournal kind number content) :=
  h.write ..

theorem Pass.Grows.zeroAll : p.Grows q.zeroAll := by
  unfold Pass.zeroAll
  exact Pass.Grows.foldl (pass := fun q => q) (fun _ i h => h.writeAcc (accAt i) (accAt i).zero) (List.range accCount) h

theorem Pass.Grows.clearRest : p.Grows q.clearRest := by
  unfold Pass.clearRest
  exact ((h.zeroAll.setLog .reset).write ..).write ..

theorem Pass.Grows.readAcc (r : Requester) (a : AccId) (plu : Option Nat) : p.Grows (q.readAcc r a plu).1 := by
  have read := h.read r a.word (a.bodyWords + 1)
  obtain ⟨damaged, whole⟩ := q.readAcc_cases r a plu
  cases found : (q.read r a.word (a.bodyWords + 1)).2 with
  | none => rw [damaged found]; exact read.writeAcc ..
  | some bs => rw [whole bs found]; dsimp only; exact read

/-- Words written only where two values differ. -/
theorem Pass.Grows.writeUnless (same : Prop) [Decidable same] (w n : Nat) (bs : List Byte) :
    p.Grows (if same then q else q.write w n bs) := by
  split
  · exact h
  · exact h.write ..

theorem Pass.Grows.readPair {α : Type} [DecidableEq α] (r : Requester) (w n : Nat) (parse : List Byte → α)
    (bytes : α → List Byte) (larger : α → α → α) : p.Grows (q.readPair r w n parse bytes larger).1 := by
  have reads := (h.read r w n).read r (w + n) n
  obtain ⟨neither, first, second, both⟩ := q.readPair_cases r w n parse bytes larger
  cases one : (q.read r w n).2 with
  | none =>
    cases two : ((q.read r w n).1.read r (w + n) n).2 with
    | none => rw [neither one two]; exact reads.idle rfl rfl
    | some bs => rw [second bs one two]; exact reads.write ..
  | some as =>
    cases two : ((q.read r w n).1.read r (w + n) n).2 with
    | none => rw [first as one two]; exact reads.write ..
    | some bs =>
      rw [both as bs one two]
      exact (reads.writeUnless ..).writeUnless ..

theorem Pass.Grows.readLastPeriod (r : Requester) : p.Grows (q.readLastPeriod r).1 := by
  have read := h.read r lastPeriodWord lastPeriodWords
  unfold Pass.readLastPeriod
  generalize q.read r lastPeriodWord lastPeriodWords = one at read ⊢
  obtain ⟨q, _ | bs⟩ := one
  · exact read.writeLastPeriod ..
  · exact read

theorem Pass.Grows.readCal (r : Requester) (st : Station) : p.Grows (q.readCal r st).1 := by
  have read := h.read r (calWord st) 3
  unfold Pass.readCal
  generalize q.read r (calWord st) 3 = one at read ⊢
  obtain ⟨q, _ | bs⟩ := one
  · exact read
  · dsimp only
    split <;> exact read

/-! ## The journal -/

omit h in
theorem Pass.Grows.readEntry (r : Requester) : ∀ (fuel : Nat) {q : Pass} (_ : p.Grows q) (w : Nat) (bs : List Byte),
    p.Grows (Pass.readEntry (fun q w => q.read r w 1) fuel q w bs).1
  | 0, _, h, _, _ => h
  | fuel + 1, q, h, w, bs => by
    obtain ⟨whole, short⟩ := Pass.readEntry_cases (fun q w => q.read r w 1) q fuel w bs
    rcases Nat.lt_or_ge bs.length (journalNeed bs) with more | enough
    · obtain ⟨unread, goesOn⟩ := short more
      cases found : (q.read r w 1).2 with
      | none =>
        rw [unread found]
        exact Pass.Grows.foldl (pass := fun q => q) (fun _ i h => h.read r (w + 1 + i) 1) (List.range fuel) (h.read r w 1)
      | some next =>
        rw [goesOn next found]
        exact Pass.Grows.readEntry r fuel (h.read r w 1) (w + 1) (bs ++ next)
    · rw [whole enough]
      exact h

theorem Pass.Grows.readJournal : p.Grows (q.readJournal .startupScan).1 := by
  rw [Pass.readJournal_eq]
  dsimp only
  exact Pass.Grows.readEntry .startupScan 1024 h 256 []

/-! ## The stages of the verify (R160) -/

theorem Pass.Grows.loadLog : p.Grows q.loadLog := by
  have read := Pass.Grows.readWords 2 h 10824
  obtain ⟨unread, loaded⟩ := q.loadLog_cases
  cases found : recordBytes (q.readWords 10824 2).2.words with
  | none =>
    rw [unread found]
    exact ((read.setLog .reset).write ..).captureAll ..
  | some bs =>
    rw [loaded bs found]
    exact (read.setLog (parseLog bs)).captureAll ..

omit h in
theorem Pass.Grows.readCals : ∀ (sts : List Station) {q : Pass} (_ : p.Grows q), p.Grows (q.readCals sts).1
  | [], _, h => h
  | st :: rest, q, h => by
    rw [Pass.readCals_cons]
    exact Pass.Grows.readCals rest (h.readCal .startupScan st)

omit h in
theorem Pass.Grows.readCounters : ∀ (sts : List Station) {q : Pass} (_ : p.Grows q), p.Grows (q.readCounters sts).1
  | [], _, h => h
  | st :: rest, q, h => by
    have read := h.readPair .startupScan (24 + 2 * st.val) 1 parseCount u4 max
    rw [Pass.readCounters_cons]
    split
    · dsimp only
      exact read
    · exact Pass.Grows.readCounters rest read

theorem Pass.Grows.readLegal : p.Grows q.readLegal.1 := by
  have counters := Pass.Grows.readCounters stations (Pass.Grows.readCals stations h)
  have mark := counters.readPair .startupScan 40 1 parseCount u4 max
  have grand := mark.readPair .startupScan 42 2 parseGrand Grand.bytes largerGrand
  rw [Pass.readLegal_eq]
  split
  · dsimp only
    exact counters
  · split
    · dsimp only
      exact mark
    · dsimp only
      exact grand

omit h in
theorem Pass.Grows.readAccs : ∀ (is : List Nat) {q : Pass} (_ : p.Grows q) (accs : List (Nat × Acc)) (n : Nat),
    p.Grows (q.readAccs accs n is).1
  | [], _, h, _, _ => h
  | i :: rest, q, h, accs, n => by
    rw [Pass.readAccs_cons]
    exact Pass.Grows.readAccs rest (h.readAcc .startupScan (accAt i) none) ..

omit h in
theorem Pass.Grows.replayEntry (n : Nat) (x : Pass × List (Nat × Acc)) (e : DeltaEntry) (h : p.Grows x.1) :
    p.Grows (replayEntry n x e).1 := by
  obtain ⟨q, accs⟩ := x
  obtain ⟨applied, behind⟩ := replayEntry_cases n q accs e
  rcases Nat.lt_or_ge (accOf accs e.acc).lastApplied n with less | least
  · rw [behind less]
    exact Pass.Grows.writeAcc h ..
  · rw [applied least]
    exact h

theorem Pass.Grows.replay (d : VerifyData) : p.Grows (replay q d).1 := by
  obtain ⟨nothing, done, commit, clear, uncorrectable⟩ := replay_cases q d
  cases kind : d.journal with
  | nothing => rw [nothing kind]; exact h
  | done n => rw [done n kind]; exact h
  | commit j =>
    rw [commit j kind]
    exact (Pass.Grows.foldl (pass := Prod.fst) (Pass.Grows.replayEntry j.applyNumber) j.entries (x := (q, d.accs)) h).doneJournal ..
  | close j =>
    rw [replay_close q kind]
    refine (Pass.Grows.zeroAll ?_).doneJournal ..
    split
    · exact ((h.write ..).write ..).write ..
    · exact h.write ..
  | clear => rw [clear kind]; exact h.clearRest
  | uncorrectable => rw [uncorrectable kind]; exact h.doneJournal ..

theorem Pass.Grows.verifyPass (stage : VerifyStage) (d : VerifyData) : p.Grows (verifyPass stage d q).1 := by
  cases stage with
  | presence => exact h
  | log => rw [verifyPass_log]; dsimp only; exact h.loadLog
  | legal => rw [verifyPass_legal]; dsimp only; exact h.readLegal
  | accumulators =>
    rw [verifyPass_accumulators, VerifyData.gather_pass]
    exact Pass.Grows.readAccs (List.range accCount) h [] 0
  | journal =>
    rw [verifyPass_journal]
    unfold Pass.readRecords
    dsimp only
    exact h.readJournal.readLastPeriod .startupScan
  | replay => exact h.replay d
  | serials => rw [verifyPass_serials]; dsimp only; exact h.writeMark ..

/-! ## The operations (R150, R153, R166, R169) -/

theorem Pass.Grows.applyEntry (n : Nat) (e : DeltaEntry) : p.Grows (applyEntry q n e).1 := by
  have read := h.readAcc .commit e.acc e.plu
  unfold Sys2Proof.Machine.applyEntry
  dsimp only
  split
  · exact read.writeAcc ..
  · exact read

theorem Pass.Grows.commitPass (j : CommitJournal) (phase : CommitPhase) : p.Grows (commitPass j phase q) := by
  unfold Sys2Proof.Machine.commitPass
  split
  · exact h.writeJournal ..
  · exact h.doneJournal ..
  · exact h.applyEntry ..
  · exact h.doneJournal ..

theorem Pass.Grows.closeGrand (j : CloseJournal) : p.Grows (closeGrand q j).1 := by
  have read := h.readPair .periodClose 42 2 parseGrand Grand.bytes largerGrand
  obtain ⟨none, kept, summed⟩ := closeGrand_cases q j
  cases found : (q.readPair .periodClose 42 2 parseGrand Grand.bytes largerGrand).2 with
  | none => rw [none found]; dsimp only; exact read
  | some g =>
    rcases Nat.lt_or_ge g.z j.period.z with less | least
    · rw [summed g found less]; exact read.writeGrand ..
    · rw [kept g found least]; dsimp only; exact read

theorem Pass.Grows.closePass (j : CloseJournal) (phase : ClosePhase) : p.Grows (closePass j phase q) := by
  cases phase with
  | journal => exact h.writeJournal ..
  | lastPeriod => exact h.writeLastPeriod ..
  | grand => exact h.closeGrand j
  | zeroing => exact h.zeroAll
  | done => exact h.doneJournal ..

theorem Pass.Grows.readCalPass (st : Station) : p.Grows (readCalPass q st).1 := by
  have one := (h.readCal .calibration st).read .calibration (counterWord st) 1
  unfold Sys2Proof.Machine.readCalPass
  dsimp only
  generalize (q.readCal .calibration st).1.read .calibration (counterWord st) 1 = first at one ⊢
  obtain ⟨q, _ | bs⟩ := first
  · have two := one.read .calibration (counterWord st + 1) 1
    dsimp only at two ⊢
    generalize q.read .calibration (counterWord st + 1) 1 = second at two ⊢
    obtain ⟨q2, _ | bs⟩ := second
    · exact two.idle rfl rfl
    · exact two
  · exact one

end

/-- R158: the operation in flight transfers the words of its trace and changes no other. -/
theorem State.opPass_grows (s : State) : s.pass.Grows s.opPass := by
  have begun := Pass.Grows.refl s.pass
  unfold State.opPass
  split
  · exact begun
  · exact begun.verifyPass ..
  · exact (begun.writeJournal ..).clearRest
  · exact begun.commitPass ..
  · exact begun.closePass ..
  · exact begun.writeCal ..
  · exact begun.writeMark ..
  · exact begun.readCalPass ..
  · exact begun.readLastPeriod ..
  · exact begun.write ..

end Sys2Proof.Machine
end

section
/-! SUPPORT. The parts that keys, requests and events leave alone (`calm`), and the commands that leave the FRAM (R158, R159). -/

namespace Sys2Proof.Machine

/-! ## Keys -/

/-- Whatever the key does when it is accepted, it leaves the calm parts. -/
def KeyCalm (f : State → Except Message State) : Prop := ∀ s t, f s = .ok t → calm t = calm s

variable (st : Station)

theorem selectPlu_calm (n : Nat) : KeyCalm (State.selectPlu st n) := by
  intro s t h
  unfold State.selectPlu at h
  split at h
  · cases h
  · cases h; simp

theorem presetKey_calm (k : Nat) : KeyCalm (State.presetKey st k) := by
  intro s t h
  unfold State.presetKey at h
  split at h
  · cases h
  · dsimp only at h
    split at h
    · cases h
    · exact selectPlu_calm _ _ _ _ h

theorem pluEntryKey_calm (n : Nat) : KeyCalm (State.pluEntryKey st n) := by
  intro s t h
  unfold State.pluEntryKey at h
  split at h
  · cases h
  · split at h
    · cases h
    · exact selectPlu_calm _ _ _ _ h

/-- R25: what a key makes of its channel. -/
theorem keyOnChannel_calm {r : State → Except Message Channel} : KeyCalm fun s => s.keyOnChannel st (r s) := by
  intro s t h
  dsimp only at h
  unfold State.keyOnChannel at h
  split at h
  · cases h
  · cases h; simp

theorem countEntryKey_calm (q : Nat) : KeyCalm (State.countEntryKey st q) := by
  intro s t h
  unfold State.countEntryKey at h
  split at h
  · cases h
  · exact keyOnChannel_calm st (r := fun s => s.channels[st].countKey q) s t h

theorem zeroKey_calm : KeyCalm (State.zeroKey st) := keyOnChannel_calm st (r := fun s => s.channels[st].zeroKey)

theorem tareKey_calm : KeyCalm (State.tareKey st) := keyOnChannel_calm st (r := fun s => s.channels[st].tareKey)

theorem clearTareKey_calm : KeyCalm (State.clearTareKey st) :=
  keyOnChannel_calm st (r := fun s => .ok s.channels[st].clearTare)

theorem clearKey_calm : KeyCalm (State.clearKey st) := by
  intro s t h
  unfold State.clearKey at h
  split at h
  · cases h
  · cases h
    split <;> simp

theorem pageKey_calm : KeyCalm (State.pageKey st) := by
  intro s t h
  cases h
  simp

theorem clerkKey_calm (n : Nat) : KeyCalm (State.clerkKey st n) := by
  intro s t h
  unfold State.clerkKey at h
  repeat' split at h
  all_goals cases h
  all_goals simp

theorem logoffKey_calm : KeyCalm (State.logoffKey st) := by
  intro s t h
  unfold State.logoffKey at h
  split at h
  · cases h
  · cases h; simp

omit st in
/-- A key of the current basket is accepted with the clerk and the basket it finds. -/
theorem State.withBasket_ok {s t : State} {st : Station} {f : Clerk → Basket → Except Message State}
    (h : s.withBasket st f = .ok t) : ∃ c b, f c b = .ok t := by
  unfold State.withBasket at h
  repeat' split at h
  · cases h
  · cases h
  · exact ⟨_, _, h⟩

theorem addKey_calm : KeyCalm (State.addKey st) := by
  intro s t h
  unfold State.addKey at h
  split at h
  · cases h
  · split at h
    · cases h
    · obtain ⟨c, b, h⟩ := State.withBasket_ok h
      unfold State.addChecked at h
      dsimp only at h
      repeat' split at h
      all_goals cases h
      simp

theorem voidKey_calm : KeyCalm (State.voidKey st) := by
  intro s t h
  obtain ⟨c, b, h⟩ := State.withBasket_ok h
  dsimp only at h
  split at h
  · cases h
  · cases h; simp

theorem parkKey_calm : KeyCalm (State.parkKey st) := by
  intro s t h
  obtain ⟨c, b, h⟩ := State.withBasket_ok h
  split at h
  · cases h
  · cases h; simp

theorem recallBasketKey_calm : KeyCalm (State.recallBasketKey st) := by
  intro s t h
  unfold State.recallBasketKey at h
  repeat' split at h
  all_goals cases h
  simp

theorem reprintKey_calm : KeyCalm (State.reprintKey st) := by
  intro s t h
  obtain ⟨c, b, h⟩ := State.withBasket_ok h
  dsimp only at h
  repeat' split at h
  all_goals cases h
  simp

theorem totalKey_calm : KeyCalm (State.totalKey st) := by
  intro s t h
  obtain ⟨c, b, h⟩ := State.withBasket_ok h
  repeat' split at h
  all_goals cases h
  all_goals simp

theorem nextCustomer_calm : KeyCalm (State.nextCustomer st) := by
  intro s t h
  unfold State.nextCustomer at h
  repeat' split at h
  all_goals cases h
  simp

theorem recallKey_calm (n : Nat) : KeyCalm (State.recallKey st n) := by
  intro s t h
  unfold State.recallKey State.recallTicketKey at h
  repeat' split at h
  all_goals cases h
  simp

/-- R13: the key of a key code, whichever it is. -/
theorem keyAction_calm (code number : Nat) : KeyCalm (State.keyAction st code number) := by
  intro s t h
  unfold State.keyAction at h
  split at h
  · cases h
  · next f found =>
    refine (?_ : KeyCalm f) s t h
    unfold keyOf at found
    split at found
    · cases found; exact presetKey_calm st code
    · split at found
      all_goals cases found
      · exact pluEntryKey_calm st number
      · exact countEntryKey_calm st number
      · exact zeroKey_calm st
      · exact tareKey_calm st
      · exact clearTareKey_calm st
      · exact clearKey_calm st
      · exact addKey_calm st
      · exact voidKey_calm st
      · exact totalKey_calm st
      · exact nextCustomer_calm st
      · exact parkKey_calm st
      · exact recallBasketKey_calm st
      · exact recallKey_calm st number
      · exact reprintKey_calm st
      · exact clerkKey_calm st number
      · exact logoffKey_calm st
      · exact pageKey_calm st

/-! ## Requests -/

variable (s : State)

@[simp] theorem calm_setClock (d : DateTime) : calm (State.setClock d s).1 = calm s := by
  unfold State.setClock; split
  · rw [calm_examineAll]; rfl
  · rfl

@[simp] theorem calm_enablePorts (values : List Nat) :
    calm ((stations.zip values).foldl (fun t x => t.enablePort x.1 (x.2 == 1)) s) = calm s :=
  calm_fold (f := fun (t : State) (x : Station × Nat) => t.enablePort x.1 (x.2 == 1)) (fun t x => calm_enablePort t x.1 _) _ s

@[simp] theorem calm_configurePorts (values : List Nat) : calm (State.configurePorts values s).1 = calm s := by
  unfold State.configurePorts; split <;> simp

@[simp] theorem calm_configureChannel (a : ConfigArgs) : calm (State.configureChannel a s).1 = calm s := by
  unfold State.configureChannel; split <;> simp

@[simp] theorem calm_resetChannel (n : Nat) : calm (State.resetChannel n s).1 = calm s := by
  unfold State.resetChannel; split <;> simp

@[simp] theorem calm_writeCalibration (a : Nat × CalRecord) : calm (State.writeCalibration a s).1 = calm s := by
  unfold State.writeCalibration
  split
  · rfl
  · dsimp only
    repeat' split
    · rfl
    · rfl
    · next st' _ _ _ _ =>
      have taken := calm_takeCalibration s st' a.2
      generalize s.takeCalibration st' a.2 = t at taken ⊢
      exact (calm_onStore rfl).trans taken

@[simp] theorem calm_awaitAccess (a : WaitingAccess) : calm (s.awaitAccess a) = calm s := calm_onStore rfl

@[simp] theorem calm_readCalibration (payload : List Byte) : calm (State.readCalibration payload s).1 = calm s := by
  unfold State.readCalibration; repeat' split
  all_goals simp

@[simp] theorem calm_readLastPeriod (payload : List Byte) : calm (State.readLastPeriod payload s).1 = calm s := by
  unfold State.readLastPeriod; repeat' split
  all_goals simp

@[simp] theorem calm_clearMemoryLog : calm s.clearMemoryLog.1 = calm s := by
  unfold State.clearMemoryLog; split
  · rfl
  · exact (calm_awaitAccess ..).trans (calm_onStore rfl)

@[simp] theorem calm_clearStore : calm s.clearStore.1 = calm s := by
  unfold State.clearStore; split
  · rfl
  · exact calm_onStore rfl

@[simp] theorem calm_closePeriod : calm s.closePeriod.1 = calm s := by
  unfold State.closePeriod; split
  · rfl
  · dsimp only; split <;> simp

@[simp] theorem calm_stagePlu (a : PluArgs) : calm (State.stagePlu a s).1 = calm s := by
  unfold State.stagePlu; repeat' split
  all_goals simp

@[simp] theorem calm_stageDelete (n : Nat) : calm (State.stageDelete n s).1 = calm s := by
  unfold State.stageDelete; repeat' split
  all_goals simp

@[simp] theorem calm_stageKeyPage (a : PageArgs) : calm (State.stageKeyPage a s).1 = calm s := by
  unfold State.stageKeyPage; repeat' split
  all_goals simp

@[simp] theorem calm_publish : calm s.publish.1 = calm s := by
  unfold State.publish; split <;> simp

@[simp] theorem calm_forceAdoption : calm s.forceAdoption.1 = calm s := calm_fold calm_forceChannel _ s

@[simp] theorem calm_defineClerk (a : ClerkArgs) : calm (State.defineClerk a s).1 = calm s := by
  unfold State.defineClerk; split
  · dsimp only; split <;> simp
  · rfl

@[simp] theorem calm_removeClerk (n : Nat) : calm (State.removeClerk n s).1 = calm s := by
  unfold State.removeClerk; repeat' split
  all_goals simp

@[simp] theorem calm_issueTicket : calm s.issueTicket.1 = calm s := by
  unfold State.issueTicket; split <;> simp

@[simp] theorem calm_resetNumbering : calm s.resetNumbering.1 = calm s := by
  unfold State.resetNumbering; split <;> simp

@[simp] theorem calm_cancelBasket (n : Nat) : calm (State.cancelBasket n s).1 = calm s := by
  unfold State.cancelBasket; repeat' split
  all_goals simp

@[simp] theorem calm_cancelJob (n : Nat) : calm (State.cancelJob n s).1 = calm s := by
  unfold State.cancelJob; repeat' split
  all_goals simp

@[simp] theorem calm_resetPrinterPort (n : Nat) : calm (State.resetPrinterPort n s).1 = calm s := by
  unfold State.resetPrinterPort; split <;> simp

@[simp] theorem calm_startRun (a : RunArgs) : calm (State.startRun a s).1 = calm s := by
  unfold State.startRun; repeat' split
  all_goals simp

@[simp] theorem calm_abortRun (n : Nat) : calm (State.abortRun n s).1 = calm s := by
  unfold State.abortRun; repeat' split
  all_goals simp

@[simp] theorem calm_clearRun (n : Nat) : calm (State.clearRun n s).1 = calm s := by
  unfold State.clearRun; repeat' split
  all_goals simp

@[simp] theorem calm_setFlagControl (cs : List FlagControl) : calm (State.setFlagControl cs s).1 = calm s := by
  unfold State.setFlagControl; split <;> rfl

/-- R177: clearing flags changes the flag table and the mark of the report being sent alone. -/
theorem calm_clearFlags : ∀ (ns : List Nat) (l : HostLink),
    calm { s with link := ns.foldl HostLink.clearFlag l } = calm { s with link := l }
  | [], _ => rfl
  | n :: ns, l => by
    rw [List.foldl_cons, calm_clearFlags ns]
    unfold HostLink.clearFlag
    split <;> rfl

@[simp] theorem calm_clearFlagList (ns : List Nat) : calm (State.clearFlagList ns s).1 = calm s := by
  unfold State.clearFlagList; split
  · exact calm_clearFlags s ns s.link
  · rfl

@[simp] theorem calm_readChannel (n : Nat) : calm (s.readChannel n).1 = calm s := by
  unfold State.readChannel; split <;> rfl

/-! ## Events of the heads -/

theorem hello_calm {t : State} {serial : BitVec 32} {model : Byte} (h : State.hello st serial model s = some t) :
    calm t = calm s := by
  unfold State.hello at h
  repeat' split at h
  all_goals cases h
  all_goals simp

theorem takeSample_calm {t : State} {raw : BitVec 24} {seq : Byte} (h : State.takeSample st raw seq s = some t) :
    calm t = calm s := by
  unfold State.takeSample at h
  dsimp only at h
  split at h
  · repeat' split at h
    all_goals rw [← Option.some.inj h]
    all_goals simp
  · cases h

theorem takeHeadState_calm {t : State} {condition : Byte} (h : State.takeHeadState st condition s = some t) :
    calm t = calm s := by
  unfold State.takeHeadState at h
  dsimp only at h
  repeat' split at h
  all_goals cases h
  all_goals simp

end Sys2Proof.Machine
end

section
/-! SUPPORT. Which commands change the FRAM, and what each of them changes (R153, R158, R159, R175). -/

namespace Sys2Proof.Machine

/-! ## Commands that leave the FRAM -/

/-- What an event leaves: the state as it is, or what its effect leaves, the next frames begun. -/
theorem State.event_cases {s t : State} {f : State → Option State} (h : s.event f = .next t) :
    t = s ∨ ∃ u, f s = some u ∧ t = u.finish s := by
  unfold State.event at h
  split at h
  · split at h
    · next u hu => exact .inr ⟨u, hu, (Host.Outcome.next.inj h).symm⟩
    · exact .inl (Host.Outcome.next.inj h).symm
  · exact .inl (Host.Outcome.next.inj h).symm

/-- The command changes no byte of the FRAM. -/
def KeepsFram (c : Instr) : Prop := ∀ s t, exec c s = .next t → t.store.fram = s.store.fram

variable {c : Instr}

theorem keepsFram_of_event {f : State → Option State} (arm : ∀ s, exec c s = s.event f)
    (keeps : ∀ s u, f s = some u → u.store.fram = s.store.fram) : KeepsFram c := by
  intro s t h
  rw [arm] at h
  rcases State.event_cases h with rfl | ⟨u, happens, rfl⟩
  · rfl
  · exact keeps s u happens

theorem keepsFram_of_calm {f : State → Option State} (arm : ∀ s, exec c s = s.event f)
    (quiet : ∀ s u, f s = some u → calm u = calm s) : KeepsFram c :=
  keepsFram_of_event arm fun s u h => congrArg Calm.fram (quiet s u h)

/-- An event that happens whenever the power is on. -/
theorem keepsFram_of_always {f : State → State} (arm : ∀ s, exec c s = s.event fun s => some (f s))
    (quiet : ∀ s, calm (f s) = calm s) : KeepsFram c :=
  keepsFram_of_calm arm fun s u h => by rw [← Option.some.inj h, quiet]

/-- An event that happens under a condition. -/
theorem keepsFram_of_when {p : State → Prop} [DecidablePred p] {f : State → State}
    (arm : ∀ s, exec c s = s.event fun s => if p s then some (f s) else none) (quiet : ∀ s, calm (f s) = calm s) :
    KeepsFram c :=
  keepsFram_of_calm arm fun s u h => by
    split at h
    · rw [← Option.some.inj h, quiet]
    · cases h

/-- R12, R13: the key of a station. -/
theorem keepsFram_of_key {st : Station} {f : State → Except Message State} (arm : ∀ s, exec c s = s.event fun s => s.takeKey st f)
    (quiet : KeyCalm f) : KeepsFram c :=
  keepsFram_of_calm arm fun _ _ h => calm_takeKey quiet h

/-- R172: a request, whatever its payload. -/
theorem keepsFram_of_request {kind : Nat} {f : List Byte → State → State × Option (List Byte)}
    (arm : ∀ s, exec c s = s.request kind f) (quiet : ∀ payload s, calm (f payload s).1 = calm s) : KeepsFram c := by
  refine keepsFram_of_event arm fun s u h => ?_
  split at h
  · cases h
  · next r _ =>
    have kept : (f r.payload s).1.store.fram = s.store.fram := congrArg Calm.fram (quiet r.payload s)
    split at h
    · generalize f r.payload s = x at h kept
      obtain ⟨t, _ | payload⟩ := x
      all_goals
        rw [← Option.some.inj h]
        exact kept
    · cases h

theorem keepsFram_of_noArgs {kind : Nat} {f : State → State × List Byte} (arm : ∀ s, exec c s = s.request kind (noArgs f))
    (quiet : ∀ s, calm (f s).1 = calm s) : KeepsFram c :=
  keepsFram_of_request arm fun payload s => by
    unfold noArgs
    split
    · exact quiet s
    · rfl

theorem keepsFram_of_withArgs {kind : Nat} {α : Type} {parse : List Byte → Option α} {f : α → State → State × List Byte}
    (arm : ∀ s, exec c s = s.request kind (withArgs parse f)) (quiet : ∀ a s, calm (f a s).1 = calm s) : KeepsFram c :=
  keepsFram_of_request arm fun payload s => by
    unfold withArgs
    split
    · rfl
    · exact quiet _ s

/-! ## Operations that begin (R159) -/

/-- R159: a fault of the store changes no byte of the FRAM. -/
theorem State.storeFault_fram (s : State) : s.storeFault.store.fram = s.store.fram := by
  obtain ⟨-, -, store, -⟩ := s.storeFault_spec
  rw [store]

/-- R159: a status read changes no byte. -/
theorem State.begin_fram {s t : State} (h : t.store.fram = s.store.fram) : (s.begin t).store.fram = s.store.fram := by
  unfold State.begin
  split
  · exact h
  · exact s.storeFault_fram

/-- R150, stage 1: the entry is formed, and nothing is written yet. -/
theorem State.beginCommit_fram (s : State) (c : Commit) : (s.beginCommit c).store.fram = s.store.fram := by
  unfold State.beginCommit
  dsimp only
  rw [State.raiseOthers_eq]
  rfl

/-- R153, stage 1: the summary is read. -/
theorem State.beginClose_fram (s : State) (z : Nat) :
    (s.beginClose z).store.fram = (s.pass.readAcc .periodClose .summary none).1.fram := by
  unfold State.beginClose
  dsimp only
  rw [State.takePass_eq]
  generalize s.pass.readAcc .periodClose .summary none = x
  rfl

/-- R159: an operation that begins with its status read and transfers no word yet. -/
theorem keepsFram_of_begin {f : State → Option State} (arm : ∀ s, exec c s = s.event f)
    (begins : ∀ s u, f s = some u → ∃ t, u = s.begin t ∧ t.store.fram = s.store.fram) : KeepsFram c :=
  keepsFram_of_event arm fun s u h => by
    obtain ⟨t, rfl, kept⟩ := begins s u h
    exact State.begin_fram kept

/-- R158, R159: the commands that are no completion, no beginning of a period close, no end of a RESTART reply, no loss of power or of
the FRAM. -/
theorem keepsFram_of_not_listed (h : c ∉ [.verifyStageComplete, .commitWriteComplete, .periodCloseBegin, .periodCloseWriteComplete,
    .clearComplete, .calibrationWriteComplete, .highMarkRaiseComplete, .calibrationReadComplete, .lastPeriodReadComplete,
    .memoryLogWriteComplete, .hostFrameSent, .powerLoss, .framNotAnswering true, .framNotAnswering false]) : KeepsFram c := by
  cases c with
  | identify => exact keepsFram_of_noArgs (fun _ => rfl) fun _ => rfl
  | getStatus => exact keepsFram_of_noArgs (fun _ => rfl) fun _ => rfl
  | readFlags => exact keepsFram_of_noArgs (fun _ => rfl) fun _ => rfl
  | readMemoryLog => exact keepsFram_of_noArgs (fun _ => rfl) fun _ => rfl
  | clearMemoryLog => exact keepsFram_of_noArgs (fun _ => rfl) calm_clearMemoryLog
  | clearStore => exact keepsFram_of_noArgs (fun _ => rfl) calm_clearStore
  | discardStage => exact keepsFram_of_noArgs (fun _ => rfl) fun _ => rfl
  | publish => exact keepsFram_of_noArgs (fun _ => rfl) calm_publish
  | forceAdoption => exact keepsFram_of_noArgs (fun _ => rfl) calm_forceAdoption
  | issueTicket => exact keepsFram_of_noArgs (fun _ => rfl) calm_issueTicket
  | resetNumbering => exact keepsFram_of_noArgs (fun _ => rfl) calm_resetNumbering
  | readLabelQueue => exact keepsFram_of_noArgs (fun _ => rfl) fun _ => rfl
  | closePeriod => exact keepsFram_of_noArgs (fun _ => rfl) calm_closePeriod
  | setClock => exact keepsFram_of_withArgs (fun _ => rfl) fun d s => calm_setClock s d
  | setFlagControl => exact keepsFram_of_withArgs (fun _ => rfl) fun a s => calm_setFlagControl s a
  | clearFlags => exact keepsFram_of_withArgs (fun _ => rfl) fun a s => calm_clearFlagList s a
  | configurePorts => exact keepsFram_of_withArgs (fun _ => rfl) fun a s => calm_configurePorts s a
  | configureChannel => exact keepsFram_of_withArgs (fun _ => rfl) fun a s => calm_configureChannel s a
  | readChannel => exact keepsFram_of_withArgs (fun _ => rfl) fun a s => calm_readChannel s a
  | resetChannel => exact keepsFram_of_withArgs (fun _ => rfl) fun a s => calm_resetChannel s a
  | writeCalibration => exact keepsFram_of_withArgs (fun _ => rfl) fun a s => calm_writeCalibration s a
  | stagePlu => exact keepsFram_of_withArgs (fun _ => rfl) fun a s => calm_stagePlu s a
  | stageDelete => exact keepsFram_of_withArgs (fun _ => rfl) fun a s => calm_stageDelete s a
  | stageKeyPage => exact keepsFram_of_withArgs (fun _ => rfl) fun a s => calm_stageKeyPage s a
  | readPlu => exact keepsFram_of_withArgs (fun _ => rfl) fun _ _ => rfl
  | readAdoption => exact keepsFram_of_withArgs (fun _ => rfl) fun _ _ => rfl
  | defineClerk => exact keepsFram_of_withArgs (fun _ => rfl) fun a s => calm_defineClerk s a
  | removeClerk => exact keepsFram_of_withArgs (fun _ => rfl) fun a s => calm_removeClerk s a
  | readQueue => exact keepsFram_of_withArgs (fun _ => rfl) fun _ _ => rfl
  | readBasket => exact keepsFram_of_withArgs (fun _ => rfl) fun _ _ => rfl
  | cancelBasket => exact keepsFram_of_withArgs (fun _ => rfl) fun a s => calm_cancelBasket s a
  | cancelJob => exact keepsFram_of_withArgs (fun _ => rfl) fun a s => calm_cancelJob s a
  | resetPrinterPort => exact keepsFram_of_withArgs (fun _ => rfl) fun a s => calm_resetPrinterPort s a
  | startRun => exact keepsFram_of_withArgs (fun _ => rfl) fun a s => calm_startRun s a
  | abortRun => exact keepsFram_of_withArgs (fun _ => rfl) fun a s => calm_abortRun s a
  | clearRun => exact keepsFram_of_withArgs (fun _ => rfl) fun a s => calm_clearRun s a
  | readRun => exact keepsFram_of_withArgs (fun _ => rfl) fun _ _ => rfl
  | readTotals => exact keepsFram_of_withArgs (fun _ => rfl) fun _ _ => rfl
  | readCalibration => exact keepsFram_of_request (fun _ => rfl) fun payload s => calm_readCalibration s payload
  | readLastPeriod => exact keepsFram_of_request (fun _ => rfl) fun payload s => calm_readLastPeriod s payload
  | preset st k => exact keepsFram_of_key (fun _ => rfl) (presetKey_calm st k)
  | pluEntry st n => exact keepsFram_of_key (fun _ => rfl) (pluEntryKey_calm st _)
  | countEntry st n => exact keepsFram_of_key (fun _ => rfl) (countEntryKey_calm st _)
  | zero st => exact keepsFram_of_key (fun _ => rfl) (zeroKey_calm st)
  | tare st => exact keepsFram_of_key (fun _ => rfl) (tareKey_calm st)
  | clearTare st => exact keepsFram_of_key (fun _ => rfl) (clearTareKey_calm st)
  | clear st => exact keepsFram_of_key (fun _ => rfl) (clearKey_calm st)
  | page st => exact keepsFram_of_key (fun _ => rfl) (pageKey_calm st)
  | add st => exact keepsFram_of_key (fun _ => rfl) (addKey_calm st)
  | voidLast st => exact keepsFram_of_key (fun _ => rfl) (voidKey_calm st)
  | total st => exact keepsFram_of_key (fun _ => rfl) (totalKey_calm st)
  | nextKey st => exact keepsFram_of_key (fun _ => rfl) (nextCustomer_calm st)
  | park st => exact keepsFram_of_key (fun _ => rfl) (parkKey_calm st)
  | recallBasket st => exact keepsFram_of_key (fun _ => rfl) (recallBasketKey_calm st)
  | recallTicket st n => exact keepsFram_of_key (fun _ => rfl) (recallKey_calm st _)
  | reprint st => exact keepsFram_of_key (fun _ => rfl) (reprintKey_calm st)
  | clerk st n => exact keepsFram_of_key (fun _ => rfl) (clerkKey_calm st _)
  | logoff st => exact keepsFram_of_key (fun _ => rfl) (logoffKey_calm st)
  | commitApplyBegin =>
    exact keepsFram_of_begin (fun _ => rfl) fun s u h => by split at h <;> cases h; exact ⟨_, rfl, s.beginCommit_fram _⟩
  | clearOperationBegin =>
    exact keepsFram_of_begin (fun _ => rfl) fun s u h => by split at h <;> cases h; exact ⟨_, rfl, rfl⟩
  | calibrationWriteBegin =>
    exact keepsFram_of_begin (fun _ => rfl) fun s u h => by split at h <;> cases h; exact ⟨_, rfl, rfl⟩
  | highMarkRaiseBegin =>
    exact keepsFram_of_begin (fun _ => rfl) fun s u h => by split at h <;> cases h; exact ⟨_, rfl, rfl⟩
  | calibrationReadBegin =>
    exact keepsFram_of_begin (fun _ => rfl) fun s u h => by split at h <;> cases h; exact ⟨_, rfl, rfl⟩
  | lastPeriodReadBegin =>
    exact keepsFram_of_begin (fun _ => rfl) fun s u h => by split at h <;> cases h; exact ⟨_, rfl, rfl⟩
  | memoryLogWriteBegin =>
    exact keepsFram_of_begin (fun _ => rfl) fun s u h => by split at h <;> cases h; exact ⟨_, rfl, rfl⟩
  | powerOn framAnswers =>
    intro s t h
    have arm : exec (.powerOn framAnswers) s = execPowerOn framAnswers s := rfl
    rw [arm] at h
    unfold execPowerOn at h
    split at h
    all_goals
      rw [← Host.Outcome.next.inj h]
    rfl
  | clockSecond => exact keepsFram_of_always (fun _ => rfl) fun _ => rfl
  | hostFrameReceived frame =>
    exact keepsFram_of_event (fun _ => rfl) fun s u h => by split at h <;> cases h; rfl
  | hostInterbyteTimeout =>
    exact keepsFram_of_event (f := fun s => some (s.onLink (·.countError))) (fun _ => rfl) fun s u h => by cases h; rfl
  | hostFrameBadLength length =>
    exact keepsFram_of_event (fun _ => rfl) fun s u h => by split at h <;> cases h; rfl
  | unknownRequest =>
    exact keepsFram_of_event (fun _ => rfl) fun s u h => by
      split at h
      · cases h
      · split at h <;> cases h; rfl
  | restart =>
    exact keepsFram_of_event (fun _ => rfl) fun s u h => by
      repeat' split at h
      all_goals cases h
      all_goals rfl
  | peripheralFrameDiscarded line frame => exact keepsFram_of_always (fun _ => rfl) fun _ => rfl
  | peripheralInterbyteTimeout line => exact keepsFram_of_always (fun _ => rfl) fun _ => rfl
  | headHello st serial model => exact keepsFram_of_calm (fun _ => rfl) fun s _ h => hello_calm st s h
  | sample st raw seq => exact keepsFram_of_calm (fun _ => rfl) fun s _ h => takeSample_calm st s h
  | sampleTimeout st => exact keepsFram_of_when (fun _ => rfl) fun s => calm_leavePresent s st .lost
  | headState st condition => exact keepsFram_of_calm (fun _ => rfl) fun s _ h => takeHeadState_calm st s h
  | stateTimeout st => exact keepsFram_of_when (fun _ => rfl) fun _ => rfl
  | displayRefresh st => exact keepsFram_of_when (fun _ => rfl) fun _ => rfl
  | displayFrameEnd st => exact keepsFram_of_when (fun _ => rfl) fun _ => rfl
  | key st code number => exact keepsFram_of_key (fun _ => rfl) (keyAction_calm st _ _)
  | dispenserHello serial model =>
    exact keepsFram_of_always (fun _ => rfl) fun s => (calm_pumpQueue _).trans (calm_dispenserSpeaks serial model s)
  | dispenserState condition => exact keepsFram_of_when (fun _ => rfl) fun _ => rfl
  | take press =>
    exact keepsFram_of_when (fun _ => rfl) fun s => (calm_pumpQueue _).trans (calm_takeTicket press s)
  | dispenserTimeout => exact keepsFram_of_when (fun _ => rfl) fun _ => rfl
  | signRefresh => exact keepsFram_of_always (fun _ => rfl) fun _ => rfl
  | queuePortFrameEnd => exact keepsFram_of_when (fun _ => rfl) fun _ => rfl
  | printerHello p serial model => exact keepsFram_of_always (fun _ => rfl) fun s => by simp
  | printerState p condition =>
    exact keepsFram_of_calm (fun _ => rfl) fun s u h => by
      split at h
      · cases h
      · split at h <;> cases h; simp
  | printerDone p job => exact keepsFram_of_when (fun _ => rfl) fun s => by simp
  | printerFault p job cause =>
    exact keepsFram_of_calm (fun _ => rfl) fun s u h => by
      split at h
      · cases h
      · split at h <;> cases h; simp
  | printerFrameTimeout p => exact keepsFram_of_when (fun _ => rfl) fun s => by simp
  | doneTimeout p => exact keepsFram_of_when (fun _ => rfl) fun s => by simp
  | printerFrameEnd p =>
    exact keepsFram_of_event (fun _ => rfl) fun s u h => by split at h <;> cases h; rfl
  | framNotAnswering answersAfter => cases answersAfter <;> simp at h
  | verifyStageComplete | commitWriteComplete | periodCloseBegin | periodCloseWriteComplete | clearComplete
  | calibrationWriteComplete | highMarkRaiseComplete | calibrationReadComplete | lastPeriodReadComplete
  | memoryLogWriteComplete | hostFrameSent | powerLoss => simp at h

/-! ## Operations that complete -/

/-- R158: the FRAM is as a pass over it left it. -/
theorem State.takePass_fram (s : State) (p : Pass) : (s.takePass p).store.fram = p.fram := by
  rw [State.takePass_eq]
  rfl

theorem calm_handCal (s : State) (x : Station × CalFound) : calm (s.handCal x) = calm s := by
  unfold State.handCal
  split <;> simp

/-- R160: what stage 3 hands to the channels is no byte of the FRAM. -/
theorem State.takeLegal_fram (s : State) (l : Legal) : (s.takeLegal l).store.fram = s.store.fram :=
  congrArg Calm.fram (calm_fold calm_handCal (stations.zip l.cals) s)

theorem State.nextStage_fram (s : State) (stage : VerifyStage) (d : VerifyData) :
    (s.nextStage stage d).store.fram = s.store.fram := by
  unfold State.nextStage
  split
  · rfl
  · unfold State.verified
    dsimp only
    split <;> rfl

/-- R160: a stage of the verify leaves its pass's FRAM, or the FRAM as it was when it does not answer. -/
theorem State.stageComplete_fram (s : State) (stage : VerifyStage) (d : VerifyData) :
    (s.stageComplete stage d).store.fram = (verifyPass stage d s.pass).1.fram ∨
    (s.stageComplete stage d).store.fram = s.store.fram := by
  unfold State.stageComplete
  dsimp only
  generalize verifyPass stage d s.pass = x
  split
  · exact .inr s.storeFault_fram
  · left
    split
    · exact (State.storeFault_fram _).trans (s.takePass_fram x.1)
    · split
      · exact ((State.nextStage_fram ..).trans (State.takeLegal_fram ..)).trans (s.takePass_fram x.1)
      · exact (State.nextStage_fram ..).trans (s.takePass_fram x.1)

theorem State.commitComplete_fram (s : State) (j : CommitJournal) (written : List (Nat × Acc)) :
    (s.commitComplete j written).store.fram = s.store.fram := congrArg Calm.fram (calm_offerAll _)

/-- R150: a write of a commit leaves its pass's FRAM. -/
theorem State.commitWritten_fram (s : State) (j : CommitJournal) (phase : CommitPhase) (written : List (Nat × Acc)) :
    (s.commitWritten j phase written).store.fram = (commitPass j phase s.pass).fram := by
  refine Eq.trans ?_ (s.takePass_fram (commitPass j phase s.pass))
  unfold State.commitWritten
  generalize s.takePass (commitPass j phase s.pass) = t
  dsimp only
  split
  · rfl
  · exact t.commitComplete_fram ..
  · rfl
  · exact t.commitComplete_fram ..

/-- R153: a write of a period close leaves its pass's FRAM. -/
theorem State.closeWritten_fram (s : State) (j : CloseJournal) (phase : ClosePhase) (grand : Grand) :
    (s.closeWritten j phase grand).store.fram = (closePass j phase s.pass).fram := by
  refine Eq.trans ?_ (s.takePass_fram (closePass j phase s.pass))
  unfold State.closeWritten
  dsimp only
  generalize s.takePass (closePass j phase s.pass) = t
  split
  · rfl
  · rfl
  · split
    · exact t.storeFault_fram
    · rfl
  · rfl
  · exact congrArg Calm.fram (calm_offerAll _)

/-- R169: a read of a calibration record leaves its pass's FRAM. -/
theorem State.calRead_fram (s : State) (st : Station) : (s.calRead st).store.fram = (readCalPass s.pass st).1.fram := by
  unfold State.calRead
  dsimp only
  generalize readCalPass s.pass st = x
  have taken : (s.takePass x.1).clearOp.store.fram = x.1.fram := s.takePass_fram x.1
  generalize (s.takePass x.1).clearOp = t at taken ⊢
  split
  · exact t.storeFault_fram.trans taken
  · refine Eq.trans ?_ taken
    split
    · exact congrArg Calm.fram (calm_calFault t st)
    · rfl

theorem State.lastPeriodRead_fram (s : State) :
    s.lastPeriodRead.store.fram = (s.pass.readLastPeriod .totalsRead).1.fram := by
  unfold State.lastPeriodRead
  dsimp only
  generalize s.pass.readLastPeriod .totalsRead = x
  exact s.takePass_fram x.1

/-- R166: a clear leaves its pass's FRAM. -/
theorem State.clearStoreComplete_fram (s : State) :
    s.clearStoreComplete.store.fram = (clearPass s.totals.journalApply s.pass).fram := by
  obtain ⟨p, pass⟩ : ∃ p, p = clearPass s.totals.journalApply s.pass := ⟨_, rfl⟩
  unfold State.clearStoreComplete
  rw [← pass]
  exact s.takePass_fram p

/-- R167: a calibration write leaves its pass's FRAM. -/
theorem State.calWritten_fram (s : State) (w : CalWrite) : (s.calWritten w).store.fram = (s.pass.writeCal w).fram := by
  unfold State.calWritten
  generalize s.pass.writeCal w = p
  exact s.takePass_fram p

/-- R162: a raise leaves its pass's FRAM. -/
theorem State.markRaised_fram (s : State) :
    s.markRaised.store.fram = (s.pass.writeMark (raisedMark s.store.highMark)).fram := by
  unfold State.markRaised
  generalize s.pass.writeMark (raisedMark s.store.highMark) = p
  exact s.takePass_fram p

/-- R165: a log write leaves its pass's FRAM. -/
theorem State.logWritten_fram (s : State) : (s.takePass s.pass.writeLog).clearOp.store.fram = s.pass.writeLog.fram := by
  generalize s.pass.writeLog = p
  exact s.takePass_fram p

/-- R158, R159: an event of the port leaves the FRAM as it was, or as the operation in flight leaves it. -/
theorem fram_of_complete {c : Instr} {s t : State} {f : State → Option State} (arm : ∀ s, exec c s = s.event f)
    (h : exec c s = .next t) (done : ∀ u, f s = some u → u.store.fram = s.opPass.fram ∨ u.store.fram = s.store.fram) :
    t.store.fram = s.opPass.fram ∨ t.store.fram = s.store.fram := by
  rw [arm] at h
  rcases State.event_cases h with rfl | ⟨u, happens, rfl⟩
  · exact .inr rfl
  · exact done u happens

/-- R158, R159: the completion of an operation, whichever it is. -/
theorem completes_fram {c : Instr} (listed : c ∈ [Instr.verifyStageComplete, .commitWriteComplete, .periodCloseWriteComplete,
    .clearComplete, .calibrationWriteComplete, .highMarkRaiseComplete, .calibrationReadComplete, .lastPeriodReadComplete,
    .memoryLogWriteComplete]) {s t : State} (h : exec c s = .next t) :
    t.store.fram = s.opPass.fram ∨ t.store.fram = s.store.fram := by
  simp only [List.mem_cons, List.not_mem_nil, or_false] at listed
  rcases listed with rfl | rfl | rfl | rfl | rfl | rfl | rfl | rfl | rfl
  all_goals
    refine fram_of_complete (fun _ => rfl) h fun u happens => ?_
    split at happens
    case h_2 => cases happens
    rename_i op
    unfold State.opPass
    rw [← Option.some.inj happens, op]
    dsimp only
  · exact s.stageComplete_fram ..
  · exact .inl (s.commitWritten_fram ..)
  · exact .inl (s.closeWritten_fram ..)
  · exact .inl s.clearStoreComplete_fram
  · exact .inl (s.calWritten_fram _)
  · exact .inl s.markRaised_fram
  · exact .inl (s.calRead_fram _)
  · exact .inl s.lastPeriodRead_fram
  · exact .inl s.logWritten_fram

/-! ## Writes cut short or left at a word (R158, R161, R175) -/

/-- R175: a write left after a whole word changes no byte outside its words. -/
theorem byte_completeWord {a : Nat} {trace : List (Nat × BitVec 72)} {m : List Host.Cell} (n : Nat) (wf : Memory.wf m)
    (outside : ∀ w v, (w, v) ∈ trace → a < 9 * w ∨ 9 * w + 9 ≤ a) : Memory.byte (completeWord m n trace) a = Memory.byte m a := by
  rw [completeWord_eq]
  exact Memory.byte_putWords wf fun w v hw => outside w v (List.mem_of_mem_take hw)

/-- R158: the bytes outside the words of the operation in flight. -/
def OutsideOp (s : State) (a : Nat) : Prop := ∀ w v, (w, v) ∈ s.opPass.trace → a < 9 * w ∨ 9 * w + 9 ≤ a

variable {s t : State} {a : Nat} (wf : Memory.wf s.store.fram) (outside : OutsideOp s a)

include wf outside

theorem State.byte_opPass : Memory.byte s.opPass.fram a = Memory.byte s.store.fram a := s.opPass_grows.byte wf outside

/-- R158, log 8: what power loss cut short. -/
theorem byte_powerLoss (h : exec .powerLoss s = .next t) : Memory.byte t.store.fram a = Memory.byte s.store.fram a := by
  have arm : exec .powerLoss s = if s.powered then .next s.powerLost else .next s := rfl
  rw [arm] at h
  split at h
  · rw [← Host.Outcome.next.inj h]
    exact (State.cutWrites_fram wf).2 a outside
  · rw [← Host.Outcome.next.inj h]

/-- R159, log 56: what a FRAM that stops answering cut short. -/
theorem byte_framNotAnswering {after : Bool} (h : exec (.framNotAnswering after) s = .next t) :
    Memory.byte t.store.fram a = Memory.byte s.store.fram a := by
  have arm : exec (.framNotAnswering after) s = s.event fun s =>
      let t := if s.store.op.isSome then s.cutWrites.storeFault else s
      some (t.onStore fun m => { m with framAnswers := after }) := rfl
  rw [arm] at h
  rcases State.event_cases h with rfl | ⟨u, happens, rfl⟩
  · rfl
  · have fram : u.store.fram = (if s.store.op.isSome then s.cutWrites.storeFault else s).store.fram := by
      rw [← Option.some.inj happens]
      rfl
    refine (congrArg (Memory.byte · a) fram).trans ?_
    split
    · rw [State.storeFault_fram]
      exact (State.cutWrites_fram wf).2 a outside
    · rfl

/-- R175: what the end of a RESTART reply completed. -/
theorem byte_hostFrameSent (h : exec .hostFrameSent s = .next t) : Memory.byte t.store.fram a = Memory.byte s.store.fram a := by
  have arm : exec .hostFrameSent s = execHostFrameSent s := rfl
  rw [arm] at h
  rcases State.event_cases h with rfl | ⟨u, happens, rfl⟩
  · rfl
  · show Memory.byte u.store.fram a = _
    split at happens
    · cases happens
    · cases happens; rfl
    · cases happens; rfl
    · rw [← Option.some.inj happens]
      exact byte_completeWord _ wf fun w v hw => outside w v (State.cutTrace_subset hw)

omit outside in
/-- R153: the beginning of a period close changes bytes of the summary's reading alone. -/
theorem byte_periodCloseBegin (h : exec .periodCloseBegin s = .next t)
    (summary : ∀ w v, (w, v) ∈ (s.pass.readAcc .periodClose .summary none).1.trace → a < 9 * w ∨ 9 * w + 9 ≤ a) :
    Memory.byte t.store.fram a = Memory.byte s.store.fram a := by
  have arm : exec .periodCloseBegin s = execPeriodCloseBegin s := rfl
  rw [arm] at h
  rcases State.event_cases h with rfl | ⟨u, happens, rfl⟩
  · rfl
  · show Memory.byte u.store.fram a = _
    split at happens
    · rw [← Option.some.inj happens]
      unfold State.begin
      split
      · rw [State.beginClose_fram]
        exact ((Pass.Grows.refl s.pass).readAcc .periodClose .summary none).byte wf summary
      · rw [State.storeFault_fram]
    · cases happens

omit wf outside in
/-- Settles O57: a command outside the list keeps the FRAM; the others leave what their operation's trace says, which the words put in
by its pass are, whole or cut short. -/
theorem onlyStoreOperationsTouchTheFram : Obligations.OnlyStoreOperationsTouchTheFram := by
  unfold Obligations.OnlyStoreOperationsTouchTheFram
  refine ⟨fun c s t h other => keepsFram_of_not_listed other s t h, fun s wf a outside => State.byte_opPass wf outside,
    fun c s t h wf a outside summary => ?_⟩
  have completes : t.store.fram = s.opPass.fram ∨ t.store.fram = s.store.fram →
      Memory.byte t.store.fram a = Memory.byte s.store.fram a := by
    rintro (left | same)
    · rw [left, State.byte_opPass wf outside]
    · rw [same]
  cases c
  case powerLoss => exact byte_powerLoss wf outside h
  case framNotAnswering after => exact byte_framNotAnswering wf outside h
  case hostFrameSent => exact byte_hostFrameSent wf outside h
  case periodCloseBegin => exact byte_periodCloseBegin wf h (summary rfl)
  case verifyStageComplete => exact completes (completes_fram (by simp) h)
  case commitWriteComplete => exact completes (completes_fram (by simp) h)
  case periodCloseWriteComplete => exact completes (completes_fram (by simp) h)
  case clearComplete => exact completes (completes_fram (by simp) h)
  case calibrationWriteComplete => exact completes (completes_fram (by simp) h)
  case highMarkRaiseComplete => exact completes (completes_fram (by simp) h)
  case calibrationReadComplete => exact completes (completes_fram (by simp) h)
  case lastPeriodReadComplete => exact completes (completes_fram (by simp) h)
  case memoryLogWriteComplete => exact completes (completes_fram (by simp) h)
  all_goals rw [keepsFram_of_not_listed (by simp) s t h]

end Sys2Proof.Machine
end

section
/-! SUPPORT. Figures that saturate (R145), and what a commit adds to each accumulator (R148, R149). -/

namespace Sys2Proof.Machine

/-! ## Saturation (R145) -/

/-- R145: figures after a delta, each held at its limit, and whether one was. -/
theorem addFigures_spec : ∀ {limits figures delta : List Nat}, figures.length = limits.length → delta.length = limits.length →
    (addFigures limits figures delta).1.length = limits.length ∧
    (∀ i : Nat, i < limits.length → (addFigures limits figures delta).1.getD i 0 =
      min (limits.getD i 0) (figures.getD i 0 + delta.getD i 0)) ∧
    ((addFigures limits figures delta).2 = true ↔
      ∃ i : Nat, i < limits.length ∧ limits.getD i 0 < figures.getD i 0 + delta.getD i 0)
  | [], figures, delta, hf, _ => by
    obtain rfl : figures = [] := List.length_eq_zero_iff.1 hf
    exact ⟨rfl, nofun, by simp [addFigures]⟩
  | l :: ls, f :: fs, d :: ds, hf, hd => by
    obtain ⟨length, each, saturated⟩ := addFigures_spec (Nat.succ.inj hf) (Nat.succ.inj hd)
    have one : addFigure l f d = (min l (f + d), decide (l < f + d)) := by
      unfold addFigure
      split
      · next past => rw [min_eq_left past.le, decide_eq_true past]
      · next within => rw [min_eq_right (not_lt.1 within), decide_eq_false within]
    have sum : addFigures (l :: ls) (f :: fs) (d :: ds) =
        (min l (f + d) :: (addFigures ls fs ds).1, decide (l < f + d) || (addFigures ls fs ds).2) := by
      rw [addFigures, one]
    rw [sum]
    refine ⟨congrArg (· + 1) length, fun i hi => ?_, ?_⟩
    · cases i with
      | zero => rfl
      | succ i => exact each i (Nat.lt_of_succ_lt_succ hi)
    · rw [Bool.or_eq_true, decide_eq_true_eq, saturated]
      constructor
      · rintro (first | ⟨i, hi, past⟩)
        · exact ⟨0, Nat.succ_pos _, first⟩
        · exact ⟨i + 1, Nat.succ_lt_succ hi, past⟩
      · rintro ⟨i, hi, past⟩
        cases i with
        | zero => exact .inl past
        | succ i => exact .inr ⟨i, Nat.lt_of_succ_lt_succ hi, past⟩

/-! ## Figures credited, one by one -/

/-- Figure i of what a list of deltas adds to one target. -/
def creditAt (ds : List (Target × List Nat)) (target : Target) (i : Nat) : Nat :=
  ((ds.filter fun d => d.1 = target).map fun d => d.2.getD i 0).sum

theorem credited_eq (ds : List (Target × List Nat)) (target : Target) (k : Nat) :
    credited ds target k = (List.range k).map (creditAt ds target) := rfl

/-- Figures known one by one. -/
theorem credited_of {ds : List (Target × List Nat)} {target : Target} {figure : Nat → Nat}
    (h : ∀ i, creditAt ds target i = figure i) (k : Nat) : credited ds target k = (List.range k).map figure := by
  rw [credited_eq, funext h]

variable (target : Target) (i : Nat)

@[simp] theorem creditAt_nil : creditAt [] target i = 0 := rfl

@[simp] theorem creditAt_cons (d : Target × List Nat) (ds : List (Target × List Nat)) :
    creditAt (d :: ds) target i = (if d.1 = target then d.2.getD i 0 else 0) + creditAt ds target i := by
  unfold creditAt
  rw [List.filter_cons]
  split <;> simp_all

@[simp] theorem creditAt_append (ds es : List (Target × List Nat)) :
    creditAt (ds ++ es) target i = creditAt ds target i + creditAt es target i := by
  unfold creditAt
  rw [List.filter_append, List.map_append, List.sum_append]

@[simp] theorem creditAt_flatMap {α : Type} (f : α → List (Target × List Nat)) :
    ∀ xs : List α, creditAt (xs.flatMap f) target i = (xs.map fun x => creditAt (f x) target i).sum
  | [] => rfl
  | x :: xs => by rw [List.flatMap_cons, creditAt_append, creditAt_flatMap f xs, List.map_cons, List.sum_cons]

/-- A delta for the clerk of a commit, if it has one. -/
@[simp] theorem creditAt_clerk (clerk : Option Nat) (delta : List Nat) :
    creditAt (clerk.toList.map fun k => (Target.acc (.clerk k), delta)) target i =
      if ∃ k, clerk = some k ∧ target = .acc (.clerk k) then delta.getD i 0 else 0 := by
  cases clerk with
  | none => simp
  | some k => simp [eq_comm]

end Sys2Proof.Machine
end

section
/-! SUPPORT. What a commit adds to each accumulator (R148, R149). -/

namespace Sys2Proof.Machine

/-- R148: the weight that a line adds to its PLU. -/
def CommitLine.soldWeight (l : CommitLine) : Nat := if l.mode = .byWeight then (l.netWeight.getD 0).toNat else 0

/-- R148: the pieces that a line adds to its PLU. -/
def CommitLine.soldPieces (l : CommitLine) : Nat := if l.mode = .byCount then l.quantity.getD 0 else 0

/-- R148: what an unvoided line adds to each target. -/
def CommitLine.soldCredit (clerk : Option Nat) (l : CommitLine) : Target → List Nat
  | .plu n => if l.plu = n then [1, l.soldWeight, l.soldPieces, l.price, 0, 0, 0] else []
  | .acc (.department d) => if l.department = d then [1, l.price] else []
  | .acc (.channel st) => if l.channel = st then [1, l.price, 0] else []
  | .acc (.clerk k) => if clerk = some k then [1, l.price, 0, 0, 0, 0] else []
  | .acc .summary => [0, 1, l.price, 0, 0, 0]
  | .acc (.plu _) => []

/-- R148, R149: what a voided line adds to each target. -/
def CommitLine.voidCredit (clerk : Option Nat) (l : CommitLine) : Target → List Nat
  | .acc (.clerk k) => if clerk = some k then [0, 0, 1, l.price, 0, 0] else []
  | .acc .summary => [0, 0, 0, 0, l.price, 0]
  | _ => []

theorem CommitLine.creditAt_sold (clerk : Option Nat) (l : CommitLine) (target : Target) (i : Nat) :
    creditAt (l.sold clerk) target i = (l.soldCredit clerk target).getD i 0 := by
  rcases target with n | a
  · by_cases h : l.plu = n <;> simp [CommitLine.sold, CommitLine.soldCredit, CommitLine.soldWeight, CommitLine.soldPieces, h]
  · cases a with
    | plu n => simp [CommitLine.sold, CommitLine.soldCredit]
    | department d => by_cases h : l.department = d <;> simp [CommitLine.sold, CommitLine.soldCredit, h]
    | channel st => by_cases h : l.channel = st <;> simp [CommitLine.sold, CommitLine.soldCredit, h]
    | clerk k => by_cases h : clerk = some k <;> simp [CommitLine.sold, CommitLine.soldCredit, h]
    | summary => simp [CommitLine.sold, CommitLine.soldCredit]

theorem CommitLine.creditAt_void (clerk : Option Nat) (l : CommitLine) (target : Target) (i : Nat) :
    creditAt (l.void clerk) target i = (l.voidCredit clerk target).getD i 0 := by
  rcases target with n | a
  · simp [CommitLine.void, CommitLine.voidCredit]
  · cases a with
    | plu n => simp [CommitLine.void, CommitLine.voidCredit]
    | department d => simp [CommitLine.void, CommitLine.voidCredit]
    | channel st => simp [CommitLine.void, CommitLine.voidCredit]
    | clerk k => by_cases h : clerk = some k <;> simp [CommitLine.void, CommitLine.voidCredit, h]
    | summary => simp [CommitLine.void, CommitLine.voidCredit]

/-! ## The lines of a commit, summed -/

/-- R148: the lines that stay sold, and those voided. -/
def soldLines (ls : List CommitLine) : List CommitLine := ls.filter fun l => !l.voided

def voidLines (ls : List CommitLine) : List CommitLine := ls.filter fun l => l.voided

/-- The prices of lines, summed. -/
def valueOf (ls : List CommitLine) : Nat := (ls.map (·.price)).sum

/-- R148: a BASKET commit adds what its lines add, and one closed basket to the summary. -/
theorem Commit.creditAt_basket {c : Commit} {ls : List CommitLine} (content : c.content = .lines ls) (kind : c.kind = .basket)
    (target : Target) (i : Nat) : creditAt c.deltas target i =
      ((voidLines ls).map fun l => (l.voidCredit c.clerk target).getD i 0).sum +
      ((soldLines ls).map fun l => (l.soldCredit c.clerk target).getD i 0).sum +
      (if target = .acc .summary then [1, 0, 0, 0, 0, 0].getD i 0 else 0) := by
  have deltas : c.deltas = ls.flatMap (fun l => if l.voided then l.void c.clerk else l.sold c.clerk) ++
      [(.acc .summary, [1, 0, 0, 0, 0, 0])] := by
    unfold Commit.deltas
    rw [content, kind]
  have line : ∀ l : CommitLine, creditAt (if l.voided then l.void c.clerk else l.sold c.clerk) target i =
      if l.voided = true then (l.voidCredit c.clerk target).getD i 0 else (l.soldCredit c.clerk target).getD i 0 := fun l => by
    split
    · exact l.creditAt_void ..
    · exact l.creditAt_sold ..
  rw [deltas, creditAt_append, creditAt_flatMap]
  simp only [line, List.sum_map_ite, creditAt_cons, creditAt_nil, eq_comm (a := Target.acc .summary), voidLines, soldLines]
  simp

/-- R149: a CANCEL commit adds what its voided lines add, and one cancelled basket with the value of its other lines. -/
theorem Commit.creditAt_cancel {c : Commit} {ls : List CommitLine} (content : c.content = .lines ls) (kind : c.kind = .cancel)
    (target : Target) (i : Nat) : creditAt c.deltas target i =
      ((voidLines ls).map fun l => (l.voidCredit c.clerk target).getD i 0).sum +
      (if ∃ k, c.clerk = some k ∧ target = .acc (.clerk k) then [0, 0, 0, 0, 1, valueOf (soldLines ls)].getD i 0 else 0) +
      (if target = .acc .summary then [0, 0, 0, 0, 0, valueOf (soldLines ls)].getD i 0 else 0) := by
  have deltas : c.deltas = (voidLines ls).flatMap (CommitLine.void c.clerk) ++
      (c.clerk.toList.map fun n => (.acc (.clerk n), [0, 0, 0, 0, 1, valueOf (soldLines ls)])) ++
      [(.acc .summary, [0, 0, 0, 0, 0, valueOf (soldLines ls)])] := by
    unfold Commit.deltas
    rw [content, kind]
    rfl
  rw [deltas, creditAt_append, creditAt_append, creditAt_flatMap, creditAt_clerk, creditAt_cons, creditAt_nil]
  simp only [CommitLine.creditAt_void, eq_comm (a := Target.acc .summary), Nat.add_zero]

/-- Figures that only some lines add. -/
theorem sum_some_lines (p : CommitLine → Prop) [DecidablePred p] (f : CommitLine → List Nat) (i : Nat) (ls : List CommitLine) :
    (ls.map fun l => (if p l then f l else []).getD i 0).sum = ((ls.filter fun l => p l).map fun l => (f l).getD i 0).sum := by
  have each : ∀ l, (if p l then f l else []).getD i 0 = if p l then (f l).getD i 0 else 0 := fun l => by split <;> simp
  simp only [each, List.sum_map_ite]
  simp

/-- Figures that all lines add, or none. -/
theorem sum_if_lines (p : Prop) [Decidable p] (f : CommitLine → List Nat) (i : Nat) (ls : List CommitLine) :
    (ls.map fun l => (if p then f l else []).getD i 0).sum = if p then (ls.map fun l => (f l).getD i 0).sum else 0 := by
  split <;> simp

section
variable {c : Commit} {ls : List CommitLine} (content : c.content = .lines ls)
include content

/-- R148: the PLUs, departments and channels of a basket's unvoided lines. -/
theorem Commit.credited_basket_lines (kind : c.kind = .basket) :
    (∀ n, let xs := (soldLines ls).filter fun l => l.plu = n
      credited c.deltas (.plu n) 7 =
        [xs.length, (xs.map CommitLine.soldWeight).sum, (xs.map CommitLine.soldPieces).sum, valueOf xs, 0, 0, 0]) ∧
    (∀ d, let xs := (soldLines ls).filter fun l => l.department = d
      credited c.deltas (.acc (.department d)) 2 = [xs.length, valueOf xs]) ∧
    ∀ st, let xs := (soldLines ls).filter fun l => l.channel = st
      credited c.deltas (.acc (.channel st)) 3 = [xs.length, valueOf xs, 0] := by
  refine ⟨fun n => ?_, fun d => ?_, fun st => ?_⟩
  all_goals
    rw [credited_of (Commit.creditAt_basket content kind _)]
    simp only [CommitLine.voidCredit, CommitLine.soldCredit, sum_some_lines]
    simp [List.range_succ, valueOf]

/-- R148: the clerk of a basket and the summary. -/
theorem Commit.credited_basket_whole (kind : c.kind = .basket) :
    (∀ k, credited c.deltas (.acc (.clerk k)) 6 = if c.clerk = some k then
      [(soldLines ls).length, valueOf (soldLines ls), (voidLines ls).length, valueOf (voidLines ls), 0, 0] else [0, 0, 0, 0, 0, 0]) ∧
    credited c.deltas (.acc .summary) 6 =
      [1, (soldLines ls).length, valueOf (soldLines ls), 0, valueOf (voidLines ls), 0] := by
  refine ⟨fun k => ?_, ?_⟩
  · rw [credited_of (Commit.creditAt_basket content kind _)]
    simp only [CommitLine.voidCredit, CommitLine.soldCredit, sum_if_lines]
    by_cases own : c.clerk = some k <;> simp [List.range_succ, valueOf, own]
  · rw [credited_of (Commit.creditAt_basket content kind _)]
    simp only [CommitLine.voidCredit, CommitLine.soldCredit]
    simp [List.range_succ, valueOf, Nat.add_comm]

/-- R149: a cancelled basket adds to its clerk and the summary alone. -/
theorem Commit.credited_cancel (kind : c.kind = .cancel) :
    (∀ n, credited c.deltas (.plu n) 7 = [0, 0, 0, 0, 0, 0, 0]) ∧
    (∀ d, credited c.deltas (.acc (.department d)) 2 = [0, 0]) ∧
    (∀ st, credited c.deltas (.acc (.channel st)) 3 = [0, 0, 0]) ∧
    (∀ k, credited c.deltas (.acc (.clerk k)) 6 = if c.clerk = some k then
      [0, 0, (voidLines ls).length, valueOf (voidLines ls), 1, valueOf (soldLines ls)] else [0, 0, 0, 0, 0, 0]) ∧
    credited c.deltas (.acc .summary) 6 = [0, 0, 0, 0, valueOf (voidLines ls), valueOf (soldLines ls)] := by
  refine ⟨fun n => ?_, fun d => ?_, fun st => ?_, fun k => ?_, ?_⟩
  case refine_4 =>
    rw [credited_of (Commit.creditAt_cancel content kind _)]
    simp only [CommitLine.voidCredit, sum_if_lines]
    by_cases own : c.clerk = some k <;> simp [List.range_succ, valueOf, own]
  all_goals
    rw [credited_of (Commit.creditAt_cancel content kind _)]
    simp only [CommitLine.voidCredit]
    simp [List.range_succ, valueOf]

end

/-- R148: a run adds to its PLU, department and channel and to the summary. -/
theorem Commit.credited_pack {c : Commit} {plu department : Nat} {mode : PluMode} {labels : Nat} {weight : Int} {value : Nat}
    (content : c.content = .pack plu department mode labels weight value) :
    (∀ n, credited c.deltas (.plu n) 7 =
      if n = plu then [0, 0, 0, 0, labels, weight.toNat, value] else [0, 0, 0, 0, 0, 0, 0]) ∧
    (∀ d, credited c.deltas (.acc (.department d)) 2 = if d = department then [labels, value] else [0, 0]) ∧
    (∀ st, credited c.deltas (.acc (.channel st)) 3 = if st = c.channel then [0, value, labels] else [0, 0, 0]) ∧
    (∀ k, credited c.deltas (.acc (.clerk k)) 6 = [0, 0, 0, 0, 0, 0]) ∧
    credited c.deltas (.acc .summary) 6 = [0, 0, value, value, 0, 0] := by
  have deltas : c.deltas = [(.plu plu, [0, 0, 0, 0, labels, weight.toNat, value]),
      (.acc (.department department), [labels, value]), (.acc (.channel c.channel), [0, value, labels]),
      (.acc .summary, [0, 0, value, value, 0, 0])] := by
    unfold Commit.deltas
    rw [content]
  rw [deltas]
  refine ⟨fun n => ?_, fun d => ?_, fun st => ?_, fun k => ?_, ?_⟩
  · by_cases own : plu = n <;> simp [credited_eq, List.range_succ, own, eq_comm (a := n)]
  · by_cases own : department = d <;> simp [credited_eq, List.range_succ, own, eq_comm (a := d)]
  · by_cases own : c.channel = st <;> simp [credited_eq, List.range_succ, own, eq_comm (a := st)]
  · simp [credited_eq, List.range_succ]
  · simp [credited_eq, List.range_succ]

end Sys2Proof.Machine
end

section
/-! SUPPORT. The slot a PLU number gets, the entries of a commit, and the images (R146, R150). -/

namespace Sys2Proof.Machine

/-! ## PLU slots (R146) -/

/-- R146: the slot is assigned to the PLU number. -/
def SlotAssigned (accs : List (Nat × Acc)) (plu s : Nat) : Prop :=
  1 ≤ s ∧ s ≤ 1024 ∧ ∃ x : Acc, (s, x) ∈ accs ∧ x.plu = some plu

/-- R146: the slot is assigned to none, neither in the images nor earlier in the commit. -/
def SlotFree (accs : List (Nat × Acc)) (new : List (Nat × Nat)) (s : Nat) : Prop :=
  1 ≤ s ∧ s ≤ 1024 ∧ (accOf accs (.plu s)).plu = none ∧ ∀ x ∈ new, x.2 ≠ s

/-- R146: what the search for the slot of a PLU number finds. -/
theorem slotOf_cases (accs : List (Nat × Acc)) (plu : Nat) :
    (∃ s, slotOf accs plu = some s ∧ SlotAssigned accs plu s) ∨ (slotOf accs plu = none ∧ ∀ s, ¬SlotAssigned accs plu s) := by
  unfold slotOf
  cases found : accs.find? fun y => decide (1 ≤ y.1 ∧ y.1 ≤ 1024) && y.2.plu == some plu with
  | some y =>
    have listed := List.mem_of_find?_eq_some found
    have holds := List.find?_some found
    rw [Bool.and_eq_true, decide_eq_true_eq, beq_iff_eq] at holds
    obtain ⟨⟨low, high⟩, own⟩ := holds
    exact .inl ⟨y.1, rfl, low, high, y.2, listed, own⟩
  | none =>
    refine .inr ⟨rfl, fun s ⟨low, high, x, listed, own⟩ => ?_⟩
    have other := List.find?_eq_none.1 found (s, x) listed
    simp [low, high, own] at other

theorem unassigned_iff (accs : List (Nat × Acc)) (new : List (Nat × Nat)) (s : Nat) :
    unassigned accs new s = true ↔ (accOf accs (.plu s)).plu = none ∧ ∀ x ∈ new, x.2 ≠ s := by
  unfold unassigned
  simp only [Bool.and_eq_true, Option.isNone_iff_eq_none, Bool.not_eq_true', List.any_eq_false, beq_iff_eq, ne_eq]

/-- R146: the search from a slot on finds the lowest unassigned one, or there is none in its reach. -/
theorem lowestFree_cases (accs : List (Nat × Acc)) (new : List (Nat × Nat)) : ∀ fuel first : Nat,
    (∃ s, lowestFree accs new fuel first = some s ∧ first ≤ s ∧ s < first + fuel ∧ unassigned accs new s = true ∧
      ∀ k, first ≤ k → k < s → ¬unassigned accs new k = true) ∨
    (lowestFree accs new fuel first = none ∧ ∀ k, first ≤ k → k < first + fuel → ¬unassigned accs new k = true)
  | 0, first => .inr ⟨rfl, fun k low high => by omega⟩
  | fuel + 1, first => by
    unfold lowestFree
    by_cases here : unassigned accs new first = true
    · rw [if_pos here]
      exact .inl ⟨first, rfl, le_rfl, by omega, here, fun k low high => by omega⟩
    · rw [if_neg here]
      have passed : ∀ {k}, first ≤ k → ¬first + 1 ≤ k → ¬unassigned accs new k = true := fun {k} low high => by
        rwa [show k = first by omega]
      rcases lowestFree_cases accs new fuel (first + 1) with ⟨s, found, low, high, free, lower⟩ | ⟨none, taken⟩
      · refine .inl ⟨s, found, by omega, by omega, free, fun k hk hs => ?_⟩
        by_cases later : first + 1 ≤ k
        · exact lower k later hs
        · exact passed hk later
      · refine .inr ⟨none, fun k hk hs => ?_⟩
        by_cases later : first + 1 ≤ k
        · exact taken k later (by omega)
        · exact passed hk later

/-- R146: the lowest-numbered unassigned slot of 1 to 1,024, or none. -/
theorem lowestFree_spec (accs : List (Nat × Acc)) (new : List (Nat × Nat)) :
    (∀ s, SlotFree accs new s → (∀ k, SlotFree accs new k → s ≤ k) → lowestFree accs new 1024 1 = some s) ∧
    ((∀ s, ¬SlotFree accs new s) → lowestFree accs new 1024 1 = none) := by
  rcases lowestFree_cases accs new 1024 1 with ⟨k, found, low, high, free, lower⟩ | ⟨none, taken⟩
  · have slot : SlotFree accs new k := ⟨low, by omega, (unassigned_iff accs new k).1 free⟩
    refine ⟨fun s ⟨hs, _, plu, others⟩ least => ?_, fun full => absurd slot (full k)⟩
    have notLess : ¬s < k := fun less => lower s hs less ((unassigned_iff accs new s).2 ⟨plu, others⟩)
    rw [found, Nat.le_antisymm (Nat.not_lt.1 notLess) (least k slot)]
  · refine ⟨fun s ⟨hs, ls, plu, others⟩ _ => ?_, fun _ => none⟩
    exact absurd ((unassigned_iff accs new s).2 ⟨plu, others⟩) (taken s hs (by omega))

/-- R146: a PLU number that this commit already gave a slot, or not. -/
theorem find_new_cases (new : List (Nat × Nat)) (plu : Nat) :
    (∃ s, new.find? (fun x => x.1 == plu) = some (plu, s) ∧ (plu, s) ∈ new) ∨
    (new.find? (fun x => x.1 == plu) = none ∧ ∀ s, (plu, s) ∉ new) := by
  cases found : new.find? fun x => x.1 == plu with
  | some x =>
    obtain ⟨n, s⟩ := x
    obtain rfl : n = plu := by simpa using List.find?_some found
    exact .inl ⟨s, rfl, List.mem_of_find?_eq_some found⟩
  | none => exact .inr ⟨rfl, fun s listed => by simpa using List.find?_eq_none.1 found _ listed⟩

/-- R146: the slot of a PLU number. -/
theorem Forming.slot_spec (accs : List (Nat × Acc)) (f : Forming) (plu : Nat) :
    (∀ s, SlotAssigned accs plu s → (∀ k, SlotAssigned accs plu k → k = s) → f.slot accs plu = (f, s)) ∧
    ((∀ s, ¬SlotAssigned accs plu s) →
      (∀ s, (plu, s) ∈ f.new → (∀ k, (plu, k) ∈ f.new → k = s) → f.slot accs plu = (f, s)) ∧
      ((∀ s, (plu, s) ∉ f.new) →
        (∀ s, SlotFree accs f.new s → (∀ k, SlotFree accs f.new k → s ≤ k) →
          f.slot accs plu = ({ f with new := f.new ++ [(plu, s)] }, s)) ∧
        ((∀ s, ¬SlotFree accs f.new s) →
          f.slot accs plu = ({ f with others := if plu ∈ f.others then f.others else f.others ++ [plu] }, 0)))) := by
  unfold Forming.slot
  rcases slotOf_cases accs plu with ⟨k, found, assigned⟩ | ⟨none, unassigned⟩
  · rw [found]
    exact ⟨fun s _ unique => by rw [unique k assigned], fun without => absurd assigned (without k)⟩
  · rw [none]
    refine ⟨fun s assigned => absurd assigned (unassigned s), fun _ => ?_⟩
    rcases find_new_cases f.new plu with ⟨k, found, listed⟩ | ⟨none, unlisted⟩
    · rw [found]
      exact ⟨fun s _ unique => by rw [unique k listed], fun without => absurd listed (without k)⟩
    · obtain ⟨lowest, full⟩ := lowestFree_spec accs f.new
      rw [none]
      refine ⟨fun s listed => absurd listed (unlisted s), fun _ => ⟨fun s free least => ?_, fun noneFree => ?_⟩⟩
      · rw [lowest s free least]
      · rw [full noneFree]
        have others : f.others ++ (if f.others.contains plu then [] else [plu]) =
            if plu ∈ f.others then f.others else f.others ++ [plu] := by
          by_cases known : plu ∈ f.others <;> simp [known]
        rw [← others]

/-! ## The entries of a commit (log 31) -/

/-- Deltas of one length are added figure by figure. -/
theorem addLists_eq : ∀ {xs ys : List Nat}, xs.length = ys.length → addLists xs ys = List.zipWith (· + ·) xs ys
  | [], [], _ => rfl
  | x :: xs, y :: ys, h => by rw [addLists, addLists_eq (Nat.succ.inj h), List.zipWith_cons_cons]

/-- The entries are in the order of the region, one for an accumulator. -/
def EntriesOrdered (es : List DeltaEntry) : Prop := es.Pairwise fun d e => d.acc.index ≤ e.acc.index ∧ d.acc ≠ e.acc

variable (accs : List (Nat × Acc)) (a : AccId) (plu : Option Nat) (delta : List Nat)

/-- The entry of an accumulator that the commit touches for the first time. -/
def freshEntry : DeltaEntry := { acc := a, plu := plu, before := (accOf accs a).figures, delta := delta }

/-- The three places of a delta: at the end or before a later entry, in an entry, or behind one that is passed by. -/
theorem addEntry_cons (e : DeltaEntry) (es : List DeltaEntry) : addEntry accs a plu delta (e :: es) =
    if e.acc = a then { e with delta := addLists e.delta delta } :: es
    else if a.index < e.acc.index then freshEntry accs a plu delta :: e :: es else e :: addEntry accs a plu delta es := rfl

/-- An entry after a delta was added is of its accumulator or was there before; an entry of another accumulator stays. -/
theorem mem_addEntry : ∀ (es : List DeltaEntry),
    (∀ e ∈ addEntry accs a plu delta es, e.acc = a ∨ e ∈ es) ∧ ∀ e ∈ es, e.acc ≠ a → e ∈ addEntry accs a plu delta es
  | [] => ⟨fun e h => .inl (by rw [List.mem_singleton.1 h]), nofun⟩
  | d :: es => by
    obtain ⟨from_, stays⟩ := mem_addEntry es
    rw [addEntry_cons]
    split
    · next own =>
      refine ⟨fun e h => ?_, fun e h other => ?_⟩
      · rcases List.mem_cons.1 h with rfl | h
        · exact .inl own
        · exact .inr (List.mem_cons_of_mem _ h)
      · rcases List.mem_cons.1 h with rfl | h
        · exact absurd own other
        · exact List.mem_cons_of_mem _ h
    · split
      · refine ⟨fun e h => ?_, fun e h _ => List.mem_cons_of_mem _ h⟩
        rcases List.mem_cons.1 h with rfl | h
        · exact .inl rfl
        · exact .inr h
      · refine ⟨fun e h => ?_, fun e h other => ?_⟩
        · rcases List.mem_cons.1 h with rfl | h
          · exact .inr List.mem_cons_self
          · exact (from_ e h).imp_right (List.mem_cons_of_mem _)
        · rcases List.mem_cons.1 h with rfl | h
          · exact List.mem_cons_self
          · exact List.mem_cons_of_mem _ (stays e h other)

/-- A delta added keeps the entries in order. -/
theorem addEntry_ordered : ∀ {es : List DeltaEntry}, EntriesOrdered es → EntriesOrdered (addEntry accs a plu delta es)
  | [], _ => List.pairwise_singleton ..
  | d :: es, h => by
    obtain ⟨first, rest⟩ := List.pairwise_cons.1 h
    rw [addEntry_cons]
    split
    · exact List.pairwise_cons.2 ⟨first, rest⟩
    · next other =>
      split
      · next before =>
        refine List.pairwise_cons.2 ⟨fun e he => ?_, h⟩
        have later : a.index < e.acc.index := by
          rcases List.mem_cons.1 he with rfl | he
          · exact before
          · exact lt_of_lt_of_le before (first e he).1
        exact ⟨later.le, fun same => absurd (congrArg AccId.index same) later.ne⟩
      · next after =>
        refine List.pairwise_cons.2 ⟨fun e he => ?_, addEntry_ordered rest⟩
        rcases (mem_addEntry accs a plu delta es).1 e he with own | old
        · rw [own]
          exact ⟨not_lt.1 after, other⟩
        · exact first e old

/-- The first delta for an accumulator makes its entry. -/
theorem addEntry_fresh : ∀ {es : List DeltaEntry}, (∀ e ∈ es, e.acc ≠ a) → freshEntry accs a plu delta ∈ addEntry accs a plu delta es
  | [], _ => List.mem_singleton_self _
  | d :: es, h => by
    rw [addEntry_cons, if_neg (h d List.mem_cons_self)]
    split
    · exact List.mem_cons_self
    · exact List.mem_cons_of_mem _ (addEntry_fresh fun e he => h e (List.mem_cons_of_mem _ he))

/-- A later delta for an accumulator joins its entry. -/
theorem addEntry_joined : ∀ {es : List DeltaEntry}, EntriesOrdered es → ∀ e ∈ es, e.acc = a → e.delta.length = delta.length →
    { e with delta := List.zipWith (· + ·) e.delta delta } ∈ addEntry accs a plu delta es
  | d :: es, h, e, he, own, length => by
    obtain ⟨first, rest⟩ := List.pairwise_cons.1 h
    rw [addEntry_cons]
    rcases List.mem_cons.1 he with rfl | he
    · rw [if_pos own, addLists_eq length]
      exact List.mem_cons_self
    · obtain ⟨order, other⟩ := first e he
      rw [own] at order other
      rw [if_neg other, if_neg (Nat.not_lt.2 order)]
      exact List.mem_cons_of_mem _ (addEntry_joined rest e he own length)

/-! ## The images -/

/-- The image listed at a place. -/
theorem find_putImage (i : Nat) (x : Acc) : ∀ accs : List (Nat × Acc),
    (putImage i x accs).find? (fun y => y.1 == i) = some (i, x) ∧
    ∀ k, i ≠ k → (putImage i x accs).find? (fun y => y.1 == k) = accs.find? fun y => y.1 == k
  | [] => by simp [putImage]
  | y :: ys => by
    obtain ⟨own, others⟩ := find_putImage i x ys
    unfold putImage
    split
    · exact ⟨by simp, fun k hk => by rw [List.find?_cons_of_neg (by simpa using hk)]⟩
    · split
      · next same =>
        refine ⟨by simp, fun k hk => ?_⟩
        rw [List.find?_cons_of_neg (by simpa using hk), List.find?_cons_of_neg (by simpa [← same] using hk)]
      · next other =>
        refine ⟨by rw [List.find?_cons_of_neg (by simpa using Ne.symm other), own], fun k hk => ?_⟩
        rw [List.find?_cons, List.find?_cons, others k hk]

/-- An image reads as it was last set, and another as before. -/
theorem accOf_setAcc (x : Acc) : accOf (setAcc accs a x) a = x ∧
    ∀ b : AccId, a.index ≠ b.index → accOf (setAcc accs a x) b = accOf accs b := by
  unfold setAcc
  split
  · next zero =>
    refine ⟨?_, fun b other => ?_⟩
    · have gone : (accs.filter fun y => y.1 != a.index).find? (fun y => y.1 == a.index) = none := by simp
      unfold accOf
      rw [gone, zero]
    · have kept : (accs.filter fun y => y.1 != a.index).find? (fun y => y.1 == b.index) =
          accs.find? fun y => y.1 == b.index := by
        rw [List.find?_filter]
        congr 1
        funext y
        by_cases here : y.1 = b.index
        · simp [here, Ne.symm other]
        · simp [here]
      unfold accOf
      rw [kept]
  · obtain ⟨own, others⟩ := find_putImage a.index x accs
    refine ⟨?_, fun b other => ?_⟩
    · unfold accOf
      rw [own]
    · unfold accOf
      rw [others b.index other]

end Sys2Proof.Machine
end

section
/-! SUPPORT. Figures, credits, slots, entries and images together (R144 to R150). -/

namespace Sys2Proof.Machine

/-- R145: a record after a delta. -/
theorem Acc.addDelta_spec (a : AccId) (x : Acc) (plu : Option Nat) (delta : List Nat) (number : Nat)
    (figures : x.figures.length = a.limits.length) (deltas : delta.length = a.limits.length) :
    let y := Acc.addDelta a x plu delta number
    y.figures.length = a.limits.length ∧ y.lastApplied = number ∧ y.plu = plu ∧ y.damaged = x.damaged ∧
    (∀ i : Nat, i < a.limits.length → y.figures.getD i 0 = min (a.limits.getD i 0) (x.figures.getD i 0 + delta.getD i 0)) ∧
    (y.saturated = true ↔ x.saturated = true ∨ ∃ i : Nat, i < a.limits.length ∧
      a.limits.getD i 0 < x.figures.getD i 0 + delta.getD i 0) := by
  obtain ⟨length, each, saturated⟩ := addFigures_spec figures deltas
  refine ⟨length, rfl, rfl, rfl, each, ?_⟩
  rw [← saturated]
  exact Bool.or_eq_true_iff

/-- Settles O55: the sums and limits of `addFigures`, the credits of each kind of commit, and what `Forming.slot`, `addEntry` and
`setAcc` find and leave. -/
theorem figuresSaturateAtTheirLimits : Obligations.FiguresSaturateAtTheirLimits := by
  unfold Obligations.FiguresSaturateAtTheirLimits
  refine ⟨⟨fun _ => rfl, fun _ => rfl, fun _ => rfl, fun _ => rfl, rfl⟩, Acc.addDelta_spec, fun c ls content => ⟨fun kind => ?_, fun kind => ?_⟩,
    fun c plu department mode labels weight value content => Commit.credited_pack content, fun accs f plu => Forming.slot_spec accs f plu,
    fun accs c f delta => ⟨rfl, fun _ => rfl, fun _ => rfl⟩, fun accs a plu delta es ordered => ?_, fun accs a b x => ?_⟩
  · obtain ⟨plus, departments, channels⟩ := Commit.credited_basket_lines content kind
    obtain ⟨clerks, summary⟩ := Commit.credited_basket_whole content kind
    exact ⟨plus, departments, channels, clerks, summary⟩
  · exact Commit.credited_cancel content kind
  · obtain ⟨made, kept⟩ := mem_addEntry accs a plu delta es
    refine ⟨addEntry_ordered accs a plu delta ordered, fun e other => ⟨fun h => ?_, fun h => kept e h other⟩,
      addEntry_fresh accs a plu delta, addEntry_joined accs a plu delta ordered⟩
    exact (made e h).resolve_left other
  · obtain ⟨own, others⟩ := accOf_setAcc accs a x
    exact ⟨own, others b⟩

end Sys2Proof.Machine
end

section
/-! SUPPORT. The check code (R158): it is linear, a stored word has the syndrome 0, and each single wrong bit has its own. -/

namespace Sys2Proof.Machine

/-! ## Exclusive-or of bits -/

@[simp] theorem xorAll_nil : xorAll [] = false := rfl

theorem xorAll_cons (b : Bool) (bs : List Bool) : xorAll (b :: bs) = Bool.xor b (xorAll bs) := by
  have start : ∀ (bs : List Bool) (x y : Bool), bs.foldl Bool.xor (Bool.xor x y) = Bool.xor x (bs.foldl Bool.xor y) := by
    intro bs
    induction bs with
    | nil => exact fun _ _ => rfl
    | cons c cs ih =>
      intro x y
      rw [List.foldl_cons, List.foldl_cons, Bool.xor_assoc, ih]
  have first := start bs b false
  rw [Bool.xor_false] at first
  rw [xorAll, List.foldl_cons, Bool.false_xor, first, xorAll]

theorem xorAll_append : ∀ as bs : List Bool, xorAll (as ++ bs) = Bool.xor (xorAll as) (xorAll bs)
  | [], bs => by simp
  | a :: as, bs => by rw [List.cons_append, xorAll_cons, xorAll_cons, xorAll_append as bs, Bool.xor_assoc]

theorem xorAll_map_xor {α : Type} (f g : α → Bool) : ∀ xs : List α,
    xorAll (xs.map fun x => Bool.xor (f x) (g x)) = Bool.xor (xorAll (xs.map f)) (xorAll (xs.map g))
  | [] => rfl
  | x :: xs => by
    rw [List.map_cons, List.map_cons, List.map_cons, xorAll_cons, xorAll_cons, xorAll_cons, xorAll_map_xor f g xs]
    cases f x <;> cases g x <;> simp

theorem checkBit_xor (a b : BitVec 64) (j : Nat) : checkBit (a ^^^ b) j = Bool.xor (checkBit a j) (checkBit b j) := by
  unfold checkBit
  rw [← xorAll_map_xor]
  simp only [← BitVec.getLsbD_xor]

theorem parity_xor (k m n : Nat) : parity k (m ^^^ n) = Bool.xor (parity k m) (parity k n) := by
  unfold parity
  rw [← xorAll_map_xor]
  congr 2
  funext i
  exact Nat.testBit_xor ..

/-! ## The bits of the check byte and of the syndrome -/

/-- The number with these k bits. -/
def bitSum (k : Nat) (bit : Nat → Bool) : Nat := (List.range k).foldl (fun n j => n + (bit j).toNat * 2 ^ j) 0

theorem bitSum_succ (k : Nat) (bit : Nat → Bool) : bitSum (k + 1) bit = bitSum k bit + (bit k).toNat * 2 ^ k := by
  unfold bitSum
  rw [List.range_succ, List.foldl_append]
  rfl

theorem bitSum_lt (bit : Nat → Bool) : ∀ k, bitSum k bit < 2 ^ k
  | 0 => Nat.one_pos
  | k + 1 => by
    have below := bitSum_lt bit k
    have one : (bit k).toNat * 2 ^ k ≤ 1 * 2 ^ k := Nat.mul_le_mul_right _ (Bool.toNat_le _)
    rw [bitSum_succ, Nat.pow_succ]
    omega

/-- A bit above k others. -/
theorem testBit_add_top {k n : Nat} (h : n < 2 ^ k) (b : Bool) (j : Nat) :
    (n + b.toNat * 2 ^ k).testBit j = if j = k then b else n.testBit j := by
  rw [Nat.add_comm, Nat.mul_comm, Nat.testBit_two_pow_mul_add _ h]
  rcases Nat.lt_trichotomy j k with less | rfl | more
  · rw [if_pos less, if_neg (by omega)]
  · cases b <;> simp
  · have above : n.testBit j = false := Nat.testBit_lt_two_pow (lt_of_lt_of_le h (Nat.pow_le_pow_right (by decide) more.le))
    obtain ⟨d, hd⟩ : ∃ d, j - k = d + 1 := ⟨j - k - 1, by omega⟩
    rw [if_neg (by omega), if_neg (by omega), above, hd]
    cases b <;> simp [Nat.testBit_succ]

theorem testBit_bitSum (bit : Nat → Bool) : ∀ {k j : Nat}, j < k → (bitSum k bit).testBit j = bit j
  | k + 1, j, h => by
    rw [bitSum_succ, testBit_add_top (bitSum_lt bit k)]
    split
    · next top => rw [top]
    · exact testBit_bitSum bit (by omega)

theorem checkLow_eq (data : BitVec 64) : checkLow data = bitSum 7 (checkBit data) := rfl

theorem checkLow_lt (data : BitVec 64) : checkLow data < 128 := bitSum_lt _ 7

theorem testBit_checkLow (data : BitVec 64) {j : Nat} (h : j < 7) : (checkLow data).testBit j = checkBit data j :=
  testBit_bitSum _ h

/-- A byte of seven bits and one above them. -/
theorem getLsbD_lowByte {n : Nat} (h : n < 128) (b : Bool) {j : Nat} (hj : j < 8) :
    (BitVec.ofNat 8 (n + b.toNat * 128)).getLsbD j = if j = 7 then b else n.testBit j := by
  rw [BitVec.getLsbD_ofNat, decide_eq_true hj, Bool.true_and]
  exact testBit_add_top (k := 7) h b j

theorem getLsbD_checkByte (data : BitVec 64) {j : Nat} (hj : j < 8) : (checkByte data).getLsbD j =
    if j = 7 then Bool.xor (parity 64 data.toNat) (parity 7 (checkLow data)) else checkBit data j := by
  unfold checkByte
  rw [getLsbD_lowByte (checkLow_lt data) _ hj]
  split
  · rfl
  · exact testBit_checkLow data (by omega)

/-- R158: bits 0 to 6 of the syndrome are the check bits stored against those recomputed, bit 7 is over all bits. -/
theorem getLsbD_syndrome (v : BitVec 72) {j : Nat} (hj : j < 8) : (syndrome v).getLsbD j =
    if j = 7 then parity 72 v.toNat else Bool.xor ((wordCheck v).getLsbD j) (checkBit (wordData v) j) := by
  have low : (wordCheck v).toNat % 128 ^^^ checkLow (wordData v) < 2 ^ 7 :=
    Nat.xor_lt_two_pow (Nat.mod_lt _ (by decide)) (checkLow_lt _)
  unfold syndrome
  rw [getLsbD_lowByte low _ hj]
  split
  · rfl
  · next other =>
    have below : j < 7 := by omega
    rw [Nat.testBit_xor, testBit_checkLow _ below, show (128 : Nat) = 2 ^ 7 from rfl, Nat.testBit_mod_two_pow,
      decide_eq_true below, Bool.true_and]
    rfl

/-! ## The syndrome is linear, and 0 for a stored word -/

theorem wordData_xor (u v : BitVec 72) : wordData (u ^^^ v) = wordData u ^^^ wordData v := by
  unfold wordData
  exact BitVec.extractLsb'_xor

theorem wordCheck_xor (u v : BitVec 72) : wordCheck (u ^^^ v) = wordCheck u ^^^ wordCheck v := by
  unfold wordCheck
  exact BitVec.extractLsb'_xor

theorem syndrome_xor (u v : BitVec 72) : syndrome (u ^^^ v) = syndrome u ^^^ syndrome v := by
  apply BitVec.eq_of_getLsbD_eq
  intro j hj
  rw [BitVec.getLsbD_xor, getLsbD_syndrome _ hj, getLsbD_syndrome _ hj, getLsbD_syndrome _ hj]
  split
  · rw [BitVec.toNat_xor, parity_xor]
  · rw [wordData_xor, wordCheck_xor, checkBit_xor, BitVec.getLsbD_xor]
    cases (wordCheck u).getLsbD j <;> cases (wordCheck v).getLsbD j <;> simp

theorem wordData_storedWord (data : BitVec 64) : wordData (storedWord data) = data := by
  apply BitVec.eq_of_getLsbD_eq
  intro j hj
  rw [wordData, storedWord, BitVec.getLsbD_extractLsb', BitVec.getLsbD_append]
  simp [hj]

theorem wordCheck_storedWord (data : BitVec 64) : wordCheck (storedWord data) = checkByte data := by
  apply BitVec.eq_of_getLsbD_eq
  intro j hj
  rw [wordCheck, storedWord, BitVec.getLsbD_extractLsb', BitVec.getLsbD_append]
  simp [hj]

/-- The 72 bits of a stored word are its data bits and then those of its check byte. -/
theorem parity_storedWord (data : BitVec 64) : parity 72 (storedWord data).toNat =
    Bool.xor (parity 64 data.toNat) (Bool.xor (xorAll ((List.range 7).map (checkByte data).getLsbD)) ((checkByte data).getLsbD 7)) := by
  have bits : (List.range 72).map (storedWord data).toNat.testBit =
      (List.range 64).map data.toNat.testBit ++ ((List.range 7).map (checkByte data).getLsbD ++ [(checkByte data).getLsbD 7]) := by
    have split : List.range 72 = List.range 64 ++ ((List.range 7).map (64 + ·) ++ [71]) := by decide
    have bit : ∀ j, (storedWord data).toNat.testBit j =
        if j < 64 then data.toNat.testBit j else (checkByte data).getLsbD (j - 64) := fun j => BitVec.getLsbD_append
    rw [split, List.map_append, List.map_append, List.map_map]
    refine congr (congrArg _ (List.map_congr_left fun j hj => ?_)) (congr (congrArg _ (List.map_congr_left fun j _ => ?_)) ?_)
    · rw [bit, if_pos (List.mem_range.1 hj)]
    · rw [Function.comp, bit, if_neg (by omega), Nat.add_sub_cancel_left]
    · rw [List.map_singleton, bit]
      rfl
  unfold parity
  rw [bits, xorAll_append, xorAll_append]
  simp [xorAll_cons]

/-- R158: a stored word has the syndrome 0. -/
theorem syndrome_storedWord (data : BitVec 64) : syndrome (storedWord data) = 0#8 := by
  apply BitVec.eq_of_getLsbD_eq
  intro j hj
  rw [getLsbD_syndrome _ hj, BitVec.getLsbD_zero]
  split
  · have low : (List.range 7).map (checkByte data).getLsbD = (List.range 7).map (checkLow data).testBit :=
      List.map_congr_left fun k hk => by
        have below := List.mem_range.1 hk
        rw [getLsbD_checkByte data (by omega), if_neg (by omega), testBit_checkLow data below]
    rw [parity_storedWord, low, getLsbD_checkByte data (by decide), if_pos rfl]
    unfold parity
    generalize xorAll ((List.range 64).map data.toNat.testBit) = x
    generalize xorAll ((List.range 7).map (checkLow data).testBit) = y
    cases x <;> cases y <;> rfl
  · next other =>
    rw [wordCheck_storedWord, wordData_storedWord, getLsbD_checkByte data hj, if_neg other, Bool.xor_self]

/-! ## Wrong bits -/

/-- R158: the number that a wrong bit of the word gives bits 0 to 6 of the syndrome: the position of a data bit, the place of a check
bit, 0 for the bit over all. -/
def codeColumns : List Nat := positions ++ [1, 2, 4, 8, 16, 32, 64, 0]

theorem codeColumns_spec : codeColumns.Nodup ∧ codeColumns.length = 72 ∧ ∀ v ∈ codeColumns, v ≤ 71 := by decide +kernel

/-- R158: one wrong bit sets bit 7 of the syndrome and gives its number. -/
theorem syndrome_oneBit : ∀ i : Fin 72, syndrome (BitVec.ofNat 72 (2 ^ i.val)) = BitVec.ofNat 8 (codeColumns.getD i.val 0 + 128) := by
  decide +kernel

/-- The number of a data bit is its position; the number of another bit is no position. -/
theorem findIdx_codeColumns : ∀ i : Fin 72, positions.findIdx? (· == codeColumns.getD i.val 0) =
    if i.val < 64 then some i.val else none := by decide +kernel

/-- The number of one wrong bit, as the syndrome holds it. -/
theorem column_le (i : Fin 72) : codeColumns.getD i.val 0 ≤ 71 := by
  obtain ⟨-, length, bound⟩ := codeColumns_spec
  have inside : i.val < codeColumns.length := by rw [length]; exact i.isLt
  rw [List.getD_eq_getElem _ 0 inside]
  exact bound _ (List.getElem_mem inside)

theorem toNat_column (i : Fin 72) : (BitVec.ofNat 8 (codeColumns.getD i.val 0 + 128)).toNat = codeColumns.getD i.val 0 + 128 := by
  have bound := column_le i
  exact Nat.mod_eq_of_lt (by omega)

theorem column_injective {i j : Fin 72} (h : codeColumns.getD i.val 0 = codeColumns.getD j.val 0) : i = j := by
  obtain ⟨distinct, length, -⟩ := codeColumns_spec
  have insideI : i.val < codeColumns.length := by rw [length]; exact i.isLt
  have insideJ : j.val < codeColumns.length := by rw [length]; exact j.isLt
  rw [List.getD_eq_getElem _ 0 insideI, List.getD_eq_getElem _ 0 insideJ] at h
  exact Fin.ext ((distinct.getElem_inj_iff).1 h)

theorem wordData_oneBit (i : Nat) : wordData (BitVec.ofNat 72 (2 ^ i)) = BitVec.ofNat 64 (2 ^ i) := by
  apply BitVec.eq_of_getLsbD_eq
  intro j hj
  rw [wordData, BitVec.getLsbD_extractLsb', BitVec.getLsbD_ofNat, BitVec.getLsbD_ofNat]
  simp only [Nat.zero_add, hj, decide_true, Bool.true_and, Nat.lt_trans hj (by decide : 64 < 72)]

/-- R158: a wrong data bit is turned back, and another wrong bit leaves the data. -/
theorem corrected_oneBit (data : BitVec 64) (i : Fin 72) :
    corrected (data ^^^ BitVec.ofNat 64 (2 ^ i.val)) (codeColumns.getD i.val 0) = data := by
  unfold corrected
  rw [findIdx_codeColumns]
  split
  · next d found =>
    split at found
    · obtain rfl := Option.some.inj found
      rw [BitVec.xor_assoc, BitVec.xor_self, BitVec.xor_zero]
    · cases found
  · next none =>
    split at none
    · cases none
    · next check =>
      have outside : BitVec.ofNat 64 (2 ^ i.val) = 0#64 := by
        apply BitVec.eq_of_toNat_eq
        rw [BitVec.toNat_ofNat]
        exact Nat.mod_eq_zero_of_dvd (Nat.pow_dvd_pow 2 (Nat.not_lt.1 check))
      rw [outside, BitVec.xor_zero]

/-- R158: a stored word is read back as its data. -/
theorem judge_storedWord (data : BitVec 64) : judge (storedWord data) = .good data := by
  unfold judge
  rw [syndrome_storedWord, wordData_storedWord]
  rfl

/-- R158: one wrong bit is corrected. -/
theorem judge_oneBit (data : BitVec 64) (i : Fin 72) : ∃ syn,
    judge (storedWord data ^^^ BitVec.ofNat 72 (2 ^ i.val)) = .corrected data syn := by
  have syn : syndrome (storedWord data ^^^ BitVec.ofNat 72 (2 ^ i.val)) = BitVec.ofNat 8 (codeColumns.getD i.val 0 + 128) := by
    rw [syndrome_xor, syndrome_storedWord, BitVec.zero_xor, syndrome_oneBit]
  have value := toNat_column i
  have bound := column_le i
  have wrong : BitVec.ofNat 8 (codeColumns.getD i.val 0 + 128) ≠ 0 := fun h => by
    rw [h] at value
    exact absurd value.symm (Nat.succ_ne_zero _)
  refine ⟨BitVec.ofNat 8 (codeColumns.getD i.val 0 + 128), ?_⟩
  unfold judge
  rw [syn, wordData_xor, wordData_storedWord, wordData_oneBit]
  dsimp only
  rw [if_neg wrong, value, if_neg (by omega), Nat.add_sub_cancel, if_neg (by omega), corrected_oneBit]

/-- R158: two wrong bits are found uncorrectable. -/
theorem judge_twoBits (data : BitVec 64) {i j : Fin 72} (other : i ≠ j) : ∃ syn,
    judge (storedWord data ^^^ BitVec.ofNat 72 (2 ^ i.val) ^^^ BitVec.ofNat 72 (2 ^ j.val)) = .uncorrectable syn := by
  obtain ⟨a, ha⟩ : ∃ a, a = BitVec.ofNat 8 (codeColumns.getD i.val 0 + 128) := ⟨_, rfl⟩
  obtain ⟨b, hb⟩ : ∃ b, b = BitVec.ofNat 8 (codeColumns.getD j.val 0 + 128) := ⟨_, rfl⟩
  have valueA : a.toNat = codeColumns.getD i.val 0 + 128 := by rw [ha, toNat_column]
  have valueB : b.toNat = codeColumns.getD j.val 0 + 128 := by rw [hb, toNat_column]
  have syn : syndrome (storedWord data ^^^ BitVec.ofNat 72 (2 ^ i.val) ^^^ BitVec.ofNat 72 (2 ^ j.val)) = a ^^^ b := by
    rw [syndrome_xor, syndrome_xor, syndrome_storedWord, BitVec.zero_xor, syndrome_oneBit, syndrome_oneBit, ha, hb]
  have wrong : a ^^^ b ≠ 0 := fun h => by
    have same : a = b := BitVec.xor_eq_zero_iff.1 h
    rw [same, valueB] at valueA
    exact other (column_injective (Nat.add_right_cancel valueA).symm)
  have even : (a ^^^ b).toNat < 128 := by
    have top : (a ^^^ b).msb = false := by
      rw [BitVec.msb_xor, BitVec.msb_eq_decide, BitVec.msb_eq_decide, valueA, valueB]
      simp
    rw [BitVec.msb_eq_decide, decide_eq_false_iff_not] at top
    omega
  refine ⟨a ^^^ b, ?_⟩
  unfold judge
  rw [syn]
  dsimp only
  rw [if_neg wrong, if_pos even]

end Sys2Proof.Machine
end

section
/-! SUPPORT. Words just written are read back with no error (R158). -/

namespace Sys2Proof.Machine

/-! ## Words that stand in the FRAM -/

/-- R158: these words of data stand from word w on. -/
def WordsStand (m : List Host.Cell) : Nat → List (BitVec 64) → Prop
  | _, [] => True
  | w, d :: ds => Memory.word m w = storedWord d ∧ WordsStand m (w + 1) ds

theorem WordsStand.congr {m m' : List Host.Cell} : ∀ {w : Nat} {ds : List (BitVec 64)}, WordsStand m w ds →
    (∀ x, w ≤ x → x < w + ds.length → Memory.word m' x = Memory.word m x) → WordsStand m' w ds
  | _, [], _, _ => trivial
  | w, d :: ds, ⟨first, rest⟩, same => by
    rw [List.length_cons] at same
    exact ⟨(same w le_rfl (by omega)).trans first, rest.congr fun x low high => same x (by omega) (by omega)⟩

theorem WordsStand.append {m : List Host.Cell} : ∀ {w : Nat} {ds es : List (BitVec 64)}, WordsStand m w ds →
    WordsStand m (w + ds.length) es → WordsStand m w (ds ++ es)
  | _, [], _, _, more => more
  | w, d :: ds, es, ⟨first, rest⟩, more => by
    refine ⟨first, rest.append ?_⟩
    rwa [List.length_cons, Nat.add_comm ds.length, ← Nat.add_assoc] at more

theorem WordsStand.left {m : List Host.Cell} : ∀ {w : Nat} {ds es : List (BitVec 64)}, WordsStand m w (ds ++ es) → WordsStand m w ds
  | _, [], _, _ => trivial
  | _, _ :: _, _, ⟨first, rest⟩ => ⟨first, rest.left⟩

theorem WordsStand.right {m : List Host.Cell} : ∀ {w : Nat} {ds es : List (BitVec 64)}, WordsStand m w (ds ++ es) →
    WordsStand m (w + ds.length) es
  | _, [], _, stands => stands
  | w, d :: ds, es, ⟨_, rest⟩ => by
    rw [List.length_cons, Nat.add_comm ds.length, ← Nat.add_assoc]
    exact rest.right

/-- R158: words that stand are read as their data, with no error. -/
theorem Pass.readWords_standing {p : Pass} : ∀ {w : Nat} {ds : List (BitVec 64)}, WordsStand p.fram w ds →
    p.readWords w ds.length = (p, { words := ds.map some, errors := [] })
  | _, [], _ => rfl
  | w, d :: ds, ⟨first, rest⟩ => by
    have one : p.readOne w = (p, some d, []) := by
      unfold Pass.readOne
      rw [first, judge_storedWord]
    rw [List.length_cons, Pass.readWords, one]
    dsimp only
    rw [Pass.readWords_standing rest]
    rfl

theorem recordBytes_some : ∀ ds : List (BitVec 64), recordBytes (ds.map some) = some (ds.flatMap dataBytes)
  | [] => rfl
  | d :: ds => by rw [List.map_cons, recordBytes, recordBytes_some ds, List.flatMap_cons]

theorem Pass.read_standing {p : Pass} {w : Nat} {ds : List (BitVec 64)} (h : WordsStand p.fram w ds) (r : Requester) :
    p.read r w ds.length = (p, some (ds.flatMap dataBytes)) := by
  unfold Pass.read
  rw [Pass.readWords_standing h]
  dsimp only
  rw [recordBytes_some]
  rfl

/-- R158: words written stand, and every other word is as before. -/
theorem Pass.writeWords_standing : ∀ {ds : List (BitVec 64)} {p : Pass} {w : Nat}, Memory.wf p.fram → w + ds.length ≤ 14563 →
    WordsStand (p.writeWords w ds).fram w ds ∧
    ∀ x, (x < w ∨ w + ds.length ≤ x) → Memory.word (p.writeWords w ds).fram x = Memory.word p.fram x
  | [], _, _, _, _ => ⟨trivial, fun _ _ => rfl⟩
  | d :: ds, p, w, wf, room => by
    rw [List.length_cons] at room
    have inside : w < Config.framWords := by
      show w < 14563
      omega
    have put := Memory.word_putWord (v := storedWord d) wf inside
    obtain ⟨stands, others⟩ := Pass.writeWords_standing (ds := ds) (p := p.transfer w (storedWord d)) (w := w + 1)
      (Pass.transfer_wf wf) (by omega)
    refine ⟨⟨?_, stands⟩, fun x outside => ?_⟩
    · exact (others w (by omega)).trans ((put w).trans (if_pos rfl))
    · rw [List.length_cons] at outside
      exact (others x (by omega)).trans ((put x).trans (if_neg (by omega)))

/-! ## The bytes of a record, and its words -/

/-- R158: the bytes of n words, the last filled with zero bytes. -/
def padded (n : Nat) (bs : List Byte) : List Byte := (bs ++ List.replicate (8 * n) 0).take (8 * n)

theorem length_wordsOf : ∀ (n : Nat) (bs : List Byte), (wordsOf n bs).length = n
  | 0, _ => rfl
  | n + 1, bs => congrArg (· + 1) (length_wordsOf n (bs.drop 8))

theorem wordsOf_add : ∀ (n k : Nat) (bs : List Byte), wordsOf (n + k) bs = wordsOf n bs ++ wordsOf k (bs.drop (8 * n))
  | 0, k, bs => by simp [wordsOf]
  | n + 1, k, bs => by
    rw [show n + 1 + k = n + k + 1 by omega, wordsOf, wordsOf_add n k, wordsOf, List.drop_drop, List.cons_append]
    congr 4
    omega

theorem padded_eq {n : Nat} {bs : List Byte} (h : bs.length ≤ 8 * n) :
    padded n bs = bs ++ List.replicate (8 * n - bs.length) 0 := by
  unfold padded
  rw [List.take_append, List.take_of_length_le h, List.take_replicate, Nat.min_eq_left (Nat.sub_le ..)]

theorem length_padded (n : Nat) (bs : List Byte) : (padded n bs).length = 8 * n := by
  unfold padded
  simp

/-- The number of a few bytes, with zero bytes behind them. -/
theorem leNat_append_zeros (bs : List Byte) : ∀ k : Nat, leNat (bs ++ List.replicate k 0) = leNat bs := by
  intro k
  induction bs with
  | nil =>
    induction k with
    | zero => rfl
    | succ k ih =>
      rw [List.nil_append] at ih ⊢
      show (0 : Byte).toNat + 256 * leNat (List.replicate k 0) = 0
      rw [ih]
      rfl
  | cons b bs ih => rw [List.cons_append, leNat, leNat, ih]

/-- The eight bytes of a word made of up to eight bytes. -/
theorem dataBytes_ofNat {bs : List Byte} (h : bs.length ≤ 8) :
    dataBytes (BitVec.ofNat 64 (leNat bs)) = bs ++ List.replicate (8 - bs.length) 0 := by
  have full : (bs ++ List.replicate (8 - bs.length) 0).length = 8 := by
    rw [List.length_append, List.length_replicate]
    omega
  have number : leNat (bs ++ List.replicate (8 - bs.length) 0) = leNat bs := leNat_append_zeros bs _
  have bound := leNat_lt (bs ++ List.replicate (8 - bs.length) 0)
  have bytes := leBytes_leNat (bs ++ List.replicate (8 - bs.length) 0)
  rw [full, number] at bytes bound
  rw [show 256 ^ 8 = 2 ^ 64 from rfl] at bound
  unfold dataBytes
  rw [BitVec.toNat_ofNat, Nat.mod_eq_of_lt bound, bytes]

/-- R158: the words of a record hold its bytes, filled with zero bytes. -/
theorem flatMap_wordsOf : ∀ (n : Nat) (bs : List Byte), (wordsOf n bs).flatMap dataBytes = padded n bs
  | 0, bs => by simp [wordsOf, padded]
  | n + 1, bs => by
    rw [wordsOf, List.flatMap_cons, flatMap_wordsOf n, dataBytes_ofNat (List.length_take_le ..)]
    rcases Nat.lt_or_ge bs.length 8 with short | long
    · rw [List.drop_of_length_le short.le, List.take_of_length_le short.le, padded_eq (n := n) (bs := []) (Nat.zero_le _),
        padded_eq (n := n + 1) (bs := bs) (by omega),
        List.append_assoc, List.nil_append, ← List.replicate_add, List.length_nil]
      congr 2
      omega
    · have front : (bs.take 8).length = 8 := List.length_take_of_le long
      unfold padded
      rw [front, Nat.sub_self, List.replicate_zero, List.append_nil, Nat.mul_succ, Nat.add_comm (8 * n) 8]
      conv_rhs => rw [← List.take_append_drop 8 bs, List.append_assoc, List.take_append, front,
        List.take_of_length_le (by rw [front]; omega), Nat.add_sub_cancel_left]
      congr 1
      rw [List.take_append, List.take_append, List.take_replicate, List.take_replicate]
      congr 2
      omega

/-- R158: a record stands from word w on. -/
def RecordStands (m : List Host.Cell) (w n : Nat) (bs : List Byte) : Prop := WordsStand m w (wordsOf n bs)

/-- R158: a record that stands is read with no error. -/
theorem Pass.read_record {p : Pass} {w n : Nat} {bs : List Byte} (h : RecordStands p.fram w n bs) (r : Requester) :
    p.read r w n = (p, some (padded n bs)) := by
  have read := Pass.read_standing h r
  rwa [length_wordsOf, flatMap_wordsOf] at read

section
variable {p : Pass} (wf : Memory.wf p.fram) {w n : Nat} (bs : List Byte) (room : w + n ≤ 14563)
include wf room

/-- R158: a record just written stands. -/
theorem Pass.write_stands : RecordStands (p.write w n bs).fram w n bs :=
  (Pass.writeWords_standing wf (by rwa [length_wordsOf])).1

/-- R158: a record beside the words written stands as before. -/
theorem Pass.write_beside {w' n' : Nat} {bs' : List Byte} (h : RecordStands p.fram w' n' bs') (apart : w' + n' ≤ w ∨ w + n ≤ w') :
    RecordStands (p.write w n bs).fram w' n' bs' := by
  refine WordsStand.congr h fun x low high => ?_
  rw [length_wordsOf] at high
  exact (Pass.writeWords_standing (ds := wordsOf n bs) wf (by rwa [length_wordsOf])).2 x (by rw [length_wordsOf]; omega)

/-- R158: a record just written is read back. -/
theorem Pass.read_write (r : Requester) : (p.write w n bs).read r w n = (p.write w n bs, some (padded n bs)) :=
  Pass.read_record (Pass.write_stands wf bs room) r

end

/-- R158: two records side by side are read as one. -/
theorem Pass.read_records {p : Pass} {w n k : Nat} {bs cs : List Byte} (first : RecordStands p.fram w n bs)
    (second : RecordStands p.fram (w + n) k cs) (r : Requester) : p.read r w (n + k) = (p, some (padded n bs ++ padded k cs)) := by
  have read := Pass.read_standing (first.append (by rwa [length_wordsOf])) r
  rwa [List.length_append, length_wordsOf, length_wordsOf, List.flatMap_append, flatMap_wordsOf, flatMap_wordsOf] at read

end Sys2Proof.Machine
end

section
/-! SUPPORT. Fields read back from their bytes (R182), and the accumulators in the order of their region (R144, R158). -/

namespace Sys2Proof.Machine

/-! ## Fields (R182) -/

/-- An optional field is read off the front. -/
theorem opt_encOpt {α : Type} {f : α → List Byte} {p : Parser α} {x : Option α}
    (reads : ∀ a rest, x = some a → p (f a ++ rest) = some (a, rest)) (rest : List Byte) :
    opt p (encOpt f x ++ rest) = some (x, rest) := by
  cases x with
  | none => simp [encOpt, opt, num_one]
  | some a => simp [encOpt, opt, num_one, reads a rest rfl]

/-- Numbers of eight bytes, as many as stand there. -/
theorem many_u8 : ∀ {fs : List Nat} (_ : ∀ f ∈ fs, f < 2 ^ 64) (rest : List Byte),
    many (num 8) fs.length (fs.flatMap u8 ++ rest) = some (fs, rest)
  | [], _, _ => rfl
  | f :: fs, h, rest => by
    obtain ⟨first, more⟩ := List.forall_mem_cons.1 h
    rw [List.flatMap_cons, List.append_assoc, List.length_cons, many, u8, num_leBytes (k := 8) first]
    dsimp only
    rw [many_u8 more]

/-- R182: a yes/no field is read off the front. -/
theorem num_encBool (b : Bool) (rest : List Byte) : num 1 (encBool b ++ rest) = some (b.toNat, rest) := by
  cases b <;> exact num_one _ rest

theorem toNat_beq_one (b : Bool) : (b.toNat == 1) = b := by
  cases b <;> rfl

/-- A place in a list is read off the front. -/
theorem place_u1 {last n : Nat} (h : n ≤ last) (small : last < 256) (rest : List Byte) :
    place last (u1 n ++ rest) = some (n, rest) := by
  have fits : n < 256 ^ 1 := by omega
  unfold place u1
  rw [num_leBytes fits]
  exact if_pos h

/-- A date and time is read off the front, valid or not. -/
theorem dateTime_encDateTime {d : DateTime} (year : d.year < 65536) (month : d.month < 256) (day : d.day < 256)
    (hour : d.hour < 256) (minute : d.minute < 256) (second : d.second < 256) (rest : List Byte) :
    dateTime (encDateTime d ++ rest) = some (d, rest) := by
  simp only [dateTime, encDateTime, mapP, both, List.append_assoc, u1, u2, num_leBytes (k := 2) year, num_leBytes (k := 1) month,
    num_leBytes (k := 1) day, num_leBytes (k := 1) hour, num_leBytes (k := 1) minute, num_leBytes (k := 1) second]

/-! ## Accumulators (R144, R158) -/

/-- The accumulators of the region: in each the place names it, and its record lies inside the FRAM. -/
theorem region_spec {a : AccId} (h : a ∈ (List.range 1082).map accAt) :
    a.index < 1082 ∧ accAt a.index = a ∧ a.word + a.bodyWords + 1 ≤ 14563 := by
  obtain ⟨i, hi, rfl⟩ := List.mem_map.1 h
  rw [List.mem_range] at hi
  have placed : (accAt i).index = i ∧ (accAt i).word + (accAt i).bodyWords + 1 ≤ 14563 := by
    unfold accAt
    split
    · exact ⟨rfl, by simp only [AccId.word, AccId.bodyWords]; omega⟩
    · split
      · exact ⟨by simp only [AccId.index]; omega, by simp only [AccId.word, AccId.bodyWords]; omega⟩
      · split
        · exact ⟨by simp only [AccId.index]; omega, by simp only [AccId.word, AccId.bodyWords]; omega⟩
        · by_cases channel : i - 1072 ≤ 8
          · have station : stationOf (i - 1072) = some ⟨i - 1072 - 1, by omega⟩ := dif_pos (by omega)
            rw [station]
            exact ⟨by simp only [AccId.index]; omega, by simp only [AccId.word, AccId.bodyWords]; omega⟩
          · rw [stationOf_none (.inr (by omega))]
            exact ⟨by simp only [AccId.index]; omega, by simp only [AccId.word, AccId.bodyWords]; omega⟩
  obtain ⟨index, room⟩ := placed
  exact ⟨by rwa [index], by rw [index], room⟩

theorem figuresOf_u8 : ∀ {fs : List Nat} (_ : ∀ f ∈ fs, f < 2 ^ 64) (rest : List Byte),
    figuresOf fs.length (fs.flatMap u8 ++ rest) = fs
  | [], _, _ => rfl
  | f :: fs, h, rest => by
    obtain ⟨first, more⟩ := List.forall_mem_cons.1 h
    have front : ((f :: fs).flatMap u8 ++ rest).take 8 = leBytes 8 f := by
      rw [List.flatMap_cons, List.append_assoc]
      exact List.take_left' (length_leBytes 8 f)
    have back : ((f :: fs).flatMap u8 ++ rest).drop 8 = fs.flatMap u8 ++ rest := by
      rw [List.flatMap_cons, List.append_assoc]
      exact List.drop_left' (length_leBytes 8 f)
    rw [List.length_cons, figuresOf, front, back, figuresOf_u8 more, leNat_leBytes,
      Nat.mod_eq_of_lt (b := 256 ^ 8) first]

theorem length_flatMap_u8 : ∀ fs : List Nat, (fs.flatMap u8).length = 8 * fs.length
  | [] => rfl
  | f :: fs => by
    rw [List.flatMap_cons, List.length_append, length_flatMap_u8 fs, u8, length_leBytes, List.length_cons]
    omega

/-- R146, log 16: the PLU number of a slot. -/
theorem slotPlu_encOpt {x : Option Nat} (h : ∀ n, x = some n → n < 65536) (rest : List Byte) :
    slotPlu (encOpt u2 x ++ rest) = (x, rest) := by
  cases x with
  | none => rfl
  | some n =>
    have front : (u2 n ++ rest).take 2 = leBytes 2 n := List.take_left' (length_leBytes 2 n)
    have back : (u2 n ++ rest).drop 2 = rest := List.drop_left' (length_leBytes 2 n)
    have number : leNat (leBytes 2 n) = n := by rw [leNat_leBytes]; exact Nat.mod_eq_of_lt (h n rfl)
    show (some (leNat ((u2 n ++ rest).take 2)), (u2 n ++ rest).drop 2) = _
    rw [front, back, number]

/-- The bytes of a record fit its words. -/
theorem Acc.length_bodyBytes {a : AccId} {x : Acc} (figures : x.figures.length = a.limits.length) :
    (x.bodyBytes a).length ≤ 8 * a.bodyWords := by
  have plu : (if a.isPlu then encOpt u2 x.plu else []).length ≤ if a.isPlu then 3 else 0 := by
    split
    · cases x.plu <;> simp [encOpt, u2]
    · exact le_rfl
  have space : (if a.isPlu then 3 else 0) + 8 * a.limits.length ≤ 8 * a.bodyWords := by
    cases a <;> exact Nat.le_of_ble_eq_true rfl
  unfold Acc.bodyBytes
  rw [List.length_append, length_flatMap_u8, figures]
  omega

/-- R158: an accumulator record is read back from its bytes. -/
theorem parseAcc_bytes {a : AccId} {x : Acc} (figures : x.figures.length = a.limits.length) (fits : ∀ f ∈ x.figures, f < 2 ^ 64)
    (applied : x.lastApplied < 2 ^ 32) (plu : ∀ n, x.plu = some n → n < 65536 ∧ ∃ slot, a = .plu slot) :
    parseAcc a (padded a.bodyWords (x.bodyBytes a) ++ padded 1 x.lastBytes) = x := by
  have body : (padded a.bodyWords (x.bodyBytes a) ++ padded 1 x.lastBytes).take (8 * a.bodyWords) =
      padded a.bodyWords (x.bodyBytes a) := List.take_left' (length_padded ..)
  have last : (padded a.bodyWords (x.bodyBytes a) ++ padded 1 x.lastBytes).drop (8 * a.bodyWords) = padded 1 x.lastBytes :=
    List.drop_left' (length_padded ..)
  have number : leNat ((padded 1 x.lastBytes).take 4) = x.lastApplied := by
    have front : (padded 1 x.lastBytes).take 4 = leBytes 4 x.lastApplied := by
      cases x.saturated <;> cases x.damaged <;> rfl
    rw [front, leNat_leBytes]
    exact Nat.mod_eq_of_lt applied
  have saturated : (((padded 1 x.lastBytes).drop 4).head? == some 1) = x.saturated := by
    have flag : ((padded 1 x.lastBytes).drop 4).head? = some (if x.saturated then 1 else 0) := rfl
    rw [flag]
    cases x.saturated <;> rfl
  have damaged : (((padded 1 x.lastBytes).drop 5).head? == some 1) = x.damaged := by
    have flag : ((padded 1 x.lastBytes).drop 5).head? = some (if x.damaged then 1 else 0) := rfl
    rw [flag]
    cases x.damaged <;> rfl
  have fields : (if a.isPlu then slotPlu (padded a.bodyWords (x.bodyBytes a)) else (none, padded a.bodyWords (x.bodyBytes a))) =
      (x.plu, x.figures.flatMap u8 ++ List.replicate (8 * a.bodyWords - (x.bodyBytes a).length) 0) := by
    rw [padded_eq (Acc.length_bodyBytes figures)]
    generalize List.replicate (8 * a.bodyWords - (x.bodyBytes a).length) (0 : Byte) = zeros
    unfold Acc.bodyBytes
    cases slot : a.isPlu with
    | true => exact (congrArg slotPlu (List.append_assoc ..)).trans (slotPlu_encOpt (fun n h => (plu n h).1) _)
    | false =>
      have none : x.plu = none := by
        cases number : x.plu with
        | none => rfl
        | some n =>
          obtain ⟨-, k, rfl⟩ := plu n number
          cases slot
      rw [none]
      rfl
  unfold parseAcc
  dsimp only
  rw [body, last, number, saturated, damaged, fields]
  dsimp only
  rw [← figures, figuresOf_u8 fits]

/-- R158: an accumulator record just written is read back as itself. -/
theorem Pass.readAcc_writeAcc {p : Pass} (wf : Memory.wf p.fram) (r : Requester) {a : AccId} (region : a ∈ (List.range 1082).map accAt)
    {x : Acc} (figures : x.figures.length = a.limits.length) (fits : ∀ f ∈ x.figures, f < 2 ^ 64) (applied : x.lastApplied < 2 ^ 32)
    (number : ∀ n, x.plu = some n → n < 65536 ∧ ∃ slot, a = .plu slot) (plu : Option Nat) :
    (p.writeAcc a x).readAcc r a plu = (p.writeAcc a x, x) := by
  obtain ⟨-, -, room⟩ := region_spec region
  have body := Pass.write_beside (Pass.write_wf wf) x.lastBytes room
    (Pass.write_stands wf (n := a.bodyWords) (x.bodyBytes a) (by omega)) (.inl le_rfl)
  have last := Pass.write_stands (Pass.write_wf (w := a.word) (n := a.bodyWords) (bs := x.bodyBytes a) wf) x.lastBytes room
  have read : (p.writeAcc a x).read r a.word (a.bodyWords + 1) = _ := Pass.read_records body last r
  obtain ⟨-, whole⟩ := (p.writeAcc a x).readAcc_cases r a plu
  rw [whole _ (congrArg Prod.snd read), read]
  exact congrArg (p.writeAcc a x, ·) (parseAcc_bytes figures fits applied number)

end Sys2Proof.Machine
end

section
/-! SUPPORT. The small records of the store read back: two copies, calibration, the log, the last period (R155, R160, R164, R168). -/

namespace Sys2Proof.Machine

/-! ## Two copies (R160, R162) -/

/-- R160: two copies of one value that stand are read as that value, with no word written. -/
theorem Pass.readPair_standing {α : Type} [DecidableEq α] {p : Pass} {w n : Nat} {parse : List Byte → α} {bytes : α → List Byte}
    {larger : α → α → α} {v : α} (first : RecordStands p.fram w n (bytes v)) (second : RecordStands p.fram (w + n) n (bytes v))
    (parsed : parse (padded n (bytes v)) = v) (same : larger v v = v) (r : Requester) :
    p.readPair r w n parse bytes larger = (p, some v) := by
  have one := Pass.read_record first r
  have two := Pass.read_record second r
  obtain ⟨-, -, -, both⟩ := p.readPair_cases r w n parse bytes larger
  rw [both (padded n (bytes v)) (padded n (bytes v)) (by rw [one]) (by rw [one, two])]
  rw [parsed, same, if_pos rfl, if_pos rfl, one, two]

/-- R160: two copies just written, side by side, both stand. -/
theorem Pass.write_pair {p : Pass} (wf : Memory.wf p.fram) {w n : Nat} (bs : List Byte) (room : w + n + n ≤ 14563) :
    RecordStands ((p.write w n bs).write (w + n) n bs).fram w n bs ∧
    RecordStands ((p.write w n bs).write (w + n) n bs).fram (w + n) n bs :=
  ⟨Pass.write_beside (Pass.write_wf wf) bs room (Pass.write_stands wf bs (by omega)) (.inl le_rfl),
    Pass.write_stands (Pass.write_wf wf) bs room⟩

/-- R158: the grand total is read back from its bytes. -/
theorem parseGrand_bytes {g : Grand} (value : g.value < 2 ^ 64) (z : g.z < 2 ^ 32) : parseGrand (padded 2 g.bytes) = g := by
  have first : (padded 2 g.bytes).take 8 = leBytes 8 g.value := by cases g.saturated <;> rfl
  have second : ((padded 2 g.bytes).drop 8).take 4 = leBytes 4 g.z := by cases g.saturated <;> rfl
  have flag : ((padded 2 g.bytes).drop 12).head? = some (if g.saturated then 1 else 0) := rfl
  have saturated : (((padded 2 g.bytes).drop 12).head? == some 1) = g.saturated := by
    rw [flag]
    cases g.saturated <;> rfl
  unfold parseGrand
  rw [first, second, saturated, leNat_leBytes, leNat_leBytes, Nat.mod_eq_of_lt (b := 256 ^ 8) value,
    Nat.mod_eq_of_lt (b := 256 ^ 4) z]

/-- R162: a count is read back from its bytes. -/
theorem parseCount_bytes {n : Nat} (h : n < 2 ^ 32) : parseCount (padded 1 (u4 n)) = n := by
  have front : (padded 1 (u4 n)).take 4 = leBytes 4 n := rfl
  unfold parseCount
  rw [front, leNat_leBytes, Nat.mod_eq_of_lt (b := 256 ^ 4) h]

/-- R160: the grand total, just written in two copies. -/
theorem Pass.readPair_grand {p : Pass} (wf : Memory.wf p.fram) (r : Requester) {g : Grand} (value : g.value < 2 ^ 64)
    (z : g.z < 2 ^ 32) : ((p.write 42 2 g.bytes).write 44 2 g.bytes).readPair r 42 2 parseGrand Grand.bytes largerGrand =
      ((p.write 42 2 g.bytes).write 44 2 g.bytes, some g) := by
  obtain ⟨first, second⟩ := Pass.write_pair wf (w := 42) (n := 2) g.bytes (by decide)
  refine Pass.readPair_standing first second (parseGrand_bytes value z) ?_ r
  rw [largerGrand_eq, ite_self]

/-- R162: a count, just written in two copies. -/
theorem Pass.readPair_count {p : Pass} (wf : Memory.wf p.fram) (r : Requester) {w n : Nat} (room : w + 2 ≤ 14563)
    (fits : n < 2 ^ 32) : ((p.write w 1 (u4 n)).write (w + 1) 1 (u4 n)).readPair r w 1 parseCount u4 max =
      ((p.write w 1 (u4 n)).write (w + 1) 1 (u4 n), some n) := by
  obtain ⟨first, second⟩ := Pass.write_pair wf (n := 1) (u4 n) room
  exact Pass.readPair_standing first second (parseCount_bytes fits) (max_self n) r

/-! ## Calibration records (R168) -/

/-- R168: the fields of a record as bytes, the low bytes first, and the record check behind them. -/
theorem CalRecord.bytes_eq (c : CalRecord) :
    let low := fun (n : Nat) (k : Nat) => BitVec.ofNat 8 (n / 256 ^ k)
    let zc := (c.zc % 4294967296).toNat
    let fields := [low zc 0, low zc 1, low zc 2, low zc 3, low c.span 0, low c.span 1, low c.span 2, low c.span 3, low c.max 0, low c.max 1,
      low c.rangeMode 0, low c.e1 0, low c.e2 0, low c.max1 0, low c.max1 1]
    let check := ((fields.map BitVec.toNat).sum + 0xA5A5) % 65536
    c.bytes = fields ∧ c.stored = fields ++ [low check 0, low check 1] := by
  intro low zc fields check
  have bytes : c.bytes = fields := by
    simp only [CalRecord.bytes, i4, leInt, u4, u2, u1, leBytes, List.cons_append, List.nil_append, fields, low, zc, pow_zero,
      Nat.div_one, pow_succ, Nat.one_mul, Nat.div_div_eq_div_mul, Nat.reduceMul]
    rfl
  refine ⟨bytes, ?_⟩
  have stored : c.stored = c.bytes ++ u2 (recordCheck c.bytes) := rfl
  rw [stored, bytes]
  have last : u2 (recordCheck fields) = [low check 0, low check 1] := by
    show [BitVec.ofNat 8 check, BitVec.ofNat 8 (check / 256)] = _
    simp only [low, pow_zero, Nat.div_one, pow_one]
  rw [last]

/-- R168: bytes hold a record exactly when it stands there valid, with its check. -/
theorem parseCal_iff {bs : List Byte} (long : 17 ≤ bs.length) (c : CalRecord) :
    parseCal bs = some c ↔ c.valid = true ∧ ∃ rest, bs = c.stored ++ rest := by
  constructor
  · intro found
    obtain ⟨valid, stored⟩ := parseCal_some long found
    exact ⟨valid, bs.drop 17, by rw [stored, List.take_append_drop]⟩
  · rintro ⟨valid, rest, rfl⟩
    exact parseCal_stored valid rest

/-- R168: a valid calibration record just written is read back. -/
theorem Pass.readCal_write {p : Pass} (wf : Memory.wf p.fram) (r : Requester) (st : Station) {c : CalRecord} (valid : c.valid = true) :
    (p.write (3 * st.val) 3 c.stored).readCal r st = (p.write (3 * st.val) 3 c.stored, .valid c) := by
  have read := Pass.read_write wf (w := 3 * st.val) (n := 3) c.stored (by omega) r
  obtain ⟨-, whole, -⟩ := (p.write (3 * st.val) 3 c.stored).readCal_cases r st
  have room : c.stored.length ≤ 8 * 3 := by rw [c.length_bytes.2]; decide
  rw [whole c _ (by rw [read, padded_eq room]) valid, read]

/-! ## The memory error log (R164) -/

theorem logStateOf_code (x : LogState) : logStateOf x.code = x := by cases x <;> rfl

theorem LogState.code_le (x : LogState) : x.code ≤ 2 := by cases x <;> decide

theorem requesterOf_code (r : Requester) : requesterOf r.code = r := by cases r <;> rfl

theorem Requester.code_le (r : Requester) : r.code ≤ 4 := by cases r <;> decide

/-- R164: a requester in a field is read off the front as its place. -/
theorem place_requester (x : Option Requester) (rest : List Byte) :
    opt (place 4) (encOpt (fun r => u1 r.code) x ++ rest) = some (x.map Requester.code, rest) := by
  cases x with
  | none => exact opt_encOpt (f := u1) (x := none) (fun _ _ h => by cases h) rest
  | some r => exact opt_encOpt (f := u1) (x := some r.code) (fun a rest h => by
      obtain rfl := Option.some.inj h
      exact place_u1 r.code_le (by decide) rest) rest

theorem map_requesterOf_code (x : Option Requester) : (x.map Requester.code).map requesterOf = x := by
  cases x with
  | none => rfl
  | some r => exact congrArg some (requesterOf_code r)

/-- R164: a syndrome in a field is read off the front as one byte. -/
theorem rawBytes_syndrome (x : Option Byte) (rest : List Byte) :
    opt (rawBytes 1) (encOpt (fun b => [b]) x ++ rest) = some (x.map fun b => [b], rest) := by
  cases x with
  | none => exact opt_encOpt (f := fun b => b) (x := none) (fun _ _ h => by cases h) rest
  | some b => exact opt_encOpt (f := fun b => b) (x := some [b]) (fun a rest h => by
      obtain rfl := Option.some.inj h
      simp [rawBytes]) rest

theorem head?_syndrome (x : Option Byte) : (x.map fun b => [b]).bind List.head? = x := by
  cases x <;> rfl

/-- R164: the log record is read back from its bytes, whatever follows them. -/
theorem parseLog_bytes {l : MemLog} (address : ∀ n, l.address = some n → n < 65536)
    (lastAddress : ∀ n, l.lastAddress = some n → n < 65536) (rest : List Byte) : parseLog (l.bytes ++ rest) = l := by
  have number : ∀ {x : Option Nat}, (∀ n, x = some n → n < 65536) → ∀ rest, opt (num 2) (encOpt u2 x ++ rest) = some (x, rest) :=
    fun fits => opt_encOpt fun n rest h => num_leBytes (k := 2) (fits n h) rest
  have flag : ∀ rest, place 1 (encBool l.second ++ rest) = some (l.second.toNat, rest) := fun rest => by
    unfold place
    rw [num_encBool]
    exact if_pos (Bool.toNat_le _)
  unfold parseLog MemLog.bytes
  simp only [both, List.append_assoc, place_u1 l.state.code_le (by decide : 2 < 256), number address, number lastAddress, flag,
    place_requester, rawBytes_syndrome, logStateOf_code, map_requesterOf_code, toNat_beq_one,
    head?_syndrome]

theorem MemLog.length_bytes (l : MemLog) : l.bytes.length ≤ 16 := by
  obtain ⟨state, address, requester, syndrome, second, lastRequester, lastAddress⟩ := l
  have optional : ∀ {α : Type} (f : α → List Byte) (k : Nat) (x : Option α), (∀ a, (f a).length ≤ k) → (encOpt f x).length ≤ k + 1 :=
    fun f k x h => by
      cases x with
      | none => exact Nat.succ_le_succ (Nat.zero_le k)
      | some a => exact Nat.succ_le_succ (h a)
  have a := optional u2 2 address fun _ => le_of_eq (length_leBytes 2 _)
  have b := optional (fun r => u1 r.code) 1 requester fun r : Requester => le_of_eq (length_leBytes 1 _)
  have c := optional (fun b => [b]) 1 syndrome fun _ => le_rfl
  have d := optional (fun r => u1 r.code) 1 lastRequester fun r : Requester => le_of_eq (length_leBytes 1 _)
  have e := optional u2 2 lastAddress fun _ => le_of_eq (length_leBytes 2 _)
  simp only [MemLog.bytes, List.length_append, u1, length_leBytes, encBool, List.length_singleton] at *
  omega

/-- R164: the log record just written is loaded into the image. -/
theorem Pass.loadLog_write {p : Pass} (wf : Memory.wf p.fram) {l : MemLog} (address : ∀ n, l.address = some n → n < 65536)
    (lastAddress : ∀ n, l.lastAddress = some n → n < 65536) :
    (p.write 10824 2 l.bytes).loadLog = { p.write 10824 2 l.bytes with log := l } := by
  have words := Pass.readWords_standing (Pass.write_stands wf (w := 10824) (n := 2) l.bytes (by decide))
  rw [length_wordsOf] at words
  obtain ⟨-, loaded⟩ := (p.write 10824 2 l.bytes).loadLog_cases
  rw [words] at loaded
  rw [loaded _ (recordBytes_some _), flatMap_wordsOf, padded_eq l.length_bytes, parseLog_bytes address lastAddress]
  rfl

/-! ## The last-period record (R155) -/

/-- R155: the fields of a last-period record fit their bytes. -/
def LastPeriod.fits (l : LastPeriod) : Prop :=
  l.z < 2 ^ 32 ∧ l.figures.length = 6 ∧ (∀ f ∈ l.figures, f < 2 ^ 64) ∧
  ∀ d, l.closedAt = some d → d.year < 65536 ∧ d.month < 256 ∧ d.day < 256 ∧ d.hour < 256 ∧ d.minute < 256 ∧ d.second < 256

/-- R155: the record is read off the front. -/
theorem lastPeriod_bytes {l : LastPeriod} (h : l.fits) (rest : List Byte) : lastPeriod (l.bytes ++ rest) = some (l, rest) := by
  obtain ⟨z, six, figures, time⟩ := h
  have closedAt : ∀ rest, opt dateTime (encOpt encDateTime l.closedAt ++ rest) = some (l.closedAt, rest) :=
    opt_encOpt fun d rest h => by
      obtain ⟨year, month, day, hour, minute, second⟩ := time d h
      exact dateTime_encDateTime year month day hour minute second rest
  have numbers : ∀ rest, many (num 8) 6 (l.figures.flatMap u8 ++ rest) = some (l.figures, rest) := fun rest => by
    rw [← six]
    exact many_u8 figures rest
  simp only [lastPeriod, LastPeriod.bytes, mapP, both, List.append_assoc, u4, num_leBytes (k := 4) z, closedAt, numbers,
    num_encBool, toNat_beq_one]

/-- R155: the record takes 55 bytes, and 7 more with its close time. -/
theorem LastPeriod.length_bytes {l : LastPeriod} (six : l.figures.length = 6) :
    l.bytes.length = if l.closedAt.isSome then 62 else 55 := by
  have time : (encOpt encDateTime l.closedAt).length = if l.closedAt.isSome then 8 else 1 := by
    cases l.closedAt with
    | none => rfl
    | some d => simp [encOpt, encDateTime, u2, u1]
  simp only [LastPeriod.bytes, List.length_append, u4, length_leBytes, time, length_flatMap_u8, six, encBool, List.length_singleton]
  split <;> rfl

/-- R155: the last-period record just written is read back. -/
theorem Pass.readLastPeriod_write {p : Pass} (wf : Memory.wf p.fram) (r : Requester) {l : LastPeriod} (h : l.fits) :
    (p.write 10816 8 l.bytes).readLastPeriod r = (p.write 10816 8 l.bytes, l) := by
  have room : l.bytes.length ≤ 8 * 8 := by
    rw [LastPeriod.length_bytes h.2.1]
    split <;> decide
  have read : (p.write 10816 8 l.bytes).read r lastPeriodWord lastPeriodWords = _ :=
    Pass.read_write wf (w := 10816) (n := 8) l.bytes (by decide) r
  unfold Pass.readLastPeriod parseLastPeriod
  rw [read, padded_eq room]
  dsimp only
  rw [lastPeriod_bytes h]
  rfl

end Sys2Proof.Machine
end

section
/-! SUPPORT. A journal entry just written is read back: how far its fields go on, and what they hold (R161, R164). -/

namespace Sys2Proof.Machine

/-! ## How far the fields of an entry go on (R164) -/

/-- R164: the fields show where the bytes end: all of them need themselves only, whatever follows, and fewer need more than there are. -/
def EndsItself (need : List Byte → Nat) (full : List Byte) : Prop :=
  (∀ rest, need (full ++ rest) = full.length) ∧ ∀ t u, full = t ++ u → u ≠ [] → t.length < need t

theorem length_lt_of_append {t u full : List Byte} (split : full = t ++ u) (more : u ≠ []) : t.length < full.length := by
  rw [split, List.length_append]
  exact Nat.lt_add_of_pos_right (List.length_pos_of_ne_nil more)

/-- A need that does not depend on the bytes. -/
theorem EndsItself.const (full : List Byte) : EndsItself (fun _ => full.length) full :=
  ⟨fun _ => rfl, fun _ _ split more => length_lt_of_append split more⟩

/-- Fields with a need of their own, behind a part whose bytes the need counts in. -/
theorem EndsItself.behind {need inner : List Byte → Nat} {front full : List Byte} (tail : EndsItself inner full)
    (whole : ∀ t, need (front ++ t) = front.length + inner t) (short : ∀ t u, front = t ++ u → u ≠ [] → t.length < need t) :
    EndsItself need (front ++ full) := by
  obtain ⟨all, fewer⟩ := tail
  refine ⟨fun rest => by rw [List.append_assoc, whole, all, List.length_append], fun t u split more => ?_⟩
  rcases List.append_eq_append_iff.1 split with ⟨x, rfl, rest⟩ | ⟨x, within, rest⟩
  · rw [whole, List.length_append]
    exact Nat.add_lt_add_left (fewer x u rest more) _
  · cases x with
    | cons y ys => exact short t (y :: ys) within (by simp)
    | nil =>
      rw [List.append_nil] at within
      rw [List.nil_append] at rest
      subst within
      have needed := whole []
      rw [List.append_nil] at needed
      rw [needed]
      exact Nat.lt_add_of_pos_right (Nat.lt_of_le_of_lt (Nat.zero_le _) (fewer [] u rest.symm more))

/-- R161: a delta entry: its place, whether a PLU number stands there, and the bytes that these call for. -/
theorem DeltaEntry.bytes_eq {e : DeltaEntry} (region : e.acc ∈ (List.range 1082).map accAt)
    (before : e.before.length = e.acc.limits.length) (delta : e.delta.length = e.acc.limits.length) :
    ∃ i j present body, e.bytes = i :: j :: present :: body ∧
      body.length = 16 * (accAt (leNat [i, j])).limits.length + if present = 1 then 2 else 0 := by
  obtain ⟨index, place, -⟩ := region_spec region
  have named : accAt (leNat [BitVec.ofNat 8 e.acc.index, BitVec.ofNat 8 (e.acc.index / 256)]) = e.acc := by
    have number : leNat (leBytes 2 e.acc.index) = e.acc.index := by
      rw [leNat_leBytes]
      exact Nat.mod_eq_of_lt (Nat.lt_trans index (by decide))
    exact (congrArg accAt number).trans place
  have figures : (e.before.flatMap u8 ++ e.delta.flatMap u8).length = 16 * e.acc.limits.length := by
    rw [List.length_append, length_flatMap_u8, length_flatMap_u8, before, delta]
    omega
  have bytes : e.bytes = leBytes 2 e.acc.index ++ (encOpt u2 e.plu ++ (e.before.flatMap u8 ++ e.delta.flatMap u8)) := by
    simp only [DeltaEntry.bytes, u2, List.append_assoc]
  cases plu : e.plu with
  | none =>
    refine ⟨_, _, 0, e.before.flatMap u8 ++ e.delta.flatMap u8, by rw [bytes, plu]; rfl, ?_⟩
    rw [figures, named]
    rfl
  | some n =>
    refine ⟨_, _, 1, u2 n ++ (e.before.flatMap u8 ++ e.delta.flatMap u8), by rw [bytes, plu]; rfl, ?_⟩
    rw [named, List.length_append, figures, u2, length_leBytes, if_pos rfl, Nat.add_comm]

/-- R161: the fields of a delta entry in the journal fit their bytes. -/
def DeltaEntry.fits (e : DeltaEntry) : Prop :=
  e.acc ∈ (List.range 1082).map accAt ∧ (∀ n, e.plu = some n → n < 65536) ∧
  (e.before.length = e.acc.limits.length ∧ ∀ f ∈ e.before, f < 2 ^ 64) ∧
  e.delta.length = e.acc.limits.length ∧ ∀ f ∈ e.delta, f < 2 ^ 64

/-- R164: the deltas of an entry show where they end. -/
theorem deltasNeed_endsItself : ∀ {es : List DeltaEntry}, (∀ e ∈ es, e.fits) →
    EndsItself (deltasNeed es.length) (es.flatMap DeltaEntry.bytes)
  | [], _ => EndsItself.const []
  | e :: es, fits => by
    obtain ⟨⟨region, -, ⟨before, -⟩, delta, -⟩, others⟩ := List.forall_mem_cons.1 fits
    obtain ⟨i, j, present, body, bytes, length⟩ := DeltaEntry.bytes_eq region before delta
    have need : ∀ t, deltasNeed (es.length + 1) (i :: j :: present :: t) =
        3 + body.length + deltasNeed es.length (t.drop body.length) := fun t => by rw [deltasNeed, length]
    rw [List.flatMap_cons, List.length_cons]
    refine (deltasNeed_endsItself others).behind (fun t => ?_) fun t u split more => ?_
    · rw [bytes, List.cons_append, List.cons_append, List.cons_append, need, List.drop_left]
      simp only [List.length_cons]
      omega
    · have short := length_lt_of_append split more
      rw [bytes] at split short
      match t, split with
      | [], _ => exact (by decide : 0 < 3)
      | [_], _ => exact (by decide : 1 < 3)
      | [_, _], _ => exact (by decide : 2 < 3)
      | a :: b :: c :: t', split =>
        simp only [List.cons_append, List.cons.injEq] at split
        obtain ⟨rfl, rfl, rfl, -⟩ := split
        rw [need]
        simp only [List.length_cons] at short ⊢
        omega

/-- R161: the bytes behind the eleventh of an entry with content, of a close by whether its time stands there. -/
def tailNeed (kind : Nat) (x : Byte) (tail : List Byte) : Nat :=
  if kind = 4 then if x = 1 then 69 else 62 else deltasNeed x.toNat tail

/-- The kind of an entry is its first byte. -/
theorem leNat_take_kind {kind : Nat} (small : kind < 256) (t : List Byte) : leNat ((u1 kind ++ t).take 1) = kind :=
  Nat.mod_eq_of_lt small

/-- R161: an entry with content needs eleven bytes until the eleventh is read, and then what that byte calls for. -/
theorem journalNeed_content {kind : Nat} (low : 1 ≤ kind) (high : kind ≤ 4) (t : List Byte) :
    (t.length ≤ 9 → journalNeed (u1 kind ++ t) = 11) ∧
    ∀ nine x tail, nine.length = 9 → t = nine ++ x :: tail → journalNeed (u1 kind ++ t) = 11 + tailNeed kind x tail := by
  have kindOf := leNat_take_kind (show kind < 256 by omega) t
  have listed : ¬ (kind = 0 ∨ 4 < kind) := by omega
  have sixth : ((u1 kind ++ t).drop 6).drop 4 = t.drop 9 := List.drop_drop ..
  have tenth : (u1 kind ++ t).drop 10 = t.drop 9 := rfl
  unfold journalNeed closeNeed tailNeed
  dsimp only
  rw [kindOf, if_neg listed, sixth, tenth]
  refine ⟨fun short => ?_, ?_⟩
  · rw [List.drop_of_length_le short]
    exact ite_self _
  · rintro nine x tail length rfl
    rw [List.drop_left' length]
    split
    · dsimp only
      split <;> rfl
    · rfl

/-- R161: an entry of any other kind needs its six header bytes. -/
theorem journalNeed_header {kind : Nat} (small : kind < 256) (other : kind = 0 ∨ 4 < kind) (t : List Byte) :
    journalNeed (u1 kind ++ t) = 6 := by
  unfold journalNeed
  rw [leNat_take_kind small]
  exact if_pos other

theorem length_journalHeader (kind number : Nat) (done : Bool) : (journalHeader kind number done).length = 6 := rfl

/-- R164: an entry with content, whose first ten bytes are the header and one number, shows where it ends. -/
theorem journal_endsItself {kind : Nat} (low : 1 ≤ kind) (high : kind ≤ 4) (number first : Nat) (done : Bool) (x : Byte)
    {tail : List Byte} (ends : EndsItself (tailNeed kind x) tail) :
    EndsItself journalNeed (journalHeader kind number done ++ (u4 first ++ x :: tail)) := by
  have ten : journalHeader kind number done ++ (u4 first ++ x :: tail) =
      (u1 kind ++ (u4 number ++ encBool done ++ u4 first) ++ [x]) ++ tail := by
    simp only [journalHeader, List.append_assoc, List.cons_append, List.nil_append]
  rw [ten]
  refine ends.behind (fun t => ?_) fun t u split more => ?_
  · rw [List.append_assoc, List.append_assoc]
    exact (journalNeed_content low high _).2 _ x t rfl rfl
  · have short : t.length < 11 := length_lt_of_append split more
    cases t with
    | nil => exact (by decide : 0 < journalNeed [])
    | cons k t' =>
      obtain rfl : BitVec.ofNat 8 kind = k := (List.cons.inj split).1
      rw [List.length_cons] at short
      exact short.trans_eq ((journalNeed_content low high t').1 (by omega)).symm

/-- R164: an entry without content shows where it ends. -/
theorem header_endsItself {kind : Nat} (small : kind < 256) (other : kind = 0 ∨ 4 < kind) (number : Nat) (done : Bool) :
    EndsItself journalNeed (journalHeader kind number done) := by
  refine ⟨fun rest => journalNeed_header small other _, fun t u split more => ?_⟩
  have short : t.length < 6 := length_lt_of_append split more
  cases t with
  | nil => exact (by decide : 0 < journalNeed [])
  | cons k t' =>
    obtain rfl : BitVec.ofNat 8 kind = k := (List.cons.inj split).1
    exact short.trans_eq (journalNeed_header small other t').symm

/-! ## The words of an entry (R158, R161) -/

theorem length_flatMap_dataBytes (ds : List (BitVec 64)) : (ds.flatMap dataBytes).length = 8 * ds.length := by
  induction ds with
  | nil => rfl
  | cons d ds ih =>
    rw [List.flatMap_cons, List.length_append, ih, dataBytes, length_leBytes, List.length_cons]
    omega

/-- R164: words that stand are read one after another as long as the fields go on. -/
theorem Pass.readEntry_standing {p : Pass} (r : Requester) {ds : List (BitVec 64)} : ∀ {fuel w : Nat} {t : List Byte},
    WordsStand p.fram w ds → ds.length ≤ fuel →
    (∀ es fs, ds = es ++ fs → fs ≠ [] → (t ++ es.flatMap dataBytes).length < journalNeed (t ++ es.flatMap dataBytes)) →
    journalNeed (t ++ ds.flatMap dataBytes) ≤ (t ++ ds.flatMap dataBytes).length →
    Pass.readEntry (fun q w => q.read r w 1) fuel p w t = (p, some (t ++ ds.flatMap dataBytes)) := by
  induction ds with
  | nil =>
    intro fuel w t _ _ _ whole
    rw [List.flatMap_nil, List.append_nil] at whole ⊢
    cases fuel with
    | zero => rfl
    | succ fuel => exact (Pass.readEntry_cases _ p fuel w t).1 whole
  | cons d ds ih =>
    intro fuel w t stands room on whole
    obtain ⟨left, rfl⟩ : ∃ left, fuel = left + 1 := ⟨fuel - 1, by rw [List.length_cons] at room; omega⟩
    have one : p.read r w 1 = (p, some (dataBytes d)) := by
      have read := Pass.read_standing (ds := [d]) (WordsStand.left (es := ds) stands) r
      rwa [List.flatMap_singleton] at read
    have short : t.length < journalNeed t := by
      have first := on [] (d :: ds) rfl (by simp)
      rwa [List.flatMap_nil, List.append_nil] at first
    have next := ((Pass.readEntry_cases (fun q w => q.read r w 1) p left w t).2 short).2 (dataBytes d) (by rw [one])
    rw [List.flatMap_cons, ← List.append_assoc] at whole ⊢
    rw [next, one]
    refine ih stands.2 (Nat.le_of_succ_le_succ room) (fun es fs split more => ?_) whole
    have later := on (d :: es) fs (by rw [split, List.cons_append]) more
    rwa [List.flatMap_cons, ← List.append_assoc] at later

theorem wordCount_room (n : Nat) : n ≤ 8 * wordCount n ∧ 8 * wordCount n < n + 8 := by
  unfold wordCount
  omega

/-- R161, R164: an entry that stands whole is read as what its bytes hold. -/
theorem Pass.readJournal_standing {p : Pass} {full : List Byte} (stands : RecordStands p.fram 256 (wordCount full.length) full)
    (ends : EndsItself journalNeed full) (room : full.length ≤ 8192) (r : Requester) :
    ∃ zeros, p.readJournal r = (p, parseJournal (full ++ zeros)) := by
  obtain ⟨all, fewer⟩ := ends
  obtain ⟨long, short⟩ := wordCount_room full.length
  have bytes : (wordsOf (wordCount full.length) full).flatMap dataBytes =
      full ++ List.replicate (8 * wordCount full.length - full.length) 0 := by rw [flatMap_wordsOf, padded_eq long]
  have length := length_wordsOf (wordCount full.length) full
  unfold RecordStands at stands
  generalize wordsOf (wordCount full.length) full = ds at stands bytes length
  generalize List.replicate (8 * wordCount full.length - full.length) (0 : Byte) = zeros at bytes
  have entry : Pass.readEntry (fun q w => q.read r w 1) journalWords p journalWord [] = (p, some ([] ++ ds.flatMap dataBytes)) := by
    refine Pass.readEntry_standing r stands (by rw [length]; show _ ≤ 1024; omega) (fun es fs split more => ?_) ?_
    · have number : es.length + fs.length = wordCount full.length := by rw [← length, split, List.length_append]
      have one := List.length_pos_of_ne_nil more
      rw [split, List.flatMap_append] at bytes
      have before : (es.flatMap dataBytes).length < full.length := by
        rw [length_flatMap_dataBytes]
        omega
      rcases List.append_eq_append_iff.1 bytes with ⟨x, within, -⟩ | ⟨x, beyond, -⟩
      · refine fewer _ x within ?_
        rintro rfl
        rw [List.append_nil] at within
        rw [within] at before
        exact absurd before (Nat.lt_irrefl _)
      · rw [beyond, List.length_append] at before
        omega
    · rw [List.nil_append, bytes, all, List.length_append]
      exact Nat.le_add_right ..
  refine ⟨zeros, ?_⟩
  unfold Pass.readJournal
  rw [entry]
  dsimp only
  rw [List.nil_append, bytes]

/-- R150, R153: an entry just written PENDING stands whole, and so it does once it is written DONE. -/
theorem Pass.writeJournal_stands {p : Pass} (wf : Memory.wf p.fram) (kind number : Nat) {content : List Byte}
    (room : (journalHeader kind number false ++ content).length ≤ 8192) :
    let q := p.writeJournal kind number content
    let words := wordCount (journalHeader kind number false ++ content).length
    RecordStands q.fram 256 words (journalHeader kind number false ++ content) ∧
    RecordStands (q.doneJournal kind number content).fram 256 words (journalHeader kind number true ++ content) := by
  intro q words
  have header : 6 ≤ (journalHeader kind number false ++ content).length := by
    rw [List.length_append, length_journalHeader]
    exact Nat.le_add_right ..
  obtain ⟨long, short⟩ := wordCount_room (journalHeader kind number false ++ content).length
  obtain ⟨k, count⟩ : ∃ k, words = 1 + k := Nat.exists_eq_add_of_le (by omega)
  have small : k ≤ 1023 := by omega
  have written : q = (p.write 257 k ((journalHeader kind number false ++ content).drop 8)).write 256 1
      (journalHeader kind number false ++ content) := by
    show (p.write 257 (words - 1) _).write 256 1 _ = _
    rw [count, Nat.add_sub_cancel_left]
  have inner : Memory.wf (p.write 257 k ((journalHeader kind number false ++ content).drop 8)).fram := Pass.write_wf wf
  have tail : RecordStands q.fram 257 k ((journalHeader kind number false ++ content).drop 8) := by
    rw [written]
    exact Pass.write_beside inner _ (by decide) (Pass.write_stands wf _ (by omega)) (.inr le_rfl)
  have joined : ∀ {m : List Host.Cell} {done : Bool}, RecordStands m 256 1 (journalHeader kind number done ++ content) →
      RecordStands m 257 k (content.drop 2) → RecordStands m 256 words (journalHeader kind number done ++ content) :=
    fun first rest => by
      unfold RecordStands
      rw [count, wordsOf_add]
      exact first.append rest
  refine ⟨joined ?_ tail, joined ?_ ?_⟩
  · rw [written]
    exact Pass.write_stands inner _ (by decide)
  · exact Pass.write_stands (Pass.writeJournal_wf wf) _ (by decide)
  · exact Pass.write_beside (Pass.writeJournal_wf wf) _ (by decide) tail (.inr le_rfl)

/-! ## What an entry holds (R161) -/

/-- R161: the header of an entry is read off the front. -/
theorem parseJournal_header {kind number : Nat} (small : kind < 256) (fits : number < 2 ^ 32) (done : Bool) (content : List Byte) :
    parseJournal (journalHeader kind number done ++ content) =
      if kind = 0 then .nothing else if done then .done number else parsePending kind number content := by
  have kindByte : ∀ rest, num 1 (u1 kind ++ rest) = some (kind, rest) := num_leBytes (k := 1) small
  have numberBytes : ∀ rest, num 4 (u4 number ++ rest) = some (number, rest) := num_leBytes (k := 4) fits
  have header : both (num 1) (both (num 4) (num 1)) (journalHeader kind number done ++ content) =
      some ((kind, number, done.toNat), content) := by
    simp only [both, journalHeader, List.append_assoc, kindByte, numberBytes, num_encBool]
  unfold parseJournal
  rw [header]
  cases done <;> rfl

/-- R161: a delta entry is read off the front. -/
theorem deltaEntry_bytes {e : DeltaEntry} (h : e.fits) (rest : List Byte) : deltaEntry (e.bytes ++ rest) = some (e, rest) := by
  obtain ⟨region, plu, ⟨length, before⟩, length', delta⟩ := h
  obtain ⟨index, place, -⟩ := region_spec region
  have number : ∀ rest, num 2 (u2 e.acc.index ++ rest) = some (e.acc.index, rest) :=
    num_leBytes (k := 2) (Nat.lt_trans index (by decide))
  have optional : ∀ rest, opt (num 2) (encOpt u2 e.plu ++ rest) = some (e.plu, rest) :=
    opt_encOpt fun n rest h => num_leBytes (k := 2) (plu n h) rest
  have first : ∀ rest, many (num 8) e.acc.limits.length (e.before.flatMap u8 ++ rest) = some (e.before, rest) := fun rest => by
    rw [← length]
    exact many_u8 before rest
  have second : ∀ rest, many (num 8) e.acc.limits.length (e.delta.flatMap u8 ++ rest) = some (e.delta, rest) := fun rest => by
    rw [← length']
    exact many_u8 delta rest
  simp only [deltaEntry, DeltaEntry.bytes, mapP, both, List.append_assoc, number, place, optional, first, second]

theorem many_deltaEntry : ∀ {es : List DeltaEntry}, (∀ e ∈ es, e.fits) → ∀ rest,
    many deltaEntry es.length (es.flatMap DeltaEntry.bytes ++ rest) = some (es, rest)
  | [], _, _ => rfl
  | e :: es, fits, rest => by
    obtain ⟨first, more⟩ := List.forall_mem_cons.1 fits
    rw [List.flatMap_cons, List.append_assoc, List.length_cons, many, deltaEntry_bytes first]
    dsimp only
    rw [many_deltaEntry more]

/-- R161: the count of a commit's entries is one byte. -/
theorem num_count {es : List DeltaEntry} (h : es.length < 256) (rest : List Byte) :
    num 1 (u1 es.length ++ rest) = some (es.length, rest) := num_leBytes (k := 1) h rest

theorem CommitKind.journal_spec (k : CommitKind) : 1 ≤ k.journal ∧ k.journal ≤ 3 ∧ commitKindOf k.journal = k := by
  cases k <;> decide

/-- R161: the content of a PENDING commit, whatever follows it. -/
theorem parsePending_commit {j : CommitJournal} (serial : j.serial < 2 ^ 32) (count : j.entries.length < 256)
    (fits : ∀ e ∈ j.entries, e.fits) (rest : List Byte) :
    parsePending j.kind.journal j.applyNumber (j.content ++ rest) = .commit j := by
  obtain ⟨-, high, kind⟩ := j.kind.journal_spec
  have serialBytes : ∀ rest, num 4 (u4 j.serial ++ rest) = some (j.serial, rest) := num_leBytes (k := 4) serial
  have content : both (num 4) (list deltaEntry) (j.content ++ rest) = some ((j.serial, j.entries), rest) := by
    simp only [both, list, CommitJournal.content, encList, List.append_assoc, serialBytes, num_count count, many_deltaEntry fits]
  unfold parsePending
  rw [if_pos high, content]
  dsimp only
  rw [kind]

/-- R161: the content of a PENDING period close, whatever follows it. -/
theorem parsePending_close {j : CloseJournal} (period : j.period.fits) (value : j.beforeValue < 2 ^ 64) (z : j.beforeZ < 2 ^ 32)
    (rest : List Byte) : parsePending 4 j.applyNumber (j.content ++ rest) = .close j := by
  have content : both lastPeriod (both (num 8) (num 4)) (j.content ++ rest) = some ((j.period, j.beforeValue, j.beforeZ), rest) := by
    simp only [both, CloseJournal.content, List.append_assoc, lastPeriod_bytes period, u8, num_leBytes (k := 8) value, u4,
      num_leBytes (k := 4) z]
  unfold parsePending
  rw [if_neg (by decide), if_pos rfl, content]

/-! ## The entries read back -/

/-- R164: the entry of a commit shows where it ends. -/
theorem CommitJournal.endsItself {j : CommitJournal} (count : j.entries.length < 256) (fits : ∀ e ∈ j.entries, e.fits) (done : Bool) :
    EndsItself journalNeed (journalHeader j.kind.journal j.applyNumber done ++ j.content) := by
  obtain ⟨low, high, -⟩ := j.kind.journal_spec
  refine journal_endsItself low (by omega) j.applyNumber j.serial done (BitVec.ofNat 8 j.entries.length) ?_
  have need : tailNeed j.kind.journal (BitVec.ofNat 8 j.entries.length) = deltasNeed j.entries.length := by
    funext t
    unfold tailNeed
    rw [if_neg (by omega), BitVec.toNat_ofNat, Nat.mod_eq_of_lt count]
  rw [need]
  exact deltasNeed_endsItself fits

/-- R164: the entry of a period close shows where it ends. -/
theorem CloseJournal.endsItself {j : CloseJournal} (period : j.period.fits) (done : Bool) :
    EndsItself journalNeed (journalHeader 4 j.applyNumber done ++ j.content) := by
  have length := LastPeriod.length_bytes period.2.1
  obtain ⟨x, tail, closedAt, present⟩ : ∃ x tail, encOpt encDateTime j.period.closedAt = x :: tail ∧
      ((x = 1) ↔ j.period.closedAt.isSome = true) := by
    cases j.period.closedAt with
    | none => exact ⟨0, [], rfl, by decide⟩
    | some d => exact ⟨1, encDateTime d, rfl, iff_of_true rfl rfl⟩
  have content : ∃ rest, j.content = u4 j.period.z ++ x :: rest := by
    simp only [CloseJournal.content, LastPeriod.bytes, closedAt, List.append_assoc, List.cons_append]
    exact ⟨_, rfl⟩
  obtain ⟨rest, content⟩ := content
  have size : rest.length = if x = 1 then 69 else 62 := by
    have total := congrArg List.length content
    simp only [CloseJournal.content, List.length_append, List.length_cons, length, u8, u4, length_leBytes] at total
    split at total
    case isTrue time =>
      rw [if_pos (present.2 time)]
      omega
    case isFalse time =>
      rw [if_neg (mt present.1 time)]
      omega
  rw [content]
  refine journal_endsItself (by decide) le_rfl j.applyNumber j.period.z done x ?_
  have need : tailNeed 4 x = fun _ => rest.length := by
    funext t
    rw [size]
    exact if_pos rfl
  rw [need]
  exact EndsItself.const rest

section
variable {p : Pass} (wf : Memory.wf p.fram) (r : Requester)
include wf

/-- R161: an entry of a listed kind, written PENDING and then DONE, is read as its content and then as its apply number. -/
theorem Pass.readJournal_written {kind number : Nat} {content : List Byte} (low : 1 ≤ kind) (small : kind < 256) (fits : number < 2 ^ 32)
    (room : (journalHeader kind number false ++ content).length ≤ 8192)
    (ends : ∀ done, EndsItself journalNeed (journalHeader kind number done ++ content)) {x : JournalRead}
    (parsed : ∀ rest, parsePending kind number (content ++ rest) = x) :
    let q := p.writeJournal kind number content
    q.readJournal r = (q, x) ∧
    (q.doneJournal kind number content).readJournal r = (q.doneJournal kind number content, .done number) := by
  intro q
  obtain ⟨pending, done⟩ := Pass.writeJournal_stands wf kind number room
  obtain ⟨zeros, readPending⟩ := Pass.readJournal_standing pending (ends false) room r
  obtain ⟨zeros', readDone⟩ := Pass.readJournal_standing done (ends true) room r
  rw [List.append_assoc, parseJournal_header small fits, if_neg (by omega)] at readPending readDone
  exact ⟨readPending.trans (congrArg (Prod.mk _) (parsed zeros)), readDone⟩

/-- R161: a header alone, written over whatever stood there. -/
theorem Pass.readJournal_header {kind number : Nat} (small : kind < 256) (other : kind = 0 ∨ 4 < kind) (fits : number < 2 ^ 32)
    (done : Bool) {x : JournalRead}
    (parsed : ∀ rest, (if kind = 0 then .nothing else if done then .done number else parsePending kind number rest) = x) :
    (p.write 256 1 (journalHeader kind number done)).readJournal r = (p.write 256 1 (journalHeader kind number done), x) := by
  have stands := Pass.write_stands wf (w := 256) (n := 1) (journalHeader kind number done) (by decide)
  have count : wordCount (journalHeader kind number done).length = 1 := by
    rw [length_journalHeader]
    rfl
  obtain ⟨zeros, read⟩ := Pass.readJournal_standing (by rwa [count]) (header_endsItself small other number done)
    (by rw [length_journalHeader]; decide) r
  rw [read, parseJournal_header small fits, parsed]

/-- R161: a commit's entry. -/
theorem Pass.readJournal_commit {j : CommitJournal} (number : j.applyNumber < 2 ^ 32)
    (room : (journalHeader j.kind.journal j.applyNumber false ++ j.content).length ≤ 8192) (serial : j.serial < 2 ^ 32)
    (count : j.entries.length < 256) (fits : ∀ e ∈ j.entries, e.fits) :
    let q := p.writeJournal j.kind.journal j.applyNumber j.content
    q.readJournal r = (q, .commit j) ∧
    (q.doneJournal j.kind.journal j.applyNumber j.content).readJournal r =
      (q.doneJournal j.kind.journal j.applyNumber j.content, .done j.applyNumber) := by
  obtain ⟨low, high, -⟩ := j.kind.journal_spec
  exact Pass.readJournal_written wf r low (by omega) number room (CommitJournal.endsItself count fits)
    (parsePending_commit serial count fits)

/-- R161: a period close's entry. -/
theorem Pass.readJournal_close {j : CloseJournal} (number : j.applyNumber < 2 ^ 32)
    (room : (journalHeader 4 j.applyNumber false ++ j.content).length ≤ 8192) (period : j.period.fits)
    (value : j.beforeValue < 2 ^ 64) (z : j.beforeZ < 2 ^ 32) :
    let q := p.writeJournal 4 j.applyNumber j.content
    q.readJournal r = (q, .close j) ∧
    (q.doneJournal 4 j.applyNumber j.content).readJournal r = (q.doneJournal 4 j.applyNumber j.content, .done j.applyNumber) :=
  Pass.readJournal_written wf r (by decide) (by decide) number room (CloseJournal.endsItself period)
    (parsePending_close period value z)

/-- R161: the entry of an accumulator clear. -/
theorem Pass.readJournal_clear {n : Nat} (number : n < 2 ^ 32) :
    (p.writeJournal 5 n []).readJournal r = (p.writeJournal 5 n [], .clear) :=
  (Pass.readJournal_written wf r (by decide) (by decide) number (content := [])
    (Nat.le_of_ble_eq_true rfl) (fun done => header_endsItself (kind := 5) (by decide) (by decide) n done) fun _ => rfl).1

end

end Sys2Proof.Machine
end

section
/-! SUPPORT. The check code and the records of the store read back (R158). -/

namespace Sys2Proof.Machine

/-- Settles O56: the check code by its value at the 72 places of a word, and the records by what their bytes hold, in words that stand
as they were written. -/
theorem checkCodeCorrectsOneBitAndFindsTwo : Obligations.CheckCodeCorrectsOneBitAndFindsTwo := by
  unfold Obligations.CheckCodeCorrectsOneBitAndFindsTwo
  refine ⟨fun data => ⟨judge_storedWord data, fun i small => judge_oneBit data ⟨i, small⟩, fun i j order small => ?_⟩,
    CalRecord.bytes_eq, fun bs c long => parseCal_iff long c, rfl, fun p r wf => ?_⟩
  · exact judge_twoBits data (i := ⟨i, order.trans small⟩) (j := ⟨j, small⟩) fun same => order.ne (Fin.mk.inj same)
  · intro figures fits entryFits readBack
    refine ⟨fun w n bs room => Pass.read_write wf bs room r, ?_, fun g value z => Pass.readPair_grand wf r value z,
      fun w n room fits => Pass.readPair_count wf r room fits, fun st c valid => Pass.readCal_write wf r st valid,
      fun l address last => Pass.loadLog_write wf address last, fun l h => Pass.readLastPeriod_write wf r h, ?_, ?_, ?_,
      Pass.readJournal_header wf r (by decide) (.inl rfl) (by decide) false fun _ => rfl⟩
    · intro a x plu region ⟨count, bounds⟩ applied number
      exact Pass.readAcc_writeAcc wf r region count bounds applied number plu
    · intro j ⟨number, room⟩ serial count deltas
      exact Pass.readJournal_commit wf r number room serial count deltas
    · intro j ⟨number, room⟩ period value z
      exact Pass.readJournal_close wf r number room period value z
    · intro n number
      exact ⟨Pass.readJournal_clear wf r number,
        Pass.readJournal_header wf r (kind := 6) (by decide) (.inr (by decide)) number true fun _ => rfl⟩

end Sys2Proof.Machine
end

section
/-! Power on and off, and the end of a frame to the host (R158, R160, R161, R167, R175, R177, R178). -/

namespace Sys2Proof.Machine

/-! ## Power (R160, R161) -/

/-- Every command but POWER_ON and POWER_LOSS is an event at the powered part (log 7). -/
theorem exec_isEvent (c : Instr) (noPowerOn : ∀ b, c ≠ .powerOn b) (noPowerLoss : c ≠ .powerLoss) :
    ∃ f : State → Option State, ∀ s, exec c s = s.event f := by
  cases c
  case powerOn b => exact absurd rfl (noPowerOn b)
  case powerLoss => exact absurd rfl noPowerLoss
  case clockSecond | hostInterbyteTimeout | peripheralFrameDiscarded | peripheralInterbyteTimeout | dispenserHello | signRefresh
      | printerHello | framNotAnswering =>
    exact ⟨fun _ => some _, fun _ => rfl⟩
  all_goals exact ⟨_, fun _ => rfl⟩

theorem exec_powerOn_off {s : State} (off : s.powered = false) (b : Bool) :
    exec (.powerOn b) s = .next (State.powerOn s.pending s.freeCount s.store.fram b) :=
  if_neg (by rw [off]; nofun)

theorem exec_powerOn_on {s : State} (on : s.powered = true) (b : Bool) : exec (.powerOn b) s = .next s := if_pos on

theorem exec_powerLoss_on {s : State} (on : s.powered = true) : exec .powerLoss s = .next s.powerLost := if_pos on

theorem exec_powerLoss_off {s : State} (off : s.powered = false) : exec .powerLoss s = .next s :=
  if_neg (by rw [off]; nofun)

/-- Settles O2: with no power an event does not happen, and the two commands of the power look at it first. -/
theorem idleOrUnpoweredPartKeepsItsState : Obligations.IdleOrUnpoweredPartKeepsItsState := by
  unfold Obligations.IdleOrUnpoweredPartKeepsItsState
  refine ⟨fun s idle => ?_, fun c s noPowerOn off => ?_, fun b s on => exec_powerOn_on on b⟩
  · unfold step
    rw [idle]
  · by_cases loss : c = .powerLoss
    · rw [loss, exec_powerLoss_off off]
    · obtain ⟨f, event⟩ := exec_isEvent c noPowerOn loss
      rw [event, State.event_unpowered off]

/-- Settles O4: the power-on values are those of the reset, over the FRAM as it stands. -/
theorem powerOnStartsAfreshOverTheFram : Obligations.PowerOnStartsAfreshOverTheFram := by
  unfold Obligations.PowerOnStartsAfreshOverTheFram
  intro b s off
  rw [exec_powerOn_off off]
  rfl

/-! ## Words of the write in progress (R158, R167) -/

/-- With no operation in flight no word is being transferred. -/
theorem State.cutTrace_idle {s : State} (op : s.store.op = none) : s.cutTrace = [] := by
  unfold State.cutTrace State.opPass
  rw [op]
  rfl

/-- R167: the first words of what may be cut short are the first words of the write in progress. -/
theorem State.cutTrace_take (s : State) (n : Nat) :
    ∃ written, 0 < written ∧ s.cutTrace.take (n + 1) = s.opPass.trace.take written := by
  unfold State.cutTrace
  split
  · exact ⟨min (n + 1) 2, by omega, List.take_take⟩
  · exact ⟨n + 1, n.succ_pos, rfl⟩

/-- R167: of a calibration write only the two words of the event counter may be cut short. -/
theorem State.cutTrace_calWrite_outside {s : State} {c : CalWrite} (op : s.store.op = some (.calWrite c)) {a : Nat}
    (outside : a < 9 * (24 + 2 * c.channel.val) ∨ 9 * (26 + 2 * c.channel.val) ≤ a) (w : Nat) (v : BitVec 72)
    (word : (w, v) ∈ s.cutTrace) : a < 9 * w ∨ 9 * w + 9 ≤ a := by
  have counter : w ∈ s.cutTrace.map Prod.fst := List.mem_map_of_mem (f := Prod.fst) word
  rw [State.cutTrace_calWrite op] at counter
  simp only [counterWord, List.mem_cons, List.not_mem_nil, or_false] at counter
  omega

theorem cutShort_nil (m : List Host.Cell) (cut : BitVec 72) (n : Nat) : cutShort m cut n [] = m := by
  cases n <;> rfl

/-- Settles O5: what is cut short is a part of the words of the operation in flight, and all of it but one word is whole. -/
theorem powerLossKeepsOnlyTheFram : Obligations.PowerLossKeepsOnlyTheFram := by
  unfold Obligations.PowerLossKeepsOnlyTheFram
  intro s on
  refine ⟨s.powerLost, exec_powerLoss_on on, rfl, fun op => ?_, fun wf a outside => (State.cutWrites_fram wf).2 a outside,
    fun wf w op a outside => byte_cutShort wf (State.cutTrace_calWrite_outside op outside), fun wf => ?_⟩
  · show cutShort s.store.fram _ _ s.cutTrace = _
    rw [State.cutTrace_idle op]
    exact cutShort_nil ..
  · obtain ⟨cut, whole⟩ := word_cutShort (c := Config.cutWord s.freeCount) s.cutTrace (Config.wordsDone s.freeCount) wf
    exact ⟨cut, fun w room other => (whole w room other).imp_right State.cutTrace_subset⟩

/-! ## The end of a frame to the host (R175, R177, R178) -/

/-- R175: the FRAM under the reset at the end of the RESTART reply holds the first words of the write in progress. -/
theorem State.restarted_fram (s : State) : s.restarted.store.fram =
    (s.cutTrace.take (Config.wordsDone s.freeCount + 1)).foldl (fun m x => Memory.putWord m x.1 x.2) s.store.fram :=
  completeWord_eq ..

/-- R175: each word under that reset is whole. -/
theorem State.restarted_word {s : State} (wf : Memory.wf s.store.fram) {w : Nat} (room : w < Config.framWords) :
    Memory.word s.restarted.store.fram w = Memory.word s.store.fram w ∨
      (w, Memory.word s.restarted.store.fram w) ∈ s.opPass.trace := by
  rw [State.restarted_fram]
  exact (Memory.word_putWords wf room).imp_right fun new => State.cutTrace_subset (List.mem_of_mem_take new)

/-- R161, R175: right after power-on no head is PRESENT, no line owes a frame and no flag is due, so no frame begins. -/
theorem State.powerOn_finish (pending : List Instr) (n : Nat) (fram : List Host.Cell) (answers : Bool) (old : State) :
    (State.powerOn pending n fram answers).finish old = State.powerOn pending n fram answers := by
  have link : HostLink.reset.pump = HostLink.reset := by rfl
  have lines : ((State.powerOn pending n fram answers).finish old).headLines = Vector.replicate 8 .reset := by
    ext i hi : 1
    have line := State.finish_headLine (State.powerOn pending n fram answers) old ⟨i, hi⟩
    have port : (State.powerOn pending n fram answers).ports[(⟨i, hi⟩ : Station)] = .reset := by simp [State.powerOn]
    have before : (State.powerOn pending n fram answers).headLines[(⟨i, hi⟩ : Station)] = .reset := by simp [State.powerOn]
    rw [port, before] at line
    rw [Vector.getElem_replicate]
    exact line.trans rfl
  rw [State.finish_parts, lines]
  show { State.powerOn pending n fram answers with link := HostLink.reset.pump } = _
  rw [link]
  rfl

/-- Settles O11: each kind of frame by its own effect; the reset writes the first words of the operation in flight. -/
theorem hostFrameSentEndsTheTransmission : Obligations.HostFrameSentEndsTheTransmission := by
  unfold Obligations.HostFrameSentEndsTheTransmission
  intro s on
  have sent {t : State} := State.event_of (o := execHostFrameSent s) (t := t) on rfl
  refine ⟨fun frame sending => sent (by rw [sending]; rfl), fun n frame sending => sent (by rw [sending]; rfl),
    fun n frame sending => sent (by rw [sending]; rfl), fun frame sending => ?_⟩
  have reset : exec .hostFrameSent s = .next s.restarted :=
    (sent (t := s.restarted) (by rw [sending])).trans (congrArg Host.Outcome.next (State.powerOn_finish ..))
  refine ⟨s.restarted, reset, rfl, fun op => ?_, fun wf a outside => ?_, fun wf w op a outside => ?_,
    fun wf w room => State.restarted_word wf room, ?_⟩
  · rw [State.restarted_fram, State.cutTrace_idle op]
    rfl
  · exact byte_completeWord _ wf fun w v word => outside w v (State.cutTrace_subset word)
  · exact byte_completeWord _ wf (State.cutTrace_calWrite_outside op outside)
  · obtain ⟨written, positive, words⟩ := s.cutTrace_take (Config.wordsDone s.freeCount)
    exact ⟨written, positive, s.restarted_fram.trans (by rw [words])⟩

end Sys2Proof.Machine
end

section
/-! The FRAM after every command, and its canonical form (R158). -/

namespace Sys2Proof.Machine

/-- R158: a pass that goes on keeps the canonical form. -/
theorem Pass.Grows.wf {p q : Pass} (grows : p.Grows q) (canonical : Memory.wf p.fram) : Memory.wf q.fram := by
  obtain ⟨new, -, fram⟩ := grows.words
  rw [fram]
  exact List.foldlRecOn new _ canonical fun _ wf _ _ => Memory.putWord_wf wf

/-- R153, R158, R159, R161, R175: the FRAM that a command can leave: as it was, as the operation in flight leaves it, as that operation
cut short, as a RESTART leaves it, or with the summary read for a period close. -/
def FramAfter (s : State) (fram : List Host.Cell) : Prop :=
  fram = s.store.fram ∨ fram = s.opPass.fram ∨ fram = s.cutWrites.store.fram ∨ fram = s.restarted.store.fram ∨
    fram = (s.pass.readAcc .periodClose .summary none).1.fram

/-- R158: each of them is in canonical form when the FRAM was. -/
theorem FramAfter.wf {s : State} {fram : List Host.Cell} (after : FramAfter s fram) (wf : Memory.wf s.store.fram) :
    Memory.wf fram := by
  rcases after with same | done | cut | restarted | summary
  · rwa [same]
  · rw [done]
    exact s.opPass_grows.wf wf
  · rw [cut]
    exact cutShort_wf wf
  · rw [restarted]
    exact completeWord_wf wf
  · rw [summary]
    exact Pass.readAcc_wf wf

/-- What an event leaves of the FRAM. -/
theorem framAfter_of_event {s t : State} {o : Host.Outcome State Fault Refusal} {f : State → Option State} (arm : o = s.event f)
    (h : o = .next t) (happens : ∀ u, f s = some u → FramAfter s u.store.fram) : FramAfter s t.store.fram := by
  rw [arm] at h
  rcases State.event_cases h with rfl | ⟨u, effect, rfl⟩
  · exact .inl rfl
  · exact happens u effect

/-- R159: a FRAM that stops answering cuts the operation in flight short. -/
theorem framAfter_framNotAnswering {s t : State} {after : Bool} (h : exec (.framNotAnswering after) s = .next t) :
    FramAfter s t.store.fram := by
  refine framAfter_of_event (o := execFramNotAnswering after s) rfl h fun u effect => ?_
  rw [← Option.some.inj effect]
  show FramAfter s (if s.store.op.isSome then s.cutWrites.storeFault else s).store.fram
  split
  · exact .inr (.inr (.inl (State.storeFault_fram _)))
  · exact .inl rfl

/-- R161: power loss cuts the operation in flight short. -/
theorem framAfter_powerLoss {s t : State} (h : exec .powerLoss s = .next t) : FramAfter s t.store.fram := by
  cases power : s.powered
  · rw [exec_powerLoss_off power] at h
    obtain rfl := Host.Outcome.next.inj h
    exact .inl rfl
  · rw [exec_powerLoss_on power] at h
    obtain rfl := Host.Outcome.next.inj h
    exact .inr (.inr (.inl rfl))

/-- R175: the end of a frame to the host changes the FRAM only where it ends a RESTART. -/
theorem framAfter_hostFrameSent {s t : State} (h : exec .hostFrameSent s = .next t) : FramAfter s t.store.fram := by
  refine framAfter_of_event (o := execHostFrameSent s) rfl h fun u effect => ?_
  split at effect
  · cases effect
  · cases effect
    exact .inl rfl
  · cases effect
    exact .inl rfl
  · obtain rfl := Option.some.inj effect
    exact .inr (.inr (.inr (.inl rfl)))

/-- R153: a period close begins with the summary read. -/
theorem framAfter_periodCloseBegin {s t : State} (h : exec .periodCloseBegin s = .next t) : FramAfter s t.store.fram := by
  refine framAfter_of_event (o := execPeriodCloseBegin s) rfl h fun u effect => ?_
  split at effect
  · obtain rfl := Option.some.inj effect
    unfold State.begin
    split
    · exact .inr (.inr (.inr (.inr (s.beginClose_fram _))))
    · exact .inl s.storeFault_fram
  · cases effect

/-- R158, R159: what any command leaves of the FRAM. -/
theorem exec_framAfter {c : Instr} {s t : State} (h : exec c s = .next t) : FramAfter s t.store.fram := by
  cases c
  case powerLoss => exact framAfter_powerLoss h
  case framNotAnswering after => exact framAfter_framNotAnswering h
  case hostFrameSent => exact framAfter_hostFrameSent h
  case periodCloseBegin => exact framAfter_periodCloseBegin h
  case verifyStageComplete | commitWriteComplete | periodCloseWriteComplete | clearComplete | calibrationWriteComplete
      | highMarkRaiseComplete | calibrationReadComplete | lastPeriodReadComplete | memoryLogWriteComplete =>
    rcases completes_fram (by simp) h with done | same
    · exact .inr (.inl done)
    · exact .inl same
  all_goals exact .inl (keepsFram_of_not_listed (by simp) s t h)

/-- Settles O59: a step is one command, and whatever FRAM a command leaves is in canonical form. -/
theorem stepKeepsTheFramCanonical : Obligations.StepKeepsTheFramCanonical := by
  unfold Obligations.StepKeepsTheFramCanonical
  intro s t canonical taken
  unfold step at taken
  split at taken
  · obtain rfl := Host.Outcome.next.inj taken
    exact canonical
  · exact (exec_framAfter taken).wf canonical

end Sys2Proof.Machine
end

section
/-! Errors found by a read, and the memory error log (R158, R164, R165). -/

namespace Sys2Proof.Machine

/-! ## Errors in ascending address order (R164) -/

/-- R158: one word read finds at most one error, its own. -/
theorem Pass.readOne_errors (p : Pass) (w : Nat) :
    (p.readOne w).2.2 = [] ∨ ∃ e : WordError, e.word = w ∧ (p.readOne w).2.2 = [e] := by
  unfold Pass.readOne
  split
  · exact .inl rfl
  · exact .inr ⟨_, rfl, rfl⟩
  · exact .inr ⟨_, rfl, rfl⟩

/-- R158: the errors of words read from word w on. -/
theorem Pass.readWords_errors_from : ∀ (n : Nat) (p : Pass) (w : Nat), ∀ e ∈ (p.readWords w n).2.errors, w ≤ e.word
  | 0, _, _, _, found => nomatch found
  | n + 1, p, w, e, found => by
    rw [Pass.readWords] at found
    rcases List.mem_append.1 found with first | later
    · rcases p.readOne_errors w with clean | ⟨d, own, one⟩
      · rw [clean] at first
        cases first
      · rw [one, List.mem_singleton] at first
        rw [first, own]
    · exact Nat.le_of_succ_le (Pass.readWords_errors_from n _ (w + 1) e later)

/-- R164: a read finds its errors in ascending address order. -/
theorem Pass.readWords_errors_ascend : ∀ (n : Nat) (p : Pass) (w : Nat),
    (p.readWords w n).2.errors.Pairwise fun d e => d.word < e.word
  | 0, _, _ => .nil
  | n + 1, p, w => by
    have later := Pass.readWords_errors_ascend n (p.readOne w).1 (w + 1)
    rw [Pass.readWords]
    dsimp only
    rcases p.readOne_errors w with clean | ⟨d, own, one⟩
    · rw [clean]
      exact later
    · rw [one]
      refine List.pairwise_cons.2 ⟨fun e found => ?_, later⟩
      rw [own]
      exact Pass.readWords_errors_from n _ (w + 1) e found

/-! ## The log after an error (R164) -/

/-- R164: an error updates the log image, raises its flag when there is one, and writes the log record. -/
theorem Pass.capture_eq (p : Pass) (r : Requester) (e : WordError) : p.capture r e = Pass.write
    { p with
      log := p.log.take r e
      raises := p.raises ++ (p.log.flagOf e).toList.map fun f => (f, u2 e.word ++ u1 r.code) } 10824 2 (p.log.take r e).bytes := by
  unfold Pass.capture
  cases p.log.flagOf e with
  | none => rw [Option.toList_none, List.map_nil, List.append_nil]; rfl
  | some f => rfl

/-- R164: the table: what an error makes of the log, and the flag it raises. -/
theorem MemLog.take_cases (l : MemLog) (r : Requester) (e : WordError) :
    let captured := fun (state : LogState) (second : Bool) =>
      ({ state := state, address := some e.word, requester := some r, syndrome := some e.syndrome, second := second,
         lastRequester := some r, lastAddress := some e.word } : MemLog)
    let becomes := fun (log : MemLog) (flag : Option Flag) => l.take r e = log ∧ l.flagOf e = flag
    (l.state = .none → e.correctable = true → becomes (captured .corrected l.second) (some .memCorrected)) ∧
    (l.state = .none → e.correctable = false → becomes (captured .uncorrectable l.second) (some .memUncorrectable)) ∧
    (l.state = .corrected → e.correctable = true → becomes (l.again r e) none) ∧
    (l.state = .corrected → e.correctable = false → becomes (captured .uncorrectable true) (some .memUncorrectable)) ∧
    (l.state = .uncorrectable → becomes (l.again r e) none) := by
  unfold MemLog.take MemLog.flagOf MemLog.capture
  refine ⟨fun state kind => ?_, fun state kind => ?_, fun state kind => ?_, fun state kind => ?_, fun state => ?_⟩
  all_goals rw [state]
  · exact ⟨by rw [kind]; rfl, if_pos kind⟩
  · exact ⟨by rw [kind]; rfl, if_neg (by rw [kind]; nofun)⟩
  · exact ⟨if_pos kind, if_pos kind⟩
  · exact ⟨by rw [kind]; rfl, if_neg (by rw [kind]; nofun)⟩
  · exact ⟨rfl, rfl⟩

/-! ## The requests and the write of the log (R165) -/

/-- READ_MEMORY_LOG and CLEAR_MEMORY_LOG are requests without arguments. -/
theorem exec_memoryLogRequests (s : State) :
    exec .readMemoryLog s = s.request 0x1A (noArgs fun s => (s, okReply s.store.log.bytes)) ∧
    exec .clearMemoryLog s = s.request 0x1B (noArgs State.clearMemoryLog) := ⟨rfl, rfl⟩

/-- Words written leave the log image and the flags to raise. -/
theorem Pass.writeWords_log : ∀ (ds : List (BitVec 64)) (p : Pass) (w : Nat),
    (p.writeWords w ds).log = p.log ∧ (p.writeWords w ds).raises = p.raises
  | [], _, _ => ⟨rfl, rfl⟩
  | d :: ds, p, w => Pass.writeWords_log ds (p.transfer w (storedWord d)) (w + 1)

/-- R165: the write of the log puts the image as it stands in the FRAM, and frees the port. -/
theorem State.logWritten_eq (s : State) : (s.takePass s.pass.writeLog).clearOp = { s with
    store := { s.store with op := none, fram := (s.pass.write logWord logWords s.store.log.bytes).fram } } := by
  have kept : s.pass.writeLog.log = s.store.log ∧ s.pass.writeLog.raises = [] := Pass.writeWords_log ..
  have written : s.pass.writeLog = s.pass.write logWord logWords s.store.log.bytes := rfl
  rw [State.takePass_eq, ← written]
  generalize s.pass.writeLog = p at kept
  obtain ⟨log, raises⟩ := kept
  unfold afterPass
  rw [log, raises]
  rfl

/-- Settles O36: the errors of a read by its words in order, the log by its table, and the two requests by the store's state. -/
theorem memoryLogIsReadAndCleared : Obligations.MemoryLogIsReadAndCleared := by
  unfold Obligations.MemoryLogIsReadAndCleared
  refine ⟨fun p r w n => ⟨p.readWords_errors_ascend n w, rfl⟩, fun p r e => ?_, fun s executing => ?_, fun s executing unready => ?_,
    fun s executing ready => ?_, fun s on op => ?_⟩
  · have becomes {log : MemLog} {flag : Option Flag} (entry : p.log.take r e = log ∧ p.log.flagOf e = flag) :
        p.capture r e = Pass.write
          { p with log := log, raises := p.raises ++ flag.toList.map fun f => (f, u2 e.word ++ u1 r.code) } 10824 2 log.bytes := by
      obtain ⟨rfl, rfl⟩ := entry
      exact p.capture_eq r e
    obtain ⟨corrected, uncorrectable, again, worse, last⟩ := p.log.take_cases r e
    exact ⟨fun state kind => becomes (corrected state kind), fun state kind => becomes (uncorrectable state kind),
      fun state kind => becomes (again state kind), fun state kind => becomes (worse state kind),
      fun state => becomes (last state)⟩
  · rw [(exec_memoryLogRequests s).1, State.request_noArgs executing, okReply_eq]
  · rw [(exec_memoryLogRequests s).2, State.request_noArgs executing]
    unfold State.clearMemoryLog
    rw [if_pos unready]
    rfl
  · rw [(exec_memoryLogRequests s).2, State.request_noArgs executing]
    unfold State.clearMemoryLog
    rw [if_neg (not_not_intro ready)]
    rfl
  · rw [← State.logWritten_eq]
    exact State.event_of (o := execMemoryLogWriteComplete s) on rfl (by rw [op])

end Sys2Proof.Machine
end

section
/-! SUPPORT. Host frames in error and the second of the clock (R171, R179), and the step. -/

namespace Sys2Proof.Machine

/-- A queue with a command at its front is not idle. -/
theorem step_cons (c : Instr) (rest : List Instr) (s : State) :
    step { s with pending := c :: rest } = exec c { s with pending := rest } := rfl

/-- Settles O1: the queue is not empty. -/
theorem stepTakesFrontCommand : Obligations.StepTakesFrontCommand := step_cons

/-! ## Frames in error (R171) -/

/-- R171: the receiver's answer to a whole frame that fails a check. -/
theorem HostLink.receive_none {frame : List Byte} (h : parseHostFrame frame = none) (l : HostLink) :
    l.receive frame = l.countError := by
  unfold HostLink.receive
  rw [h]

/-- R172: the receiver's answer to a frame that is taken. -/
theorem HostLink.receive_some {frame payload : List Byte} {kind : Nat} (h : parseHostFrame frame = some (kind, payload))
    (l : HostLink) : l.receive frame = l.take kind payload := by
  unfold HostLink.receive
  rw [h]

/-- R171: a whole frame is received. -/
theorem exec_hostFrameReceived {s : State} {frame : List Byte} (on : s.powered = true) (whole : wholeFrame frame = true) :
    exec (.hostFrameReceived frame) s = .next (State.finish { s with link := s.link.receive frame } s) :=
  State.event_of (o := execHostFrameReceived frame s) on rfl (if_pos whole)

/-- Settles O10: each of the three events counts an error. -/
theorem hostFramesInErrorAreCounted : Obligations.HostFramesInErrorAreCounted := by
  unfold Obligations.HostFramesInErrorAreCounted
  intro s on
  refine ⟨State.event_of (o := execHostInterbyteTimeout s) on rfl rfl, fun length bad => ?_, fun frame whole fails => ?_⟩
  · exact State.event_of (o := execHostFrameBadLength length s) on rfl (if_pos bad)
  · rw [exec_hostFrameReceived on whole, HostLink.receive_none fails]
    rfl

/-! ## CLOCK_SECOND (R179) -/

/-- The clock's check in terms of the calendar of R75. -/
theorem DateTime.valid_iff (t : DateTime) :
    t.valid = true ↔ t.date.legal ∧ t.hour ≤ 23 ∧ t.minute ≤ 59 ∧ t.second ≤ 59 := by
  have month : 1 ≤ t.month → t.month ≤ 12 → (monthLengths t.year).getD (t.month - 1) 0 = monthLength t.year t.month :=
    fun low high => monthLengths_getD t.year low high
  simp only [DateTime.valid, decide_eq_true_eq, Date.legal, DateTime.date]
  constructor
  · rintro ⟨from2000, to2099, low, high, first, inMonth, time⟩
    exact ⟨⟨from2000, to2099, low, high, first, (month low high).symm ▸ inMonth⟩, time⟩
  · rintro ⟨⟨from2000, to2099, low, high, first, inMonth⟩, time⟩
    exact ⟨from2000, to2099, low, high, first, month low high ▸ inMonth, time⟩

/-- A legal date has a number of at least 1. -/
theorem Date.number_pos {d : Date} (legal : d.legal) : 1 ≤ d.number := Nat.one_le_of_lt (Date.number_in_year legal).1

/-- R179: one second later on the calendar: within the minute, the hour and the day, and over midnight by the day after. -/
theorem DateTime.tick_spec {t : DateTime} (valid : t.valid = true) (notLast : t ≠ .last) :
    t.tick.valid = true ∧ t.tick.seconds = t.seconds + 1 := by
  obtain ⟨legal, hour, minute, second⟩ := t.valid_iff.1 valid
  unfold DateTime.tick
  rw [if_neg notLast]
  split
  · next more => exact ⟨(DateTime.valid_iff _).2 ⟨legal, hour, minute, more⟩, (Nat.add_assoc _ _ _).symm⟩
  next minuteEnds =>
  split
  · next more =>
    exact ⟨(DateTime.valid_iff _).2 ⟨legal, hour, more, Nat.zero_le _⟩, by
      show (((t.date.number - 1) * 24 + t.hour) * 60 + (t.minute + 1)) * 60 + 0 = t.seconds + 1
      unfold DateTime.seconds
      omega⟩
  next hourEnds =>
  split
  · next more =>
    exact ⟨(DateTime.valid_iff _).2 ⟨legal, more, Nat.zero_le _, Nat.zero_le _⟩, by
      show (((t.date.number - 1) * 24 + (t.hour + 1)) * 60 + 0) * 60 + 0 = t.seconds + 1
      unfold DateTime.seconds
      omega⟩
  next dayEnds =>
  obtain ⟨lastDate, -⟩ | ⟨legalNext, number⟩ := Date.next_cases legal
  · refine absurd ?_ notLast
    obtain ⟨year, month, day, h, m, s⟩ := t
    obtain ⟨rfl, rfl, rfl⟩ : year = 2099 ∧ month = 12 ∧ day = 31 := by simpa [DateTime.date] using lastDate
    simp only [DateTime.last, DateTime.mk.injEq, true_and]
    dsimp only at hour minute second minuteEnds hourEnds dayEnds
    omega
  · have first := Date.number_pos legal
    exact ⟨(DateTime.valid_iff _).2 ⟨legalNext, Nat.zero_le _, Nat.zero_le _, Nat.zero_le _⟩, by
      show (((t.date.next.number - 1) * 24 + 0) * 60 + 0) * 60 + 0 = t.seconds + 1
      rw [number]
      unfold DateTime.seconds
      omega⟩

/-- Settles O6: a second later within the minute, the hour, the day or over midnight. -/
theorem clockSecondAdvancesASetClock : Obligations.ClockSecondAdvancesASetClock := by
  unfold Obligations.ClockSecondAdvancesASetClock
  exact ⟨fun s on => State.event_of (o := execClockSecond s) on rfl rfl, fun _ => DateTime.tick_spec, if_pos rfl⟩

end Sys2Proof.Machine
end

section
/-! SUPPORT. The reply order and the requests answered from any state (R172, R173, R175, R180). -/

namespace Sys2Proof.Machine

/-! ## The reply order (R173) -/

/-- R173: the answer goes to the first place that was not ready. -/
theorem fillAnswer_first (payload : List Byte) (restart : Bool) {r : ReplySlot} (after : List ReplySlot) (waits : r.answer = none) :
    ∀ {before : List ReplySlot}, (∀ x ∈ before, x.answer.isSome = true) →
      fillAnswer payload restart (before ++ r :: after) = before ++ { r with answer := some payload, restart := restart } :: after
  | [], _ => if_pos (by rw [waits]; rfl)
  | x :: xs, ready => by
    obtain ⟨first, others⟩ := List.forall_mem_cons.1 ready
    rw [List.cons_append, fillAnswer, if_neg (by rw [Option.isNone_iff_eq_none]; exact Option.isSome_iff_ne_none.1 first),
      fillAnswer_first payload restart after waits others, List.cons_append]

/-- R172: with no request in execution the head of the holding list begins. -/
theorem HostLink.beginNext_idle {l : HostLink} (idle : l.executing = none) (running : l.restarting = false) :
    l.beginNext = { l with executing := l.holding.head?, holding := l.holding.tail } := by
  unfold HostLink.beginNext
  rw [if_neg (by simp [idle, running])]
  obtain ⟨executing, holding, replies, sending, restarting, errors, flags, clock⟩ := l
  obtain rfl : executing = none := idle
  cases holding <;> rfl

/-- R172: no request begins while another is in execution. -/
theorem HostLink.beginNext_busy {l : HostLink} (busy : l.executing.isSome = true) : l.beginNext = l := if_pos (.inl busy)

/-- R173: a request answered leaves its reply at its place and begins the next. -/
theorem HostLink.answer_eq {l : HostLink} {payload : List Byte} {before after : List ReplySlot} {r : ReplySlot}
    (replies : l.replies = before ++ r :: after) (ready : ∀ x ∈ before, x.answer.isSome = true) (waits : r.answer = none)
    (running : l.restarting = false) : l.answer payload = { l with
      replies := before ++ { r with answer := some payload, restart := false } :: after,
      executing := l.holding.head?, holding := l.holding.tail } := by
  unfold HostLink.answer
  rw [replies, fillAnswer_first payload false after waits ready]
  exact HostLink.beginNext_idle rfl running

/-- R173: what is left of an answered request. -/
theorem answered_eq (s t : State) (payload : List Byte) :
    answered s t payload = State.finish { t with link := t.link.answer payload } s := rfl

/-- Settles O14: the reply order by `fillAnswer_first`, the next request by `beginNext_idle`. -/
theorem answeredRequestTakesItsPlace : Obligations.AnsweredRequestTakesItsPlace := by
  unfold Obligations.AnsweredRequestTakesItsPlace
  intro s t payload before after r replies ready waits running
  have link := HostLink.answer_eq (payload := payload) replies ready waits running
  rw [answered_eq, link]
  exact ⟨rfl, rfl⟩

/-! ## IDENTIFY, RESTART and unknown requests (R172, R175, R180) -/

/-- Settles O15: IDENTIFY looks at nothing of the part. -/
theorem identifyReplies : Obligations.IdentifyReplies := by
  unfold Obligations.IdentifyReplies
  exact fun s executing => State.request_noArgs executing _

/-- R175: RESTART drops the reply places behind its own. -/
theorem HostLink.answerRestart_eq {l : HostLink} {before after : List ReplySlot} {r : ReplySlot}
    (replies : l.replies = before ++ r :: after) (ready : ∀ x ∈ before, x.answer.isSome = true) (waits : r.answer = none) :
    l.answerRestart = { l with
      replies := before ++ [{ r with answer := some [0], restart := true }], executing := none, holding := [],
      restarting := true } := by
  have taken : (r :: after).takeWhile (·.answer.isSome) = [] := List.takeWhile_cons_of_neg (by rw [waits]; nofun)
  have dropped : (r :: after).dropWhile (·.answer.isSome) = r :: after := List.dropWhile_cons_of_neg (by rw [waits]; nofun)
  unfold HostLink.answerRestart
  rw [replies, List.takeWhile_append_of_pos ready, List.dropWhile_append_of_pos ready, taken, dropped,
    List.append_nil, List.take_succ_cons, List.take_zero, fillAnswer_first _ true [] waits ready]
  rfl

/-- R172: a request in execution of a kind that names none. -/
theorem exec_unknownRequest {s : State} {kind : Nat} {payload : List Byte} (executing : Executing s kind payload)
    (unknown : kind ∉ knownKinds) : exec .unknownRequest s = .next (answered s s [2]) := by
  obtain ⟨on, request⟩ := executing
  refine State.event_of (o := execUnknownRequest s) (t := s.onLink (·.answer (refusal .unknownRequest))) on rfl ?_
  rw [request]
  exact if_neg (by rwa [List.contains_iff_mem])

/-- R175: RESTART in execution, by its payload. -/
theorem exec_restart {s : State} {payload : List Byte} (executing : Executing s 0x02 payload) : exec .restart s = .next
    (if payload = [] then State.finish { s with link := s.link.answerRestart } s else answered s s [3]) := by
  obtain ⟨on, request⟩ := executing
  show execRestart s = _
  unfold execRestart
  rw [State.event_powered on, request]
  dsimp only
  rw [if_pos ⟨rfl, rfl⟩]
  by_cases empty : payload = []
  · rw [if_pos empty, if_pos empty]
    rfl
  · rw [if_neg empty, if_neg empty]
    rfl

/-- Settles O16: an unknown kind is answered, and RESTART keeps the places up to its own. -/
theorem unknownRequestAndRestart : Obligations.UnknownRequestAndRestart := by
  unfold Obligations.UnknownRequestAndRestart
  refine ⟨fun s kind payload => exec_unknownRequest, fun s before after r executing replies ready waits => ?_⟩
  rw [exec_restart executing, if_pos rfl, HostLink.answerRestart_eq replies ready waits]

end Sys2Proof.Machine
end

section
/-! SUPPORT. Payloads of another length (R172, R182). -/

namespace Sys2Proof.Machine

/-! ## Parsers of a fixed number of bytes -/

/-- R182: what this parser reads off the front is always k bytes long. -/
def Parser.Takes {α : Type} (p : Parser α) (k : Nat) : Prop := ∀ bs a rest, p bs = some (a, rest) → bs.length = k + rest.length

theorem num_takes (k : Nat) : Parser.Takes (num k) k := fun bs n rest h => by
  obtain ⟨rfl, -⟩ := num_some h
  rw [List.length_append, length_leBytes]

theorem snum_takes (k : Nat) : Parser.Takes (snum k) k := fun bs i rest h => by
  unfold snum at h
  split at h
  · cases h
  · next n r read =>
    obtain ⟨-, rfl⟩ : signedOf k n = i ∧ r = rest := by simpa using h
    exact num_takes k bs n r read

theorem Parser.Takes.both {α β : Type} {p : Parser α} {q : Parser β} {j k : Nat} (hp : Parser.Takes p j)
    (hq : Parser.Takes q k) : Parser.Takes (both p q) (j + k) := fun bs x rest h => by
  unfold Machine.both at h
  split at h
  · cases h
  next a r first =>
  split at h
  · cases h
  next b r' second =>
  obtain ⟨-, rfl⟩ : (a, b) = x ∧ r' = rest := by simpa using h
  rw [hp bs a r first, hq r b r' second, Nat.add_assoc]

theorem Parser.Takes.mapP {α β : Type} {p : Parser α} {k : Nat} (h : Parser.Takes p k) (f : α → β) :
    Parser.Takes (mapP f p) k := fun bs b rest read => by
  unfold Machine.mapP at read
  split at read
  · cases read
  · next a r first =>
    obtain ⟨-, rfl⟩ : f a = b ∧ r = rest := by simpa using read
    exact h bs a r first

theorem Parser.Takes.many {α : Type} {p : Parser α} {k : Nat} (h : Parser.Takes p k) : ∀ n, Parser.Takes (many p n) (n * k)
  | 0 => fun bs as rest read => by
    obtain ⟨-, rfl⟩ : [] = as ∧ bs = rest := by simpa [Machine.many] using read
    rw [Nat.zero_mul, Nat.zero_add]
  | n + 1 => fun bs as rest read => by
    rw [Machine.many] at read
    split at read
    · cases read
    next a r first =>
    split at read
    · cases read
    next more r' others =>
    obtain ⟨-, rfl⟩ : a :: more = as ∧ r' = rest := by simpa using read
    rw [h bs a r first, Parser.Takes.many h n r more r' others, Nat.succ_mul]
    omega

/-- R182: a payload of another length holds no arguments of a fixed length. -/
theorem Parser.Takes.parseAll_none {α : Type} {p : Parser α} {k : Nat} (h : Parser.Takes p k) {bs : List Byte}
    (other : bs.length ≠ k) : parseAll p bs = none := by
  unfold parseAll
  split
  · next a read => exact absurd (h bs a [] read) other
  · rfl

/-- R182: the arguments of the requests of fixed length. -/
theorem parse_none_of_length (bs : List Byte) :
    (bs.length ≠ 7 → parseClock bs = none) ∧ (bs.length ≠ 8 → parsePorts bs = none) ∧ (bs.length ≠ 9 → parseConfig bs = none) ∧
    (bs.length ≠ 1 → parseNumber1 bs = none) ∧ (bs.length ≠ 2 → parseNumber2 bs = none) ∧ (bs.length ≠ 4 → parseSerial bs = none) ∧
    (bs.length ≠ 16 → parseCalibration bs = none) ∧ (bs.length ≠ 6 → parseRun bs = none) ∧
    (bs.length ≠ 4 → parseTotals bs = none) := by
  have one := num_takes 1
  have two := num_takes 2
  have four := num_takes 4
  have record : Parser.Takes calRecord 15 :=
    ((snum_takes 4).both (four.both (two.both (one.both (one.both (one.both two)))))).mapP _
  exact ⟨((two.both (one.both (one.both (one.both (one.both one))))).mapP _).parseAll_none, (one.many 8).parseAll_none,
    ((one.both (one.both (one.both (one.both (one.both (one.both (one.both (one.both one)))))))).mapP _).parseAll_none,
    one.parseAll_none, two.parseAll_none, four.parseAll_none, (one.both record).parseAll_none,
    ((one.both (two.both (two.both one))).mapP _).parseAll_none, ((one.both (two.both one)).mapP _).parseAll_none⟩

/-! ## BAD_ARGUMENT (R172) -/

/-- R172: a request without arguments refuses a payload that is not empty. -/
theorem State.request_noArgs_refused {s : State} {kind : Nat} {payload : List Byte} (h : Executing s kind payload)
    (full : payload ≠ []) (f : State → State × List Byte) : s.request kind (noArgs f) = .next (answered s s [3]) := by
  rw [State.request_executing h]
  unfold noArgs
  rw [if_neg full]
  rfl

/-- R172: a request refuses a payload that does not hold its arguments. -/
theorem State.request_args_refused {α : Type} {s : State} {kind : Nat} {payload : List Byte} {parse : List Byte → Option α}
    (h : Executing s kind payload) (bad : parse payload = none) (f : α → State → State × List Byte) :
    s.request kind (withArgs parse f) = .next (answered s s [3]) := by
  rw [State.request_executing h]
  unfold withArgs
  rw [bad]
  rfl

/-- R155: READ_LAST_PERIOD refuses a payload that is not empty. -/
theorem exec_readLastPeriod_refused {s : State} {payload : List Byte} (h : Executing s 0x51 payload) (full : payload ≠ []) :
    exec .readLastPeriod s = .next (answered s s [3]) := by
  have refused : State.readLastPeriod payload s = (s, some [3]) := if_pos full
  have request := State.request_executing h State.readLastPeriod
  rwa [refused] at request

/-- R169: READ_CALIBRATION refuses a payload that is not one number. -/
theorem exec_readCalibration_refused {s : State} {payload : List Byte} (h : Executing s 0x19 payload)
    (bad : parseNumber1 payload = none) : exec .readCalibration s = .next (answered s s [3]) := by
  have refused : State.readCalibration payload s = (s, some [3]) := by
    unfold State.readCalibration
    rw [bad]
    rfl
  have request := State.request_executing h State.readCalibration
  rwa [refused] at request

/-- Settles O17: each request by what it reads of its payload. -/
theorem requestsRefusePayloadsOfAnotherLength : Obligations.RequestsRefusePayloadsOfAnotherLength := by
  unfold Obligations.RequestsRefusePayloadsOfAnotherLength
  refine ⟨fun c kind s payload listed full executing => ?_, fun c kind length s payload listed other executing => ?_⟩
  · by_cases restart : c = .restart
    · obtain rfl : kind = 0x02 := by simpa [restart] using listed
      rw [restart, exec_restart executing, if_neg full]
    by_cases lastPeriod : c = .readLastPeriod
    · obtain rfl : kind = 0x51 := by simpa [lastPeriod] using listed
      rw [lastPeriod, exec_readLastPeriod_refused executing full]
    simp only [List.mem_cons, Prod.mk.injEq, List.not_mem_nil, or_false, restart, lastPeriod, false_and, false_or] at listed
    rcases listed with row | row | row | row | row | row | row | row | row | row | row | row | row
    all_goals
      obtain ⟨rfl, rfl⟩ := row
      exact State.request_noArgs_refused executing full _
  · obtain ⟨clock, ports, config, number1, number2, serial, calibration, run, totals⟩ := parse_none_of_length payload
    simp only [List.mem_cons, Prod.mk.injEq, List.not_mem_nil, or_false] at listed
    rcases listed with row | row | row | row | row | row | row | row | row | row | row | row | row | row | row | row | row
    all_goals obtain ⟨rfl, rfl, rfl⟩ := row
    · exact State.request_args_refused executing (clock other) _
    · exact State.request_args_refused executing (ports other) _
    · exact State.request_args_refused executing (config other) _
    · exact State.request_args_refused executing (number1 other) _
    · exact State.request_args_refused executing (number1 other) _
    · exact State.request_args_refused executing (calibration other) _
    · exact exec_readCalibration_refused executing (number1 other)
    · exact State.request_args_refused executing (number2 other) _
    · exact State.request_args_refused executing (number1 other) _
    · exact State.request_args_refused executing (serial other) _
    · exact State.request_args_refused executing (number2 other) _
    · exact State.request_args_refused executing (number1 other) _
    · exact State.request_args_refused executing (run other) _
    · exact State.request_args_refused executing (number1 other) _
    · exact State.request_args_refused executing (number1 other) _
    · exact State.request_args_refused executing (number1 other) _
    · exact State.request_args_refused executing (totals other) _

end Sys2Proof.Machine
end

section
/-! SUPPORT. GET_STATUS (R181). -/

namespace Sys2Proof.Machine

/-- R181: six conditions as a number below 64, each at its bit. -/
theorem six_bits : ∀ a b c d e f : Bool,
    let n := a.toNat + 2 * b.toNat + 4 * c.toNat + 8 * d.toNat + 16 * e.toNat + 32 * f.toNat
    n < 64 ∧ n.testBit 0 = a ∧ n.testBit 1 = b ∧ n.testBit 2 = c ∧ n.testBit 3 = d ∧ n.testBit 4 = e ∧ n.testBit 5 = f := by
  decide

/-- R157: some accumulator's image is saturated or damaged. -/
theorem images_marked_iff (images : Option Images) : images.any Images.marked = true ↔ ∃ i, images = some i ∧
    (i.grand.saturated = true ∨ ∃ y ∈ i.accs, y.2.saturated = true ∨ y.2.damaged = true) := by
  simp [Option.any_eq_true, Images.marked]

theorem allPrinters_complete : ∀ p : Printer, p ∈ allPrinters := by decide

/-- Settles O19: the reply item by item, and the summary word bit by bit. -/
theorem getStatusReportsTheSummary : Obligations.GetStatusReportsTheSummary := by
  unfold Obligations.GetStatusReportsTheSummary
  intro s
  obtain ⟨bound, lost, printers, store, log, adoption, marked⟩ := six_bits
    (stations.any fun st => s.ports[st].state == .lost)
    (allPrinters.any fun p => s.printers[p].state == .waiting || s.printers[p].state == .notReady || s.printers[p].state == .lost)
    (s.store.state != .verified) (s.store.log.state != .none) s.price.pending (s.totals.images.any Images.marked)
  refine ⟨fun executing => ?_, bound, ?_, ?_, ?_, ?_, ?_, ?_⟩
  · refine (State.request_noArgs executing _).trans ?_
    rw [okReply_eq]
    unfold State.status clockBytes State.clock
    cases s.link.clock <;> rfl
  · unfold State.summary
    rw [lost]
    simp [stations_complete.2]
  · unfold State.summary
    rw [printers]
    simp [allPrinters_complete, or_assoc]
  · unfold State.summary
    rw [store, bne_iff_ne]
  · unfold State.summary
    rw [log, bne_iff_ne]
  · unfold State.summary
    rw [adoption]
  · unfold State.summary
    rw [marked]
    exact images_marked_iff _

end Sys2Proof.Machine
end

section
/-! SUPPORT. The event flag table and the transmit arbiter (R176, R177, R178). -/

namespace Sys2Proof.Machine

/-! ## The chosen entry (R178) -/

/-- R178: of the entries seen so far none is due, or this one is due, of the highest level, and the first of that level. -/
def IsChosen (flags : Vector FlagEntry 50) (seen : List (Fin 50)) : Option (Fin 50) → Prop
  | none => ∀ n ∈ seen, (flags[n]).due = false
  | some n => n ∈ seen ∧ (flags[n]).due = true ∧ ∀ m ∈ seen, (flags[m]).due = true →
      (flags[m]).level ≤ (flags[n]).level ∧ ((flags[m]).level = (flags[n]).level → n ≤ m)

/-- R178: one more entry seen, later in the table than the others. -/
theorem better_isChosen {flags : Vector FlagEntry 50} {seen : List (Fin 50)} {best : Option (Fin 50)} {n : Fin 50}
    (h : IsChosen flags seen best) (later : ∀ m ∈ seen, m < n) : IsChosen flags (seen ++ [n]) (better flags best n) := by
  have mem : ∀ m, m ∈ seen ++ [n] ↔ m ∈ seen ∨ m = n := fun m => by simp
  unfold better
  split
  · next due =>
    cases best with
    | none =>
      refine ⟨(mem n).2 (.inr rfl), due, fun m hm dueM => ?_⟩
      rcases (mem m).1 hm with old | rfl
      · rw [h m old] at dueM
        cases dueM
      · exact ⟨le_rfl, fun _ => le_rfl⟩
    | some b =>
      obtain ⟨seenB, dueB, highest⟩ := h
      dsimp only
      split
      · next higher =>
        refine ⟨(mem n).2 (.inr rfl), due, fun m hm dueM => ?_⟩
        rcases (mem m).1 hm with old | rfl
        · have below := (highest m old dueM).1
          exact ⟨by omega, fun same => by omega⟩
        · exact ⟨le_rfl, fun _ => le_rfl⟩
      · next notHigher =>
        refine ⟨(mem b).2 (.inl seenB), dueB, fun m hm dueM => ?_⟩
        rcases (mem m).1 hm with old | rfl
        · exact highest m old dueM
        · exact ⟨Nat.not_lt.1 notHigher, fun _ => (later b seenB).le⟩
  · next notDue =>
    have due : (flags[n]).due = false := Bool.eq_false_iff.2 notDue
    cases best with
    | none =>
      intro m hm
      rcases (mem m).1 hm with old | rfl
      · exact h m old
      · exact due
    | some b =>
      obtain ⟨seenB, dueB, highest⟩ := h
      refine ⟨(mem b).2 (.inl seenB), dueB, fun m hm dueM => ?_⟩
      rcases (mem m).1 hm with old | rfl
      · exact highest m old dueM
      · exact absurd dueM notDue

theorem foldl_better_isChosen (flags : Vector FlagEntry 50) (seen : List (Fin 50)) (ascending : seen.Pairwise (· < ·)) :
    IsChosen flags seen (seen.foldl (better flags) none) := by
  induction seen using List.reverseRecOn with
  | nil => exact fun _ found => nomatch found
  | append_singleton seen n ih =>
    obtain ⟨before, -, later⟩ := List.pairwise_append.1 ascending
    rw [List.foldl_append]
    exact better_isChosen (ih before) fun m hm => later m hm n (List.mem_singleton_self n)

/-- R178: the entry chosen of the whole table. -/
theorem chosenEntry_isChosen (flags : Vector FlagEntry 50) : IsChosen flags entries (chosenEntry flags) :=
  foldl_better_isChosen flags entries (List.pairwise_lt_finRange 50)

/-! ## What the line sends (R175, R178) -/

/-- R178: with no reply ready a free line is left to the reports. -/
theorem HostLink.pump_no_reply {l : HostLink} (free : l.sending = none) (waits : ∀ r, l.replies.head? = some r → r.answer = none) :
    l.pump = l.pumpReport := by
  unfold HostLink.pump
  rw [if_neg (by rw [free]; nofun)]
  split
  · rfl
  · next r rest first => rw [waits r (by rw [first, List.head?_cons])]

/-- R178: the reply at the head of the reply order. -/
theorem HostLink.pump_reply {l : HostLink} {r : ReplySlot} {rest : List ReplySlot} {payload : List Byte} (free : l.sending = none)
    (first : l.replies = r :: rest) (ready : r.answer = some payload) :
    l.pump = { l with sending := some (.reply (hostFrame (r.kind + 0x80) payload) r.restart) } := by
  unfold HostLink.pump
  rw [if_neg (by rw [free]; nofun), first]
  dsimp only
  rw [ready]

/-- R178: what is reported is the chosen entry. -/
theorem HostLink.pumpReport_eq {l : HostLink} (running : l.restarting = false) : l.pumpReport = match chosenEntry l.flags with
    | none => l
    | some n => { l with sending := some (.report n (hostFrame 0x80 (reportPayload n l.flags[n])) false) } :=
  if_neg (by rw [running]; nofun)

/-- Settles O12: `pump` by what the line sends and which reply is ready, and a report by the chosen entry. -/
theorem arbiterSendsReplyThenHighestFlag : Obligations.ArbiterSendsReplyThenHighestFlag := by
  unfold Obligations.ArbiterSendsReplyThenHighestFlag
  refine ⟨fun f entry listed => ?_, fun p f first listed => ?_, fun st f first listed => ?_, fun l => ⟨fun busy => if_pos busy,
    fun free restarting waits => (HostLink.pump_no_reply free waits).trans (if_pos restarting),
    fun r rest payload => HostLink.pump_reply, fun free running waits => ?_⟩⟩
  · simp only [List.mem_cons, Prod.mk.injEq, List.not_mem_nil, or_false] at listed
    rcases listed with row | row | row | row | row | row | row | row
    all_goals
      obtain ⟨rfl, rfl⟩ := row
      exact ⟨rfl, rfl⟩
  · simp only [List.mem_cons, Prod.mk.injEq, List.not_mem_nil, or_false] at listed
    rcases listed with row | row | row | row | row
    all_goals
      obtain ⟨rfl, rfl⟩ := row
      revert p
      decide
  · simp only [List.mem_cons, Prod.mk.injEq, List.not_mem_nil, or_false] at listed
    rcases listed with row | row | row | row
    all_goals
      obtain ⟨rfl, rfl⟩ := row
      revert st
      decide
  · rw [HostLink.pump_no_reply free waits, HostLink.pumpReport_eq running]
    have chosen := chosenEntry_isChosen l.flags
    have all : ∀ n : Fin 50, n ∈ entries := List.mem_finRange
    generalize chosenEntry l.flags = best at chosen
    cases best with
    | none => exact ⟨fun _ => rfl, fun ⟨n, due⟩ => absurd due (by rw [chosen n (all n)]; nofun)⟩
    | some n =>
      obtain ⟨-, due, highest⟩ := chosen
      exact ⟨fun none => absurd due (by rw [none n]; nofun), fun _ => ⟨n, due, fun m => highest m (all m), rfl⟩⟩

/-! ## Lists in payloads (R182) -/

/-- Entries read off the front, as many as stand there. -/
theorem many_flatMap {α : Type} {f : α → List Byte} {p : Parser α} : ∀ {xs : List α},
    (∀ x ∈ xs, ∀ rest, p (f x ++ rest) = some (x, rest)) → ∀ rest, many p xs.length (xs.flatMap f ++ rest) = some (xs, rest)
  | [], _, _ => rfl
  | x :: xs, reads, rest => by
    obtain ⟨first, others⟩ := List.forall_mem_cons.1 reads
    rw [List.flatMap_cons, List.append_assoc, List.length_cons, many, first]
    dsimp only
    rw [many_flatMap others]

/-- R182: a whole payload that is a list. -/
theorem parseAll_list {α : Type} {f : α → List Byte} {p : Parser α} {xs : List α} (count : xs.length < 256)
    (reads : ∀ x ∈ xs, ∀ rest, p (f x ++ rest) = some (x, rest)) : parseAll (list p) (encList f xs) = some xs := by
  have entries := many_flatMap reads []
  rw [List.append_nil] at entries
  unfold parseAll list encList u1
  rw [num_leBytes (k := 1) count]
  dsimp only
  rw [entries]

/-- R177: the triples of SET_FLAG_CONTROL. -/
theorem parseFlagControl_encList {cs : List FlagControl} (count : cs.length < 256)
    (fits : ∀ c ∈ cs, c.entry < 256 ∧ c.enable < 256 ∧ c.level < 256) :
    parseFlagControl (encList (fun c => u1 c.entry ++ u1 c.enable ++ u1 c.level) cs) = some cs :=
  parseAll_list count fun c hc rest => by
    obtain ⟨entry, enable, level⟩ := fits c hc
    simp only [mapP, both, u1, List.append_assoc, num_leBytes (k := 1) entry, num_leBytes (k := 1) enable,
      num_leBytes (k := 1) level]

/-- R177: the entry numbers of CLEAR_FLAGS. -/
theorem parseFlagList_encList {ns : List Nat} (count : ns.length < 256) (fits : ∀ n ∈ ns, n < 256) :
    parseFlagList (encList u1 ns) = some ns :=
  parseAll_list count fun n hn => num_leBytes (k := 1) (fits n hn)

/-! ## SET_FLAG_CONTROL (R177) -/

theorem entryOf_eq_some {n : Nat} {i : Fin 50} : entryOf n = some i ↔ n = i.val + 1 := by
  unfold entryOf
  split
  · next range => rw [Option.some_inj, Fin.ext_iff]; dsimp only; omega
  · next range => exact ⟨nofun, fun same => absurd (by omega) range⟩

/-- R177: an entry after one triple. -/
theorem controlFlag_apply (flags : Vector FlagEntry 50) (c : FlagControl) (n : Fin 50) : (controlFlag flags c)[n] =
    if c.entry = n.val + 1 then { flags[n] with enabled := c.enable == 1, level := c.level } else flags[n] := by
  unfold controlFlag
  cases found : entryOf c.entry with
  | none =>
    rw [if_neg]
    intro named
    rw [entryOf_eq_some.2 named] at found
    cases found
  | some i =>
    have number := entryOf_eq_some.1 found
    rw [modAt_apply]
    by_cases same : n = i
    · rw [if_pos same, if_pos (by rw [same, number])]
    · rw [if_neg same, if_neg (by rw [Fin.ext_iff] at same; omega)]

/-- R177: triples change enable and level alone. -/
theorem foldl_controlFlag_kept (n : Fin 50) : ∀ (cs : List FlagControl) (flags : Vector FlagEntry 50),
    ((cs.foldl controlFlag flags)[n]).pending = (flags[n]).pending ∧ ((cs.foldl controlFlag flags)[n]).reported = (flags[n]).reported ∧
    ((cs.foldl controlFlag flags)[n]).body = (flags[n]).body
  | [], _ => ⟨rfl, rfl, rfl⟩
  | c :: cs, flags => by
    obtain ⟨pendingFirst, reportedFirst, bodyFirst⟩ : ((controlFlag flags c)[n]).pending = (flags[n]).pending ∧
        ((controlFlag flags c)[n]).reported = (flags[n]).reported ∧ ((controlFlag flags c)[n]).body = (flags[n]).body := by
      rw [controlFlag_apply]
      split <;> exact ⟨rfl, rfl, rfl⟩
    obtain ⟨pending, reported, body⟩ := foldl_controlFlag_kept n cs (controlFlag flags c)
    exact ⟨pending.trans pendingFirst, reported.trans reportedFirst, body.trans bodyFirst⟩

/-- R177: triples for other entries leave an entry as it is. -/
theorem foldl_controlFlag_other {n : Fin 50} : ∀ {cs : List FlagControl}, (∀ c ∈ cs, c.entry ≠ n.val + 1) →
    ∀ flags : Vector FlagEntry 50, (cs.foldl controlFlag flags)[n] = flags[n]
  | [], _, _ => rfl
  | c :: cs, other, flags => by
    obtain ⟨first, more⟩ := List.forall_mem_cons.1 other
    rw [List.foldl_cons, foldl_controlFlag_other more, controlFlag_apply, if_neg first]

/-- R177: the last triple for an entry stands. -/
theorem foldl_controlFlag_last {n : Fin 50} {c : FlagControl} {after : List FlagControl} (named : c.entry = n.val + 1)
    (last : ∀ x ∈ after, x.entry ≠ n.val + 1) (before : List FlagControl) (flags : Vector FlagEntry 50) :
    (((before ++ c :: after).foldl controlFlag flags)[n]).enabled = (c.enable == 1) ∧
    (((before ++ c :: after).foldl controlFlag flags)[n]).level = c.level := by
  rw [List.foldl_append, List.foldl_cons, foldl_controlFlag_other last, controlFlag_apply, if_pos named]
  exact ⟨rfl, rfl⟩

/-- R177: SET_FLAG_CONTROL by the ranges of its triples. -/
theorem State.setFlagControl_cases (cs : List FlagControl) (s : State) :
    let good := 1 ≤ cs.length ∧ cs.length ≤ 50 ∧ ∀ c ∈ cs, 1 ≤ c.entry ∧ c.entry ≤ 50 ∧ c.enable ≤ 1 ∧ c.level ≤ 3
    (good → State.setFlagControl cs s =
      ({ s with link := { s.link with flags := cs.foldl controlFlag s.link.flags } }, [0])) ∧
    (¬good → State.setFlagControl cs s = (s, [3])) := by
  unfold State.setFlagControl
  simp only [List.all_eq_true, FlagControl.inRange, decide_eq_true_eq]
  exact ⟨fun good => if_pos good, fun bad => if_neg bad⟩

/-! ## CLEAR_FLAGS (R177) -/

/-- R177: the table with the entries of these numbers cleared. -/
def clearedFlags (ns : List Nat) (flags : Vector FlagEntry 50) : Vector FlagEntry 50 :=
  Vector.ofFn fun n => if n.val + 1 ∈ ns then FlagEntry.clear flags[n] else flags[n]

/-- R177: a report of one of these entries is marked. -/
def HostTx.clearedBy (ns : List Nat) : HostTx → HostTx
  | .reply f r => .reply f r
  | .report n f c => .report n f (c || decide (n.val + 1 ∈ ns))

theorem clearedFlags_apply (ns : List Nat) (flags : Vector FlagEntry 50) (n : Fin 50) :
    (clearedFlags ns flags)[n] = if n.val + 1 ∈ ns then FlagEntry.clear flags[n] else flags[n] := Vector.getElem_ofFn n.isLt

/-- Two tables with the same entries are the same. -/
theorem flags_ext {v w : Vector FlagEntry 50} (h : ∀ n : Fin 50, v[n] = w[n]) : v = w := Vector.ext fun i hi => h ⟨i, hi⟩

theorem clearedFlags_nil (flags : Vector FlagEntry 50) : clearedFlags [] flags = flags :=
  flags_ext fun n => by rw [clearedFlags_apply, if_neg List.not_mem_nil]

theorem HostTx.clearedBy_nil (x : HostTx) : x.clearedBy [] = x := by
  cases x with
  | reply f r => rfl
  | report n f c => simp [HostTx.clearedBy]

/-- R177: an entry cleared twice is cleared. -/
theorem clearedFlags_cons (i : Fin 50) (ns : List Nat) (flags : Vector FlagEntry 50) :
    clearedFlags ns (modAt flags i FlagEntry.clear) = clearedFlags ((i.val + 1) :: ns) flags :=
  flags_ext fun n => by
    have twice : (FlagEntry.clear flags[n]).clear = FlagEntry.clear flags[n] := rfl
    rw [clearedFlags_apply, clearedFlags_apply, modAt_apply]
    by_cases same : n = i
    · rw [if_pos same, twice, ite_self, if_pos (by rw [same]; exact List.mem_cons_self)]
    · simp [same, Fin.ext_iff.not.1 same]

theorem HostTx.clearedBy_cons (i : Fin 50) (ns : List Nat) (x : HostTx) :
    (x.clear i).clearedBy ns = x.clearedBy ((i.val + 1) :: ns) := by
  cases x with
  | reply f r => rfl
  | report n f c =>
    have named : decide (n.val + 1 = i.val + 1) = (n == i) := by simp [Fin.ext_iff, beq_eq_decide]
    simp only [HostTx.clear, HostTx.clearedBy, Bool.or_assoc, List.mem_cons, Bool.decide_or, named]

/-- R177: the numbers cleared one after another. -/
theorem HostLink.foldl_clearFlag : ∀ {ns : List Nat}, (∀ n ∈ ns, 1 ≤ n ∧ n ≤ 50) → ∀ l : HostLink,
    ns.foldl HostLink.clearFlag l = { l with flags := clearedFlags ns l.flags, sending := l.sending.map (HostTx.clearedBy ns) }
  | [], _, l => by
    have same : HostTx.clearedBy [] = id := funext HostTx.clearedBy_nil
    rw [clearedFlags_nil, same, Option.map_id]
    rfl
  | n :: ns, range, l => by
    obtain ⟨first, others⟩ := List.forall_mem_cons.1 range
    obtain ⟨i, rfl⟩ : ∃ i : Fin 50, n = i.val + 1 := ⟨⟨n - 1, by omega⟩, by dsimp only; omega⟩
    have one : l.clearFlag (i.val + 1) =
        { l with flags := modAt l.flags i FlagEntry.clear, sending := l.sending.map (HostTx.clear i) } := by
      unfold HostLink.clearFlag
      rw [entryOf_eq_some.2 rfl]
    have both : HostTx.clearedBy ns ∘ HostTx.clear i = HostTx.clearedBy ((i.val + 1) :: ns) := funext (HostTx.clearedBy_cons i ns)
    rw [List.foldl_cons, HostLink.foldl_clearFlag others, one]
    dsimp only
    rw [clearedFlags_cons, Option.map_map, both]

/-- R177: CLEAR_FLAGS by the ranges of its numbers. -/
theorem State.clearFlagList_cases (ns : List Nat) (s : State) :
    let good := 1 ≤ ns.length ∧ ns.length ≤ 50 ∧ ∀ n ∈ ns, 1 ≤ n ∧ n ≤ 50
    (good → State.clearFlagList ns s = ({ s with link := { s.link with
      flags := clearedFlags ns s.link.flags, sending := s.link.sending.map (HostTx.clearedBy ns) } }, [0])) ∧
    (¬good → State.clearFlagList ns s = (s, [3])) := by
  unfold State.clearFlagList State.onLink
  simp only [List.all_eq_true, decide_eq_true_eq]
  refine ⟨fun ⟨low, high, range⟩ => ?_, fun bad => if_neg bad⟩
  rw [if_pos ⟨low, high, range⟩, HostLink.foldl_clearFlag range]
  rfl

/-! ## READ_FLAGS (R177) -/

/-- One of equally long entries found in their concatenation. -/
theorem take_drop_flatMap {α : Type} {f : α → List Byte} {k : Nat} (length : ∀ x, (f x).length = k) :
    ∀ (xs : List α) (i : Nat) (h : i < xs.length), ((xs.flatMap f).drop (k * i)).take k = f xs[i]
  | x :: xs, 0, _ => by
    rw [Nat.mul_zero, List.drop_zero, List.flatMap_cons, List.take_left' (length x)]
    rfl
  | x :: xs, i + 1, h => by
    rw [List.flatMap_cons, Nat.mul_succ, Nat.add_comm, ← List.drop_drop, List.drop_left' (length x),
      take_drop_flatMap length xs i (Nat.lt_of_succ_lt_succ h)]
    rfl

theorem FlagEntry.length_bytes (e : FlagEntry) : e.bytes.length = 4 := rfl

/-- R177: the content of READ_FLAGS. -/
def flagTable (s : State) : List Byte := entries.flatMap fun n => (s.link.flags[n]).bytes

theorem exec_readFlags {s : State} (executing : Executing s 0x07 []) : exec .readFlags s = .next (answered s s (0 :: flagTable s)) := by
  have request : exec .readFlags s = s.request 0x07 (noArgs fun s => (s, okReply (flagTable s))) := rfl
  rw [request, State.request_noArgs executing, okReply_eq]

/-! ## Raising a flag (R176) -/

theorem FlagEntry.due_iff (e : FlagEntry) : e.due = true ↔ e.pending = true ∧ e.enabled = true ∧ e.reported = false := by
  simp [FlagEntry.due, and_assoc]

/-- R176: a flag raised at an entry that is pending, and at one that is not. -/
theorem State.raise_cases (s : State) (f : Flag) (body : List Byte) :
    ((s.link.flags[f.entry]).pending = true → s.raise f body = s) ∧
    ((s.link.flags[f.entry]).pending = false → (s.raise f body).link.flags =
      modAt s.link.flags f.entry fun e => { e with pending := true, reported := false, body := body }) := by
  refine ⟨fun pending => ?_, fun clear => ?_⟩
  · have same : modAt s.link.flags f.entry (·.raise body) = s.link.flags := modAt_unchanged _ _ _ (if_pos pending)
    unfold State.raise State.onLink
    dsimp only
    rw [same]
  · have raised : (s.link.flags[f.entry]).raise body =
        { s.link.flags[f.entry] with pending := true, reported := false, body := body } := if_neg (by rw [clear]; nofun)
    exact modAt_congr (f := fun e : FlagEntry => e.raise body) raised

/-- Settles O20: the two lists by their folds, the table by its entries, and a raise by the entry it finds. -/
theorem flagsAreRaisedAndControlled : Obligations.FlagsAreRaisedAndControlled := by
  unfold Obligations.FlagsAreRaisedAndControlled
  refine ⟨fun s cs low high range executing => ?_, fun s ns low high range executing => ?_,
    fun s cs count fits bad executing => ?_, fun s ns count fits bad executing => ?_, fun s executing => ?_, fun s f body => ?_⟩
  · have parsed := parseFlagControl_encList (cs := cs) (by omega) fun c hc => by
      obtain ⟨-, entry, enable, level⟩ := range c hc
      omega
    refine ⟨cs.foldl controlFlag s.link.flags,
      State.request_args_eq executing parsed ((s.setFlagControl_cases cs).1 ⟨low, high, range⟩),
      fun n => foldl_controlFlag_kept n cs _, fun n other => foldl_controlFlag_other other _, ?_⟩
    rintro n before c after rfl named last
    exact foldl_controlFlag_last named last before _
  · have parsed := parseFlagList_encList (ns := ns) (by omega) fun n hn => by
      have range := range n hn
      omega
    exact ⟨clearedFlags ns s.link.flags, s.link.sending.map (HostTx.clearedBy ns),
      State.request_args_eq executing parsed ((s.clearFlagList_cases ns).1 ⟨low, high, range⟩), clearedFlags_apply ns _,
      congrArg (fun f => s.link.sending.map f) (funext fun x => by cases x <;> rfl)⟩
  · refine State.request_args_eq executing (parseFlagControl_encList count fits) ((s.setFlagControl_cases cs).2 ?_)
    rintro ⟨low, high, range⟩
    rcases bad with rfl | long | ⟨c, hc, out⟩
    · exact absurd low (by decide)
    · omega
    · have range := range c hc
      omega
  · refine State.request_args_eq executing (parseFlagList_encList count fits) ((s.clearFlagList_cases ns).2 ?_)
    rintro ⟨low, high, range⟩
    rcases bad with rfl | long | ⟨n, hn, out⟩
    · exact absurd low (by decide)
    · omega
    · have range := range n hn
      omega
  · refine ⟨flagTable s, exec_readFlags executing, ?_, fun n => ?_⟩
    · simp [flagTable, List.length_flatMap, FlagEntry.length_bytes, entries]
    · have inside : n.val < entries.length := by rw [entries, List.length_finRange]; exact n.isLt
      have own : entries[n.val] = n := List.getElem_finRange _
      unfold flagTable
      rw [take_drop_flatMap (fun _ => FlagEntry.length_bytes _) entries n inside, own]
      rfl
  · obtain ⟨pending, clear⟩ := s.raise_cases f body
    refine ⟨rfl, pending, fun notPending => ?_, FlagEntry.due_iff⟩
    rw [clear notPending]
    exact ⟨modAt_same .., fun n other => modAt_other _ _ _ _ other⟩

end Sys2Proof.Machine
end

section
/-! SUPPORT. Host frames built and read back (R170 to R172, R182). -/

namespace Sys2Proof.Machine

/-- R170: the bytes under the CRC. -/
def hostBody (kind : Nat) (payload : List Byte) : List Byte := u2 (payload.length + 1) ++ u1 kind ++ payload

/-- R170: a host frame byte by byte. -/
theorem hostFrame_eq (kind : Nat) (payload : List Byte) : hostFrame kind payload =
    0xD5 :: BitVec.ofNat 8 (payload.length + 1) :: BitVec.ofNat 8 ((payload.length + 1) / 256) :: BitVec.ofNat 8 kind ::
      (payload ++ u2 (crc (hostBody kind payload)).toNat) := rfl

/-- R182: a 16-bit word is its two bytes, the low byte first. -/
theorem u2_toNat (c : BitVec 16) : u2 c.toNat = [c.extractLsb' 0 8, c.extractLsb' 8 8] := by
  simp only [u2, leBytes, List.cons.injEq, and_true]
  refine ⟨?_, ?_⟩ <;> apply BitVec.eq_of_toNat_eq <;> simp [Nat.shiftRight_eq_div_pow]

/-- The two bytes of a length give it back. -/
theorem leNat_length {n : Nat} (h : n < 65536) : leNat [BitVec.ofNat 8 n, BitVec.ofNat 8 (n / 256)] = n :=
  (leNat_leBytes 2 n).trans (Nat.mod_eq_of_lt h)

/-- The two bytes of a CRC give it back. -/
theorem ofNat_leNat_u2 (c : BitVec 16) : BitVec.ofNat 16 (leNat (u2 c.toNat)) = c := by
  rw [u2, leNat_leBytes]
  apply BitVec.eq_of_toNat_eq
  rw [BitVec.toNat_ofNat]
  omega

/-- Two bytes are the bytes of the word they hold. -/
theorem u2_ofNat_leNat {bs : List Byte} (h : bs.length = 2) : u2 (BitVec.ofNat 16 (leNat bs)).toNat = bs := by
  have fits := leNat_lt bs
  have back := leBytes_leNat bs
  rw [h] at fits back
  rw [BitVec.toNat_ofNat, show 2 ^ 16 = 256 ^ 2 from rfl, Nat.mod_eq_of_lt fits, u2, back]

theorem length_hostFrame (kind : Nat) (payload : List Byte) : (hostFrame kind payload).length = payload.length + 6 := by
  simp [hostFrame_eq, u2]

/-- R171: a host frame is read back. -/
theorem parseHostFrame_hostFrame {kind : Nat} {payload : List Byte} (low : 1 ≤ kind) (high : kind ≤ 0x7F)
    (fits : payload.length ≤ 1029) : parseHostFrame (hostFrame kind payload) = some (kind, payload) := by
  have length := leNat_length (n := payload.length + 1) (by omega)
  have kindByte : (BitVec.ofNat 8 kind).toNat = kind := Nat.mod_eq_of_lt (by omega)
  have front : (BitVec.ofNat 8 kind :: (payload ++ u2 (crc (hostBody kind payload)).toNat)).take (payload.length + 1)
      = BitVec.ofNat 8 kind :: payload := by rw [List.take_succ_cons, List.take_left]
  have back : (BitVec.ofNat 8 kind :: (payload ++ u2 (crc (hostBody kind payload)).toNat)).drop (payload.length + 1)
      = u2 (crc (hostBody kind payload)).toNat := by rw [List.drop_succ_cons, List.drop_left]
  rw [hostFrame_eq]
  unfold parseHostFrame
  dsimp only
  rw [length, front, back, ofNat_leNat_u2, kindByte, Nat.add_sub_cancel, List.take_left, if_pos]
  exact ⟨rfl, Nat.le_add_left .., by omega, by simp [u2], rfl, low, high⟩

/-- R171: a host frame is whole. -/
theorem wholeFrame_hostFrame (kind : Nat) {payload : List Byte} (fits : payload.length ≤ 1029) :
    wholeFrame (hostFrame kind payload) = true := by
  rw [hostFrame_eq]
  unfold wholeFrame
  dsimp only
  rw [leNat_length (by omega), decide_eq_true_eq]
  exact ⟨rfl, Nat.le_add_left .., by omega, by simp [u2]⟩

/-- R171: the receiver takes host frames alone. -/
theorem parseHostFrame_some {frame payload : List Byte} {kind : Nat} (h : parseHostFrame frame = some (kind, payload)) :
    frame = hostFrame kind payload ∧ 1 ≤ kind ∧ kind ≤ 0x7F ∧ payload.length ≤ 1029 := by
  unfold parseHostFrame at h
  split at h
  case h_2 => cases h
  next sync lo hi rest =>
  dsimp only at h
  split at h
  case h_2 => cases h
  next k after =>
  split at h
  case isFalse => cases h
  next checks =>
  obtain ⟨rfl, positive, short, count, check, low, high⟩ := checks
  obtain ⟨rfl, rfl⟩ : k.toNat = kind ∧ after.take (leNat [lo, hi] - 1) = payload := by simpa using h
  obtain ⟨n, length⟩ : ∃ n, leNat [lo, hi] = n + 1 := ⟨leNat [lo, hi] - 1, by omega⟩
  have lengthBytes : [lo, hi] = u2 (n + 1) := by rw [← length]; exact (leBytes_leNat [lo, hi]).symm
  rw [length, List.take_succ_cons, List.drop_succ_cons] at check
  rw [length, List.length_cons] at count
  rw [length, Nat.add_sub_cancel]
  have payloadLength : (after.take n).length = n := by rw [List.length_take]; omega
  have crcLength : (after.drop n).length = 2 := by rw [List.length_drop]; omega
  have kindByte : BitVec.ofNat 8 k.toNat = k := BitVec.ofNat_toNat ..
  have body : hostBody k.toNat (after.take n) = lo :: hi :: k :: after.take n := by
    unfold hostBody u1
    rw [payloadLength, ← lengthBytes, leBytes, leBytes, kindByte]
    rfl
  refine ⟨?_, low, high, by omega⟩
  obtain ⟨rfl, rfl⟩ : lo = BitVec.ofNat 8 (n + 1) ∧ hi = BitVec.ofNat 8 ((n + 1) / 256) := by simpa [u2, leBytes] using lengthBytes
  rw [hostFrame_eq, body, check, u2_ofNat_leNat crcLength, List.take_append_drop, payloadLength, kindByte]

/-! ## A request taken (R172) -/

/-- R172: a frame of a request received. -/
theorem exec_hostFrame {s : State} {kind : Nat} {payload : List Byte} (on : s.powered = true) (low : 1 ≤ kind) (high : kind ≤ 0x7F)
    (fits : payload.length ≤ 1029) :
    exec (.hostFrameReceived (hostFrame kind payload)) s = .next (State.finish { s with link := s.link.take kind payload } s) := by
  rw [exec_hostFrameReceived on (wholeFrame_hostFrame kind fits), HostLink.receive_some (parseHostFrame_hostFrame low high fits)]

/-- R172: a request taken, by the holding list and the BUSY answers. -/
theorem HostLink.take_cases (l : HostLink) (kind : Nat) (payload : List Byte) :
    (l.holding.length < 4 → l.take kind payload = HostLink.beginNext { l with
      holding := l.holding ++ [{ kind := kind, payload := payload, waiting := false }],
      replies := l.replies ++ [{ kind := kind, busy := false, restart := false, answer := none }] }) ∧
    (4 ≤ l.holding.length → (l.replies.countP fun r => r.busy) < 4 → l.take kind payload = { l with
      replies := l.replies ++ [{ kind := kind, busy := true, restart := false, answer := some [4] }] }) ∧
    (4 ≤ l.holding.length → 4 ≤ (l.replies.countP fun r => r.busy) → l.take kind payload = l.countError) := by
  have full : 4 ≤ l.holding.length → ¬l.holding.length < Config.holdingMax := Nat.not_lt.2
  unfold HostLink.take
  refine ⟨fun room => if_pos room, fun held room => ?_, fun held busy => ?_⟩
  · rw [if_neg (full held)]
    exact if_pos room
  · rw [if_neg (full held)]
    exact if_neg (Nat.not_lt.2 busy)

/-- Settles O9: the frame is taken, and `take` looks at the holding list and then at the BUSY answers. -/
theorem hostRequestIsHeldOrRefusedBusy : Obligations.HostRequestIsHeldOrRefusedBusy := by
  unfold Obligations.HostRequestIsHeldOrRefusedBusy
  intro s kind payload on low high fits
  obtain ⟨joins, refused, discarded⟩ := s.link.take_cases kind payload
  rw [exec_hostFrame on low high fits]
  refine ⟨fun room busy => ?_, fun empty idle running => ?_, fun full room => ?_, fun full busy => ?_⟩
  · have held := (joins room).trans (HostLink.beginNext_busy busy)
    rw [held]
  · have begun := (joins (by rw [empty]; decide)).trans (HostLink.beginNext_idle idle running)
    rw [begun]
    dsimp only
    rw [empty]
    rfl
  · rw [refused full room]
  · rw [discarded full busy]
    rfl

end Sys2Proof.Machine
end

section
/-! SUPPORT. PLU payloads and the frames of the peripheral lines (R2, R41, R92, R123, R182, and the tables of 1.2, 1.5, 5.4, 7.3). -/

namespace Sys2Proof.Machine

/-! ## STAGE_PLU (R41) -/

/-- R41, R182: the fields of a version as a STAGE_PLU payload carries them. -/
def PluVersion.args (v : PluVersion) : PluArgs :=
  { number := v.number, name := v.name, mode := v.mode.code, unitPrice := v.unitPrice, markdown := v.markdown, step := v.step,
    presetTare := v.presetTare, department := v.department, labelFormat := v.labelFormat, shelfLife := v.shelfLife,
    extraText := v.extraText, zeroAllowed := v.zeroAllowed.toNat }

theorem printable_iff (t : Text) : printable t = true ↔ ∀ b ∈ t, 0x20 ≤ b.toNat ∧ b.toNat ≤ 0xFE := by
  simp [printable]

theorem pluModeOf_code (m : PluMode) : pluModeOf m.code = some m := by cases m <;> rfl

theorem boolOf_toNat (b : Bool) : boolOf b.toNat = some b := by cases b <;> rfl

/-- R182: the bytes of a version in range give its fields. -/
theorem parsePlu_bytes {v : PluVersion} (h : v.inRange) : parsePlu v.bytes = some v.args := by
  obtain ⟨-, number, -, name, -, price, markdown, step, tare, -, department, format, shelfLife, extra⟩ := h
  have mode : v.mode.code < 256 ^ 1 := by cases v.mode <;> decide
  have flag : num 1 (encBool v.zeroAllowed) = some (v.zeroAllowed.toNat, []) := num_encBool v.zeroAllowed []
  have days : ∀ rest, opt (num 2) (encOpt (leBytes 2) v.shelfLife ++ rest) = some (v.shelfLife, rest) :=
    opt_encOpt fun d rest set => num_leBytes (k := 2) (by have := shelfLife d set; omega) rest
  have text : ∀ rest, opt text (encOpt encText v.extraText ++ rest) = some (v.extraText, rest) :=
    opt_encOpt fun t rest set => text_encText (by have := (extra t set).2.1; omega) rest
  have bytes2 : u2 = leBytes 2 := rfl
  simp only [parsePlu, PluVersion.bytes, parseAll, mapP, both, List.append_assoc, bytes2, u1, u4,
    num_leBytes (k := 2) (n := v.number) (by omega), text_encText (t := v.name) (by omega), num_leBytes (k := 1) mode,
    num_leBytes (k := 4) (n := v.unitPrice) (by omega), num_leBytes (k := 1) (n := v.markdown) (by omega),
    num_leBytes (k := 1) (n := v.step) (by omega), num_leBytes (k := 2) (n := v.presetTare) (by omega),
    num_leBytes (k := 1) (n := v.department) (by omega), num_leBytes (k := 1) (n := v.labelFormat) (by omega), days, text, flag]
  rfl

/-- R41: fields in range make the version again, its generation empty. -/
theorem PluVersion.version_args {v : PluVersion} (h : v.inRange) : v.args.version = some { v with generation := 0 } := by
  obtain ⟨low, number, short, name, characters, price, markdown, step, tare, first, department, format, shelfLife, extra⟩ := h
  have range : v.args.inRange = true := by
    simp only [PluArgs.inRange, PluVersion.args, Bool.and_eq_true, decide_eq_true_eq, printable_iff, Option.all_eq_true]
    refine ⟨⟨⟨decide_eq_true ?_, characters⟩, shelfLife⟩, fun t set => ?_⟩
    · exact ⟨low, number, short, name, price, markdown, step, tare, first, department, format⟩
    · obtain ⟨nonempty, few, printed⟩ := extra t set
      exact ⟨⟨nonempty, few⟩, printed⟩
  have mode : pluModeOf v.args.mode = some v.mode := pluModeOf_code v.mode
  have zero : boolOf v.args.zeroAllowed = some v.zeroAllowed := boolOf_toNat v.zeroAllowed
  unfold PluArgs.version
  rw [mode, zero]
  exact if_pos range

/-! ## Frames the part sends (1.2, 5.4, 7.3) -/

/-- R182: three bytes of a number. -/
theorem leBytes_three (n : Nat) : leBytes 3 n = [BitVec.ofNat 8 n, BitVec.ofNat 8 (n / 256), BitVec.ofNat 8 (n / 65536)] := by
  simp only [leBytes, Nat.div_div_eq_div_mul]

/-- 1.2: the weight code and the weight. -/
theorem WeightField.bytes_eq (w : WeightField) : w.bytes = match w with
    | .value g => 0 :: leBytes 3 (g % 16777216).toNat
    | .dashes => [1, 0, 0, 0]
    | .over => [2, 0, 0, 0]
    | .under => [3, 0, 0, 0]
    | .blank => [4, 0, 0, 0] := by
  cases w <;> rfl

theorem WeightField.length_bytes (w : WeightField) : w.bytes.length = 4 := by cases w <;> rfl

/-- 1.2: the price code and the price. -/
theorem PriceField.bytes_eq (p : PriceField) : p.bytes = match p with
    | .value p => 0 :: leBytes 3 p
    | .dashes => [1, 0, 0, 0]
    | .blank => [2, 0, 0, 0] := by
  cases p <;> rfl

theorem PriceField.length_bytes (p : PriceField) : p.bytes.length = 4 := by cases p <;> rfl

/-- 1.2: an absent unit price is three bytes of 0xFF. -/
theorem unitPrice_bytes (p : Option Nat) : leBytes 3 (p.getD 0xFFFFFF) = match p with
    | none => [0xFF, 0xFF, 0xFF]
    | some p => leBytes 3 p := by
  cases p <;> rfl

/-- 1.2: the payload of a DISPLAY, its last four bytes together. -/
theorem displayPayload_eq (image : DisplayImage) (beep : Bool) : displayPayload image beep =
    image.weight.bytes ++ leBytes 3 (image.unitPrice.getD 0xFFFFFF) ++ image.price.bytes ++ image.name
      ++ List.replicate (24 - image.name.length) 0
      ++ [BitVec.ofNat 8 (image.clerk.getD 0), BitVec.ofNat 8 (image.ticket.getD 0), BitVec.ofNat 8 image.message.code,
        if beep then 1 else 0] := by
  simp only [displayPayload, List.append_assoc]
  rfl

/-- 1.2: the payload of a DISPLAY has 39 bytes. -/
theorem length_displayPayload {image : DisplayImage} (h : image.name.length ≤ 24) (beep : Bool) :
    (displayPayload image beep).length = 39 := by
  simp only [displayPayload, List.length_append, WeightField.length_bytes, PriceField.length_bytes, length_leBytes, u1, encBool,
    List.length_replicate, List.length_singleton]
  omega

theorem length_framed (kind : Byte) (payload : List Byte) : (framed kind payload).length = payload.length + 4 := by
  simp [framed]

/-- 5.4: the entries of a SIGN. -/
theorem length_flatMap_encCallSign (signs : List CallSign) : (signs.flatMap encCallSign).length = 3 * signs.length := by
  have three : ∀ c : CallSign, (encCallSign c).length = 3 := fun _ => rfl
  simp [List.length_flatMap, three, Nat.mul_comm]

/-- 1.2: the frames to a scale head. -/
theorem HeadFrame.bytes_eq :
    (∀ (serial : BitVec 32) (st : Station), (HeadFrame.accept serial st).bytes = framed 0x90
      ([serial.extractLsb' 0 8, serial.extractLsb' 8 8, serial.extractLsb' 16 8, serial.extractLsb' 24 8] ++
        [BitVec.ofNat 8 (st.val + 1)])) ∧
    ∀ (image : DisplayImage) (beep : Bool), (HeadFrame.display image beep).bytes = framed 0x91 (displayPayload image beep) :=
  ⟨fun serial _ => by rw [HeadFrame.bytes, encSerial_eq]; exact peripheralFrame_eq .., fun _ _ => peripheralFrame_eq ..⟩

/-- 5.4: the frames on the queue line. -/
theorem QueueFrame.bytes_eq :
    (∀ serial : BitVec 32, (QueueFrame.accept serial).bytes = framed 0xB0
      [serial.extractLsb' 0 8, serial.extractLsb' 8 8, serial.extractLsb' 16 8, serial.extractLsb' 24 8]) ∧
    (∀ (press : Byte) (ticket : Nat), (QueueFrame.issue press ticket).bytes = framed 0xB1 [press, BitVec.ofNat 8 ticket]) ∧
    (∀ press : Byte, (QueueFrame.refuse press).bytes = framed 0xB2 [press]) ∧
    ∀ signs : List CallSign, (QueueFrame.sign signs).bytes =
      framed 0xB3 (signs.flatMap encCallSign ++ List.replicate (12 - 3 * signs.length) 0) :=
  ⟨fun serial => by rw [QueueFrame.bytes, encSerial_eq]; exact peripheralFrame_eq .., fun _ _ => peripheralFrame_eq ..,
    fun _ => peripheralFrame_eq .., fun _ => peripheralFrame_eq ..⟩

/-- 5.4: a SIGN has 16 bytes. -/
theorem QueueFrame.length_sign {signs : List CallSign} (h : signs.length ≤ 4) : (QueueFrame.sign signs).bytes.length = 16 := by
  obtain ⟨-, -, -, sign⟩ := QueueFrame.bytes_eq
  rw [sign, length_framed, List.length_append, length_flatMap_encCallSign, List.length_replicate]
  omega

/-- 7.3: the frames to a printer. -/
theorem PrinterFrame.bytes_eq :
    (∀ (serial : BitVec 32) (p : Printer), (PrinterFrame.accept serial p).bytes = framed 0xC0
      ([serial.extractLsb' 0 8, serial.extractLsb' 8 8, serial.extractLsb' 16 8, serial.extractLsb' 24 8] ++
        [BitVec.ofNat 8 (p.val + 1)])) ∧
    (∀ (job format : Nat) (cls : LabelClass), (PrinterFrame.labelBegin job format cls).bytes =
      framed 0xC1 (u2 job ++ u1 format ++ u1 cls.lineCode)) ∧
    (∀ job : Nat, (PrinterFrame.labelEnd job).bytes = framed 0xC3 (u2 job)) ∧
    ∀ (ident : Nat) (value : Text), (PrinterFrame.field ident value).bytes = framed 0xC2 (BitVec.ofNat 8 ident :: value) :=
  ⟨fun serial _ => by rw [PrinterFrame.bytes, encSerial_eq]; exact peripheralFrame_eq .., fun _ _ _ => peripheralFrame_eq ..,
    fun _ => peripheralFrame_eq .., fun _ _ => peripheralFrame_eq ..⟩

/-! ## Frames the part takes (R2, R92, R123) -/

/-- 1.2, 5.4, 7.3: the frames of each line, a kind as its byte, with the payloads that R123 lets through. -/
def LineTakes (line : PeripheralLine) (kind : Byte) (payload : List Byte) : Prop :=
  match line with
  | .head _ => (kind, payload.length) ∈ [((0x10 : Byte), 5), (0x11, 4), (0x12, 3), (0x13, 1)]
  | .queue => (kind, payload.length) ∈ [((0x20 : Byte), 5), (0x21, 1), (0x22, 1)]
  | .printer _ => (kind, payload.length) ∈ [((0x30 : Byte), 5), (0x31, 1), (0x32, 2), (0x33, 3)] ∧
      (kind = 0x31 → ∃ c, payload = [c] ∧ c.toNat ≤ 2) ∧
      (kind = 0x33 → ∃ x y c, payload = [x, y, c] ∧ 1 ≤ c.toNat ∧ c.toNat ≤ 4)

/-- R123: of a printer's frames a STATE has a condition of 0 to 2 and a FAULT a cause of 1 to 4. -/
theorem payloadOk_printer {p : Printer} {kind : Byte} {payload : List Byte}
    (listed : (kind, payload.length) ∈ [((0x30 : Byte), 5), (0x31, 1), (0x32, 2), (0x33, 3)]) :
    payloadOk (.printer p) kind.toNat payload = true ↔
      (kind = 0x31 → ∃ c, payload = [c] ∧ c.toNat ≤ 2) ∧
      (kind = 0x33 → ∃ x y c, payload = [x, y, c] ∧ 1 ≤ c.toNat ∧ c.toNat ≤ 4) := by
  simp only [List.mem_cons, Prod.mk.injEq, List.not_mem_nil, or_false] at listed
  rcases listed with ⟨rfl, length⟩ | ⟨rfl, length⟩ | ⟨rfl, length⟩ | ⟨rfl, length⟩
  · match payload, length with
    | [_, _, _, _, _], _ => exact ⟨fun _ => ⟨nofun, nofun⟩, fun _ => rfl⟩
  · obtain ⟨c, rfl⟩ := List.length_eq_one_iff.1 length
    simp [payloadOk]
  · obtain ⟨x, y, rfl⟩ := List.length_eq_two.1 length
    exact ⟨fun _ => ⟨nofun, nofun⟩, fun _ => rfl⟩
  · obtain ⟨x, y, c, rfl⟩ := List.length_eq_three.1 length
    simp [payloadOk]

/-- R2, R92, R123: what a line's receiver lets through. -/
theorem lineTakes_iff (line : PeripheralLine) (kind : Byte) (payload : List Byte) : LineTakes line kind payload ↔
    payload.length ≤ 60 ∧ (kind.toNat, payload.length) ∈ lineKinds line ∧ payloadOk line kind.toNat payload = true := by
  have short : (kind.toNat, payload.length) ∈ lineKinds line → payload.length ≤ 60 := by
    cases line <;> simp only [lineKinds, List.mem_cons, Prod.mk.injEq, List.not_mem_nil, or_false] <;> omega
  suffices same : LineTakes line kind payload ↔
      (kind.toNat, payload.length) ∈ lineKinds line ∧ payloadOk line kind.toNat payload = true from
    same.trans ⟨fun h => ⟨short h.1, h⟩, And.right⟩
  cases line with
  | head st =>
    have ok : payloadOk (.head st) kind.toNat payload = true := rfl
    simp [LineTakes, lineKinds, ok, ← BitVec.toNat_inj]
  | queue =>
    have ok : payloadOk .queue kind.toNat payload = true := rfl
    simp [LineTakes, lineKinds, ok, ← BitVec.toNat_inj]
  | printer p =>
    have kinds : (kind.toNat, payload.length) ∈ lineKinds (.printer p) ↔
        (kind, payload.length) ∈ [((0x30 : Byte), 5), (0x31, 1), (0x32, 2), (0x33, 3)] := by
      simp [lineKinds, ← BitVec.toNat_inj]
    rw [kinds]
    exact and_congr_right fun listed => (payloadOk_printer listed).symm

/-- Settles O8: frames to the host and from it by `hostFrame_eq`, PLU payloads by their fields, peripheral frames by `framed`. -/
theorem hostFramesAndPluPayloadsReadBack : Obligations.HostFramesAndPluPayloadsReadBack := by
  unfold Obligations.HostFramesAndPluPayloadsReadBack
  intro bitsOf register
  refine ⟨fun kind payload => ?_, fun kind payload low high fits =>
    ⟨parseHostFrame_hostFrame low high fits, wholeFrame_hostFrame kind fits⟩, fun _ _ _ => parseHostFrame_some, fun v h => ?_, ?_⟩
  · have body : crc (hostBody kind payload) = register (hostBody kind payload) := crc_eq _
    rw [hostFrame_eq, u2_toNat, body]
    rfl
  · rw [parsePlu_bytes h]
    exact PluVersion.version_args h
  obtain ⟨headAccept, display⟩ := HeadFrame.bytes_eq
  obtain ⟨queueAccept, issue, refuse, sign⟩ := QueueFrame.bytes_eq
  obtain ⟨printerAccept, labelBegin, labelEnd, field⟩ := PrinterFrame.bytes_eq
  refine ⟨headAccept, fun image beep => ⟨?_, fun name => ?_⟩, rfl, queueAccept,
    fun press ticket => ⟨issue press ticket, refuse press⟩, fun signs few => ⟨sign signs, QueueFrame.length_sign few⟩,
    printerAccept, fun job format cls => ⟨?_, labelEnd job⟩, field, fun line frame => ?_⟩
  · rw [display, displayPayload_eq, WeightField.bytes_eq, PriceField.bytes_eq, unitPrice_bytes]
    simp only [leBytes_three]
    rfl
  · rw [display, length_framed, length_displayPayload name]
  · rw [labelBegin]
    cases cls <;> rfl
  · refine (frameTaken_iff line frame).trans (exists_congr fun kind => exists_congr fun payload => and_congr_right fun _ => ?_)
    exact (lineTakes_iff line kind payload).symm

end Sys2Proof.Machine
end
